-- ==== Sys2Proof/Word.lean ====
section
/-! DEFINITION. The word types of the Asward Q8 (00_scope.md R3, R4): bytes, 64-bit words, and the field types of an
instruction's operands (04_lines.md R94-R102). -/

namespace Sys2Proof

/-- One byte. -/
abbrev Byte := BitVec 8

/-- A word: 64 bits (R3). -/
abbrev Word := BitVec 64

/-- A register specifier an instruction may name (R31). The tile specifiers and the literal marker are no values of
this type: the decoder reads them into `Tile` and `OpB`. -/
inductive Reg
  | g (n : BitVec 7)
  | h (n : BitVec 3)
  | z0
  | z1
  | nul
  | rel (n : BitVec 4)
  | mb (n : BitVec 3)
  deriving DecidableEq, Repr

/-- An accumulator tile a0-a3 (R31, R185). -/
abbrev Tile := BitVec 2

/-- The operand B of a data-class instruction: a register (T = 1), a 32-bit literal that is sign-extended (T = 2) or a
64-bit literal (T = 3) (R102, R128). -/
inductive OpB
  | reg (r : Reg)
  | lit32 (v : BitVec 32)
  | lit64 (v : BitVec 64)
  deriving DecidableEq, Repr

/-- A memory operand: base and index registers (T = 1), or base and displacement (T = 2) (R117, R158). -/
inductive MemOp
  | idx (base index : Reg)
  | disp (base : Reg) (d : BitVec 32)
  deriving DecidableEq, Repr

/-- The target of `fork`: an absolute address in a register (T = 1), or a displacement (T = 2) (R147). -/
inductive ForkTarget
  | reg (r : Reg)
  | disp (d : BitVec 32)
  deriving DecidableEq, Repr

/-- The access width of `ld` and `st`, m[1:0] (R122). -/
inductive Width
  | d
  | b
  | h
  | w
  deriving DecidableEq, Repr

/-- A format code of R67, four bits. -/
abbrev Fmt := BitVec 4

end Sys2Proof
end

