-- ==== Sys2Proof/Config.lean ====
section
/-! DEFINITION. What one device fixes, and the free values: what the manual leaves open. Each is a constant without a
body, so nothing in Lean can evaluate it and a statement about it holds whatever it is. -/

namespace Sys2Proof.Config

/-- Which of the moves that are possible comes next, by the number of choices taken so far (R55, R268, R271, R274:
no order is promised). DESIGN CHOICE (log 3). -/
opaque pick : Nat → Nat

/-- Every choice after this many goes to the step that has waited longest (R273: what is sent performs in finite time;
how long it takes is not stated). DESIGN CHOICE (log 3). -/
opaque patience : Nat

/-- Whether another party has written a word outside the module since it was last seen from here (R268, R275, R277).
DESIGN CHOICE (log 4). -/
opaque outsideWrote : Nat → Bool

/-- The words a saved context is written as, whose layout the manual does not give (R336). DESIGN CHOICE (log 40). -/
opaque contextImage : Nat → List Word

/-- A word read from memory of another module or of the host, which are other parties (R275, R277). DESIGN CHOICE (log 4). -/
opaque outsideWord : Nat → Word

/-- Whether an access at another module finds what it needs: its permission, and for a synchronising access its
full/empty state (R162, R275). DESIGN CHOICE (log 4). -/
opaque outsideOk : Nat → Bool

/-- Whether a hub's request queue has room for a `sysc` (R239: its length is not stated). DESIGN CHOICE (log 5). -/
opaque hubHasRoom : Nat → Bool

/-- The entry of the core runtime, where slot 0 of every core starts (R387). DESIGN CHOICE (log 8). -/
opaque runtimeEntry : Word

/-- The hardware queue slot whose tables translate slot 0's device-memory accesses (not stated; R362). DESIGN CHOICE (log 8). -/
opaque slot0Queue : BitVec 6

/-- SHA-384 of a byte string (R384, R388). DESIGN CHOICE (log 9). -/
opaque sha384 : List Byte → BitVec 384

/-- Whether an ECDSA P-384 signature of a header verifies under the fused keys (R384). DESIGN CHOICE (log 9). -/
opaque ecdsaOk : List Byte → List Byte → Bool

/-- Whether an LMS signature of a header verifies under the fused keys (R384). DESIGN CHOICE (log 9). -/
opaque lmsOk : List Byte → List Byte → Bool

/-- HKDF-SHA-384 of a secret and its context (R388). DESIGN CHOICE (log 9). -/
opaque hkdf : List Byte → List Byte → List Byte

/-- The fused 256-bit secret of the device (R388). DESIGN CHOICE (log 9). -/
opaque fusedSecret : List Byte

/-- The certificate that the root key issues for an identity key (R388). DESIGN CHOICE (log 9). -/
opaque certificate : List Byte → List Byte

/-- An ECDSA P-384 signature of a text under a key (R388). DESIGN CHOICE (log 9). -/
opaque sign : List Byte → List Byte → List Byte

/-- Whether `0 x infinity + quiet NaN` sets NV: IEEE 754, which R202 follows, leaves it to the implementation.
DESIGN CHOICE (log 10). -/
opaque fmaInvalid : Bool

/-- The result a rounding leaves where no rule states one (a value the manual does not state). DESIGN CHOICE (log 10). -/
opaque unstated : Nat → Word

/-- The hub cycles of a control window of a number of milliseconds: the hubs' clock is not stated (R399).
DESIGN CHOICE (log 46). -/
opaque windowCycles : Nat → Nat

/-- The Colonnade number of this module (not stated; R380). DESIGN CHOICE (log 4). -/
opaque moduleNumber : Nat

end Sys2Proof.Config
end

