-- ==== Sys2Proof/Machine/Types.lean ====
section
/-! DEFINITION. The data that travels between the units of the module: requests, replies, messages, context packets,
tasks, engine commands, trap records. Each is plain data; the steps that carry them are constructors of `Instr`. -/

namespace Sys2Proof

/-- Where a thread's result is written, resolved when the instruction reads its registers (R31, R32): a register of the
main register file by its number there, an operand-file or message-build register, or nothing. -/
inductive Dst
  | nul
  | g (i : Nat)
  | h (n : BitVec 3)
  | mb (n : BitVec 3)
  deriving DecidableEq, Repr

/-- The home of an access (R159). `ls` is a byte offset of a physical core's local store, `dev` a device-physical
address, `remote` a device-physical address of another module, `host` a host address. -/
inductive Home
  | ls (core off : Nat)
  | dev (pa : Nat)
  | remote (mod pa : Nat)
  | host (ha : Nat)
  deriving DecidableEq, Repr

/-- The functions of the atomics (R169). -/
inductive AtomicFn
  | add | and | or | xor | min | max | minu | maxu | swp | cas
  deriving DecidableEq, Repr

/-- The functions of the reductions (R170). -/
inductive RedFn
  | add | and | or | max | min | fadd
  deriving DecidableEq, Repr

/-- The agents other than threads whose accesses perform as steps of their own (R225, R263, R268, R321, R359): a core's
walker, a line fill, the unit that executes a stack's command, the engines that execute a collective, a copy engine, a
contraction path, the HQS for a queue, a core's deque spill and its read-back, an arrival command; the HQS for a cancel of
its own and a core for one that it sends onward; and, for HCMD, the writing of a saved context's image and of the far-window
entries of a logical core. -/
inductive Agent
  | walker (core : Nat)
  | line (core : Nat) (hq : BitVec 6) (addr : Word)
  | stack (k : Nat)
  | coll (die grp tag : Nat)
  | copy (core : Nat)
  | cld (core : Nat) (t : Tile)
  | hqs (q : BitVec 6)
  | spill (core : Nat)
  | back (core : Nat)
  | arrivals (core : Nat)
  | cancel (lcore off : Nat) (hq : BitVec 6)
  | onward (core : Nat)
  | image (core : Nat) (draw : Nat) (addr : Nat)
  | far (core lcore dest : Nat)
  deriving DecidableEq, Repr

/-- Which access of an agent a request is: the part of its work, a position in that part, and the byte offset of the piece. -/
structure AccKey where
  tag : Nat
  idx : Nat
  off : Nat
  deriving DecidableEq, Repr

/-- What a request does at its home. -/
inductive AccOp
  | load (wd : Width) (u : Bool)
  | store (wd : Width)
  | ldf | lde | stf | stn | clre | fes
  | atomic (f : AtomicFn)
  | red (f : RedFn)
  | stg
  | dec | cancel
  | sector (bytes : List Byte)
  | copyRead (j : Nat)
  | copyWrite (j : Nat)
  | cldData (t : Tile) (sector : Nat)
  | cldScale (t : Tile) (sector : Nat)
  /-- an agent reads `n` bytes, or writes bytes -/
  | agentRead (a : Agent) (k : AccKey) (n : Nat)
  | agentWrite (a : Agent) (k : AccKey) (bytes : List Byte)
  /-- an agent's completion store (R161, R181, R225, R328) -/
  | complete (a : Agent) (status : Word)
  deriving DecidableEq, Repr

/-- The classes of access (R45-R48). -/
inductive AccClass
  | plain | relaxed | sync | engine
  deriving DecidableEq, Repr

/-- A request on its way to a home, or held for another attempt (R47, R50, R159, R162). -/
structure Request where
  /-- issuing physical core -/
  core : Nat
  slot : Nat
  hq : BitVec 6
  /-- sequence number drawn from s.seq (R50, R342) -/
  seq : BitVec 16
  cls : AccClass
  op : AccOp
  home : Home
  /-- the effective address and the PC of the instruction, for the trap record (R240) -/
  va : Word
  pc : Word
  data : Word
  /-- the value `amcas` expects (R169) -/
  expected : Word
  dst : Dst
  /-- holds a unit of s.sa (R49) -/
  unit : Bool
  /-- attempts already failed (R47), and the cycle in which the last attempt was sent -/
  attempts : Nat
  sent : Nat
  /-- the cycle in which its address was translated (R363) -/
  issued : Nat
  deriving DecidableEq, Repr

/-- The context packet of a traveller (R179). -/
structure Packet where
  pc : Word
  hq : BitVec 6
  round : BitVec 3
  srs : BitVec 32
  g : List Word
  fel : Word
  left : Nat
  deriving DecidableEq, Repr

/-- A message of `send` (R174, R175): the sender, the mailbox at a physical core's offset, and mb0-mb7. -/
structure Message where
  core : Nat
  slot : Nat
  lcore : Nat
  hq : BitVec 6
  toCore : Nat
  toOff : Nat
  data : List Word
  /-- its number among the thread's remote requests (R50, R342) -/
  seq : BitVec 16
  /-- the cycle in which the mailbox's address was translated (R363) -/
  issued : Nat
  deriving DecidableEq, Repr

/-- A request of `sysc` to a hub (R239). -/
structure SyscMsg where
  core : Nat
  slot : Nat
  lcore : Nat
  hq : BitVec 6
  words : List Word
  deriving DecidableEq, Repr

/-- What a network interface offers again every 64 cycles (R176, R239, R376), from a cycle of its core on. -/
inductive Offer
  | mail (m : Message) (from_ : Nat)
  | ctx (src dest : Nat) (p : Packet) (from_ : Nat)
  | sysc (hub : Nat) (m : SyscMsg) (from_ : Nat)
  deriving DecidableEq, Repr

/-- A deque entry: the descriptor of R140 and the side field of R141. -/
structure TaskEntry where
  hasRec : Bool
  rw : BitVec 14
  pc : BitVec 48
  a0 : Word
  a1 : Word
  a2 : Word
  rc : BitVec 13
  hq : BitVec 6
  deriving DecidableEq, Repr

/-- What a translation is looked up by: a page of the device-memory region in a queue's tables, or one of the two
far-window pages of a logical core (R357, R361, R362). -/
inductive PageKey
  | dev (hq : BitVec 6) (vpn : Nat)
  | far (lcore half : Nat)
  deriving DecidableEq, Repr

/-- The target of a valid leaf (R358, R361). -/
inductive Mapping
  | dev (pa : Nat)
  | frame (lcore frame : Nat)
  | remote (mod pa : Nat)
  | host (ha : Nat)
  | store (pcore half : Nat)
  deriving DecidableEq, Repr

/-- A translation-buffer entry (R362). `big` marks a 32 MiB page. -/
structure TlbEntry where
  key : PageKey
  big : Bool
  map : Mapping
  r : Bool
  w : Bool
  x : Bool
  deriving DecidableEq, Repr

/-- A trap record (R240), field by field. -/
structure Record where
  sect : BitVec 6
  tile : BitVec 2
  mods : BitVec 2
  hq : BitVec 6
  late : Bool
  held : Bool
  slot : BitVec 4
  detail : BitVec 8
  seq : BitVec 16
  joined : BitVec 8
  /-- SEQ names a 0x09 already (R341) -/
  seqSet : Bool
  cause : BitVec 8
  spc : Word
  fpc : Word
  addr : Word
  a : Word
  b : Word
  d : Word
  s : Word
  deriving DecidableEq, Repr

/-- A task entry of a launch (R327): the deque entry, the logical core, and the pinned slot with its window (0 for none). -/
structure LaunchEntry where
  task : TaskEntry
  core : Nat
  slot : Nat
  win : Nat
  deriving DecidableEq, Repr

/-- The collective operations (R231). -/
inductive CollOp
  | sum | topk | bcast | gather
  deriving DecidableEq, Repr

/-- The engines reached by a command block (R224). -/
inductive EngineOp
  | klu | kbwd | gat
  | coll (o : CollOp)
  deriving DecidableEq, Repr

/-- An engine command, with the eight words of its block (R224), the home of its completion word, and the cycle in which that
was translated. -/
structure EngineCmd where
  op : EngineOp
  core : Nat
  slot : Nat
  hq : BitVec 6
  block : List Word
  comp : Home
  issued : Nat
  deriving DecidableEq, Repr

/-- What a step of an engine's queue is about (R224, R295): the parked thread of a slot, whose command may leave, or a
command on its way, which reaches the queue. -/
inductive QueueStep
  | leaves (slot : Nat)
  | reaches (cmd : EngineCmd)
  deriving DecidableEq, Repr

/-- A command of the copy engine (R180, R181), with the home of its completion word and the cycle in which that was
translated. -/
structure CopyCmd where
  slot : Nat
  hq : BitVec 6
  dst : Word
  src : Word
  len : Nat
  comp : Home
  issued : Nat
  /-- a freeze has met it before it started (R335) -/
  cancelled : Bool
  deriving DecidableEq, Repr

/-- A completion store an engine is about to make (R225). -/
structure Completion where
  core : Nat
  slot : Nat
  hq : BitVec 6
  comp : Home
  status : Word
  issued : Nat
  deriving DecidableEq, Repr

/-- What an access of a system core does (R281): RV64 has loads, stores, atomics of 64 and of 32 bits, and load-reserved with
store-conditional of both widths; a whole sector is written by stores that the hub gathers (R397). -/
inductive SysOp
  | load (wd : Width) (u : Bool)
  | store (wd : Width)
  | atomic (f : AtomicFn)
  | atomicW (f : AtomicFn)
  | reserve (wd : Width)
  | conditional (wd : Width)
  | sector (bytes : List Byte)
  deriving DecidableEq, Repr

/-- An access of a system core (R281): its core 0-31, the access's number, the numbers of the core's accesses that RVWMO
orders before it, what it does, and the value that a compare-and-swap expects. -/
structure SysAccess where
  core : Nat
  id : Nat
  after : List Nat
  op : SysOp
  expected : Word
  deriving DecidableEq, Repr

/-- Whose access the hubs bring: a read or a write of the host through BAR2 (R381), or an access of a system core to device
memory, or to the SRAM of its own hub (R281, R383). -/
inductive PortAgent
  | bar2 (write : Bool)
  | dev (a : SysAccess)
  | sram (a : SysAccess)
  deriving DecidableEq, Repr

/-- What a Colonnade packet carries (R162, R380): a request, its answer, its refusal, or word that an attempt has failed. -/
inductive ColKind
  | request
  | reply (v : Word)
  | refusal (cause : BitVec 8)
  | failed
  deriving DecidableEq, Repr

/-- A packet on the Colonnade (R380), from one module to another. -/
structure ColFrame where
  kind : ColKind
  src : Nat
  dest : Nat
  seq : Nat
  op : AccOp
  pa : Nat
  data : Word
  expected : Word
  /-- what an answer to a read of more than a word carries -/
  bytes : List Byte
  deriving DecidableEq, Repr

/-- What a detected error was found in (R369, R393): a sector that could not be read for an access, a scrub or a move, for its
integrity tag or for its ECC; the same of a read that the hubs bring for the host, a system core or another module, and of the
HQS's next read of a user queue's descriptor; a sector whose read was corrected; a line of an instruction cache that a slot's thread fetches;
an accumulator entry. -/
inductive MediaRead
  | access (r : Request) (tag : Bool)
  | port (a : PortAgent) (addr : Nat) (data : Word) (tag : Bool)
  | import_ (port : Nat) (f : ColFrame) (tag : Bool)
  | descriptor (u : Nat) (tag : Bool)
  | scrub (frame sector : Nat) (tag : Bool)
  | move (frame sector : Nat) (tag : Bool)
  | corrected (frame sector : Nat)
  | line (core slot : Nat)
  | accumulator (core : Nat) (t : Tile) (entry : Nat)
  deriving DecidableEq, Repr

/-- A boot image as it lies in flash or in the recovery mailbox (R384). -/
structure BootImage where
  magic : Word
  stage : BitVec 32
  svn : BitVec 32
  len : Nat
  hash : BitVec 384
  ecdsa : List Byte
  lms : List Byte
  body : List Byte
  deriving DecidableEq, Repr

/-- A register of a hub or a slice that has no behaviour of its own on a write (R6): the write sets its fields. -/
inductive HubReg
  | qtb | hctx | wdog | stkt | fwtb | hwin | pcap
  | hcmd
  | tlbi
  | modrt (hub mod : Nat)
  | impt (mod : Nat)
  | gtb (die : Nat)
  | cls (slice cls : Nat)
  | tierctl (slice : Nat)
  | serr (slice : Nat)
  | scrubctl (slice : Nat)
  | mcsRpc (core : Nat)
  | cport (port : Nat)
  deriving DecidableEq, Repr

/-- A notice to the system cores (R352, R375, R391, R396). -/
inductive Notice
  | machineCheck (m : SyscMsg)
  | bridge (n : Nat)
  | alarm (src level : Nat)
  | retire (slice frame : Nat)
  | portStopped (port : Nat)
  | attestation (nonce : List Byte) (mrs : List (BitVec 384)) (svns fuses : List Nat) (certificate signature : List Byte)
  deriving DecidableEq, Repr

end Sys2Proof
end

