-- ==== Sys2Proof/Syntax.lean ====
section
/-! DEFINITION. The steps of the Asward Q8, one constructor per row of spec/opcode_table.json. The first 153 are the
instructions a thread issues (05_opcode_map.md R115-R125); the rest are the steps the other agents of the module take
(95_what_each_step_holds.md), which have no encoding; those that only come from outside stand last. Each docstring line names the rule that gives the step. -/

namespace Sys2Proof

/-- Every step of the machine. -/
inductive Instr
  /-- R98. Issues and occupies one turn without changing any state. -/
  | nop
  /-- R130. Writes A + B modulo 2^64 to gd. -/
  | add (d a : Reg) (b : OpB)
  /-- R130. Writes A - B modulo 2^64 to gd. -/
  | sub (d a : Reg) (b : OpB)
  /-- R131. Writes the low 64 bits of A x B, completing 16 cycles after issue. -/
  | mul (d a : Reg) (b : OpB)
  /-- R130. Writes the high 64 bits of the signed 128-bit product. -/
  | mulh (d a : Reg) (b : OpB)
  /-- R130. Writes the high 64 bits of the unsigned 128-bit product. -/
  | mulhu (d a : Reg) (b : OpB)
  /-- R131. Writes the signed truncated quotient, all ones for a zero divisor, completing 72 cycles after issue. -/
  | div (d a : Reg) (b : OpB)
  /-- R131. Writes the unsigned quotient, all ones for a zero divisor. -/
  | divu (d a : Reg) (b : OpB)
  /-- R131. Writes the signed remainder with the sign of A, A for a zero divisor. -/
  | rem (d a : Reg) (b : OpB)
  /-- R131. Writes the unsigned remainder, A for a zero divisor. -/
  | remu (d a : Reg) (b : OpB)
  /-- R130. Writes A and B. -/
  | and (d a : Reg) (b : OpB)
  /-- R130. Writes A or B. -/
  | or (d a : Reg) (b : OpB)
  /-- R130. Writes A xor B. -/
  | xor (d a : Reg) (b : OpB)
  /-- R130. Writes A and not B. -/
  | andn (d a : Reg) (b : OpB)
  /-- R130. Writes A or not B. -/
  | orn (d a : Reg) (b : OpB)
  /-- R130. Writes A shifted left by B[5:0]. -/
  | shl (d a : Reg) (b : OpB)
  /-- R130. Writes A shifted right logically by B[5:0]. -/
  | shr (d a : Reg) (b : OpB)
  /-- R130. Writes A shifted right arithmetically by B[5:0]. -/
  | sar (d a : Reg) (b : OpB)
  /-- R130. Writes A rotated left by B[5:0]. -/
  | rol (d a : Reg) (b : OpB)
  /-- R130. Writes A rotated right by B[5:0]. -/
  | ror (d a : Reg) (b : OpB)
  /-- R130. Writes the signed smaller of A and B. -/
  | min (d a : Reg) (b : OpB)
  /-- R130. Writes the signed larger of A and B. -/
  | max (d a : Reg) (b : OpB)
  /-- R130. Writes the unsigned smaller of A and B. -/
  | minu (d a : Reg) (b : OpB)
  /-- R130. Writes the unsigned larger of A and B. -/
  | maxu (d a : Reg) (b : OpB)
  /-- R130. Writes 1 if A < B signed, else 0. -/
  | slt (d a : Reg) (b : OpB)
  /-- R130. Writes 1 if A < B unsigned, else 0. -/
  | sltu (d a : Reg) (b : OpB)
  /-- R130. Writes 1 if A = B, else 0. -/
  | seq (d a : Reg) (b : OpB)
  /-- R130. Writes 1 if A differs from B, else 0. -/
  | sne (d a : Reg) (b : OpB)
  /-- R132. Writes A when C is nonzero and B otherwise. -/
  | sel (d a : Reg) (b : OpB) (c : Reg)
  /-- R133. Writes the number of leading zero bits of A. -/
  | clz (d a : Reg)
  /-- R133. Writes the number of trailing zero bits of A. -/
  | ctz (d a : Reg)
  /-- R133. Writes the number of set bits of A. -/
  | popc (d a : Reg)
  /-- R134. Extracts a bit field of A and sign-extends it. -/
  | bext (d a : Reg) (b : OpB)
  /-- R134. Extracts a bit field of A and zero-extends it. -/
  | bextu (d a : Reg) (b : OpB)
  /-- R134. Replaces a bit field of A with the low bits of C. -/
  | bins (d a : Reg) (b : OpB) (c : Reg)
  /-- R134. Writes the low 64 bits of the 128-bit value A:C shifted right by B[6:0]. -/
  | fsh (d a : Reg) (b : OpB) (c : Reg)
  /-- R133. Writes A with its eight bytes reversed. -/
  | bswap (d a : Reg)
  /-- R134. Sign-extends the low n bits of A. -/
  | sext (d a : Reg) (b : OpB)
  /-- R134. Zero-extends the low n bits of A. -/
  | zext (d a : Reg) (b : OpB)
  /-- R136. Writes an address formed from base and index or displacement, unchecked. -/
  | lea (d : Reg) (m : MemOp)
  /-- R135. Writes B to gd. -/
  | mov (d : Reg) (b : OpB)
  /-- R137. Adds B to the signed 16-bit relative index s.ix. -/
  | addix (b : OpB)
  /-- R138. Branches unconditionally to a PC-relative target. -/
  | b (disp : BitVec 32)
  /-- R138. Branches when A equals gb. -/
  | beq (a b : Reg) (disp : BitVec 32)
  /-- R138. Branches when A differs from gb. -/
  | bne (a b : Reg) (disp : BitVec 32)
  /-- R138. Branches when A < gb signed. -/
  | blt (a b : Reg) (disp : BitVec 32)
  /-- R138. Branches when A >= gb signed. -/
  | bge (a b : Reg) (disp : BitVec 32)
  /-- R138. Branches when A < gb unsigned. -/
  | bltu (a b : Reg) (disp : BitVec 32)
  /-- R138. Branches when A >= gb unsigned. -/
  | bgeu (a b : Reg) (disp : BitVec 32)
  /-- R138. Branches when bit n of A is 1. -/
  | bbs (n : BitVec 6) (a : Reg) (disp : BitVec 32)
  /-- R138. Branches when bit n of A is 0. -/
  | bbc (n : BitVec 6) (a : Reg) (disp : BitVec 32)
  /-- R139. Writes the next-instruction address to h7 and branches to a PC-relative target. -/
  | call (disp : BitVec 32)
  /-- R139. Writes the next-instruction address to h7 and jumps to A. -/
  | callr (a : Reg)
  /-- R138. Jumps to the address in A. -/
  | jmp (a : Reg)
  /-- R138. Transfers control to the address in h7. -/
  | ret
  /-- R147. Pushes a task descriptor onto the bottom of the core's deque, or writes 0 when full or the record is invalid. -/
  | fork (d : Reg) (t : ForkTarget) (a c : Reg)
  /-- R150. Decrements a task record's count at its home, pushing the continuation and completing Done when it reaches zero. -/
  | dec (m : MemOp)
  /-- R150. Sets the record's error bit and decrements its count, completing it as cancelled at zero. -/
  | cancel (m : MemOp)
  /-- R152. Slot 0 chooses an eligible empty slot and latches a task of its owner queue from the own deque or by a steal. -/
  | take (d : Reg)
  /-- R154. Slot 0 starts the latched task in a slot with a given window if every condition holds. -/
  | start (a b c : Reg)
  /-- R155. Slot 0 ends a trapped or stopped thread after its remote requests are answered and empties its slot. -/
  | reap (d a : Reg)
  /-- R156. Ends the thread once its relaxed accesses have performed, emptying its slot. -/
  | exit
  /-- R157. Parks the thread for at least n cycles. -/
  | sleep (b : OpB)
  /-- R163. Loads a value of the given width from memory into gd, plain or relaxed. -/
  | ld (wd : Width) (u rx : Bool) (d : Reg) (m : MemOp)
  /-- R163. Stores the low bits of gc to memory, plain or relaxed. -/
  | st (wd : Width) (rx : Bool) (m : MemOp) (c : Reg)
  /-- R178. A traveller moves to the core owning the address and performs the load there. -/
  | ldMig (wd : Width) (u : Bool) (d : Reg) (m : MemOp)
  /-- R178. A traveller moves to the core owning the address and performs the store there. -/
  | stMig (wd : Width) (m : MemOp) (c : Reg)
  /-- R166. Waits until the word is full, returns it and leaves it full. -/
  | ldf (d : Reg) (m : MemOp)
  /-- R166. Waits until the word is full, returns it and sets it empty. -/
  | lde (d : Reg) (m : MemOp)
  /-- R166. Waits until the word is empty, writes it and sets it full. -/
  | stf (m : MemOp) (c : Reg)
  /-- R166. Waits until the word is full and writes it, leaving it full. -/
  | stn (m : MemOp) (c : Reg)
  /-- R166. Sets the word's full/empty bit empty without changing its data. -/
  | clre (m : MemOp)
  /-- R166. Returns 1 if the word is full and 0 if empty. -/
  | fes (d : Reg) (m : MemOp)
  /-- R169. Atomically adds C to a full word and returns the old value. -/
  | amadd (d : Reg) (m : MemOp) (c : Reg)
  /-- R169. Atomically ands C into a full word and returns the old value. -/
  | amand (d : Reg) (m : MemOp) (c : Reg)
  /-- R169. Atomically ors C into a full word and returns the old value. -/
  | amor (d : Reg) (m : MemOp) (c : Reg)
  /-- R169. Atomically xors C into a full word and returns the old value. -/
  | amxor (d : Reg) (m : MemOp) (c : Reg)
  /-- R169. Atomically keeps the signed smaller of the word and C and returns the old value. -/
  | ammin (d : Reg) (m : MemOp) (c : Reg)
  /-- R169. Atomically keeps the signed larger of the word and C and returns the old value. -/
  | ammax (d : Reg) (m : MemOp) (c : Reg)
  /-- R169. Atomically keeps the unsigned smaller of the word and C and returns the old value. -/
  | amminu (d : Reg) (m : MemOp) (c : Reg)
  /-- R169. Atomically keeps the unsigned larger of the word and C and returns the old value. -/
  | ammaxu (d : Reg) (m : MemOp) (c : Reg)
  /-- R169. Atomically replaces a full word with C and returns the old value. -/
  | amswp (d : Reg) (m : MemOp) (c : Reg)
  /-- R169. Atomically writes C if the word equals gd and returns the old value in gd. -/
  | amcas (d : Reg) (m : MemOp) (c : Reg)
  /-- R170. Relaxed reduction adding C to the word at its home without return. -/
  | redadd (m : MemOp) (c : Reg)
  /-- R170. Relaxed reduction anding C into the word at its home. -/
  | redand (m : MemOp) (c : Reg)
  /-- R170. Relaxed reduction oring C into the word at its home. -/
  | redor (m : MemOp) (c : Reg)
  /-- R170. Relaxed reduction keeping the signed larger of word and C. -/
  | redmax (m : MemOp) (c : Reg)
  /-- R170. Relaxed reduction keeping the signed smaller of word and C. -/
  | redmin (m : MemOp) (c : Reg)
  /-- R170. Relaxed reduction adding C as FP32 with RNE into the word's low half. -/
  | redfadd (m : MemOp) (c : Reg)
  /-- R172. Plain store that writes only if its tag is not older than the stored tag. -/
  | stg (m : MemOp) (c : Reg)
  /-- R173. Parks until the thread's earlier relaxed accesses in the scope have performed, and for system scope until s.oac is zero. -/
  | fence (scope : BitVec 2)
  /-- R174. Launches a nine-word message to a mailbox, or writes 1 when no send allowance is free. -/
  | send (d : Reg) (m : MemOp)
  /-- R178. A traveller moves its context to the core owning the address without an access. -/
  | go (m : MemOp)
  /-- R180. Checks and queues a copy command for the core's copy engine. -/
  | cpy (d a b c : Reg)
  /-- R190. Checks a contracting load, locks the tile and begins requesting stream sectors. -/
  | cld (mm s : Bool) (t : Tile) (a b c : Reg)
  /-- R192. Acquires a tile, retrying until its contracting-load lock clears. -/
  | cldw (t : Tile)
  /-- R198. Zeroes a tile and sets its anchor and grid mode. -/
  | acz (t : Tile) (b : OpB)
  /-- R198. Reads one tile entry converted to a format into gd. -/
  | acrd (f : Fmt) (d : Reg) (t : Tile) (b : OpB)
  /-- R198. Writes A raw into one tile entry and clears its poison. -/
  | acwr (t : Tile) (a : Reg) (b : OpB)
  /-- R200. Stores the whole converted tile to memory in sectors. -/
  | acst (f : Fmt) (m : MemOp) (t : Tile)
  /-- R197. Loads a recurrence program word into a tile and sets recurrence mode. -/
  | cmprog (t : Tile) (a : Reg)
  /-- R197. Writes a tile's program word to gd, or 0 in grid mode. -/
  | cmst (d : Reg) (t : Tile)
  /-- R201. Writes the rounded sum A + B in the real format. -/
  | fadd (f : Fmt) (d a : Reg) (b : OpB)
  /-- R201. Writes the rounded difference A - B. -/
  | fsub (f : Fmt) (d a : Reg) (b : OpB)
  /-- R201. Writes the rounded product A x B. -/
  | fmul (f : Fmt) (d a : Reg) (b : OpB)
  /-- R201. Writes A x B + C with one rounding. -/
  | fma (f : Fmt) (d a : Reg) (b : OpB) (c : Reg)
  /-- R201. Writes the rounded quotient, completing 32 cycles after issue. -/
  | fdiv (f : Fmt) (d a : Reg) (b : OpB)
  /-- R201. Writes the rounded square root, completing 32 cycles after issue. -/
  | fsqrt (f : Fmt) (d a : Reg)
  /-- R202. Writes the smaller real operand. -/
  | fmin (f : Fmt) (d a : Reg) (b : OpB)
  /-- R202. Writes the larger real operand. -/
  | fmax (f : Fmt) (d a : Reg) (b : OpB)
  /-- R201. Writes 1 if A < B in the real format. -/
  | flt (f : Fmt) (d a : Reg) (b : OpB)
  /-- R201. Writes 1 if A <= B in the real format. -/
  | fle (f : Fmt) (d a : Reg) (b : OpB)
  /-- R201. Writes 1 if A = B in the real format. -/
  | feq (f : Fmt) (d a : Reg) (b : OpB)
  /-- R203. Decodes A from the source format and encodes it once into the target format. -/
  | fcvt (dstFmt srcFmt : Fmt) (d a : Reg)
  /-- R201. Writes 2^A correctly rounded, completing 24 cycles after issue. -/
  | fexp2 (f : Fmt) (d a : Reg)
  /-- R201. Writes log2 A correctly rounded, completing 24 cycles after issue. -/
  | flog2 (f : Fmt) (d a : Reg)
  /-- R204. Adds corresponding lanes of A and B. -/
  | padd (f : Fmt) (d a : Reg) (b : OpB)
  /-- R204. Subtracts corresponding lanes. -/
  | psub (f : Fmt) (d a : Reg) (b : OpB)
  /-- R204. Multiplies corresponding lanes. -/
  | pmul (f : Fmt) (d a : Reg) (b : OpB)
  /-- R204. Keeps the larger of corresponding lanes. -/
  | pmax (f : Fmt) (d a : Reg) (b : OpB)
  /-- R204. Keeps the smaller of corresponding lanes. -/
  | pmin (f : Fmt) (d a : Reg) (b : OpB)
  /-- R205. Writes the exact lane dot product rounded once. -/
  | pdot (f : Fmt) (d a : Reg) (b : OpB)
  /-- R211. Vector stream element-wise addition through views. -/
  | vadd (d a b c : Reg)
  /-- R211. Vector stream element-wise subtraction. -/
  | vsub (d a b c : Reg)
  /-- R211. Vector stream element-wise multiplication. -/
  | vmul (d a b c : Reg)
  /-- R211. Vector stream element-wise maximum. -/
  | vmax (d a b c : Reg)
  /-- R211. Vector stream element-wise minimum. -/
  | vmin (d a b c : Reg)
  /-- R211. Vector stream fused multiply-add into D. -/
  | vfma (d a b c : Reg)
  /-- R212. Applies a selected function to each element of A into D. -/
  | vmap (d a b c : Reg)
  /-- R213. Adds the exact grid sum of A into the word at D and the invalid count at B. -/
  | vsum (d a b c : Reg)
  /-- R214. Writes the top k value-index pairs of A at D. -/
  | vtopk (k : BitVec 5) (d a b c : Reg)
  /-- R211. Writes A[i mod P] to each element of D. -/
  | vbcast (d a b c : Reg)
  /-- R208. Writes a view descriptor s.vd(v) in stage 5. -/
  | setvd (v : BitVec 3) (a : Reg)
  /-- R208. Reads a view descriptor into gd. -/
  | getvd (v : BitVec 3) (d : Reg)
  /-- R215. Writes a counter-based random word from seed A and step B. -/
  | rnd (d a : Reg) (b : OpB)
  /-- R219. Evaluates a tree record and writes its root node value. -/
  | tup (m : MemOp)
  /-- R220. Adds the output derivative times each partial into every leaf derivative of a record. -/
  | tdn (m : MemOp)
  /-- R223. Sets the thread's Trellis base s.tb. -/
  | tcfg (b : OpB)
  /-- R224. Checks a key lookup command block and sends it to the stack's unit. -/
  | klu (a c : Reg)
  /-- R224. Checks a key lookup backward command block and sends it to the stack's unit. -/
  | kbwd (a c : Reg)
  /-- R224. Checks a row-gather command block and sends it to the pipeline. -/
  | gat (a c : Reg)
  /-- R231. Issues a collective exact grid sum command to the die's collective engine. -/
  | collSum (a c : Reg)
  /-- R231. Issues a collective top-k merge command. -/
  | collTopk (a c : Reg)
  /-- R231. Issues a collective broadcast command from the root. -/
  | collBcast (a c : Reg)
  /-- R231. Issues a collective gather command to the root. -/
  | collGather (a c : Reg)
  /-- R232. Raises software trap 0x0D with n in DETAIL. -/
  | trap (n : BitVec 6)
  /-- R232. Raises breakpoint trap 0x0E. -/
  | brk
  /-- R235. Reads a state register into gd. -/
  | rdst (d : Reg) (sr : BitVec 8)
  /-- R235. Writes B to a state register under its access code. -/
  | wrst (sr : BitVec 8) (b : OpB)
  /-- R237. Slot 0 resumes a trapped or stopped slot, optionally replaying its held cld or at a given PC. -/
  | resume (replay : Bool) (a : Reg)
  /-- R238. Slot 0 stops a running or parked slot from the next cycle. -/
  | stop (a : Reg)
  /-- R236. Writes the core's cycle counter at issue to gd. -/
  | rdcyc (d : Reg)
  /-- R239. Hands a 64-byte request to the nearer hub's system cores, parking until accepted. -/
  | sysc (a : Reg)
  /-- R105. A missed instruction line arrives and waiting threads become runnable. -/
  | icacheLineFill (core : Nat) (hq : BitVec 6) (line : Word)
  /-- R359. The core's walker completes a page walk, filling the buffer or faulting 0x05. -/
  | translationWalk (core : Nat) (key : PageKey)
  /-- R159. A request arriving at a word's home performs there as one step. -/
  | homePerform (r : Request)
  /-- R164. A reply or acknowledgement to a plain or synchronising access returns and the thread becomes runnable. -/
  | remoteReply (r : Request) (v : Word)
  /-- R34. A relaxed load's data returns, is written and clears the pending mark. -/
  | relaxedLoadReply (r : Request) (v : Word)
  /-- R49. An acknowledgement returns a store allowance unit and decrements s.oac. -/
  | writeAck (r : Request)
  /-- R162. A refusal returns to the requester and traps or reports by the access class. -/
  | refusal (r : Request) (cause : BitVec 8)
  /-- R47. The requester sends the next attempt of a remote synchronising access. -/
  | feRetry (r : Request)
  /-- R168. The failure of attempt s.fel + 1 returns and the access traps 0x07. -/
  | feRetryLimit (r : Request)
  /-- R182. At a rotation boundary held allowance units are granted to parked slots in slot order. -/
  | allowanceGrant (core : Nat)
  /-- R182. An allowance park reaches s.swl cycles and traps 0x08. -/
  | storeWaitLimit (core slot : Nat)
  /-- R18. An instruction that runs past stage 8 writes its destination and its thread becomes runnable. -/
  | longOpComplete (core slot : Nat)
  /-- R157. A sleeping thread's time passes and it becomes runnable. -/
  | sleepExpiry (core slot : Nat)
  /-- R221. A tree instruction completes X cycles after stage 8 after its extra bank cycles. -/
  | treeComplete (core slot : Nat)
  /-- R210. The vector stream unit takes a waiting instruction once free. -/
  | vsuTake (core : Nat)
  /-- R210. The vector stream unit performs the last group and the thread becomes runnable. -/
  | vsuComplete (core : Nat)
  /-- R190. The contraction path sends the next sector and scale request, with .s after the previous contributes. -/
  | cldSectorRequest (core : Nat) (t : Tile)
  /-- R190. A stream sector and its scale arrive and contribute to every active row, setting its mask bit. -/
  | cldSectorArrival (core : Nat) (t : Tile) (sector : Nat)
  /-- R193. A sector or scale request fails and the cld stops requesting. -/
  | cldRequestFail (core : Nat) (t : Tile) (sector : Nat) (cause : BitVec 8)
  /-- R315. Once sent requests have contributed the tile becomes held and the thread traps 0x0A. -/
  | contractionFault (core : Nat) (t : Tile)
  /-- R340. A thread takes a pending 0x09, 0x0A or 0x10 at its next position. -/
  | deferredTrap (core slot : Nat)
  /-- R340. A trapped thread finishes draining and its record is completed in its latch. -/
  | trapDrainEnd (core slot : Nat)
  /-- R344. A latched record moves to the trap ring when a place is free and slot 0 wakes. -/
  | trapRecordEnqueue (core : Nat)
  /-- R353. System cores clear MCS VALID and slot 0 runs from RPC. -/
  | mcsClear (core : Nat)
  /-- R178. After draining and a free context buffer the traveller's context packet is sent and its slot empties. -/
  | migrationDepart (core slot : Nat)
  /-- R27. A context packet reaches its core and enters the arrival queue or is returned. -/
  | arrival (src dest : Nat) (p : Packet)
  /-- R27. Hardware starts the oldest queued arrival in the lowest free traveller slot. -/
  | arrivalStart (core : Nat)
  /-- R174. A message reaches its mailbox and is written whole with a full header, or returned. -/
  | mailboxWrite (m : Message)
  /-- R176. The network interface offers a returned message or request again after 64 cycles. -/
  | messageReoffer (o : Offer)
  /-- R174. A message acknowledgement returns the send allowance. -/
  | messageAck (m : Message)
  /-- R151. A cancel sent onward by a home core performs at the next record. -/
  | cancelPropagation (lcore off : Nat) (hq : BitVec 6) (parent : Option Request)
  /-- R145. A waiting continuation or launch push finds a free deque entry and completes. -/
  | continuationPush (core : Nat)
  /-- R143. Spilled entries are read back when the hardware part holds fewer than 16. -/
  | dequeReadback (core : Nat)
  /-- R153. A victim removes its topmost entry of the queue or answers none. -/
  | stealRequest (core victim : Nat) (hq : BitVec 6)
  /-- R152. The steal reply returns to slot 0 and take completes. -/
  | stealReply (core : Nat) (e : Option TaskEntry)
  /-- R155. A reap's remaining replies have returned and the slot empties. -/
  | reapComplete (core : Nat)
  /-- R156. An exit's relaxed accesses and cld have finished and the slot empties. -/
  | exitComplete (core slot : Nat)
  /-- R181. The copy engine begins the command at the head of its queue. -/
  | copyCommandStart (core : Nat)
  /-- R181. After every write performs the copy engine stores status to the completion word. -/
  | copyCompletion (core : Nat)
  /-- R224. A command parked on a full engine queue is accepted. -/
  | engineQueueAccept (core : Nat) (q : QueueStep)
  /-- R227. The key lookup unit scores, selects, weights and gathers for a klu command. -/
  | kluExecute (stack : Nat)
  /-- R228. The key lookup unit writes gradient records and score gradients for a kbwd command. -/
  | kbwdExecute (stack : Nat)
  /-- R229. The row-gather pipeline gathers, weights and reduces rows for a gat command. -/
  | gatExecute (stack : Nat)
  /-- R231. Once every member's matching command has arrived the collective engine runs it. -/
  | collExecute (grp tag : Nat) (die : Nat)
  /-- R225. An engine stores its status to the completion word, setting it full. -/
  | engineCompletion (c : Completion)
  /-- R239. A hub accepts a sysc request or refuses it when its queue is full. -/
  | hubRequest (hub : Nat) (m : SyscMsg)
  /-- R349. System cores write the reply mailbox through the HQS and wake slot 0. -/
  | replyMailboxWrite (core : Nat) (words : List Word)
  /-- R354. An ACW spill command writes the oldest waiting arrivals to the spill area. -/
  | arrivalSpill (core : Nat)
  /-- R354. An ACW return command reads packets back and appends them to the arrival queue. -/
  | arrivalReturn (core : Nat)
  /-- R354. An ACW command with OP 0 or 3 or N = 0 sets ST 1 and moves nothing. -/
  | arrivalCommandInvalid (core : Nat)
  /-- R354. The network interface sets the arrival result word full after moving packets. -/
  | arrivalCommandComplete (core : Nat)
  /-- R322. A write of DBELL makes the HQS read the queue's WR. -/
  | doorbell (u : Nat)
  /-- R323. The HQS maps an active queue onto the lowest free hardware slot. -/
  | queueMap (u : Nat)
  /-- R324. A mapped slot's quantum expires and may be chosen to drain. -/
  | quantumExpiry (n : BitVec 6)
  /-- R323. A draining slot's work count reaches zero and it becomes free. -/
  | slotDrainComplete (n : BitVec 6)
  /-- R328. The HQS takes a launch, checks its task list, writes images and pushes or starts its entries. -/
  | launchPacket (n : BitVec 6)
  /-- R326. A TYPE 0 packet stores status to DONE if given and advances RD. -/
  | nopPacket (n : BitVec 6)
  /-- R328. A launch's work count reaches zero and the HQS stores DONE and advances RD. -/
  | launchDone (n : BitVec 6)
  /-- R335. HCMD OP 1 freezes a hardware slot, trapping its threads and removing its tasks. -/
  | freeze (n : BitVec 6) (fcause : BitVec 8)
  /-- R323. HCMD OP 2 frees a frozen slot once its work count is zero. -/
  | unfreeze (n : BitVec 6)
  /-- R336. HCMD OP 3 stops a core and saves its context to HCTX. -/
  | saveCore (lcore : Nat)
  /-- R336. HCMD OP 4 stops a core and streams its context to a destination core. -/
  | moveCore (lcore dest : Nat)
  /-- R338. HCMD OP 5 restores a saved context onto a destination core. -/
  | restoreCore (lcore dest : Nat)
  /-- R336. At the rotation boundary after s.oac reaches zero the core context is copied. -/
  | contextCopy (core : Nat)
  /-- R334. A slot shows no progress for WDOG units and is frozen with FCAUSE 3. -/
  | watchdogExpiry (n : BitVec 6)
  /-- R335. After a frozen thread drains the HQS sends cancel to its owed record. -/
  | freezeCancel (core slot : Nat)
  /-- R337. A vacated core's forwarding entry re-injects an arriving request toward the new core. -/
  | forwardReinject (core : Nat) (i : Nat)
  /-- R338. A request to a saved store is refused with 0x05 and steals answered none. -/
  | savedStoreRefusal (r : Request)
  /-- R337. Once every core has dropped the far translations the forwarding entry is removed. -/
  | forwardingRelease (core : Nat)
  /-- R362. TLBI OP 1 drops every translation buffer entry. -/
  | tlbiDropAll
  /-- R362. TLBI OP 2 drops every entry of a hardware slot. -/
  | tlbiDropHq (hq : BitVec 6)
  /-- R362. TLBI OP 3 drops a hardware slot's entry for one page. -/
  | tlbiDropPage (hq : BitVec 6) (vpn : BitVec 31)
  /-- R362. TLBI OP 4 drops the far-window entries of a core. -/
  | tlbiDropFar (lcore : BitVec 13)
  /-- R363. A core drops matching entries at its next rotation boundary. -/
  | tlbEntryDrop (core : Nat)
  /-- R363. Every core has dropped and every access using a dropped entry has finished, so TLBI reads 0. -/
  | tlbiComplete
  /-- R332. Class budgets refill at each 1,024-cycle boundary of the slice. -/
  | budgetRefill (slice : Nat)
  /-- R368. The slice write buffer writes a merged sector to its media page. -/
  | writeBufferFlush (slice : Nat)
  /-- R366. At an epoch end the slice swaps hot LPDDR-6 frames with cold HBM4E frames. -/
  | epochEnd (slice : Nat)
  /-- R367. A frame move copies one sector, completing the move after the last. -/
  | moveSectorStep (slice : Nat)
  /-- R393. A failed media read is repeated once and refused with 0x06 if it fails again. -/
  | mediaReread (slice : Nat) (m : MediaRead) (again : Bool)
  /-- R396. At a patrol period end scores halve and frames at zero leave the hot list. -/
  | scrubPeriodEnd (slice : Nat)
  /-- R365. Each slice writes zero data with full bits into every valid frame. -/
  | sliceInit (slice : Nat)
  /-- R382. A device access to a host page goes out from the host port in perform order. -/
  | hostPageAccess (r : Request)
  /-- R387. Power-on starts the boot ROM, key agreement, key generation and stage loading. -/
  | powerOnReset
  /-- R385. A boot stage is accepted only if signatures, hash and SVN check, extending its measurement. -/
  | stageVerify (stage : Nat)
  /-- R387. A compute die leaves reset and slot 0 of each core starts at the runtime entry. -/
  | dieLeavesReset (n : Nat)
  /-- R116. A head with an unassigned opcode, opcode 0xFF, a line overlap or an illegal use of opcode 0x00 issues and traps 0x01 in stage 2. -/
  | illegalEncoding
  /-- R104. At a thread's turn, the fetch of its PC traps 0x04, 0x05 or 0x06 (odd PC, PC outside device memory, no execute permission) before any instruction issues. -/
  | fetchFault (cause detail : BitVec 8)
  /-- R395. The slice scrubs a sector, writing back a corrected value. -/
  | patrolScrub (slice frame sector : Nat) (corrected : Bool)
  /-- R397. A RETREQ write moves a frame to an offered page and sets RET. -/
  | retreq (slice : Nat) (frame : Nat) (w : Word)
  /-- R365. System cores write a slice's indirection entry while MV is clear. -/
  | indirectionWrite (slice frame : Nat) (w : Word)
  /-- R370. A die-link flit group with a failed tag is discarded and resent, raising level 2 after 16. -/
  | dieLinkTagFailure (link : Nat) (again : Bool)
  /-- R375. A bridge packet failing its CRC is resent, with a machine-check notice after 16 failures. -/
  | bridgeCrcFailure (link : Nat) (again : Bool)
  /-- R380. A hub receives a Colonnade request, forwards it or checks it against IMPT. -/
  | colonnadeFrameReceive (port : Nat) (f : ColFrame)
  /-- R393. A Colonnade frame failing CRC is replayed, stopping the port after 16 failures. -/
  | colonnadeCrcReplay (port : Nat) (again : Bool)
  /-- R403. A write of EN = 1 restarts a stopped Colonnade port when allowed. -/
  | cportEnable (n : Nat)
  /-- R381. A host access through BAR2 performs at its slice in received order. -/
  | hostWindowAccess (agent : PortAgent) (addr : Nat) (data : Word)
  /-- R382. System cores write a vector number to MSIX to signal the host. -/
  | msix (v : BitVec 16)
  /-- R385. The host loads an image through the recovery mailbox for the same checks. -/
  | recoveryImage (img : BootImage)
  /-- R386. A signed request after a completed boot burns a fuse counter position. -/
  | fuseBurnRequest (stage : Nat) (signed : Bool)
  /-- R388. An attestation report with nonce and measurements is signed by the identity key. -/
  | attestationRequest (nonce : List Byte)
  /-- R390. An alarm source fires, setting its SRC bit and raising its configured level. -/
  | alarmSourceFire (src : BitVec 3)
  /-- R389. A write of RAISE raises the alarm to the value written. -/
  | raise (level : BitVec 2)
  /-- R389. A W1C write clears alarm SRC bits. -/
  | alarmSrcClear (mask : BitVec 8)
  /-- R390. A write of ALCFG sets source levels unless LOCK is set. -/
  | alcfgWrite (w : Word)
  /-- R391. H0 completes the repeated key agreement after a level-2 alarm and die-link traffic resumes. -/
  | keyAgreementDone
  /-- R399. At each control window end H0 raises or lowers a die's clock STEP. -/
  | pcapWindowEnd
  /-- R400. A die reaching 105 C runs at STEP 8 until below 100 C. -/
  | thermalThreshold (die : Nat) (temp : BitVec 12)
  /-- R398. A write of CRET retires a logical core, holding it in reset. -/
  | cret (lcore : Nat)
  /-- R378. A write of GABORT completes every waiting command of a group with CAUSE 0x0F. -/
  | gabort (die : Nat) (grp : BitVec 8)
  /-- R6. A write to a hub or slice register without behaviour of its own sets its fields. -/
  | hubRegisterWrite (r : HubReg) (w : Word)
  /-- R403. A Colonnade port finishes training and keying, sets UP and records LNKLAT. -/
  | colonnadeLinkTrained (port : Nat) (lat : BitVec 16)
  deriving DecidableEq, Repr

end Sys2Proof
end

