-- ==== Sys2Proof/Machine/State.lean ====
section
/-! DEFINITION. The state of the module, plain data. Sparse maps are lists of (key, value) with strictly rising keys
and no entry equal to the value an unlisted key reads as (Machine/Sparse.lean). -/

namespace Sys2Proof.Machine

/-- The states of a slot (R21). Running and parked are one constructor: what a parked thread waits for stands in
`Slot.wait`. A trapped thread has drained or not (R340). -/
inductive SlotState
  | empty
  | active
  | trapped (drained : Bool)
  | stopped
  deriving DecidableEq, Repr

/-- A tree instruction under way (R219-R222): the record's fields, the words still to read, the node values read, the
words still to write and the rounding state to commit. -/
structure TreeJob where
  down : Bool
  fmt : Fmt
  topo : Nat
  ops : Nat
  leafOffs : List Nat
  outOff : Nat
  /-- derivative offset of the view -/
  doff : Nat
  /-- offsets of the 8-byte words still to read, and the 4-byte values read, by offset -/
  toRead : List Nat
  vals : List (Nat × Nat)
  evaluated : Bool
  /-- the 4-byte values still to write, by offset -/
  toWrite : List (Nat × Nat)
  /-- X_r and X_w, and the issue cycle -/
  xr : Nat
  xw : Nat
  at_ : Nat
  /-- the cycle of the last write, and the banks written in it -/
  wrAt : Nat
  wrBanks : List Nat
  srs : BitVec 32
  flags : BitVec 8
  deriving DecidableEq, Repr

/-- The operations of the vector stream unit (R211). -/
inductive VecOp
  | add | sub | mul | max | min | fma | map | sum | topk | bcast
  deriving DecidableEq, Repr

/-- A vector stream instruction, waiting for or in the unit (R210): operand values, copies of the three views'
descriptors, the next element, and what it accumulates. -/
structure VecJob where
  slot : Nat
  op : VecOp
  d : Word
  a : Word
  b : Word
  c : Word
  vdD : Word
  vdA : Word
  vdB : Word
  k : Nat
  /-- the next element -/
  next : Nat
  sum : Word
  bad : Nat
  pairs : List (BitVec 32 × BitVec 32)
  /-- cycle in which the unit took it -/
  taken : Nat
  deriving DecidableEq, Repr

/-- An `acst` under way (R200): the sectors still to write, with the address of each, and the rounding state to commit. -/
structure TileStore where
  sectors : List (Home × List Byte)
  va : Word
  srs : BitVec 32
  flags : BitVec 8
  /-- parked on the allowance since this cycle -/
  since : Option Nat
  /-- the request sent for the first sector, while its answer has not come -/
  out : Option Request
  /-- the cycle in which its addresses were translated (R363) -/
  issued : Nat
  deriving DecidableEq, Repr

/-- What holds an instruction that has passed its checks (R18): earlier relaxed accesses of its thread (R45, R48), a place in the
copy engine's queue (R181), the thread's own `cld` (R53), a sequence number (R342), the requests of its class that its core
holds (R333), or die links that carry no traffic (R391). -/
inductive Hold
  | relaxedDone
  | copyFree
  | cldFree
  | seqFree
  | classFree (r : Request)
  | links
  deriving DecidableEq, Repr

/-- What a parked thread waits for (R18, R21). Down to `migrate` the PC stays at the instruction. In `fetchWalk`, `line`,
`regs` and `tile` it issues, or retries, at a later turn when the condition holds (R34, R104, R105, R186). In `pageWalk` and
`held` it stays in flight, and goes on in the cycle in which its walk completes or its condition comes to hold (R18, R260,
R263): with the instruction and the next one's address, and in `held` the cycle from which it has waited and the view
descriptors sampled in its stage 4 (R44). In the others an event completes it and moves the PC to `next`. From `reply` on the
PC is already the next one. A tree instruction in `treeOrder` waits for the thread's earlier relaxed accesses with its record
read (R217, R222). -/
inductive Wait
  | none
  | pageWalk (k : PageKey) (cause detail : BitVec 8) (addr : Word) (i : Option Instr) (next : Word)
  | fetchWalk (k : PageKey)
  | line (addr : Word)
  | regs (ds : List Dst)
  | held (h : Hold) (since : Nat) (i : Option Instr) (next : Word) (views : List (Nat × Word))
  | tile (t : Tile)
  | fence (scope : BitVec 2) (next : Word)
  | exit (till : Nat)
  | order (next : Word) (r : Request)
  | allowance (since : Nat) (next : Word) (r : Request)
  | bank (next : Word) (r : Request)
  | engineQueue (next : Word) (c : EngineCmd)
  | treeOrder (next : Word) (j : TreeJob)
  | tileStore (next : Word) (j : TileStore)
  | migrate (pc : Word) (dest : Nat)
  | reply (r : Request)
  | retry (r : Request)
  | longOp (d : Dst) (v : Word) (srs : BitVec 32) (flags : BitVec 8) (till : Nat)
  | sleep (till : Nat)
  | tree (j : TreeJob)
  | vector
  | steal (target : Nat) (hq : BitVec 6) (d : Dst)
  | reap (target : Nat) (d : Dst)
  | sysc (m : SyscMsg)
  deriving DecidableEq, Repr

/-- What kind of remote request is outstanding: an access, a message with the cycle in which it left, a steal, or a request to a
hub (R50). -/
inductive OutKind
  | access
  | message (at_ : Nat)
  | steal
  | sysc
  deriving DecidableEq, Repr

/-- An outstanding remote request of a thread, for fences, draining and order (R50, R51, R340, R342). -/
structure Out where
  seq : BitVec 16
  relaxed : Bool
  home : Home
  kind : OutKind
  deriving DecidableEq, Repr

/-- An event that traps a thread at its next position (R340): 0x09 with its request, 0x0A with its tile, or 0x10. -/
structure Late where
  cause : BitVec 8
  seq : BitVec 16
  addr : Word
  pc : Word
  tile : Tile
  deriving DecidableEq, Repr

/-- A thread slot (R24, R36). -/
structure Slot where
  st : SlotState
  wait : Wait
  pc : Word
  base : Nat
  size : Nat
  hq : BitVec 6
  h : List (Nat × Word)
  mb : List (Nat × Word)
  z0 : Word
  z1 : Word
  round : BitVec 3
  srs : BitVec 32
  ix : BitVec 16
  fel : BitVec 32
  nflag : BitVec 8
  tb : BitVec 17
  seq : BitVec 16
  /-- outstanding remote requests (R50, R340) -/
  out : List Out
  /-- destinations of relaxed loads not yet written, by the request's sequence number (R34) -/
  pending : List (BitVec 16 × Dst)
  /-- late events to take at the next position, in order of arrival (R340, R341) -/
  late : List Late
  /-- the record being completed while the thread drains, and the record latch (R344) -/
  record : Option Record
  latch : Option Record
  /-- the thread trapped while its latch still held a record (R351) -/
  double : Bool
  /-- the first cycle in which the latched record may enter the ring (R344) -/
  latchAt : Nat
  owed : Option (BitVec 13 × BitVec 14)
  owedDue : Bool
  skip : Nat
  /-- first cycle in which the slot may issue (R16, R18) -/
  wakeAt : Nat
  /-- a `stop` takes effect from this cycle on (R238) -/
  stopAt : Option Nat
  deriving DecidableEq, Repr

/-- A slot after reset (R21, R234). The values no rule states are DESIGN CHOICE (log 6). -/
def Slot.reset : Slot where
  st := .empty
  wait := .none
  pc := 0
  base := 0
  size := 8
  hq := 0
  h := []
  mb := []
  z0 := 0
  z1 := 0
  round := 0
  srs := 0
  ix := 0
  fel := 4096
  nflag := 0
  tb := 0
  seq := 0
  out := []
  pending := []
  late := []
  record := none
  latch := none
  double := false
  latchAt := 0
  owed := none
  owedDue := false
  skip := 0
  wakeAt := 0
  stopAt := none

/-- A contracting load under way or held (R190-R194). -/
structure CldJob where
  slot : Nat
  hq : BitVec 6
  pc : Word
  recur : Bool
  inOrder : Bool
  a : Word
  b : Word
  d : Word
  s : Word
  /-- the view descriptor read at issue (R44, R288) -/
  vd : Word
  /-- next sector to request, and whether its data request has been sent and its scale is the next -/
  next : Nat
  scaleNext : Bool
  /-- the sectors of the requests sent whose reply has not come, one entry for each request -/
  sent : List Nat
  data : List (Nat × List Byte)
  scale : List (Nat × BitVec 16)
  /-- lowest failing sector, with its cause and address -/
  fail : Option (Nat × BitVec 8 × Word)
  held : Bool
  reaped : Bool
  deriving DecidableEq, Repr

/-- An accumulator tile (R185). `fill` is what an entry not listed holds. -/
structure TileState where
  fill : Word
  entries : List (Nat × Word)
  poison : List (Nat × Bool)
  anchor : BitVec 11
  recurrence : Bool
  prog : Word
  lock : Option CldJob
  cpm : Word
  deriving DecidableEq, Repr

/-- A tile after reset: mask 0 (R234); the rest DESIGN CHOICE (log 6). -/
def TileState.reset : TileState where
  fill := 0
  entries := []
  poison := []
  anchor := 0
  recurrence := false
  prog := 0
  lock := none
  cpm := 0

/-- Who waits for a page walk: the instruction of a slot, or an agent (R359, R362). -/
inductive WalkFor
  | thread (slot : Nat)
  | agent (a : Agent)
  deriving DecidableEq, Repr

/-- A page walk of a core's walker (R359, R362): the page, the hardware slot whose class its reads carry, the level it
stands at (2, 1, 0 of R357; 3 before its first read), the entry read last, and who waits for it. -/
structure Walk where
  key : PageKey
  /-- a drop of its page's translations has come since it began, so that it must walk again (R363) -/
  again : Bool
  hq : BitVec 6
  level : Nat
  /-- the address of the entry it reads, and the entry once it has come -/
  at_ : Nat
  entry : Option Word
  for_ : List WalkFor
  deriving DecidableEq, Repr

/-- A push that waits for a deque entry (R145): a continuation with the `dec` or `cancel` that caused it, or a
launch entry of the HQS. -/
structure PushWait where
  entry : TaskEntry
  cause : Option Request
  deriving DecidableEq, Repr

/-- A copy command under way (R181). `words` are words read whose write has no home yet. -/
structure CopyRun where
  cmd : CopyCmd
  /-- every word before this one has been asked for, and these after it -/
  next : Nat
  ahead : List Nat
  flight : Nat
  words : List (Nat × Word)
  fail : Option (Nat × BitVec 8)
  deriving DecidableEq, Repr

/-- An arrival command being performed (R354). -/
structure ArrivalRun where
  op : BitVec 2
  n : Nat
  addr : Word
  moved : Nat
  st : BitVec 2
  /-- cause of the fault, for ST 2 -/
  cause : BitVec 8
  /-- the arrivals that a spill has taken and not yet written, the oldest first -/
  held : List Packet
  deriving DecidableEq, Repr

/-- The machine-check register MCS (R353). -/
structure Mcs where
  valid : Bool
  src : BitVec 4
  cause : BitVec 8
  rpc : BitVec 48
  deriving DecidableEq, Repr

/-- A core (R30, R36, R143, R152, R174, R185, R330, R345, R362). -/
structure Core where
  /-- logical index when it is not the physical one (R336) -/
  logical : Option Nat
  regs : List (Nat × Word)
  slots : List (Nat × Slot)
  tiles : List (Nat × TileState)
  sa : BitVec 7
  swl : BitVec 32
  oac : BitVec 20
  aqhw : BitVec 6
  tsm : BitVec 16
  dsb : BitVec 48
  dsn : BitVec 21
  tail : BitVec 8
  head : BitVec 8
  log : BitVec 3
  ringBase : BitVec 11
  vd : List (Nat × Word)
  /-- the descriptor last written, its former value and the stage-5 cycle of the write (R44) -/
  vdOld : Option (Nat × Word × Nat)
  /-- units returned and held for parked slots (R182) -/
  saHeld : Nat
  deque : List TaskEntry
  /-- entries of the deque, from the top, that lie in the spill area (R143), and the places of its ring that they
  take, in the same order (R144) -/
  spilled : Nat
  spillAt : List Nat
  /-- the place that the topmost hardware entry is being written to, and whether that entry is still the one -/
  spilling : Option (Nat × Bool)
  /-- the place that is being read back -/
  reading : Option Nat
  latchTask : Option TaskEntry
  cursorBlock : Option Nat
  cursorDie : Option Nat
  cursorModule : Option Nat
  pushes : List PushWait
  arrivals : List Packet
  /-- queues of the travellers that lie in the spill area (R323, R354) -/
  spilledArrivals : List (BitVec 6)
  arrivalRun : Option ArrivalRun
  /-- a `stf` has filled the arrival command word while a command was under way (R354) -/
  acw : Bool
  sendsOut : Nat
  ctxOut : Nat
  copyQueue : List CopyCmd
  copyRun : Option CopyRun
  vecQueue : List VecJob
  vecRun : Option VecJob
  bank : List Request
  tlb : List TlbEntry
  walks : List Walk
  /-- pages that a walk for an agent has not found; the agent takes its fault from here -/
  noPage : List (Agent × PageKey)
  /-- keys to drop at the next rotation boundary, by the TLBI operation that asked (R363) -/
  drops : List (BitVec 64)
  /-- the cycle after that of the last drop; accesses translated before it may have used a dropped entry (R363) -/
  lastDrop : Nat
  icache : List (Nat × List Byte)
  fills : List (BitVec 6 × Word)
  mcs : Mcs
  /-- owner fields OWNp (R330): 7 bits each -/
  owners : List (Nat × BitVec 7)
  frozen : BitVec 64
  /-- stopped for a pre-emption that has not yet copied the context (R336) -/
  saving : Option (Option Nat)
  /-- stopped threads to run again when the context is restored -/
  wasActive : List Nat
  /-- the context has left: saved (`none`) or moved to a physical core (R337, R338) -/
  gone : Option (Option Nat)
  /-- requests held by a forwarding entry, in arrival order (R337) -/
  forwards : List Instr
  retired : Bool
  /-- the cycle after the one in which the core last took its turn -/
  turn : Nat
  /-- the order of the banks in a cycle (R272, R283): the cycle, the rank reached in it, and the banks used by accesses that
  rank before the vector unit -/
  bankAt : Nat
  bankRank : Nat
  bankUsed : List Nat
  /-- the cycle after the one of the last read for a contraction (R283) -/
  sectorAt : Nat
  deriving DecidableEq, Repr

/-- A core after reset (R161, R234, R330, R345, R353). -/
def Core.reset : Core where
  logical := none
  regs := []
  slots := []
  tiles := []
  sa := 64
  swl := 65536
  oac := 0
  aqhw := 24
  tsm := 0
  dsb := 0
  dsn := 0
  tail := 0
  head := 0
  log := 4
  ringBase := 0x7C0
  vd := []
  vdOld := none
  saHeld := 0
  deque := []
  spilled := 0
  spillAt := []
  spilling := none
  reading := none
  latchTask := none
  cursorBlock := none
  cursorDie := none
  cursorModule := none
  pushes := []
  arrivals := []
  spilledArrivals := []
  arrivalRun := none
  acw := false
  sendsOut := 0
  ctxOut := 0
  copyQueue := []
  copyRun := none
  vecQueue := []
  vecRun := none
  bank := []
  tlb := []
  walks := []
  noPage := []
  drops := []
  lastDrop := 0
  icache := []
  fills := []
  mcs := { valid := false, src := 0, cause := 0, rpc := 0 }
  owners := []
  frozen := 0
  saving := none
  wasActive := []
  gone := none
  forwards := []
  retired := false
  turn := 0
  bankAt := 0
  bankRank := 0
  bankUsed := []
  sectorAt := 0

/-- A saved context (R336): the logical core, the core, its local store's bytes and full/empty bits by offset, and where
it was written. -/
structure Saved where
  lcore : Nat
  core : Core
  bytes : List Host.Cell
  fe : List (Nat × Bool)
  ctx : BitVec 48
  deriving DecidableEq, Repr

/-- A die's clock, collective engine and power (R54, R224, R378, R399, R400). -/
structure Die where
  running : Bool
  cyc : Nat
  step : Nat
  clamp : Bool
  temp : BitVec 12
  power : BitVec 16
  thr : BitVec 16
  /-- STEP was above 0 in the window under way (R400) -/
  slow : Bool
  gtb : BitVec 48
  gabort : BitVec 8
  coll : List EngineCmd
  deriving DecidableEq, Repr

def Die.reset : Die where
  running := false
  cyc := 0
  step := 0
  clamp := false
  temp := 0
  power := 0
  thr := 0
  slow := false
  gtb := 0
  gabort := 0
  coll := []

/-- A slice's class register (R332). -/
structure ClassReg where
  rb : BitVec 16
  wb : BitVec 16
  ql : BitVec 8
  wc : Bool
  deriving DecidableEq, Repr

def ClassReg.reset : ClassReg where
  rb := 1024
  wb := 128
  ql := 64
  wc := true

/-- An indirection entry (R365). -/
structure Indirection where
  v : Bool
  tier : Bool
  mv : Bool
  ret : Bool
  loc : BitVec 27
  deriving DecidableEq, Repr

def Indirection.reset : Indirection where
  v := false
  tier := false
  mv := false
  ret := false
  loc := 0

/-- A frame move under way (R367): the frame, the next sector, and the page it goes to. -/
structure MoveRun where
  frame : Nat
  sector : Nat
  tier : Bool
  loc : BitVec 27
  retire : Bool
  deriving DecidableEq, Repr

/-- A memory slice (R332, R364-R368, R394-R397). -/
structure Slice where
  classes : List (Nat × ClassReg)
  readUsed : List (Nat × Nat)
  writeUsed : List (Nat × Nat)
  /-- requests that have come and wait to be served, in order, with their class -/
  waiting : List (Nat × Request)
  /-- the cycle after the one in which it last served a request (R332) -/
  served : Nat
  pressure : BitVec 4
  ind : List (Nat × Indirection)
  hot : BitVec 16
  epoch : BitVec 16
  maxmv : BitVec 8
  tierEn : Bool
  counts : List (Nat × Nat)
  moves : List MoveRun
  /-- sectors in the write buffer, by sector number of the device-physical address (R368) -/
  buffer : List Nat
  ce : BitVec 16
  lce : BitVec 8
  ue : BitVec 8
  lastf : BitVec 27
  period : BitVec 24
  rthr : BitVec 8
  scrubEn : Bool
  hotList : List (Nat × Nat)
  retreq : Word
  failed : List Nat
  /-- the patrol's next sector with the cycle from which it is read, and those of the scrub of the hot list (R395) -/
  patrol : Option (Nat × Nat)
  patrolAt : Nat
  hotScrub : Option (Nat × Nat)
  hotAt : Nat
  /-- the cycles at which the budgets refill and the epoch ends; 0 when nothing has been counted yet (R332, R366) -/
  refillAt : Nat
  epochAt : Nat
  /-- the cycle in which the scores halve next (R396) -/
  halveAt : Nat
  /-- sectors that system cores have load-reserved and that nothing has written since, with the core (R281) -/
  reserved : List (Nat × Nat)
  deriving DecidableEq, Repr

def Slice.reset : Slice where
  classes := []
  readUsed := []
  writeUsed := []
  waiting := []
  served := 0
  pressure := 0
  ind := []
  hot := 256
  epoch := 16
  maxmv := 8
  tierEn := true
  counts := []
  moves := []
  buffer := []
  ce := 0
  lce := 0
  ue := 0
  lastf := 0
  period := 4096
  rthr := 64
  scrubEn := true
  hotList := []
  retreq := 0
  failed := []
  patrol := none
  patrolAt := 0
  hotScrub := none
  hotAt := 0
  refillAt := 0
  epochAt := 0
  halveAt := 0
  reserved := []

/-- The states of a hardware queue slot (R323). -/
inductive HwState
  | free | mapped | draining | frozen
  deriving DecidableEq, Repr

/-- How far a launch has come (R327, R328): the task list is read; the cores of the domain are prepared, the head of the
list being the current one, which has been found ready or not; the entries are pushed and started; the tasks run; the store
to DONE is on its way. -/
inductive LaunchStage
  | list
  | cores (left : List Nat) (ready : Bool)
  | tasks (left : List LaunchEntry)
  | running
  | ending
  deriving DecidableEq, Repr

/-- A packet under way (R326-R328): its eight words, the entries of its task list, its DONE address and whether a store
there is owed, and the status it will store. -/
structure Launch where
  stage : LaunchStage
  packet : List Word
  entries : List LaunchEntry
  done : Word
  store : Bool
  status : BitVec 8
  deriving DecidableEq, Repr

/-- A hardware queue slot (R321-R325, R334). -/
structure HwSlot where
  st : HwState
  uq : Nat
  ring : Word
  rlog : Nat
  rd : BitVec 32
  weight : Nat
  stl : BitVec 2
  cls : BitVec 2
  ptb : Word
  quantum : Nat
  left : Nat
  launch : Option Launch
  /-- hub cycle of the last progress, for the watchdog -/
  progress : Nat
  deriving DecidableEq, Repr

def HwSlot.reset : HwSlot where
  st := .free
  uq := 0
  ring := 0
  rlog := 6
  rd := 0
  weight := 1
  stl := 0
  cls := 0
  ptb := 0
  quantum := 3000000
  left := 0
  launch := none
  progress := 0

/-- A Colonnade port (R403). -/
structure Port where
  en : Bool
  up : Bool
  lat : BitVec 16
  fails : Nat
  deriving DecidableEq, Repr

def Port.reset : Port where
  en := true
  up := false
  lat := 0
  fails := 0

/-- A key lookup unit and row-gather pipeline with their queue (R224, R295). -/
abbrev StackQueue := List EngineCmd

/-- The accesses of an agent's piece of work so far (R225, R278, R328): the bytes that its reads have brought, the accesses
that have been sent, those still on their way, and the failures with their INFO, in the order found. -/
structure Run where
  got : List (AccKey × List Byte)
  sent : List AccKey
  out : List AccKey
  fails : List (BitVec 8 × Nat)
  deriving DecidableEq, Repr

def Run.start : Run where
  got := []
  sent := []
  out := []
  fails := []

/-- The hubs, the HQS, the host port, the security and boot registers (R325, R361, R362, R378-R400). -/
structure Hub where
  /-- H0, with the HQS, has left reset, and its cycle counter; the same of H1 (R54) -/
  running : Bool
  cyc : Nat
  running1 : Bool
  cyc1 : Nat
  qtb : BitVec 48
  dbell : BitVec 16
  hcmd : Word
  hctx : BitVec 48
  wdog : BitVec 32
  stkt : BitVec 48
  hw : List (Nat × HwSlot)
  /-- user queues that are active and wait for a hardware slot, in order of their doorbells -/
  active : List Nat
  fwtb : BitVec 48
  tlbi : Word
  /-- MODRT of each hub, by the hub's number times 256 plus the module's (R380) -/
  modrt : List (Nat × Word)
  impt : List (Nat × Word)
  delivered : List (Nat × Nat)
  /-- the sequence number of this module's next request to another module (R380) -/
  colSeq : Nat
  hwin : BitVec 48
  msix : BitVec 16
  msixSent : List (BitVec 16)
  sysc0 : List SyscMsg
  sysc1 : List SyscMsg
  notices : List Notice
  ports : List (Nat × Port)
  linkFails : List (Nat × Nat)
  bridgeFails : List (Nat × Nat)
  level : BitVec 2
  src : BitVec 8
  alLock : Bool
  lvl0 : BitVec 2
  lvl1 : BitVec 2
  lvl2 : BitVec 2
  lvl3 : BitVec 2
  lvl5 : BitVec 2
  /-- the key agreement of R391 is under way; the module's keys exist -/
  keysAgreed : Bool
  keysErased : Bool
  heldInReset : Bool
  limit : BitVec 16
  win : BitVec 16
  /-- the hub cycle in which the control window ends (R399) -/
  winAt : Nat
  retired : List Nat
  cret : BitVec 13
  /-- boot (R384-R388) -/
  stage : Nat
  bootStopped : Bool
  flashA : List (Nat × Option BootImage)
  flashB : List (Nat × Option BootImage)
  recovery : Option BootImage
  mr : List (Nat × BitVec 384)
  svn : List (Nat × Nat)
  fuses : List (Nat × Nat)
  /-- writes that have gone out from the host port, by address, in the order of performing (R382) -/
  hostOut : List (Nat × List Byte)
  /-- frames that have gone out from the Colonnade ports, by port (R380) -/
  colOut : List (Nat × ColFrame)
  /-- answers of the system cores' accesses: the core, the access's number and the value (R281) -/
  sysGot : List (Nat × Nat × Word)
  /-- reservations of the system cores in the SRAM: the core, and the 64-byte sector of its key (R281, R383) -/
  sysHeld : List (Nat × Nat)
  /-- user queues whose descriptor the HQS reads next with a failure (R369, R393) -/
  descLost : List Nat
  /-- values that reads through BAR2 have returned to the host, by offset (R381) -/
  hostGot : List (Nat × Word)
  deriving DecidableEq, Repr

/-- The hub and HQS registers after reset (R325, R361, R362, R388-R390, R399, R403). -/
def Hub.reset : Hub where
  running := false
  cyc := 0
  running1 := false
  cyc1 := 0
  qtb := 0
  dbell := 0
  hcmd := 0
  hctx := 0
  wdog := 0
  stkt := 0
  hw := []
  active := []
  fwtb := 0
  tlbi := 0
  modrt := []
  impt := []
  delivered := []
  colSeq := 0
  hwin := 0
  msix := 0
  msixSent := []
  sysc0 := []
  sysc1 := []
  notices := []
  ports := []
  linkFails := []
  bridgeFails := []
  level := 0
  src := 0
  alLock := false
  lvl0 := 3
  lvl1 := 2
  lvl2 := 2
  lvl3 := 1
  lvl5 := 2
  keysAgreed := false
  keysErased := false
  heldInReset := false
  limit := 15000
  win := 10
  winAt := 0
  retired := []
  cret := 0
  stage := 0
  bootStopped := false
  flashA := []
  flashB := []
  recovery := none
  mr := []
  svn := []
  fuses := []
  hostOut := []
  colOut := []
  sysGot := []
  sysHeld := []
  descLost := []
  hostGot := []

/-- What an instruction that goes on after a wait brings with it: the cycle from which it has been held, and the view
descriptors that it has sampled (R44, R182). -/
structure Again where
  since : Option Nat
  views : Option (List (Nat × Word))
  deriving DecidableEq, Repr

/-- The issue under way (R17): the physical core and slot, the PC, the next-instruction address and the instruction, and what
one that goes on after a wait brings. -/
structure Issue where
  core : Nat
  slot : Nat
  pc : Word
  next : Word
  instr : Option Instr
  again : Option Again
  deriving DecidableEq, Repr

/-- How far a run of forced choices has come: the steps under way taken since the last tick, and the clocks that have counted,
once for each cycle (R273). DESIGN CHOICE (log 3). -/
structure Sweep where
  steps : Nat
  ticks : List Nat
  deriving DecidableEq, Repr

def Sweep.start : Sweep where
  steps := 0
  ticks := []

/-- The whole module. -/
structure State where
  /-- every byte of memory: device-physical address `pa` has key `pa`, byte `o` of physical core `p`'s local store has
  key 2^43 + p * 2^17 + o; an unlisted key reads 0 -/
  mem : List Host.Cell
  /-- full/empty bits by word key: an unlisted word is full (R161) -/
  fe : List (Nat × Bool)
  cores : List (Nat × Core)
  dies : List (Nat × Die)
  slices : List (Nat × Slice)
  klus : List (Nat × StackQueue)
  hub : Hub
  /-- logical core to physical core, where they differ (R336) -/
  place : List (Nat × Nat)
  /-- contexts saved by HCMD OP 3, by where they were written (R336, R338) -/
  saved : List (Nat × Saved)
  /-- the work of the agents under way -/
  runs : List (Agent × Run)
  /-- words of other modules and of the host as last seen from here, with their full/empty bits (R268, R275, R277).
  DESIGN CHOICE (log 4) -/
  outMem : List (Home × Word)
  outFull : List (Home × Bool)
  cur : Issue
  /-- instructions whose walk has completed, or whose wait is over, and that go on in this cycle (R18, R260, R263) -/
  walked : List Issue
  /-- steps of the other agents that are under way, and inputs that have arrived. DESIGN CHOICE (log 2) -/
  due : List Instr
  /-- free values and choices taken. DESIGN CHOICE (log 3) -/
  choices : Nat
  /-- moves made, for the fairness of R273. DESIGN CHOICE (log 3) -/
  rounds : Nat
  sweep : Sweep
  deriving DecidableEq, Repr

/-- The module at power-on (R387). No die has left reset and nothing is listed in memory; the one step due is the
power-on itself. -/
def State.reset : State where
  mem := []
  fe := []
  cores := []
  dies := []
  slices := []
  klus := []
  hub := Hub.reset
  place := []
  saved := []
  runs := []
  outMem := []
  outFull := []
  cur := { core := 0, slot := 0, pc := 0, next := 0, instr := none, again := none }
  walked := []
  due := [.powerOnReset]
  choices := 0
  rounds := 0
  sweep := Sweep.start

/-- Why the machine stands still. -/
inductive Fault
  /-- Raised by `step` alone, when an alarm of level 3 holds the module in reset and power has not been removed
  (R391). Safe: the manual gives the module no further step. -/
  | heldInReset
  deriving DecidableEq, Repr

/-- Why a step has no meaning. -/
inductive Refusal
  /-- Raised by `exec` alone, for a constructor whose meaning is not written. Safe. -/
  | notModelled (mnemonic : String)
  deriving DecidableEq, Repr

end Sys2Proof.Machine
end

