-- ==== Sys2Proof/Machine/Sparse.lean ====
section
/-! DEFINITION. Sparse maps over natural keys, the memory and the full/empty bits, and the accessors of cores, slots,
dies and slices. A map lists the entries that differ from its default, with keys strictly rising. -/

namespace Sys2Proof.Machine

/-- The value at a key, or the default. -/
def Sparse.get {α : Type} (d : α) : List (Nat × α) → Nat → α
  | [], _ => d
  | e :: m, k => if e.1 = k then e.2 else Sparse.get d m k

/-- The map without a key. -/
def Sparse.drop {α : Type} (k : Nat) : List (Nat × α) → List (Nat × α)
  | [] => []
  | e :: m => if e.1 = k then Sparse.drop k m else e :: Sparse.drop k m

/-- The map with an entry placed before the first larger key. -/
def Sparse.insert {α : Type} (k : Nat) (v : α) : List (Nat × α) → List (Nat × α)
  | [] => [(k, v)]
  | e :: m => if k < e.1 then (k, v) :: e :: m else e :: Sparse.insert k v m

/-- The map with a key set: writing the default removes the entry. -/
def Sparse.put {α : Type} [DecidableEq α] (d : α) (m : List (Nat × α)) (k : Nat) (v : α) : List (Nat × α) :=
  if v = d then Sparse.drop k m else Sparse.insert k v (Sparse.drop k m)

/-- Keys strictly rising above a bound and no entry equal to the default. -/
def Sparse.wfFrom {α : Type} [DecidableEq α] (d : α) : Option Nat → List (Nat × α) → Bool
  | _, [] => true
  | lo, e :: m =>
    (match lo with
      | .none => true
      | some j => decide (j < e.1)) && decide (e.2 ≠ d) && Sparse.wfFrom d (some e.1) m

/-- The canonical form. -/
def Sparse.wf {α : Type} [DecidableEq α] (d : α) (m : List (Nat × α)) : Bool := Sparse.wfFrom d .none m

/-- What an unlisted byte reads as. DESIGN CHOICE (log 7). -/
def Memory.blank : Byte := 0

/-- The canonical form of memory. -/
def Memory.wf (m : List Host.Cell) : Bool := Sparse.wf Memory.blank m

/-- One byte of memory. -/
def Memory.byte (m : List Host.Cell) (k : Nat) : Byte := Sparse.get Memory.blank m k

/-- Memory with one byte written. -/
def Memory.setByte (m : List Host.Cell) (k : Nat) (v : Byte) : List Host.Cell := Sparse.put Memory.blank m k v

/-- `n` bytes from a key, the lowest first. -/
def Memory.bytes (m : List Host.Cell) (k : Nat) : Nat → List Byte
  | 0 => []
  | n + 1 => Memory.byte m k :: Memory.bytes m (k + 1) n

/-- Memory with a list of bytes written from a key upward. -/
def Memory.setBytes (m : List Host.Cell) (k : Nat) : List Byte → List Host.Cell
  | [] => m
  | b :: bs => Memory.setBytes (Memory.setByte m k b) (k + 1) bs

/-- A little-endian value (R4). -/
def leNat : List Byte → Nat
  | [] => 0
  | b :: bs => b.toNat + 256 * leNat bs

/-- The low `n` bytes of a number, the lowest first (R4). -/
def leList (n v : Nat) : List Byte :=
  match n with
  | 0 => []
  | n + 1 => BitVec.ofNat 8 v :: leList n (v / 256)

/-- A value of `n` bytes at a key, zero-extended. -/
def Memory.load (m : List Host.Cell) (k n : Nat) : Word := BitVec.ofNat 64 (leNat (Memory.bytes m k n))

/-- Memory with the low `n` bytes of a word stored at a key. -/
def Memory.store (m : List Host.Cell) (k n : Nat) (v : Word) : List Host.Cell := Memory.setBytes m k (leList n v.toNat)

/-- The key of the first byte of every local store: byte `o` of physical core `p` has key 2^43 + p * 2^17 + o. -/
def localKey (core off : Nat) : Nat := 2 ^ 43 + core * 2 ^ 17 + off

/-- The memory key of a home in this module (`none` for a word of another module or of the host). -/
def homeKey : Home → Option Nat
  | .ls c o => some (localKey c o)
  | .dev pa => some pa
  | .remote _ _ => none
  | .host _ => none

/-- The full/empty bit of the word that holds a key (R161). -/
def State.full (s : State) (k : Nat) : Bool := Sparse.get true s.fe (k / 8)

def State.setFull (s : State) (k : Nat) (v : Bool) : State := { s with fe := Sparse.put true s.fe (k / 8) v }

/-- The aligned word at a key. -/
def State.word (s : State) (k : Nat) : Word := Memory.load s.mem k 8

def State.setWord (s : State) (k : Nat) (v : Word) : State := { s with mem := Memory.store s.mem k 8 v }

/-- A completion store: the word and its full bit together (R161, R225). -/
def State.setWordFull (s : State) (k : Nat) (v : Word) : State := (s.setWord k v).setFull k true

def State.setBytes (s : State) (k : Nat) (bs : List Byte) : State := { s with mem := Memory.setBytes s.mem k bs }

/-- `n` consecutive words from a key. -/
def State.words (s : State) (k : Nat) : Nat → List Word
  | 0 => []
  | n + 1 => s.word k :: s.words (k + 8) n

/-- Writes consecutive words from a key. -/
def State.setWords (s : State) (k : Nat) : List Word → State
  | [] => s
  | w :: ws => (s.setWord k w).setWords (k + 8) ws

/-- Sets the bits of `n` consecutive words. -/
def State.setFulls (s : State) (k : Nat) (v : Bool) : Nat → State
  | 0 => s
  | n + 1 => (s.setFull k v).setFulls (k + 8) v n

def State.core (s : State) (p : Nat) : Core := Sparse.get Core.reset s.cores p
def State.setCore (s : State) (p : Nat) (c : Core) : State := { s with cores := Sparse.put Core.reset s.cores p c }

def Core.slot (c : Core) (n : Nat) : Slot := Sparse.get Slot.reset c.slots n
def Core.setSlot (c : Core) (n : Nat) (t : Slot) : Core := { c with slots := Sparse.put Slot.reset c.slots n t }

def Core.reg (c : Core) (i : Nat) : Word := Sparse.get 0 c.regs i
def Core.setReg (c : Core) (i : Nat) (v : Word) : Core := { c with regs := Sparse.put 0 c.regs i v }

def Core.tile (c : Core) (t : Tile) : TileState := Sparse.get TileState.reset c.tiles t.toNat
def Core.setTile (c : Core) (t : Tile) (v : TileState) : Core :=
  { c with tiles := Sparse.put TileState.reset c.tiles t.toNat v }

def State.slot (s : State) (p n : Nat) : Slot := (s.core p).slot n
def State.setSlot (s : State) (p n : Nat) (t : Slot) : State := s.setCore p ((s.core p).setSlot n t)

def State.tile (s : State) (p : Nat) (t : Tile) : TileState := (s.core p).tile t
def State.setTile (s : State) (p : Nat) (t : Tile) (v : TileState) : State := s.setCore p ((s.core p).setTile t v)

def State.die (s : State) (d : Nat) : Die := Sparse.get Die.reset s.dies d
def State.setDie (s : State) (d : Nat) (v : Die) : State := { s with dies := Sparse.put Die.reset s.dies d v }

def State.slice (s : State) (i : Nat) : Slice := Sparse.get Slice.reset s.slices i
def State.setSlice (s : State) (i : Nat) (v : Slice) : State := { s with slices := Sparse.put Slice.reset s.slices i v }

def State.klu (s : State) (i : Nat) : StackQueue := Sparse.get [] s.klus i
def State.setKlu (s : State) (i : Nat) (v : StackQueue) : State := { s with klus := Sparse.put [] s.klus i v }

def State.hw (s : State) (q : BitVec 6) : HwSlot := Sparse.get HwSlot.reset s.hub.hw q.toNat
def State.setHub (s : State) (h : Hub) : State := { s with hub := h }
def State.setHw (s : State) (q : BitVec 6) (v : HwSlot) : State :=
  s.setHub { s.hub with hw := Sparse.put HwSlot.reset s.hub.hw q.toNat v }

/-- The cycle counter of a core's die (R54). -/
def State.cycle (s : State) (p : Nat) : Nat := (s.die (p / 1024)).cyc

/-- Puts a step of another agent under way. -/
def State.post (s : State) (e : Instr) : State := { s with due := s.due ++ [e] }

/-- Puts several steps under way. -/
def State.posts (s : State) (es : List Instr) : State := { s with due := s.due ++ es }

/-- The next free value's index, and the state that has used it up. -/
def State.draw (s : State) : Nat × State := (s.choices, { s with choices := s.choices + 1 })

/-- The slot of the issue under way. -/
def State.thr (s : State) : Slot := s.slot s.cur.core s.cur.slot

/-- Replaces the slot of the issue under way. -/
def State.setThr (s : State) (t : Slot) : State := s.setSlot s.cur.core s.cur.slot t

end Sys2Proof.Machine
end

