-- ==== Sys2Proof/Machine/Num.lean ====
section
/-! DEFINITION. Numbers: exact values, the twelve formats, the six rounding modes, the flags and the grids (03_numbers.md,
R67-R92). A real value is exact until one encoding rounds it; every operation here is on natural numbers. -/

namespace Sys2Proof.Machine

/-- An exact value: NaN or NaR (signalling or not), a signed infinity, a signed zero, or a nonzero rational n/d. -/
inductive Num
  | nan (sig : Bool)
  | inf (neg : Bool)
  | zero (neg : Bool)
  | fin (neg : Bool) (n d : Nat)
  deriving DecidableEq, Repr

/-- A thread's rounding state: s.round, s.srs and the flags raised so far (R81, R83, R85). -/
structure Rs where
  mode : BitVec 3
  srs : BitVec 32
  fl : BitVec 8
  deriving DecidableEq, Repr

/-! The flags of s.nflag (R85). -/

def flagNV : BitVec 8 := 0x01
def flagDZ : BitVec 8 := 0x02
def flagOF : BitVec 8 := 0x04
def flagUF : BitVec 8 := 0x08
def flagNX : BitVec 8 := 0x10
def flagPS : BitVec 8 := 0x20
def flagPZ : BitVec 8 := 0x40
def flagPRV : BitVec 8 := 0x80

/-- The flags with some raised. -/
def Rs.raise (r : Rs) (f : BitVec 8) : Rs := { r with fl := r.fl ||| f }

def Rs.raiseIf (r : Rs) (b : Bool) (f : BitVec 8) : Rs := if b then r.raise f else r

/-- The rounding state of RNE, whatever the thread's mode (R82). -/
def Rs.rne : Rs := { mode := 0, srs := 0, fl := 0 }

/-- One step of the stochastic-rounding state (R83). -/
def xorshift (x : BitVec 32) : BitVec 32 :=
  let x0 := if x = 0 then 0x2545F491#32 else x
  let x1 := x0 ^^^ (x0 <<< 13)
  let x2 := x1 ^^^ (x1 >>> 17)
  x2 ^^^ (x2 <<< 5)

/-- The step an element rounded in mode 5 takes (R84). -/
def Rs.step (r : Rs) : Rs := if r.mode = 5 then { r with srs := xorshift r.srs } else r

/-- Whether a magnitude between code `c` and the next, at the fraction `fn / fd` of the gap, rounds to the next
(R81, R83). `x` is the state of the step of mode 5. -/
def roundsUp (mode : BitVec 3) (x : Nat) (neg : Bool) (c fn fd : Nat) : Bool :=
  if fn = 0 then false
  else if mode = 1 then false
  else if mode = 2 then !neg
  else if mode = 3 then neg
  else if mode = 4 then decide (fd ≤ 2 * fn)
  else if mode = 5 then
    if neg then !decide (x < (fd - fn) * 2 ^ 32 / fd) else decide (x < fn * 2 ^ 32 / fd)
  else decide (fd < 2 * fn) || (decide (2 * fn = fd) && c % 2 == 1)

/-- The floor of log2 (n / d), for positive n and d. -/
def floorLog2 (n d : Nat) : Int :=
  let e : Int := (Nat.log2 n : Int) - (Nat.log2 d : Int)
  if n * 2 ^ (-e).toNat < d * 2 ^ e.toNat then e - 1 else e

/-- (n / d) / 2^u as a quotient: floor, remainder and divisor. -/
def scaleDiv (n d : Nat) (u : Int) : Nat × Nat × Nat :=
  let n' := n * 2 ^ (-u).toNat
  let d' := d * 2 ^ u.toNat
  (n' / d', n' % d', d')

/-- An IEEE format: precision, exponent of the smallest normal, exponent bits (R70). -/
structure Ieee where
  p : Nat
  emin : Int
  ebits : Nat
  deriving DecidableEq, Repr

def fp16 : Ieee := { p := 11, emin := -14, ebits := 5 }
def bf16 : Ieee := { p := 8, emin := -126, ebits := 8 }
def fp32 : Ieee := { p := 24, emin := -126, ebits := 8 }

/-- The code of infinity without its sign. -/
def Ieee.infCode (f : Ieee) : Nat := (2 ^ f.ebits - 1) * 2 ^ (f.p - 1)
def Ieee.signBit (f : Ieee) (neg : Bool) : Nat := if neg then 2 ^ (f.ebits + f.p - 1) else 0
def Ieee.nanCode (f : Ieee) : Nat := f.infCode + 2 ^ (f.p - 2)

/-- The exact value of an IEEE encoding (R70). -/
def Ieee.decode (f : Ieee) (v : Nat) : Num :=
  let neg := decide (v / 2 ^ (f.ebits + f.p - 1) % 2 = 1)
  let e := v / 2 ^ (f.p - 1) % 2 ^ f.ebits
  let m := v % 2 ^ (f.p - 1)
  if e = 2 ^ f.ebits - 1 then
    if m = 0 then .inf neg else .nan (decide (m < 2 ^ (f.p - 2)))
  else if e = 0 then
    if m = 0 then .zero neg
    else
      let u := f.emin - (f.p - 1 : Int)
      .fin neg (m * 2 ^ u.toNat) (2 ^ (-u).toNat)
  else
    let u := f.emin - (f.p - 1 : Int) + (e : Int) - 1
    .fin neg ((m + 2 ^ (f.p - 1)) * 2 ^ u.toNat) (2 ^ (-u).toNat)

/-- A nonzero rational rounded to an IEEE format (R71). `x` is the state of the step. -/
def Ieee.round (f : Ieee) (r : Rs) (neg : Bool) (n d : Nat) : Nat × Rs :=
  let x := r.srs.toNat
  let e := floorLog2 n d
  let eN := max e f.emin
  let q := scaleDiv n d (eN - (f.p - 1 : Int))
  let c := q.1 + (eN - f.emin).toNat * 2 ^ (f.p - 1)
  let c' := if roundsUp r.mode x neg c q.2.1 q.2.2 then c + 1 else c
  if f.infCode ≤ c' then
    let toInf := match r.mode.toNat with
      | 1 => false
      | 2 => !neg
      | 3 => neg
      | _ => true
    (f.signBit neg + (if toInf then f.infCode else f.infCode - 1), r.raise (flagOF ||| flagNX))
  else
    let inexact := decide (q.2.1 ≠ 0)
    let q2 := scaleDiv n d (e - (f.p - 1 : Int))
    let k2 := if roundsUp r.mode x neg q2.1 q2.2.1 q2.2.2 then q2.1 + 1 else q2.1
    let tiny := decide (e < f.emin) && !(decide (e = f.emin - 1) && decide (k2 = 2 ^ f.p))
    (f.signBit neg + c', (r.raiseIf inexact flagNX).raiseIf (inexact && tiny) flagUF)

/-- A value encoded in an IEEE format, after the step of mode 5 (R71). -/
def Ieee.encode (f : Ieee) (r : Rs) (v : Num) : Nat × Rs :=
  match v with
  | .nan sig => (f.nanCode, r.raiseIf sig flagNV)
  | .inf neg => (f.signBit neg + f.infCode, r)
  | .zero neg => (f.signBit neg, r)
  | .fin neg n d => f.round r neg n d

/-- The magnitude of a DY8 code m = 0..127 in units of 2^-19 (R72). -/
def dy8Mag (m : Nat) : Nat :=
  if m = 0 then 0
  else if 64 ≤ m then (16 + m % 16) * 2 ^ (m / 16 % 4 + 15)
  else if 32 ≤ m then (8 + m % 8) * 2 ^ (m / 8 % 4 + 12)
  else if 16 ≤ m then (4 + m % 4) * 2 ^ (m / 4 % 4 + 9)
  else if 8 ≤ m then (2 + m % 2) * 2 ^ (m / 2 % 4 + 6)
  else if 4 ≤ m then 2 ^ (m % 4 + 3)
  else if 2 ≤ m then 2 ^ (m % 2 + 1)
  else 1

/-- The largest code at or below `m` whose magnitude does not exceed n / d. -/
def dy8Floor (n d : Nat) : Nat → Nat
  | 0 => 0
  | m + 1 => if dy8Mag (m + 1) * d ≤ n * 2 ^ 19 then m + 1 else dy8Floor n d m

def dy8Decode (v : Nat) : Num :=
  let neg := decide (v / 128 % 2 = 1)
  if v % 128 = 0 then (if neg then .nan false else .zero false) else .fin neg (dy8Mag (v % 128)) (2 ^ 19)

/-- A value encoded in DY8 (R74). -/
def dy8Encode (r : Rs) (v : Num) : Nat × Rs :=
  match v with
  | .nan sig => (0x80, r.raiseIf sig flagNV)
  | .inf neg => (if neg then 0xFF else 0x7F, r.raise (flagOF ||| flagNX))
  | .zero _ => (0, r)
  | .fin neg n d =>
    if dy8Mag 127 * d < n * 2 ^ 19 then (if neg then 0xFF else 0x7F, r.raise (flagOF ||| flagNX))
    else
      let c := dy8Floor n d 127
      let fn := n * 2 ^ 19 - dy8Mag c * d
      let fd := (dy8Mag (c + 1) - dy8Mag c) * d
      let c' := if roundsUp r.mode r.srs.toNat neg c fn fd then c + 1 else c
      let r' := (r.raiseIf (decide (fn ≠ 0)) flagNX).raiseIf (decide (c' = 0)) flagUF
      (if c' = 0 then 0 else (if neg then 128 else 0) + c', r')

/-- The exact value of a PR32 word, and whether it is a reserved word (R77). -/
def pr32Decode (v : Nat) : Num × Bool :=
  let e := v / 2 ^ 20 % 4096
  let f := v % 2 ^ 20
  if e = 4095 then (.zero false, decide (f ≠ 0)) else (.fin false (2 ^ 20 + f) (2 ^ (20 + e)), false)

/-- A value encoded in PR32 (R78, R79). -/
def pr32Encode (r : Rs) (v : Num) : Nat × Rs :=
  match v with
  | .nan _ => (0xFFF00000, r.raise flagNV)
  | .inf true => (0xFFF00000, r.raise flagNV)
  | .inf false => (0x000FFFFF, r.raise (flagPS ||| flagNX))
  | .zero _ => (0xFFF00000, r)
  | .fin true _ _ => (0xFFF00000, r.raise flagNV)
  | .fin false n d =>
    let e := floorLog2 n d
    let q := scaleDiv n d (e - 20)
    let k := if roundsUp r.mode r.srs.toNat false q.1 q.2.1 q.2.2 then q.1 + 1 else q.1
    let e' := if k = 2 ^ 21 then e + 1 else e
    if 0 < e' then (0x000FFFFF, r.raise (flagPS ||| flagNX))
    else if e' < -4094 then (0xFFF00000, r.raise (flagPZ ||| flagNX))
    else ((-e').toNat * 2 ^ 20 + k % 2 ^ 20, r.raiseIf (decide (q.2.1 ≠ 0)) flagNX)

/-- An exact integer as a value. -/
def Num.ofInt (i : Int) : Num := if i = 0 then .zero false else .fin (decide (i < 0)) i.natAbs 1

/-- n * 2^a as a value (R86, R91). -/
def Num.ofGrid (n a : Int) : Num :=
  if n = 0 then .zero false else .fin (decide (n < 0)) (n.natAbs * 2 ^ a.toNat) (2 ^ (-a).toNat)

/-- An integer format's range. -/
structure IntRange where
  lo : Int
  hi : Int
  deriving DecidableEq, Repr

def IntRange.signed (w : Nat) : IntRange := { lo := -(2 ^ (w - 1) : Int), hi := 2 ^ (w - 1) - 1 }
def IntRange.byteU : IntRange := { lo := 0, hi := 255 }

/-- An integer saturated to a range, and whether it was outside. -/
def IntRange.clamp (g : IntRange) (i : Int) : Int × Bool :=
  if i < g.lo then (g.lo, true) else if g.hi < i then (g.hi, true) else (i, false)

/-- A value rounded to an integer in the mode and saturated (R69); `sat` is the flag a saturation sets. A result that is
inexact and saturates too sets NX beside `sat`: DESIGN CHOICE (log 56). -/
def IntRange.encode (g : IntRange) (sat : BitVec 8) (r : Rs) (v : Num) : Int × Rs :=
  match v with
  | .nan _ => (0, r.raise flagNV)
  | .inf neg => (if neg then g.lo else g.hi, r.raise sat)
  | .zero _ => (0, r)
  | .fin neg n d =>
    let c := n / d
    let c' := if roundsUp r.mode r.srs.toNat neg c (n % d) d then c + 1 else c
    let i := g.clamp (if neg then -(c' : Int) else (c' : Int))
    (i.1, (r.raiseIf (decide (n % d ≠ 0)) flagNX).raiseIf i.2 sat)

/-! Format codes (R67). -/

/-- The bytes of an element of a format (R67). The reserved codes 0xC to 0xF have no width in the spec: the checks that come
before the one of the code (R127 rows 6 and 7) take it as one byte. DESIGN CHOICE (log 60). -/
def fmtBytes (f : Fmt) : Nat :=
  match f.toNat with
  | 5 | 6 | 9 => 2
  | 7 | 8 | 10 => 4
  | 11 => 8
  | _ => 1

/-- The element's IEEE format. -/
def fmtIeee (f : Fmt) : Option Ieee :=
  match f.toNat with
  | 5 => some fp16
  | 6 => some bf16
  | 7 => some fp32
  | _ => none

/-- The element's integer range; I8S elements are INT8 elements (R67). -/
def fmtInt (f : Fmt) : Option IntRange :=
  match f.toNat with
  | 0 | 4 => some (.signed 8)
  | 1 => some .byteU
  | 9 => some (.signed 16)
  | 10 => some (.signed 32)
  | 11 => some (.signed 64)
  | _ => none

/-- Whether a code names an unscaled integer format. -/
def fmtIsInt (f : Fmt) : Bool := (fmtInt f).isSome && f != 4

/-- A value of `w` bits read as two's complement. -/
def signedOf (w v : Nat) : Int := if 2 * (v % 2 ^ w) < 2 ^ w then (v % 2 ^ w : Int) else (v % 2 ^ w : Int) - 2 ^ w

/-- The exact value of an element's bits, and whether it is a reserved PR32 word (R67-R77). -/
def fmtDecode (f : Fmt) (v : Nat) : Num × Bool :=
  match f.toNat with
  | 0 | 4 => (Num.ofInt (signedOf 8 v), false)
  | 1 => (Num.ofInt (v % 256), false)
  | 2 | 3 => (dy8Decode v, false)
  | 5 => (fp16.decode v, false)
  | 6 => (bf16.decode v, false)
  | 7 => (fp32.decode v, false)
  | 8 => pr32Decode v
  | 9 => (Num.ofInt (signedOf 16 v), false)
  | 10 => (Num.ofInt (signedOf 32 v), false)
  | _ => (Num.ofInt (signedOf 64 v), false)

/-- A value encoded in a format, in the mode, without the step (R69-R79). The result is the element's bits. -/
def fmtEncodeRaw (f : Fmt) (sat : BitVec 8) (r : Rs) (v : Num) : Nat × Rs :=
  match fmtInt f with
  | some g =>
    let q := g.encode sat r v
    ((q.1 % 2 ^ (8 * fmtBytes f)).toNat, q.2)
  | none =>
    match fmtIeee f with
    | some i => i.encode r v
    | none => if f = 8 then pr32Encode r v else dy8Encode r v

/-- One element rounded: the step, if the operation rounds (R84), then the encoding. -/
def fmtEncode (f : Fmt) (sat : BitVec 8) (steps : Bool) (r : Rs) (v : Num) : Nat × Rs :=
  fmtEncodeRaw f sat (if steps then r.step else r) v

/-- The element's exact value times its block's BF16 scale (R75). A zero element of a block with an infinite scale gives
the NaN without a flag: DESIGN CHOICE (log 56). -/
def scaledValue (f : Fmt) (v scale : Nat) : Num :=
  match (fmtDecode f v).1, bf16.decode scale with
  | _, .nan sig => .nan sig
  | .nan _, _ => .nan false
  | .zero _, .inf _ => .nan false
  | .inf a, .inf b => .inf (a != b)
  | .fin a _ _, .inf b => .inf (a != b)
  | .inf a, .zero b => .inf (a != b)
  | .inf a, .fin b _ _ => .inf (a != b)
  | .zero a, .zero b => .zero (a != b)
  | .zero a, .fin b _ _ => .zero (a != b)
  | .fin a _ _, .zero b => .zero (a != b)
  | .fin a n d, .fin b m e => .fin (a != b) (n * m) (d * e)

/-! Exact arithmetic. -/

def Num.isSig : Num → Bool
  | .nan s => s
  | _ => false

def Num.isNan : Num → Bool
  | .nan _ => true
  | _ => false

def Num.neg : Num → Num
  | .nan s => .nan s
  | .inf a => .inf !a
  | .zero a => .zero !a
  | .fin a n d => .fin (!a) n d

def Num.abs : Num → Num
  | .nan s => .nan s
  | .inf _ => .inf false
  | .zero _ => .zero false
  | .fin _ n d => .fin false n d

/-- The signed numerator over a common denominator of a finite value. -/
def Num.numer : Num → Int
  | .fin neg n _ => if neg then -(n : Int) else n
  | _ => 0

def Num.denom : Num → Nat
  | .fin _ _ d => d
  | _ => 1

/-- A rational as a value; an exact zero has the given sign. -/
def Num.ofRat (zneg : Bool) (n : Int) (d : Nat) : Num :=
  if n = 0 then .zero zneg else .fin (decide (n < 0)) n.natAbs d

/-- The exact sum, and whether the operation is invalid (R71). An exact zero sum of nonzero values is +0, and -0 in RDN. -/
def Num.add (mode : BitVec 3) (a b : Num) : Num × Bool :=
  match a, b with
  | .nan s, .nan t => (.nan false, s || t)
  | .nan s, _ => (.nan false, s)
  | _, .nan t => (.nan false, t)
  | .inf x, .inf y => if x = y then (.inf x, false) else (.nan false, true)
  | .inf x, _ => (.inf x, false)
  | _, .inf y => (.inf y, false)
  | .zero x, .zero y => (.zero (if x = y then x else mode == 3), false)
  | .zero _, w => (w, false)
  | w, .zero _ => (w, false)
  | v, w =>
    (Num.ofRat (mode == 3) (v.numer * w.denom + w.numer * v.denom) (v.denom * w.denom), false)

/-- The exact product, and whether the operation is invalid. -/
def Num.mul (a b : Num) : Num × Bool :=
  match a, b with
  | .nan s, .nan t => (.nan false, s || t)
  | .nan s, _ => (.nan false, s)
  | _, .nan t => (.nan false, t)
  | .zero _, .inf _ => (.nan false, true)
  | .inf _, .zero _ => (.nan false, true)
  | .inf x, .inf y => (.inf (x != y), false)
  | .inf x, .fin y _ _ => (.inf (x != y), false)
  | .fin x _ _, .inf y => (.inf (x != y), false)
  | .zero x, .zero y => (.zero (x != y), false)
  | .zero x, .fin y _ _ => (.zero (x != y), false)
  | .fin x _ _, .zero y => (.zero (x != y), false)
  | .fin x n d, .fin y m e => (.fin (x != y) (n * m) (d * e), false)

/-- A x B + C, exact (R201). For 0 x infinity with a quiet NaN as C the flag is open (`Config.fmaInvalid`). -/
def Num.fma (mode : BitVec 3) (a b c : Num) : Num × Bool :=
  let p := Num.mul a b
  let q := Num.add mode p.1 c
  (q.1, match c with
    | .nan s => s || a.isSig || b.isSig || (p.2 && !a.isNan && !b.isNan && Config.fmaInvalid)
    | _ => p.2 || q.2)

/-- The quotient, with the flags of R202. -/
def Num.div (a b : Num) : Num × BitVec 8 :=
  match a, b with
  | .nan s, .nan t => (.nan false, if s || t then flagNV else 0)
  | .nan s, _ => (.nan false, if s then flagNV else 0)
  | _, .nan t => (.nan false, if t then flagNV else 0)
  | .inf _, .inf _ => (.nan false, flagNV)
  | .zero _, .zero _ => (.nan false, flagNV)
  | .inf x, .zero y => (.inf (x != y), 0)
  | .inf x, .fin y _ _ => (.inf (x != y), 0)
  | .fin x _ _, .zero y => (.inf (x != y), flagDZ)
  | .fin x _ _, .inf y => (.zero (x != y), 0)
  | .zero x, .inf y => (.zero (x != y), 0)
  | .zero x, .fin y _ _ => (.zero (x != y), 0)
  | .fin x n d, .fin y m e => (.fin (x != y) (n * e) (d * m), 0)

/-- The integer square root, bit by bit from bit `b` down. -/
def isqrtFrom (n : Nat) : Nat → Nat → Nat
  | 0, r => if (r + 1) * (r + 1) ≤ n then r + 1 else r
  | b + 1, r => let r' := r + 2 ^ (b + 1)
    isqrtFrom n b (if r' * r' ≤ n then r' else r)

def isqrt (n : Nat) : Nat := isqrtFrom n (Nat.log2 n / 2 + 1) 0

/-- How many fraction bits the roots, exponentials and logarithms carry. -/
def wide : Nat := 400

/-- A value that lies strictly between m and m + 1 in units of 2^-k, as its midpoint: no rounding boundary of a format
lies strictly between two such neighbours. -/
def between (neg : Bool) (m k : Nat) : Num := .fin neg (2 * m + 1) (2 ^ (k + 1))

/-- The square root of a positive rational. -/
def sqrtRat (n d : Nat) : Num :=
  let x := n * 2 ^ (2 * wide)
  let m := isqrt (x / d)
  if m * m * d = x then .fin false m (2 ^ wide) else between false m wide

def Num.sqrt (a : Num) : Num × BitVec 8 :=
  match a with
  | .nan s => (.nan false, if s then flagNV else 0)
  | .zero x => (.zero x, 0)
  | .inf false => (.inf false, 0)
  | .inf true => (.nan false, flagNV)
  | .fin true _ _ => (.nan false, flagNV)
  | .fin false n d => (sqrtRat n d, 0)

/-- 1 / sqrt x (R212). -/
def Num.rsqrt (a : Num) : Num × BitVec 8 :=
  match a with
  | .nan s => (.nan false, if s then flagNV else 0)
  | .zero x => (.inf x, flagDZ)
  | .inf false => (.zero false, 0)
  | .inf true => (.nan false, flagNV)
  | .fin true _ _ => (.nan false, flagNV)
  | .fin false n d => (sqrtRat d n, 0)

/-- The floor of 2^400 ln 2. -/
def ln2 : Nat :=
  1789879222497203190815761498240779176894896805856420935579692301363062920687047601279850318367644315849030039181347319086

/-- Adds the terms t, t y / (i + 1), ... of an exponential in units of 2^-wide. -/
def expSeries (y : Nat) : Nat → Nat → Nat → Nat → Nat
  | 0, _, _, acc => acc
  | k + 1, i, t, acc => expSeries y k (i + 1) (t * y / 2 ^ wide / (i + 1)) (acc + t)

/-- 2^f for f = fn / fd in [0, 1), in units of 2^-wide. -/
def exp2Frac (fn fd : Nat) : Nat := expSeries (fn * ln2 / fd) 100 0 (2 ^ wide) 0

/-- Adds the terms z^i / i, i odd, of an inverse hyperbolic tangent in units of 2^-wide. -/
def atanhSeries (z2 : Nat) : Nat → Nat → Nat → Nat → Nat
  | 0, _, _, acc => acc
  | k + 1, i, t, acc => atanhSeries z2 k (i + 2) (t * z2 / 2 ^ wide) (acc + t / i)

/-- log2 (1 + z), z = n / d positive with (1 + z) at most 2, in units of 2^-wide. -/
def log2Near (n d : Nat) : Nat :=
  let z := n * 2 ^ wide / (2 * d + n)
  2 * atanhSeries (z * z / 2 ^ wide) 140 1 z 0 * 2 ^ wide / ln2

/-- 2^a for a nonzero rational a (R201). -/
def exp2Rat (neg : Bool) (n d : Nat) : Num :=
  let i : Int := if neg then -((n + d - 1) / d : Nat) else (n / d : Nat)
  let fn : Nat := if neg then (d - n % d) % d else n % d
  if 1024 ≤ i then .fin false (2 ^ 1024) 1
  else if i < -1024 then .fin false 1 (2 ^ 1024)
  else if fn = 0 then .fin false (2 ^ i.toNat) (2 ^ (-i).toNat)
  else
    let m := exp2Frac fn d
    .fin false ((2 * m + 1) * 2 ^ i.toNat) (2 ^ (wide + 1) * 2 ^ (-i).toNat)

def Num.exp2 (a : Num) : Num × BitVec 8 :=
  match a with
  | .nan s => (.nan false, if s then flagNV else 0)
  | .inf true => (.zero false, 0)
  | .inf false => (.inf false, 0)
  | .zero _ => (.fin false 1 1, 0)
  | .fin neg n d => (exp2Rat neg n d, 0)

/-- log2 of a positive rational (R201). -/
def log2Rat (n d : Nat) : Num :=
  let e := floorLog2 n d
  let q := scaleDiv n d e
  if q.2.1 = 0 then Num.ofInt e
  else
    let m := log2Near q.2.1 q.2.2
    let v : Int := e * 2 ^ wide + m
    if 0 ≤ v then between false v.toNat wide else between true (-v - 1).toNat wide

def Num.log2 (a : Num) : Num × BitVec 8 :=
  match a with
  | .nan s => (.nan false, if s then flagNV else 0)
  | .zero _ => (.inf true, flagDZ)
  | .inf false => (.inf false, 0)
  | .inf true => (.nan false, flagNV)
  | .fin true _ _ => (.nan false, flagNV)
  | .fin false n d => (log2Rat n d, 0)

/-- log2 (2^x + 2^y) for rationals x >= y (R197): x + log2 (1 + 2^(y - x)). -/
def lse2Rat (x y : Num) : Num :=
  let den := x.denom * y.denom
  let delta : Int := x.numer * y.denom - y.numer * x.denom
  if delta = 0 then Num.ofRat false (x.numer + x.denom) x.denom
  else
    let w := exp2Rat true delta.natAbs den
    let t : Nat := if 380 * (den : Int) < delta then 0 else
      match w with
      | .fin _ n d => log2Near n d
      | _ => 0
    Num.ofRat false (x.numer * 2 ^ (wide + 1) + (2 * t + 1) * x.denom) (x.denom * 2 ^ (wide + 1))

/-- Whether a finite or infinite value is less than another (zeros equal). -/
def Num.lt (a b : Num) : Bool :=
  match a, b with
  | .nan _, _ => false
  | _, .nan _ => false
  | .inf x, .inf y => x && !y
  | .inf x, _ => x
  | _, .inf y => !y
  | v, w => decide (v.numer * w.denom < w.numer * v.denom)

/-- Whether two values are equal (zeros equal, NaN unequal). -/
def Num.eq (a b : Num) : Bool :=
  match a, b with
  | .nan _, _ => false
  | _, .nan _ => false
  | .inf x, .inf y => x == y
  | .inf _, _ => false
  | _, .inf _ => false
  | v, w => decide (v.numer * w.denom = w.numer * v.denom)

/-- Numbers with -0 below +0 (R202). -/
def Num.below (a b : Num) : Bool :=
  match a, b with
  | .zero x, .zero y => x && !y
  | _, _ => a.lt b

/-- log2 (2^a + 2^b) with the special cases of R197, and whether the operation is invalid. -/
def Num.lse2 (a b : Num) : Num × Bool :=
  match a, b with
  | .nan s, .nan t => (.nan false, s || t)
  | .nan s, _ => (.nan false, s)
  | _, .nan t => (.nan false, t)
  | .inf true, w => (w, false)
  | w, .inf true => (w, false)
  | .inf false, _ => (.inf false, false)
  | _, .inf false => (.inf false, false)
  | v, w => (if v.lt w then lse2Rat w v else lse2Rat v w, false)

/-- round_grid (R86): the nearest integer to v / 2^a, ties to even; `none` for a NaN, NaR or infinite value (R88). -/
def roundGrid (v : Num) (a : Int) : Option Int :=
  match v with
  | .nan _ => none
  | .inf _ => none
  | .zero _ => some 0
  | .fin neg n d =>
    let q := scaleDiv n d a
    let k := if roundsUp 0 0 neg q.1 q.2.1 q.2.2 then q.1 + 1 else q.1
    some (if neg then -(k : Int) else k)

/-- A contribution to a grid entry (R86-R88): `none` where it is invalid. -/
def gridPart (v : Num) (a : Int) : Option Int :=
  match roundGrid v a with
  | some n => if n < -(2 ^ 63) ∨ 2 ^ 63 - 1 < n then none else some n
  | none => none

/-- The rank of an FP32 value (R92): whether `p` goes before `q`, each a value and an index. -/
def rankBefore (v : BitVec 32) (i : Nat) (w : BitVec 32) (j : Nat) : Bool :=
  let a := fp32.decode v.toNat
  let b := fp32.decode w.toNat
  if a.isNan && b.isNan || a.eq b then
    if i ≠ j then decide (i < j) else decide (v.toNat < w.toNat)
  else if a.isNan then false
  else if b.isNan then true
  else b.lt a

/-- A pair placed in a list kept in rank order. -/
def rankInsert (v : BitVec 32) (i : BitVec 32) : List (BitVec 32 × BitVec 32) → List (BitVec 32 × BitVec 32)
  | [] => [(v, i)]
  | e :: l => if rankBefore v i.toNat e.1 e.2.toNat then (v, i) :: e :: l else e :: rankInsert v i l

/-- The first k pairs of a list of candidates, in rank order (R92). -/
def topK (k : Nat) (l : List (BitVec 32 × BitVec 32)) : List (BitVec 32 × BitVec 32) :=
  l.foldl (fun acc e => (rankInsert e.1 e.2 acc).take k) []

/-- fmin and fmax (R202): the value picked, as a value, and whether a signalling NaN was read. A quiet NaN gives the other
operand, two NaN the canonical NaN. -/
def Num.pick (larger : Bool) (a b : Num) : Num × Bool :=
  match a, b with
  | .nan s, .nan t => (.nan false, s || t)
  | .nan s, w => (w, s)
  | w, .nan t => (w, t)
  | v, w => ((if larger then (if v.below w then w else v) else (if w.below v then w else v)), false)

end Sys2Proof.Machine
end

