-- ==== Sys2Proof/Machine/Address.lean ====
section
/-! DEFINITION. Addresses: the three regions, alignment, the translation buffer, the page walk and the homes
(R37-R41, R159, R357-R365). -/

namespace Sys2Proof.Machine

/-- The region of a virtual address (R37-R39). A near window carries its view, the offset and whether bits [23:17] are
clear; a far window its logical core and offset. -/
inductive Region
  | dev (va : Nat)
  | far (lcore off : Nat)
  | near (view off : Nat) (inStore : Bool)
  | none
  deriving DecidableEq, Repr

def regionOf (va : Word) : Region :=
  let a := va.toNat
  if a < 2 ^ 47 then .dev a
  else if a / 2 ^ 30 = 0xFE00000000000000 / 2 ^ 30 then .far (a / 2 ^ 17 % 2 ^ 13) (a % 2 ^ 17)
  else if a / 2 ^ 27 = 0xFF00000000000000 / 2 ^ 27 then
    .near (a / 2 ^ 24 % 8) (a % 2 ^ 17) (decide (a / 2 ^ 17 % 2 ^ 7 = 0))
  else .none

/-- Natural alignment (R41). -/
def aligned (va : Word) (bytes : Nat) : Bool := decide (va.toNat % bytes = 0)

/-- The slice of a device-physical address and the frame's number in it (R364). -/
def sliceOf (pa : Nat) : Nat := pa / 2 ^ 34
def frameOf (pa : Nat) : Nat := pa / 2 ^ 16 % 2 ^ 18

/-- The frames that exist (R364). -/
def frameExists (pa : Nat) : Bool := decide (pa < 2 ^ 43) && decide (frameOf pa < 229376)

/-- The die of a slice and of a core (R364, R153). -/
def dieOfSlice (s : Nat) : Nat := s / 64
def dieOfCore (p : Nat) : Nat := p / 1024

/-- The cause with which a slice refuses any access to a device-physical address, if it does (R365, R369, R370). -/
def State.sliceRefuses (s : State) (pa : Nat) : Option (BitVec 8) :=
  let sl := s.slice (sliceOf pa)
  if !frameExists pa then some 0x05
  else if !(Sparse.get Indirection.reset sl.ind (frameOf pa)).v then some 0x05
  else if s.hub.keysErased then some 0x06
  else none

/-- The same for an access that reads: a failed sector is refused too (R397). -/
def State.readRefuses (s : State) (pa : Nat) : Option (BitVec 8) :=
  match s.sliceRefuses pa with
  | some c => some c
  | none => if (s.slice (sliceOf pa)).failed.contains (pa / 64) then some 0x06 else none

/-- The physical core of a logical core, and back (R336). -/
def State.physical (s : State) (lcore : Nat) : Nat := Sparse.get lcore s.place lcore
def State.logical (s : State) (p : Nat) : Nat := (s.core p).logical.getD p

/-- What an access needs of its page (R360). -/
inductive Need
  | read
  | write
  | both
  | fetch
  | valid
  deriving DecidableEq, Repr

def Need.allowed (n : Need) (r w x : Bool) : Bool :=
  match n with
  | .read => r
  | .write => w
  | .both => r && w
  | .fetch => x
  | .valid => true

/-- The fields of a page-table entry (R358). -/
def pteType (e : Word) : Nat := e.toNat / 2 ^ 60 % 8
def pteAddr (e : Word) : Nat := e.toNat % 2 ^ 48 / 2 ^ 12 * 2 ^ 12
def pteMod (e : Word) : Nat := e.toNat / 2 ^ 48 % 256
def pteReservedClear (e : Word) : Bool := !e.getLsbD 56 && decide (e.toNat % 2 ^ 12 = 0)

/-- A valid table entry that points to a table of an alignment (R357-R359). -/
def pteTable (e : Word) (align : Nat) : Bool :=
  e.getLsbD 63 && decide (pteType e = 0) && pteReservedClear e && decide (pteMod e = 0) &&
    decide (pteAddr e % align = 0) && frameExists (pteAddr e)

/-- The leaf a page-table entry holds, if it is valid at a page size (R358, R359). -/
def pteLeaf (e : Word) (size : Nat) : Option Mapping :=
  if e.getLsbD 63 && pteReservedClear e then
    match pteType e with
    | 1 => if pteMod e = 0 ∧ pteAddr e % size = 0 ∧ frameExists (pteAddr e) then some (.dev (pteAddr e)) else none
    | 2 =>
      if size = 2 ^ 16 ∧ pteMod e = 0 ∧ pteAddr e / 2 ^ 42 = 0 ∧ pteAddr e / 2 ^ 17 % 2 ^ 12 = 0 then
        some (.frame (pteAddr e / 2 ^ 29) (pteAddr e / 2 ^ 12 % 32))
      else none
    | 3 => if pteAddr e % size = 0 ∧ frameExists (pteAddr e) then some (.remote (pteMod e) (pteAddr e)) else none
    | 4 => if pteMod e = 0 ∧ pteAddr e % size = 0 then some (.host (pteAddr e)) else none
    | _ => none
  else none

def tlbOf (k : PageKey) (big : Bool) (m : Mapping) (e : Word) : TlbEntry :=
  { key := k, big := big, map := m, r := e.getLsbD 59, w := e.getLsbD 58, x := e.getLsbD 57 }

/-- What an entry that a walk has read leads to (R357-R359, R361): the leaf, the address of the next level's entry, or the
translation fault. -/
inductive WalkStep
  | leaf (e : TlbEntry)
  | table (a : Nat)
  | fault
  deriving DecidableEq, Repr

/-- The step of a walk that has read an entry of a level. -/
def walkStep (k : PageKey) (level : Nat) (e : Word) : WalkStep :=
  match k with
  | .dev _ vpn =>
    match level with
    | 0 => match pteLeaf e (2 ^ 16) with
      | some m => .leaf (tlbOf k false m e)
      | none => .fault
    | 1 => match (if pteType e = 2 then none else pteLeaf e (2 ^ 25)) with
      | some m => .leaf (tlbOf k true m e)
      | none => if pteTable e (2 ^ 12) then .table (pteAddr e + 8 * (vpn % 2 ^ 9)) else .fault
    | _ => if pteTable e (2 ^ 14) then .table (pteAddr e + 8 * (vpn / 2 ^ 9 % 2 ^ 11)) else .fault
  | .far _ half =>
    if e.getLsbD 63 && decide (e.toNat / 2 ^ 60 % 8 = 0) && decide (e.toNat / 2 ^ 13 % 2 ^ 45 = 0) then
      .leaf { key := k, big := false, map := .store (e.toNat % 2 ^ 13) half, r := e.getLsbD 59, w := e.getLsbD 58, x := false }
    else .fault

/-- The level of a walk's first entry, and its address (R357, R361). -/
def walkTop (k : PageKey) : Nat :=
  match k with
  | .dev _ _ => 2
  | .far _ _ => 0

def State.walkRoot (s : State) (k : PageKey) : Nat :=
  match k with
  | .dev hq vpn => (s.hw hq).ptb.toNat + 8 * (vpn / 2 ^ 20)
  | .far l half => s.hub.fwtb.toNat / 2 ^ 17 * 2 ^ 17 + 8 * (2 * l + half)

/-- Whether a buffer entry serves a page (R362). -/
def tlbServes (e : TlbEntry) (k : PageKey) : Bool :=
  match e.key, k with
  | .dev q v, .dev q' v' => q == q' && (if e.big then v / 512 == v' / 512 else v == v')
  | .far l h, .far l' h' => l == l' && h == h'
  | _, _ => false

/-- The buffer with an entry put first; a full buffer loses the entry unused for longest (R362). -/
def tlbFill (b : List TlbEntry) (e : TlbEntry) : List TlbEntry := (e :: b).take 64

/-- The buffer with the entry that serves a page moved to the front (R362). -/
def tlbTouch (b : List TlbEntry) (k : PageKey) : List TlbEntry :=
  match b.find? (tlbServes · k) with
  | some e => e :: b.erase e
  | none => b

/-- The home a leaf gives for an access, or the cause of the fault. -/
inductive Found
  | home (h : Home)
  | fault (cause : BitVec 8)
  deriving DecidableEq, Repr

/-- The home a leaf gives for a page offset, or the cause of the fault (R360, R361). `own` is the issuing core. -/
def tlbHome (e : TlbEntry) (own : Nat) (logical : Nat) (n : Need) (va : Nat) : Found :=
  let off := if e.big then va % 2 ^ 25 else va % 2 ^ 16
  let ok := n.allowed e.r e.w e.x
  match e.map with
  | .dev pa => if ok then .home (.dev (pa + off)) else .fault 0x06
  | .frame l f =>
    if 4096 ≤ off then .fault 0x05
    else if l ≠ logical || !ok then .fault 0x06
    else .home (.ls own (4096 * f + off))
  | .remote m pa => if ok then .home (.remote m (pa + off)) else .fault 0x06
  | .host ha => if ok then .home (.host (ha + off)) else .fault 0x06
  | .store p half => if ok then .home (.ls p (half * 2 ^ 16 + off)) else .fault 0x06

/-- The page of a region's address, for a walk or the buffer. -/
def pageOf (hq : BitVec 6) (r : Region) : Option PageKey :=
  match r with
  | .dev va => some (.dev hq (va / 2 ^ 16))
  | .far l o => some (.far l (o / 2 ^ 16))
  | _ => none

/-- The result of the stage-4 address checks (R127 rows 7 to 9). -/
inductive Xlate
  | home (h : Home)
  | miss (k : PageKey)
  | fault (cause : BitVec 8)
  deriving DecidableEq, Repr

/-- Rows 7 to 9 of R127 for an address: near-window bound, translation, permission. -/
def State.translate (s : State) (p : Nat) (hq : BitVec 6) (n : Need) (va : Word) : Xlate :=
  let r := regionOf va
  match r with
  | .near _ o inStore => if inStore then .home (.ls p o) else .fault 0x0C
  | .none => .fault 0x05
  | .dev _ | .far _ _ =>
    match pageOf hq r with
    | none => .fault 0x05
    | some k =>
      match (s.core p).tlb.find? (tlbServes · k) with
      | none => .miss k
      | some e =>
        match tlbHome e p (s.logical p) n va.toNat with
        | .home h => .home h
        | .fault c => .fault c

/-- The core's buffer after a use of an address (R362). -/
def State.touch (s : State) (p : Nat) (hq : BitVec 6) (va : Word) : State :=
  match pageOf hq (regionOf va) with
  | none => s
  | some k => s.setCore p { s.core p with tlb := tlbTouch (s.core p).tlb k }

/-- The core's walker is asked for a page; requests for one page are merged (R41, R362). `hq` gives the class of the
walk's reads. -/
def State.askWalk (s : State) (p : Nat) (k : PageKey) (hq : BitVec 6) (w : WalkFor) : State :=
  let c := s.core p
  if c.walks.any (·.key == k) then
    s.setCore p { c with walks := c.walks.map (fun x => if x.key = k ∧ ¬ x.for_.contains w then { x with for_ := x.for_ ++ [w] } else x) }
  else
    (s.setCore p { c with walks := c.walks ++ [{ key := k, again := false, hq := hq, level := 3, at_ := 0, entry := none, for_ := [w] }] }).post
      (.translationWalk p k)

/-- The translation of an agent's access in a core's buffer, on a miss by the core's walker (R294, R359, R362): with `miss`
the agent waits until the walk has ended. -/
def State.seek (s : State) (p : Nat) (a : Agent) (hq : BitVec 6) (n : Need) (va : Word) : Xlate × State :=
  match s.translate p hq n va with
  | .home h => (.home h, s.touch p hq va)
  | .fault c => (.fault c, s)
  | .miss k =>
    let c := s.core p
    if c.noPage.contains (a, k) then (.fault 0x05, s.setCore p { c with noPage := c.noPage.erase (a, k) })
    else (.miss k, s.askWalk p k hq (.agent a))

/-- An agent begins anew: faults of earlier walks that it has not taken are not its own (R314). -/
def State.forget (s : State) (p : Nat) (a : Agent) : State :=
  s.setCore p { s.core p with noPage := (s.core p).noPage.filter (fun e => e.1 != a) }

/-- Whether a home is the issuing core's own local store. -/
def homeOwn (h : Home) (p : Nat) : Bool :=
  match h with
  | .ls q _ => q == p
  | _ => false

/-- The die of a home in this module. -/
def homeDie (h : Home) : Option Nat :=
  match h with
  | .ls q _ => some (dieOfCore q)
  | .dev pa => some (dieOfSlice (sliceOf pa))
  | _ => none

/-- Whether a fence scope covers a home (R173). A page of host memory counts as outside the module: row 2 of R173 names the
hubs, and row 3 host memory. DESIGN CHOICE (log 58). -/
def inScope (scope : BitVec 2) (p : Nat) (h : Home) : Bool :=
  match scope.toNat with
  | 0 => match h with
    | .ls q _ => q == p
    | _ => false
  | 1 => homeDie h == some (dieOfCore p)
  | 2 => (homeDie h).isSome
  | _ => true

end Sys2Proof.Machine
end

