-- ==== Sys2Proof/Machine/Ops.lean ====
section
/-! DEFINITION. The operations every meaning shares: registers and results, parking, taking a trap and returning from
one, the requests that leave a core and what they do at their homes, the deque and the slots' life. -/

namespace Sys2Proof.Machine

/-- Every meaning answers a next state. -/
abbrev Answer := Host.Outcome State Fault Refusal

/-! ## Updates of a core, a slot and a die -/

def State.modCore (s : State) (p : Nat) (f : Core → Core) : State := s.setCore p (f (s.core p))
def State.modSlot (s : State) (p n : Nat) (f : Slot → Slot) : State := s.setSlot p n (f (s.slot p n))
def State.modThr (s : State) (f : Slot → Slot) : State := s.setThr (f s.thr)
def State.modTile (s : State) (p : Nat) (t : Tile) (f : TileState → TileState) : State := s.setTile p t (f (s.tile p t))
def State.modDie (s : State) (d : Nat) (f : Die → Die) : State := s.setDie d (f (s.die d))
def State.modSlice (s : State) (i : Nat) (f : Slice → Slice) : State := s.setSlice i (f (s.slice i))
def State.modHub (s : State) (f : Hub → Hub) : State := s.setHub (f s.hub)
def State.modHw (s : State) (q : BitVec 6) (f : HwSlot → HwSlot) : State := s.setHw q (f (s.hw q))

/-- A thread of a queue issues, or an engine command of it completes: the watchdog starts afresh (R334). -/
def State.noteProgress (s : State) (q : BitVec 6) : State :=
  if (s.hw q).st = .free then s else s.modHw q (fun h => { h with progress := s.hub.cyc })

/-! ## The banks of a local store (R40, R266, R272) -/

/-- The banks of a run of bytes (R40). -/
def banksOf (off n : Nat) : List Nat := (List.range ((off % 8 + n + 7) / 8)).map (fun i => (off / 8 + i) % 16)

/-- A core's banks take an access in a cycle: 0 from its pipeline, 1 after a walk or a wait, 2 from the network, 3 for a
contraction, 4 from the vector unit (R272, R283). -/
def Core.useBanks (c : Core) (cyc rank off n : Nat) : Core :=
  if c.bankAt = cyc then { c with bankRank := max c.bankRank rank, bankUsed := c.bankUsed ++ banksOf off n }
  else { c with bankAt := cyc, bankRank := rank, bankUsed := banksOf off n }

def State.useBanks (s : State) (p rank off n : Nat) : State := s.modCore p (fun c => c.useBanks (s.cycle p) rank off n)

/-- An access of a rank comes no earlier in the cycle than those that rank before it (R272). -/
def Core.bankOpen (c : Core) (cyc rank : Nat) : Bool := c.bankAt != cyc || decide (c.bankRank ≤ rank)

/-! ## What a slice counts and buffers (R332, R366, R368) -/

def Slice.classReg (x : Slice) (c : Nat) : ClassReg := Sparse.get ClassReg.reset x.classes c

/-- The budgets are new from each 1,024-cycle boundary on (R332). -/
def Slice.refreshed (x : Slice) (cyc : Nat) : Slice :=
  if x.refillAt ≠ 0 ∧ x.refillAt ≤ cyc then { x with readUsed := [], writeUsed := [], refillAt := 0 } else x

/-- The next boundary of the budgets and of the epoch. -/
def nextRefill (cyc : Nat) : Nat := (cyc / 1024 + 1) * 1024
def Slice.nextEpoch (x : Slice) (cyc : Nat) : Nat :=
  let n := max 1 x.epoch.toNat * 65536
  (cyc / n + 1) * n

/-- The cycle counter of a slice is its die's (R54). -/
def State.sliceCycle (s : State) (i : Nat) : Nat := (s.die (dieOfSlice i)).cyc

/-- A slice's boundary steps are under way once something has been counted. -/
def State.armSlice (s : State) (i : Nat) : State :=
  let x := s.slice i
  let cyc := s.sliceCycle i
  let s := if x.refillAt = 0 then (s.setSlice i { x with refillAt := nextRefill cyc }).post (.budgetRefill i) else s
  let x := s.slice i
  if x.epochAt = 0 ∧ x.tierEn then (s.setSlice i { x with epochAt := x.nextEpoch cyc }).post (.epochEnd i) else s

/-- The write buffer takes a sector of a write-lane operation, or merges it (R368); what a system core has reserved there is
reserved no more (R281). -/
def Slice.bufferWrite (x : Slice) (sector : Nat) : Slice :=
  let x := { x with reserved := x.reserved.filter (fun e => e.2 != sector) }
  if x.buffer.contains sector then x else { x with buffer := x.buffer ++ [sector] }

def Slice.bufferFull (x : Slice) : Bool := decide (128 ≤ x.buffer.length)

/-- An access of a class is charged to its budget, counted for its frame, and a write enters the write buffer (R332, R366,
R368). -/
def Slice.charge (x : Slice) (c : Nat) (w : Bool) (pa cyc : Nat) : Slice :=
  let x := x.refreshed cyc
  let x := if w then x.bufferWrite (pa / 64) else x
  let x := if w then { x with writeUsed := Sparse.put 0 x.writeUsed c (Sparse.get 0 x.writeUsed c + 1) }
    else { x with readUsed := Sparse.put 0 x.readUsed c (Sparse.get 0 x.readUsed c + 1) }
  let f := frameOf pa
  if x.tierEn then { x with counts := Sparse.put 0 x.counts f (Sparse.get 0 x.counts f + 1) } else x

/-- A slice enters an access into its order (R332, R366, R368). -/
def State.chargeSlice (s : State) (c : Nat) (w : Bool) (pa : Nat) : State :=
  let i := sliceOf pa
  let empty := (s.slice i).buffer.isEmpty
  let s := (s.modSlice i (fun x => { x.charge c w pa (s.sliceCycle i) with served := s.sliceCycle i + 1 })).armSlice i
  if w && empty then s.post (.writeBufferFlush i) else s

/-- An access that carries no class reaches a slice: it is counted for its frame, and a write enters the write buffer (R366,
R368); it uses no budget. -/
def State.chargeFrame (s : State) (w : Bool) (pa : Nat) : State :=
  let i := sliceOf pa
  let empty := (s.slice i).buffer.isEmpty
  let f := frameOf pa
  let s := (s.modSlice i (fun x =>
    let x := if w then x.bufferWrite (pa / 64) else x
    if x.tierEn then { x with counts := Sparse.put 0 x.counts f (Sparse.get 0 x.counts f + 1) } else x)).armSlice i
  if w && empty then s.post (.writeBufferFlush i) else s

/-- The cycle of the issue under way, on its core's counter. -/
def State.now (s : State) : Nat := s.cycle s.cur.core

/-! ## Registers (R30-R34) -/

/-- A thread is a traveller: its window has 8 registers (R26). -/
def Slot.traveller (t : Slot) : Bool := t.size == 8

/-- The window index a g or relative specifier names (R31, R32). -/
def regIndex (t : Slot) (r : Reg) : Option Int :=
  match r with
  | .g n => some n.toNat
  | .rel n => some (t.ix.toInt + n.toNat)
  | _ => none

/-- The bound check of R31. -/
def regOk (t : Slot) (r : Reg) : Bool :=
  match regIndex t r with
  | some i => decide (0 ≤ i) && decide (i < t.size)
  | none => true

/-- Where a destination specifier writes (R31). -/
def regDst (t : Slot) (r : Reg) : Dst :=
  match r with
  | .g n => .g (t.base + n.toNat)
  | .rel n => .g (t.base + (t.ix.toInt + n.toNat).toNat)
  | .h n => .h n
  | .mb n => .mb n
  | _ => .nul

/-- The value of the place a destination names. -/
def readDst (c : Core) (t : Slot) (d : Dst) : Word :=
  match d with
  | .nul => 0
  | .g i => c.reg i
  | .h n => Sparse.get 0 t.h n.toNat
  | .mb n => Sparse.get 0 t.mb n.toNat

/-- The value of a register specifier (R31). -/
def readReg (c : Core) (t : Slot) (r : Reg) : Word :=
  match r with
  | .z0 => t.z0
  | .z1 => t.z1
  | _ => readDst c t (regDst t r)

/-- The value of a register of the thread that issues. -/
def State.rd (s : State) (r : Reg) : Word := readReg (s.core s.cur.core) s.thr r

/-- The value of operand B of a data-class instruction (R102, R128). -/
def State.opB (s : State) (b : OpB) : Word :=
  match b with
  | .reg r => s.rd r
  | .lit32 v => v.signExtend 64
  | .lit64 v => v

/-- The registers operand B names. -/
def bRegs (b : OpB) : List Reg :=
  match b with
  | .reg r => [r]
  | _ => []

/-- The effective address of a memory operand (R136, R158). -/
def State.ea (s : State) (m : MemOp) : Word :=
  match m with
  | .idx a b => s.rd a + s.rd b
  | .disp a d => s.rd a + d.signExtend 64

def memRegs (m : MemOp) : List Reg :=
  match m with
  | .idx a b => [a, b]
  | .disp a _ => [a]

/-- Writes a place without touching z0 and z1. -/
def State.writeDst (s : State) (p n : Nat) (d : Dst) (v : Word) : State :=
  match d with
  | .nul => s
  | .g i => s.modCore p (·.setReg i v)
  | .h j => s.modSlot p n (fun t => { t with h := Sparse.put 0 t.h j.toNat v })
  | .mb j => s.modSlot p n (fun t => { t with mb := Sparse.put 0 t.mb j.toNat v })

/-- A register-writing instruction's result: the place, and z1 := z0, z0 := v (R33). -/
def State.result (s : State) (p n : Nat) (d : Dst) (v : Word) : State :=
  (s.writeDst p n d v).modSlot p n (fun t => { t with z1 := t.z0, z0 := v })

/-- Moves the issuing thread to an address and out of any wait. -/
def State.goto (s : State) (pc : Word) : State := s.modThr (fun t => { t with pc := pc, wait := .none })

/-- Moves the issuing thread past its instruction (R97). -/
def State.advance (s : State) : State := s.goto s.cur.next

/-- The instruction completes with a result. -/
def State.complete (s : State) (d : Reg) (v : Word) : State :=
  (s.result s.cur.core s.cur.slot (regDst s.thr d) v).advance

/-- The issuing thread gives up its turn with its PC at the instruction (R18, R21). -/
def State.park (s : State) (w : Wait) : State := s.modThr (fun t => { t with pc := s.cur.pc, wait := w })

/-- The issuing core as the instruction sees it: with the view descriptors that one which goes on after a wait has sampled in
its stage 4 (R44). -/
def State.seen (s : State) : Core :=
  let c := s.core s.cur.core
  match s.cur.again.bind (·.views) with
  | some l => { c with vd := l, vdOld := none }
  | none => c

/-- The descriptor word an access that issues in a cycle samples in its stage 4: a write whose stage 5 is that cycle or
later is not seen yet (R44). -/
def Core.sampled (c : Core) (v cyc : Nat) : Word :=
  match c.vdOld with
  | some (v', old, st5) => if v' = v ∧ cyc + 3 ≤ st5 then old else Sparse.get 0 c.vd v
  | none => Sparse.get 0 c.vd v

/-- The view descriptors that the issuing instruction has sampled (R44). -/
def State.samples (s : State) : List (Nat × Word) :=
  (List.range 8).foldl (fun l v => Sparse.put 0 l v (s.seen.sampled v s.now)) []

/-- The issuing instruction has passed its checks and is held until a condition comes to hold: it stays in flight, and waits
from its stage 4 on (R18, R44). -/
def State.hold (s : State) (h : Hold) : State :=
  s.park (.held h ((s.cur.again.bind (·.since)).getD (s.now + 3)) s.cur.instr s.cur.next s.samples)

/-- How many cycles after its issue the stage-5 accesses of the instruction under way have had their effect (R16, R17): 5, or 1
for one that goes on after a walk or a wait, whose accesses perform in that cycle (R263). -/
def State.stage5 (s : State) : Nat := if s.cur.again.isSome then 1 else 5

/-- The rank of the banks' use by the instruction under way (R272). -/
def State.rank (s : State) : Nat := if s.cur.again.isSome then 1 else 0

/-! ## Traps (R340-R344, R240-R242) -/

/-- The words of a record (R240). -/
def recordWords (r : Record) : List Word :=
  [r.sect ++ r.tile ++ r.mods ++ r.hq ++ BitVec.ofBool r.late ++ BitVec.ofBool r.held ++ (0 : BitVec 2) ++ r.slot ++
    r.detail ++ r.seq ++ r.joined ++ r.cause, r.spc, r.fpc, r.addr, r.a, r.b, r.d, r.s]

/-- The tile that a thread has locked by a `cld`, in flight or held (R53). -/
def Core.tileOf (c : Core) (n : Nat) : Option Tile :=
  ([0, 1, 2, 3] : List Tile).find? (fun t =>
    match (c.tile t).lock with
    | some j => j.slot == n && !j.reaped
    | none => false)

/-- Whether a `cld` of the slot is in flight: locked and not held (R18, R192). -/
def Core.cldInFlight (c : Core) (n : Nat) : Bool :=
  match c.tileOf n with
  | some t =>
    match (c.tile t).lock with
    | some j => !j.held
    | none => false
  | none => false

/-- A record of a `cld` fault takes the operands and the failing sector (R193, R240, R341). -/
def recordHold (r : Record) (t : Tile) (j : CldJob) : Record :=
  { r with held := true, tile := t, mods := BitVec.ofBool j.inOrder ++ BitVec.ofBool j.recur,
           sect := match j.fail with
             | some (i, _, _) => BitVec.ofNat 6 i
             | none => 0
           a := j.a, b := j.b, d := j.d, s := j.s }

/-- A late event joins a record (R341): LATE, the first joined cause, the first 0x09's number, a held `cld`. -/
def recordJoin (r : Record) (c : Core) (e : Late) : Record :=
  let r := { r with late := true, joined := if r.joined = 0 then e.cause else r.joined }
  if e.cause = 0x09 then
    if r.seqSet then r else { r with seq := e.seq, seqSet := true }
  else if e.cause = 0x0A then
    match (c.tile e.tile).lock with
    | some j => recordHold r e.tile j
    | none => r
  else r

/-- Taking a trap: the ONE operation every trap goes through. The thread stops; its saved PC and the record's fields are
set; late events that were due join; the record is completed when the thread has drained (R340, R341). A record that the
latch still holds is lost (R351). -/
def State.trap (s : State) (p n : Nat) (cause detail : BitVec 8) (spc fpc addr : Word) (seq : BitVec 16) : State :=
  let c := s.core p
  let t := c.slot n
  let r : Record :=
    { sect := 0, tile := 0, mods := 0, hq := t.hq, late := false, held := false, slot := BitVec.ofNat 4 n,
      detail := detail, seq := seq, joined := 0, seqSet := cause == 0x09, cause := cause, spc := spc, fpc := fpc, addr := addr,
      a := if cause = 0x02 then t.ix.setWidth 64 else 0, b := 0, d := 0, s := 0 }
  let r := (t.late.filter (·.cause ≠ 0x10)).foldl (fun r e => recordJoin r c e) r
  (s.setSlot p n { t with
    st := .trapped false, wait := .none, pc := spc, late := [], record := some r, latch := none, double := t.latch.isSome,
    stopAt := none }).post (.trapDrainEnd p n)

/-- The issuing instruction traps with itself as the saved PC (R242). -/
def State.raise (s : State) (cause detail : BitVec 8) (addr : Word) : State :=
  s.trap s.cur.core s.cur.slot cause detail s.cur.pc s.cur.pc addr 0

/-- A late event reaches a thread: it joins the record of a draining trap, is dropped for an empty slot, traps a stopped
thread at once (R343, R335), and otherwise waits for the thread's next position (R340). The record of a 0x10, which no
instruction causes, holds the thread's PC as its FPC: the model's choice, R240 names none (DESIGN CHOICE, log 66). -/
def State.takeLate (s : State) (p n : Nat) (e : Late) : State :=
  let c := s.core p
  let t := c.slot n
  if e.cause = 0x0A then
    match (c.tile e.tile).lock with
    | none => s
    | some j =>
      let (detail, addr) := match j.fail with
        | some (_, cs, a) => (cs, a)
        | none => (0, 0)
      let s := s.trap p n 0x0A detail t.pc j.pc addr 0
      s.modSlot p n (fun t => { t with record := t.record.map (recordHold · e.tile j) })
  else if e.cause = 0x09 then s.trap p n 0x09 0 t.pc e.pc e.addr e.seq
  else s.trap p n e.cause 0 t.pc t.pc e.addr 0

/-- The order in which events of one thread are primary (R341). -/
def latePrimary (l : List Late) : Option Late :=
  match l.find? (·.cause = 0x10) with
  | some e => some e
  | none =>
    match l.find? (·.cause = 0x0A) with
    | some e => some e
    | none => l.head?

/-- The thread takes its late events: the primary one traps, the others join (R340, R341). -/
def State.takeLates (s : State) (p n : Nat) : State :=
  let t := s.slot p n
  match latePrimary t.late with
  | none => s
  | some e => (s.setSlot p n { t with late := t.late.erase e }).takeLate p n e

/-! ## Waits -/

/-- The relaxed requests of a thread that are outstanding. -/
def Slot.relaxedOut (t : Slot) : List Out := t.out.filter (·.relaxed)

/-- A destination that a relaxed load will write (R34). -/
def Slot.isPending (t : Slot) (d : Dst) : Bool := d != .nul && t.pending.any (·.2 == d)

/-- Whether a late event is taken in a wait before the waiting instruction goes on: the waits whose instruction has not
been sent, and the waits of `fence` and `exit` (R156, R162, R193). -/
def Wait.givesWay (w : Wait) : Bool :=
  match w with
  | .held (.classFree _) _ _ _ _ => false
  | .none | .fetchWalk _ | .line _ | .regs _ | .held _ _ _ _ _ | .tile _ | .fence _ _ | .exit _ | .migrate _ _ => true
  | _ => false

/-- The arrivals that a spill holds (R354). -/
def Core.heldArrivals (c : Core) : List Packet :=
  match c.arrivalRun with
  | some r => r.held
  | none => []

/-- The places of a copy command's or an arrival's queue that are free. -/
def Core.copyRoom (c : Core) : Bool := decide (c.copyQueue.length < 2)

/-- Whether a slot of the core is parked on the allowance (R182). -/
def Slot.onAllowance (t : Slot) : Bool :=
  match t.wait with
  | .allowance _ _ _ => true
  | .tileStore _ j => j.since.isSome
  | _ => false

def Core.allowanceParked (c : Core) : Bool := c.slots.any (fun e => e.2.onAllowance)

/-- A unit of the store allowance returns: to s.sa, or held for the parked slots (R49, R182). -/
def Core.unitBack (c : Core) : Core :=
  if c.allowanceParked then { c with saHeld := c.saHeld + 1 } else { c with sa := c.sa + 1 }

/-- Takes a waiting access out of the bank (R168, R183). -/
def Core.withdrawBank (c : Core) (n : Nat) : Core := { c with bank := c.bank.filter (·.slot ≠ n) }

/-- Withdraws what a stopped or frozen thread waits for and has not been sent (R183). A sent access stays, and so does an
`exit` that has issued (R356). -/
def State.withdraw (s : State) (p n : Nat) : State :=
  let t := s.slot p n
  match t.wait with
  | .bank _ _ => (s.modCore p (·.withdrawBank n)).modSlot p n (fun t => { t with wait := .none })
  | .order _ r =>
    (if r.unit then s.modCore p (·.unitBack) else s).modSlot p n (fun t => { t with wait := .none })
  | .tileStore _ j => if j.since.isSome then s.setSlot p n { t with wait := .none } else s
  | .exit _ | .reply _ | .retry _ | .longOp _ _ _ _ _ | .tree _ | .vector | .steal _ _ _ | .reap _ _ | .sysc _ => s
  | _ => s.setSlot p n { t with wait := .none }

/-- A stopped thread takes its late events at once (R335, R343); what it has sent still comes to its end (R183). -/
def State.takeStopped (s : State) (p n : Nat) : State :=
  let w := (s.slot p n).wait
  let s := s.takeLates p n
  if w.givesWay then s else s.modSlot p n (fun t => { t with wait := w })

/-- A stopped thread whose wait has ended takes its late events (R343). -/
def State.settle (s : State) (p n : Nat) : State :=
  let t := s.slot p n
  if t.st = .stopped ∧ t.wait = .none ∧ t.late ≠ [] then s.takeLates p n else s

/-- A late event arrives (R162, R193, R335, R341, R343). A freeze leaves a record that is being completed as it is (R356); a
stopped slot takes the event at once. -/
def State.late (s : State) (p n : Nat) (e : Late) : State :=
  let c := s.core p
  let t := c.slot n
  match t.st with
  | .empty => s
  | .trapped false =>
    if e.cause = 0x10 then s else s.setSlot p n { t with record := t.record.map (fun r => recordJoin r c e) }
  | .trapped true => s
  | .stopped =>
    let s := s.setSlot p n { t with late := t.late ++ [e] }
    if t.wait.givesWay ∨ e.cause = 0x10 then s.takeStopped p n
    else s
  | .active =>
    let s := s.setSlot p n { t with late := t.late ++ [e] }
    match t.wait with
    | .order _ _ | .treeOrder _ _ => s.withdraw p n
    | .bank _ _ => if e.cause = 0x0A ∨ e.cause = 0x10 then s.withdraw p n else s
    | .engineQueue _ _ => if e.cause = 0x0A ∨ e.cause = 0x10 then s.withdraw p n else s
    | .sleep _ => if e.cause = 0x0A ∨ e.cause = 0x10 then s.withdraw p n else s
    | .pageWalk _ _ _ _ _ _ | .allowance _ _ _ | .held _ _ _ _ _ | .tileStore _ _ => if e.cause = 0x10 then s.withdraw p n else s
    | _ => s

/-! ## Slot 0, machine checks, the life of a slot -/

/-- Slot 0 wakes from `sleep` and may issue again in `d` cycles (R16, R157): 1 after an event of this cycle, 5 after the
stage 5 of an instruction that issues in this cycle. -/
def State.wake0 (s : State) (p d : Nat) : State :=
  let t := s.slot p 0
  match t.wait with
  | .sleep _ => s.setSlot p 0 { t with wait := .none, wakeAt := max t.wakeAt (s.cycle p + d) }
  | _ => s

/-- The machine-check register as its bits (R353). -/
def Mcs.bits (m : Mcs) : Word := BitVec.ofBool m.valid ++ m.src ++ m.cause ++ (0 : BitVec 3) ++ m.rpc

/-- The header of a message or notice (R175). -/
def headerOf (slot lcore : Nat) (hq : BitVec 6) : Word := BitVec.ofNat 64 (slot % 16 * 2 ^ 19 + lcore % 2 ^ 13 * 2 ^ 6 + hq.toNat)

/-- The hub that serves a die (R239). -/
def hubOf (die : Nat) : Nat := if die < 4 then 0 else 1

/-- A machine check (R352): slot 0 stops, also in a context that is being copied, its record stands at offset 0x1_FE80, MCS
is set and a notice goes out. A trap in slot 0 that has not drained raises its own when it has. -/
def State.machineCheck (s : State) (p : Nat) (src : BitVec 4) (cause : BitVec 8) (r : Record) : State :=
  let t := s.slot p 0
  let s := s.withdraw p 0
  let s := if src ≠ 1 ∧ t.st = .trapped false then s else s.modSlot p 0 (fun t => { t with st := .stopped, record := none })
  let s := s.setWords (localKey p 0x1FE80) (recordWords r)
  let s := s.modCore p (fun c => { c with
    mcs := { valid := true, src := src, cause := cause, rpc := t.pc.setWidth 48 }, wasActive := c.wasActive.erase 0 })
  s.modHub (fun h => { h with notices := h.notices ++ [.machineCheck
    { core := p, slot := 0, lcore := s.logical p, hq := t.hq, words := recordWords r }] })

/-- The record of a machine check that no trap caused: slot 0's, with its PC (R352). -/
def State.record0 (s : State) (p : Nat) (cause : BitVec 8) : Record :=
  let t := s.slot p 0
  { sect := 0, tile := 0, mods := 0, hq := t.hq, late := false, held := false, slot := 0, detail := 0, seq := 0,
    joined := 0, seqSet := false, cause := cause, spc := t.pc, fpc := t.pc, addr := 0, a := 0, b := 0, d := 0, s := 0 }

/-- The owner field of a slot (R330): its queue where VALID is set. -/
def Core.owner (c : Core) (n : Nat) : Option (BitVec 6) :=
  let f : BitVec 7 := Sparse.get 0 c.owners n
  if f.getLsbD 6 then some (f.setWidth 6) else none

def Core.setOwner (c : Core) (n : Nat) (q : BitVec 6) : Core :=
  { c with owners := Sparse.put 0 c.owners n ((1 : BitVec 1) ++ q) }

/-- A slot `take` may choose: empty, owned, not reserved for travellers (R152). -/
def Core.eligible (c : Core) (n : Nat) : Bool :=
  (c.slot n).st == .empty && !c.tsm.getLsbD n && (c.owner n).isSome

def Core.eligibleSlot (c : Core) : Option Nat :=
  (List.range 16).find? (fun n => decide (1 ≤ n) && c.eligible n)

/-- The hardware slots with work on a core: a deque entry, a thread, a latched task (R331), and a launch's own. -/
def Core.queues (c : Core) (extra : List (BitVec 6)) : List (BitVec 6) :=
  ((List.range 64).map (BitVec.ofNat 6)).filter (fun q =>
    c.deque.any (·.hq == q) || extra.contains q ||
    (match c.latchTask with
      | some e => e.hq == q
      | none => false) ||
    (List.range 16).any (fun n => decide (1 ≤ n) && (c.slot n).st != .empty && (c.slot n).hq == q))

/-- Targets of R331 for eligible slots `sl` shared by weights. -/
def ownerTargets (sl : Nat) (qs : List (BitVec 6 × Nat)) : List (BitVec 6 × Nat) :=
  let w := (qs.map (·.2)).sum
  let base := qs.map (fun q => (q.1, q.2, if w = 0 then 0 else sl * q.2 / w))
  let left := sl - (base.map (·.2.2)).sum
  base.map (fun q =>
    let ahead := (base.filter (fun r => decide (q.2.1 < r.2.1) ||
      (r.2.1 == q.2.1 && decide (r.1.toNat < q.1.toNat)))).length
    (q.1, q.2.2 + (if ahead < left then 1 else 0)))

/-- The queue whose count of owned slots stands furthest below its target, ties to the lower HQ (R331). -/
def furthestBelow (l : List (BitVec 6 × Nat × Nat)) : Option (BitVec 6) :=
  (l.foldl (fun best q =>
    match best with
    | none => some q
    | some b => if b.2.1 - b.2.2 < q.2.1 - q.2.2 then some q else some b) none).map (·.1)

/-- Gives the empty slots of a list to queues, one after another (R331). -/
def giveSlots (c : Core) : List Nat → List (BitVec 6 × Nat × Nat) → Core
  | [], _ => c
  | n :: ns, l =>
    match furthestBelow l with
    | none => c
    | some q =>
      giveSlots (c.setOwner n q) ns (l.map (fun r => if r.1 = q then (r.1, r.2.1, r.2.2 + 1) else r))

/-- Reassigns the owners of a core's empty slots (R331). The empty ones of `pinned` are given to `q` first, for a launch. -/
def Core.reassign (c : Core) (weight : BitVec 6 → Nat) (extra : List (BitVec 6)) (pinned : List Nat) (q : BitVec 6) : Core :=
  let free := (List.range 16).filter (fun n => decide (1 ≤ n) && !c.tsm.getLsbD n)
  let qs := (c.queues extra).map (fun q => (q, weight q))
  if qs.isEmpty then c
  else
    let empty := free.filter (fun n => (c.slot n).st == .empty)
    let c := (pinned.filter empty.contains).foldl (fun c n => c.setOwner n q) c
    let targets := ownerTargets free.length qs
    let empty := empty.filter (fun n => !pinned.contains n)
    let kept := free.filter (fun n => !empty.contains n)
    giveSlots c empty (targets.map (fun r => (r.1, r.2, (kept.filter (fun n => c.owner n == some r.1)).length)))

/-- The HQS reassigns owners on a core (R331). -/
def State.reassign (s : State) (p : Nat) : State :=
  s.modCore p (fun c => c.reassign (fun q => (s.hw q).weight) [] [] 0)

/-- A slot becomes empty: owners are reassigned, slot 0 wakes, arrivals may start (R21, R27, R157, R331). -/
def State.emptySlot (s : State) (p n : Nat) : State :=
  let s := s.modSlot p n (fun t => { t with
    st := .empty, wait := .none, out := [], pending := [], late := [], record := none, double := false, owed := none,
    owedDue := false, skip := 0, stopAt := none })
  let s := (s.reassign p).wake0 p 1
  if (s.core p).arrivals.isEmpty then s else s.post (.arrivalStart p)

/-- Whether two register ranges overlap. -/
def overlap (a n b m : Nat) : Bool := decide (a < b + m) && decide (b < a + n)

/-- The window conditions of `start` and of a pinned start (R28, R154, R328). -/
def Core.windowFree (c : Core) (base size : Nat) : Bool :=
  (List.range 16).all (fun n => (c.slot n).st == .empty || !overlap base size (c.slot n).base (c.slot n).size) &&
  (List.range 16).all (fun n => !c.tsm.getLsbD n || !overlap base size (1920 + 8 * n) 8)

/-- Writes a run of registers. -/
def Core.setRegs (c : Core) (i : Nat) : List Word → Core
  | [] => c
  | w :: ws => (c.setReg i w).setRegs (i + 1) ws

/-- The far-window address of a task record (R154). -/
def recordAddress (rc : BitVec 13) (rw : BitVec 14) : Word :=
  0xFE00000000000000#64 + BitVec.ofNat 64 (rc.toNat * 2 ^ 17 + rw.toNat * 8)

/-- A task becomes a thread (R154, R335). -/
def State.startThread (s : State) (p n base size : Nat) (e : TaskEntry) : State :=
  let c := s.core p
  let rec3 : Word := if e.hasRec then recordAddress e.rc e.rw else 0
  let c := c.setRegs base ([e.a0, e.a1, e.a2, rec3] ++ List.replicate (size - 4) 0)
  let t := c.slot n
  s.setCore p (c.setSlot n { Slot.reset with
    st := .active, pc := e.pc.setWidth 64, base := base, size := size, hq := e.hq, latch := t.latch,
    owed := if e.hasRec then some (e.rc, e.rw) else none, wakeAt := s.cycle p + 1 })

/-! ## The deque (R143-R146) -/

/-- The words of a spilled entry (R144). -/
def taskWords (e : TaskEntry) : List Word :=
  [BitVec.ofBool e.hasRec ++ (0 : BitVec 1) ++ e.rw ++ e.pc, e.a0, e.a1, e.a2,
    BitVec.ofNat 64 (e.rc.toNat * 64 + e.hq.toNat)]

/-- The entry a descriptor and a side field hold (R140, R141). -/
def entryOf (w0 a0 a1 a2 : Word) (rc : BitVec 13) (hq : BitVec 6) : TaskEntry :=
  { hasRec := w0.getLsbD 63, rw := (w0 >>> 48).setWidth 14, pc := w0.setWidth 48, a0 := a0, a1 := a1, a2 := a2,
    rc := rc, hq := hq }

/-- The device-physical address of a place of the spill area (R144): s.dsb is used untranslated. DESIGN CHOICE (log 39). -/
def Core.spillAddress (c : Core) (i : Nat) : Nat := c.dsb.toNat / 64 * 64 + 64 * i

/-- The place for the next spilled entry: the first free one of the ring after the last entry spilled (R144). -/
def Core.spillPlace (c : Core) : Option Nat :=
  let n := c.dsn.toNat
  let from_ := match c.spillAt.getLast? with
    | some i => i + 1
    | none => 0
  if c.spillAt.length < n then
    ((List.range n).map (fun i => (from_ + i) % n)).find? (fun i => !c.spillAt.contains i && c.reading != some i)
  else none

/-- The request of one of a core's agents (R143, R159): `hq` gives its class. -/
def agentRequest (p : Nat) (hq : BitVec 6) (o : AccOp) (h : Home) (va : Word) : Request :=
  { core := p, slot := 0, hq := hq, seq := 0, cls := .engine, op := o, home := h, va := va, pc := 0, data := 0, expected := 0,
    dst := .nul, unit := false, attempts := 0, sent := 0, issued := 0 }

/-- The topmost hardware entry of a core whose hardware part is over-full is written to the spill area, one at a time, in
the class of its queue (R143, R144, R332); it stays in the deque throughout (R146). With no place free it stays where it
is. DESIGN CHOICE (log 39). -/
def State.spillOne (s : State) (p : Nat) : State :=
  let c := s.core p
  if c.spilling.isSome ∨ c.deque.length ≤ c.spilled + 64 then s
  else
    match c.deque[c.spilled]?, c.spillPlace with
    | some e, some i =>
      (s.setCore p { c with spilling := some (i, true) }).post (.homePerform { agentRequest p e.hq
        (.agentWrite (.spill p) { tag := 0, idx := i, off := 0 }
          ((taskWords e ++ [0, 0, 0]).flatMap (fun (w : Word) => leList 8 w.toNat))) (.dev (c.spillAddress i)) 0 with
        sent := s.cycle p, issued := s.cycle p })
    | _, _ => s

/-- The cancel of a task that never runs goes to its record (R335). -/
def State.cancelTask (s : State) (e : TaskEntry) : State :=
  if e.hasRec then s.post (.cancelPropagation e.rc.toNat (e.rw.toNat * 8) e.hq .none) else s

/-- An entry is added at the bottom of a core's deque; the 65th hardware entry spills the topmost (R143). One of a frozen
queue is removed at once (R335). `d` is the delay of slot 0's wake. -/
def State.pushBottom (s : State) (p : Nat) (e : TaskEntry) (d : Nat) : State :=
  if (s.hw e.hq).st = .frozen then s.cancelTask e
  else
    let s := (s.modCore p (fun c => { c with deque := c.deque ++ [e] })).spillOne p
    if (s.core p).eligibleSlot.isSome then s.wake0 p d else s

/-- Whether the deque has an entry free for a push that is never refused (R145). -/
def Core.dequeRoom (c : Core) : Bool := decide (c.deque.length < 64 + c.dsn.toNat)

/-- The entry that eight words of the spill area hold (R144). -/
def spilledEntry (ws : List Word) : TaskEntry :=
  let w (i : Nat) : Word := ws.getD i 0
  entryOf (w 0) (w 1) (w 2) (w 3) ((w 4 >>> 6).setWidth 13) ((w 4).setWidth 6)

/-- Spilled entries are to be read back (R143). -/
def Core.readsBack (c : Core) : Bool := c.spilled != 0 && decide (c.deque.length - c.spilled < 16)

/-- A core's deque without the entry at a position; a spilled one frees its place (R143, R144, R146). -/
def Core.dropAt (c : Core) (i : Nat) : Core :=
  { c with
    deque := c.deque.eraseIdx i
    spilled := if i < c.spilled then c.spilled - 1 else c.spilled
    spillAt := if i < c.spilled then c.spillAt.eraseIdx i else c.spillAt
    spilling := if i = c.spilled then c.spilling.map (fun x => (x.1, false)) else c.spilling }

/-- A core's deque has lost entries: waiting pushes and read-backs may go on. -/
def State.dequeFreed (s : State) (p : Nat) : State :=
  let c := s.core p
  let s := if c.pushes.isEmpty then s else s.post (.continuationPush p)
  if c.readsBack && c.reading.isNone then s.post (.dequeReadback p) else s

/-- Removes the entry at a position (R143, R146). -/
def State.dropEntry (s : State) (p i : Nat) : State := (s.modCore p (·.dropAt i)).dequeFreed p

/-- The service class of a hardware queue slot (R332). -/
def State.classOf (s : State) (q : BitVec 6) : BitVec 2 := (s.hw q).cls

/-- The entry at a position is removed by an operation that uses it: a spilled one is read from the spill area, in the class of
its queue, and a refused read leaves it there and is a machine check (R143, R144, R332, R352; log 39). -/
def State.takeEntry (s : State) (p i : Nat) : Option TaskEntry × State :=
  let c := s.core p
  match c.deque[i]? with
  | none => (none, s)
  | some e =>
    if i < c.spilled then
      let pa := c.spillAddress (c.spillAt.getD i 0)
      match s.readRefuses pa with
      | some cause => (none, s.machineCheck p 3 cause (s.record0 p cause))
      | none => (some (spilledEntry (s.words pa 8)), (s.dropEntry p i).chargeSlice (s.classOf e.hq).toNat false pa)
    else (some e, s.dropEntry p i)

/-! ## Requests (R45-R50, R162, R182) -/

/-- Die links wait while the key agreement is repeated (R391). -/
def Hub.linksWait (h : Hub) : Bool := decide (1 ≤ h.stage) && !h.keysAgreed

/-- Whether a slice holds back new requests of a class (R333). -/
def State.pressed (s : State) (h : Home) (q : BitVec 6) : Bool :=
  match h with
  | .dev pa => (s.slice (sliceOf pa)).pressure.getLsbD (s.classOf q).toNat
  | _ => false

/-- A request has come to its slice and waits there (R332). -/
def State.atSlice (s : State) (r : Request) : Bool :=
  match r.home with
  | .dev pa => (s.slice (sliceOf pa)).waiting.any (·.2 == r)
  | _ => false

/-- A core's network interface still holds a request back (R333). -/
def State.heldRequest (s : State) (r : Request) : Bool :=
  s.due.contains (.homePerform r) && s.pressed r.home r.hq && !s.atSlice r

/-- The requests of a class that a core's network interface holds (R333). -/
def State.heldAt (s : State) (p : Nat) (cls : BitVec 2) : Nat :=
  (s.due.filter (fun e =>
    match e with
    | .homePerform r => r.core == p && s.classOf r.hq == cls && s.pressed r.home r.hq && !s.atSlice r
    | _ => false)).length

/-- Whether a write-lane operation that issues now finds a unit (R182). -/
def Core.unitFree (c : Core) : Bool := c.sa != 0 && !c.allowanceParked

/-- The step in which a request reaches its home: at the host port for a host page, else at the home (R159, R277, R382). -/
def arrivalOf (r : Request) : Instr :=
  match r.home with
  | .host _ => .hostPageAccess r
  | _ => .homePerform r

/-- A request leaves its core: it takes the thread's next sequence number, counts in s.oac, and is under way to its home
(R50, R342). The request that is sent is the answer's second component. -/
def State.send (s : State) (r : Request) : State × Request :=
  let t := s.slot r.core r.slot
  let r := { r with seq := t.seq, sent := s.cycle r.core }
  let s := s.setSlot r.core r.slot
    { t with seq := t.seq + 1, out := t.out ++ [{ seq := r.seq, relaxed := r.cls == .relaxed, home := r.home, kind := .access }] }
  ((s.modCore r.core (fun c => { c with oac := c.oac + 1 })).post (arrivalOf r), r)

/-- Sends a request of a thread: a relaxed one lets the thread go on, a plain one first waits for the thread's earlier
relaxed accesses and then parks it for the reply (R45, R46). A relaxed load marks its destination pending (R34). -/
def State.dispatch (s : State) (next : Word) (r : Request) : State :=
  let t := s.slot r.core r.slot
  if r.cls ≠ .relaxed ∧ ¬ t.relaxedOut.isEmpty then s.setSlot r.core r.slot { t with pc := r.pc, wait := .order next r }
  else
    let (s, r) := s.send r
    s.modSlot r.core r.slot (fun t =>
      if r.cls = .relaxed then
        { t with pc := next, wait := .none,
                 pending := match r.op, r.dst with
                   | .load _ _, .nul => t.pending
                   | .load _ _, d => t.pending ++ [(r.seq, d)]
                   | _, _ => t.pending }
      else { t with pc := next, wait := .reply r })

/-- A tree instruction whose record has been read starts its reads, its cycles counting from this one, and its thread skips
its next X turns from its first turn after stage 8 on (R217, R221, R222). -/
def State.startTree (s : State) (p n : Nat) (next : Word) (j : TreeJob) : State :=
  (s.modSlot p n (fun t => { t with
    pc := next, wait := .tree { j with at_ := s.cycle p }, skip := t.skip + j.xr + j.xw,
    wakeAt := max t.wakeAt (s.cycle p + 8) })).post (.treeComplete p n)

/-- An answer or acknowledgement of a thread's request returns to the core: s.oac, a unit for the store allowance, and a
plain access or tree instruction that waited for it goes on (R45, R49, R50, R182, R222). -/
def State.returned (s : State) (r : Request) : State :=
  let s := s.modCore r.core (fun c => { c with oac := c.oac - 1 })
  let s := if r.unit then s.modCore r.core (·.unitBack) else s
  let s := s.modSlot r.core r.slot (fun t => { t with out := t.out.filter (·.seq ≠ r.seq) })
  let t := s.slot r.core r.slot
  match t.wait with
  | .order next w => if t.relaxedOut.isEmpty then s.dispatch next w else s
  | .treeOrder next j => if t.relaxedOut.isEmpty then s.startTree r.core r.slot next j else s
  | _ => s

/-- Which operations travel the write lane when their home is another core, a slice or beyond (R49, R166). -/
def opWriteLane (o : AccOp) : Bool :=
  match o with
  | .store _ | .lde | .stf | .stn | .clre | .atomic _ | .red _ | .stg | .dec | .cancel | .sector _ => true
  | _ => false

/-- What an operation needs of its page (R360, R151). -/
def opNeed (o : AccOp) : Need :=
  match o with
  | .load _ _ | .ldf | .fes | .copyRead _ | .cldData _ _ | .cldScale _ _ | .agentRead _ _ _ => .read
  | .store _ | .red _ | .stg | .clre | .copyWrite _ | .sector _ | .agentWrite _ _ _ | .complete _ _ => .write
  | .atomic _ | .lde | .stf | .stn | .dec | .cancel => .both

/-- Whether an operation waits on the full/empty bit (R47, R166). -/
def opSyncs (o : AccOp) : Bool :=
  match o with
  | .ldf | .lde | .stf | .stn | .atomic _ => true
  | _ => false

/-- Which operations a slice counts as write-lane operations (R332, R368, R373). -/
def opWrites (o : AccOp) : Bool :=
  opWriteLane o || (match o with
    | .copyWrite _ | .agentWrite _ _ _ | .complete _ _ => true
    | _ => false)

/-- Which operations read what they find, so that a failed sector refuses them (R397). -/
def opReads (o : AccOp) : Bool :=
  match o with
  | .store _ | .clre | .sector _ | .copyWrite _ | .agentWrite _ _ _ | .complete _ _ | .stf | .stn => false
  | _ => true

/-- The value of `f(old, C, D)` (R169). -/
def atomicApply (f : AtomicFn) (old c d : Word) : Word :=
  match f with
  | .add => old + c
  | .and => old &&& c
  | .or => old ||| c
  | .xor => old ^^^ c
  | .min => if old.slt c then old else c
  | .max => if old.slt c then c else old
  | .minu => if old.ult c then old else c
  | .maxu => if old.ult c then c else old
  | .swp => c
  | .cas => if old = d then c else old

/-- The FP32 sum of the low halves, RNE, with the high half zero (R170). -/
def fadd32 (a b : Word) : Word :=
  let q := Num.add 0 (fp32.decode (a.toNat % 2 ^ 32)) (fp32.decode (b.toNat % 2 ^ 32))
  BitVec.ofNat 64 (fp32.encode Rs.rne q.1).1

/-- The value of `g(w, C)` (R170). -/
def redApply (f : RedFn) (x c : Word) : Word :=
  match f with
  | .add => x + c
  | .and => x &&& c
  | .or => x ||| c
  | .max => if x.slt c then c else x
  | .min => if x.slt c then x else c
  | .fadd => fadd32 x c

/-- The bytes of a width (R122). -/
def widthBytes (w : Width) : Nat :=
  match w with
  | .d => 8
  | .b => 1
  | .h => 2
  | .w => 4

/-- The bytes an operation reaches at its home. -/
def opBytes (o : AccOp) : Nat :=
  match o with
  | .load w _ | .store w => widthBytes w
  | .sector bs | .agentWrite _ _ bs => bs.length
  | .agentRead _ _ n => n
  | .cldData _ _ => 64
  | .cldScale _ _ => 2
  | _ => 8

/-- A loaded value extended to 64 bits (R163). -/
def extendLoad (wd : Width) (u : Bool) (v : Word) : Word :=
  match wd with
  | .d => v
  | .b => if u then (v.setWidth 8).setWidth 64 else (v.setWidth 8).signExtend 64
  | .h => if u then (v.setWidth 16).setWidth 64 else (v.setWidth 16).signExtend 64
  | .w => if u then (v.setWidth 32).setWidth 64 else (v.setWidth 32).signExtend 64

/-- The full/empty bit an access needs is there (R166). -/
def readyBit (o : AccOp) (full : Bool) : Bool :=
  match o with
  | .stf => !full
  | .ldf | .lde | .stn | .atomic _ => full
  | _ => true

def State.ready (s : State) (o : AccOp) (k : Nat) : Bool := readyBit o (s.full k)

/-- The effect of an operation on the bytes and the bit at a key, and the value it returns: one indivisible step at the
home (R159, R163, R166, R169, R170, R172). A word that the HQS writes into a core's store is set full (R161, R328). -/
def State.touchMemory (s : State) (o : AccOp) (k : Nat) (data expected : Word) : Word × State :=
  match o with
  | .load wd u => (extendLoad wd u (Memory.load s.mem k (widthBytes wd)), s)
  | .store wd => (0, { s with mem := Memory.store s.mem k (widthBytes wd) data })
  | .ldf => (s.word k, s)
  | .lde => (s.word k, s.setFull k false)
  | .stf => (0, s.setWordFull k data)
  | .stn => (0, s.setWordFull k data)
  | .clre => (0, s.setFull k false)
  | .fes => (if s.full k then 1 else 0, s)
  | .atomic f => (s.word k, s.setWord k (atomicApply f (s.word k) data expected))
  | .red f => (0, s.setWord k (redApply f (s.word k) data))
  | .stg =>
    (0, if (data >>> 48).setWidth 16 - (s.word k >>> 48).setWidth 16 < 0x8000#16 then s.setWord k data else s)
  | .sector bs => (0, s.setBytes k bs)
  | .copyRead _ => (s.word k, s)
  | .copyWrite _ => (0, s.setWord k data)
  | .cldData _ _ => (0, s)
  | .cldScale _ _ => (s.word (k / 8 * 8), s)
  | .agentRead _ _ _ => (0, s)
  | .agentWrite a _ bs => (0, match a with
    | .hqs _ => (s.setBytes k bs).setFull k true
    | _ => s.setBytes k bs)
  | .complete _ v => (0, s.setWordFull k v)
  | .dec | .cancel => (0, s)

/-- The offset of the arrival command word and its neighbours (R346, R354). -/
def acwOffset : Nat := 0x1FEE0

/-- The network interface takes a command when a `stf` fills the arrival command word (R354): it empties the word and
reads the command and its address, and a spill takes the oldest arrivals, which it holds from then on. One that comes while
another is under way stays in the word until that one is done. -/
def State.takeArrivalCommand (s : State) (p : Nat) : State :=
  if (s.core p).arrivalRun.isSome then s.modCore p (fun c => { c with acw := true })
  else
  let k := localKey p acwOffset
  let w := s.word k
  let s := s.setFull k false
  let op := (w >>> 62).setWidth 2
  let n := (w.setWidth 6 : BitVec 6).toNat
  let held := if op = 1 then (s.core p).arrivals.take n else []
  let s := s.modCore p (fun c => { c with
    acw := false, arrivals := c.arrivals.drop held.length
    arrivalRun := some { op := op, n := n, addr := s.word (k + 8), moved := 0, st := 0, cause := 0, held := held } })
  if (op = 1 ∨ op = 2) ∧ n ≠ 0 then s.post (if op = 1 then .arrivalSpill p else .arrivalReturn p)
  else s.post (.arrivalCommandInvalid p)

/-- A waiter at the bank is served: its result is written and its thread runs, from the cycle after the access that serves it
on, which is `d` cycles from now (R16, R20, R167). -/
def State.serve (s : State) (next : Word) (r : Request) (k d : Nat) : State :=
  let (v, s) := s.touchMemory r.op k r.data r.expected
  let s := s.modCore r.core (·.withdrawBank r.slot)
  let s := if r.op = .stf ∧ k = localKey r.core acwOffset then s.takeArrivalCommand r.core else s
  let s := if r.op = .stf ∨ r.op = .stn then s else s.result r.core r.slot r.dst v
  s.modSlot r.core r.slot (fun t => { t with wait := .none, pc := next, wakeAt := max t.wakeAt (s.cycle r.core + d) })

/-- The next address that a bank waiter goes on at. -/
def State.bankNext (s : State) (r : Request) : Word :=
  match (s.slot r.core r.slot).wait with
  | .bank next _ => next
  | _ => r.pc

/-- One pass over the waiters of a word, in their order (R167). -/
def State.servePass (s : State) (p k d : Nat) : List Request → State
  | [] => s
  | r :: rs =>
    if homeKey r.home == some k && s.ready r.op k then (s.serve (s.bankNext r) r k d).servePass p k d rs
    else s.servePass p k d rs

/-- Serves the waiters of a local-store word after a change of its state, pass after pass while one is served (R167). -/
def State.serveBank (s : State) (p k d : Nat) : Nat → State
  | 0 => s
  | n + 1 =>
    let l := (s.core p).bank
    if l.any (fun r => homeKey r.home == some k && s.ready r.op k) then (s.servePass p k d l).serveBank p k d n else s

/-- What follows a change at a local-store word: a filled command word, then the waiters (R167, R354). -/
def State.afterChange (s : State) (p off : Nat) (byStf : Bool) (d : Nat) : State :=
  let k := localKey p off / 8 * 8
  let s := if byStf && off == acwOffset && s.full k then s.takeArrivalCommand p else s
  if (s.core p).bank.isEmpty then s else s.serveBank p k d ((s.core p).bank.length + 1)

/-- Performs an operation at a local-store byte and lets the waiters see the change. -/
def State.performLocal (s : State) (o : AccOp) (p off : Nat) (data expected : Word) (d : Nat) : Word × State :=
  let (v, s) := s.touchMemory o (localKey p off) data expected
  (v, s.afterChange p off (o == .stf) d)

/-! ## Deque users: records (R142, R150, R151) -/

/-- The byte key of word `i` of a record at an offset of a core's store; the store wraps at its end. DESIGN CHOICE (log 11). -/
def recordKey (p off i : Nat) : Nat := localKey p ((off + 8 * i) % 2 ^ 17)

/-- The owed bit of the issuing thread clears when its `dec` or `cancel` of its own record performs (R335). -/
def State.clearOwed (s : State) (r : Request) (lcore off : Nat) : State :=
  s.modSlot r.core r.slot (fun t =>
    match t.owed with
    | some (rc, rw) => if r.cls ≠ .engine ∧ rc.toNat = lcore ∧ rw.toNat * 8 = off then { t with owed := none } else t
    | none => t)

/-- What a `dec` or `cancel` at its home comes to. -/
inductive RecordStep
  /-- performed whole -/
  | done (s : State)
  /-- the push must wait for a deque entry; nothing has changed -/
  | full
  /-- the count is taken, and the completion store waits for the onward cancel -/
  | onward (s : State) (lcore off : Nat)

/-- A `dec` or `cancel` performs on the record at an offset of a core's store (R150). `d` is the delay of what it wakes. -/
def State.recordStep (s : State) (cancel : Bool) (p off : Nat) (hq : BitVec 6) (d : Nat) : RecordStep :=
  let w0 := s.word (recordKey p off 0)
  let e := cancel || w0.getLsbD 38
  let old : BitVec 32 := w0.setWidth 32
  let w0' : Word := (w0 >>> 32 <<< 32) ||| (old - 1).setWidth 64 ||| (if e then 1 <<< 38 else 0)
  let s' := s.setWord (recordKey p off 0) w0'
  let doneAt (s : State) (v : Word) : State :=
    (s.setWordFull (recordKey p off 6) v).afterChange p ((off + 48) % 2 ^ 17) false d
  let w1 := s.word (recordKey p off 1)
  let rc : BitVec 13 := (s.word (recordKey p off 5)).setWidth 13
  if old ≠ 1 then .done s'
  else if !e then
    if w0.getLsbD 39 then
      if (s.core p).dequeRoom then
        .done (doneAt (s'.pushBottom p (entryOf w1 (s.word (recordKey p off 2)) (s.word (recordKey p off 3))
          (s.word (recordKey p off 4)) rc hq) d) 0)
      else .full
    else .done (doneAt s' 0)
  else if w0.getLsbD 39 && w1.getLsbD 63 then
    .onward s' rc.toNat (((w1 >>> 48).setWidth 14 : BitVec 14).toNat * 8)
  else .done (doneAt s' 0x10)

/-- The completion store of a cancelled record, after its onward cancel has performed (R151). -/
def State.cancelledAt (s : State) (p off : Nat) : State :=
  (s.setWordFull (recordKey p off 6) 0x10).afterChange p ((off + 48) % 2 ^ 17) false 1

/-! ## Return from a trap (R194, R237) -/

/-- A held `cld` is replayed (R194): the recorded values, the sectors whose mask bit is clear. -/
def CldJob.replay (j : CldJob) : CldJob :=
  { j with held := false, fail := none, next := 0, scaleNext := false, sent := [], data := [], scale := [] }

/-- The tile lock of a held `cld` of a slot clears, or the `cld` starts again (R194). -/
def State.releaseHeld (s : State) (p n : Nat) (replay : Bool) : State :=
  match (s.core p).tileOf n with
  | none => s
  | some t =>
    match (s.tile p t).lock with
    | none => s
    | some j =>
      if !j.held then s
      else if replay then
        ((s.forget p (.cld p t)).modTile p t (fun x => { x with lock := some j.replay })).post (.cldSectorRequest p t)
      else s.modTile p t (fun x => { x with lock := none })

/-- The return from a trap: the thread in a trapped or stopped slot runs from its saved PC or a given one, from the cycle
after `resume`'s stage 5 (R237). -/
def State.resumeSlot (s : State) (p n : Nat) (replay : Bool) (pc : Option Word) : State :=
  let t := s.slot p n
  let run (t : Slot) : Slot :=
    { t with st := .active, pc := pc.getD t.pc, wakeAt := max t.wakeAt (s.cycle p + 5), stopAt := none }
  match t.st with
  | .trapped _ =>
    if n = 0 then s
    else (s.releaseHeld p n replay).modSlot p n (fun t => run { t with pending := [] })
  | .stopped => if n = 0 then s else s.setSlot p n (run t)
  | _ => s

/-- A slot stops: a running or parked thread issues nothing more, and what it waits for and has not sent is withdrawn
(R183, R238). -/
def State.stopSlot (s : State) (p n : Nat) : State :=
  let t := s.slot p n
  if t.st = .active then
    let s := (s.withdraw p n).modSlot p n (fun t => { t with st := .stopped, stopAt := none })
    if (s.slot p n).wait.givesWay then s.takeLates p n else s
  else s

/-! ## Stage 2 and the address checks -/

/-- Stage 2 of an instruction that names registers: a bound trap, a park on a pending register, or go on (R31, R34, R127). -/
def State.withRegs (s : State) (rs : List Reg) (k : State) : State :=
  if rs.all (regOk s.thr) then
    if rs.any (fun r => s.thr.isPending (regDst s.thr r)) then
      s.park (.regs (rs.map (regDst s.thr)))
    else k
  else s.raise 0x02 0 0

/-- Stage 2 of a slot-0 instruction (R23, R127 row 3). -/
def State.privileged (s : State) (rs : List Reg) (k : State) : State :=
  if s.cur.slot = 0 then s.withRegs rs k else s.raise 0x03 0 0

/-- A miss in the translation buffer parks the thread, and the core's walker is asked for the page (R41, R362). The
instruction stays in flight and goes on in the cycle in which the walk completes (R260, R263). -/
def State.parkWalk (s : State) (k : PageKey) (cause detail : BitVec 8) (addr : Word) : State :=
  (s.park (.pageWalk k cause detail addr s.cur.instr s.cur.next)).askWalk s.cur.core k s.thr.hq (.thread s.cur.slot)

/-- A miss of an instruction fetch parks the thread, which is fetched for again (R104, R362). -/
def State.parkFetch (s : State) (k : PageKey) : State :=
  (s.park (.fetchWalk k)).askWalk s.cur.core k s.thr.hq (.thread s.cur.slot)

/-- Rows 6 to 9 of R127 for the issuing thread: alignment, near bound, translation, permission; then go on with the home. -/
def State.access (s : State) (n : Need) (bytes : Nat) (va : Word) (k : Home → State → State) : State :=
  if aligned va bytes then
    match s.translate s.cur.core s.thr.hq n va with
    | .fault c => s.raise c 0 va
    | .miss key => s.parkWalk key 0x05 0 va
    | .home h => k h (s.touch s.cur.core s.thr.hq va)
  else s.raise 0x04 0 va

/-- A plain access, an engine command or a departure waits for the thread's earlier relaxed accesses (R45, R48). -/
def State.afterRelaxed (s : State) (k : State) : State :=
  if s.thr.relaxedOut.isEmpty then k else s.hold .relaxedDone

/-- The request of the issuing thread for an operation at a home. -/
def State.request (s : State) (cls : AccClass) (o : AccOp) (h : Home) (va data expected : Word) (d : Dst) (unit : Bool) :
    Request :=
  { core := s.cur.core, slot := s.cur.slot, hq := s.thr.hq, seq := 0, cls := cls, op := o, home := h, va := va,
    pc := s.cur.pc, data := data, expected := expected, dst := d, unit := unit, attempts := 0, sent := 0, issued := s.now }

/-- A request of the issuing thread to a home elsewhere (R49, R182, R333, R342): the 4,097th waits, a relaxed one waits
while the core holds 8 of its class, and a write-lane operation waits for a unit. -/
def State.goRemote (s : State) (r : Request) : State :=
  let p := s.cur.core
  let c := s.core p
  let cyc := s.now
  if 4096 ≤ s.thr.out.length then s.hold .seqFree
  else if r.cls = .relaxed ∧ 8 ≤ s.heldAt p (s.classOf r.hq) ∧ s.pressed r.home r.hq then
    (s.hold (.classFree r)).post (.storeWaitLimit p s.cur.slot)
  else if opWriteLane r.op then
    if c.unitFree then
      let s := s.modCore p (fun c => { c with sa := c.sa - 1 })
      let s := s.dispatch s.cur.next { r with unit := true }
      if s.pressed r.home r.hq then s.post (.storeWaitLimit p s.cur.slot) else s
    else
      ((s.park (.allowance (cyc + 3) s.cur.next { r with unit := true })).post (.allowanceGrant p)).post
        (.storeWaitLimit p s.cur.slot)
  else s.dispatch s.cur.next r

/-- An operation of the issuing thread at its home. At the issuing core's own store it performs in stage 5; a
synchronising one that finds the wrong state waits at the bank (R47, R164, R167). -/
def State.perform (s : State) (cls : AccClass) (o : AccOp) (h : Home) (va data expected : Word) (d : Dst) (writes : Bool) :
    State :=
  let r := s.request cls o h va data expected d false
  let p := s.cur.core
  match h with
  | .ls q off =>
    if q = p then
      if cls ≠ .relaxed ∧ ¬ s.thr.relaxedOut.isEmpty then s.hold .relaxedDone
      else if s.ready o (localKey p off) then
        let (v, s) := (s.useBanks p s.rank off (opBytes o)).performLocal o p off data expected s.stage5
        if writes then
          (if cls = .relaxed then s.writeDst p s.cur.slot d v else s.result p s.cur.slot d v).advance
        else s.advance
      else (s.modCore p (fun c => { c with bank := c.bank ++ [r] })).park (.bank s.cur.next r)
    else s.goRemote r
  | _ => s.goRemote r

end Sys2Proof.Machine
end

