-- ==== Sys2Proof/Machine/Flags.lean ====
section
/-! DEFINITION. The thread's rounding state and its sticky flags (R81-R85). -/

namespace Sys2Proof.Machine

/-- The rounding state an instruction of the thread starts with: its mode, its s.srs, and no flag raised yet (R82). -/
def Slot.rs (t : Slot) : Rs := { mode := t.round, srs := t.srs, fl := 0 }

/-- A completing instruction keeps the state it stepped to and adds the flags it raised; none is ever cleared (R84, R85). -/
def Slot.commit (t : Slot) (r : Rs) : Slot := { t with srs := r.srs, nflag := t.nflag ||| r.fl }

/-- The issuing thread's rounding state. -/
def State.rs (s : State) : Rs := s.thr.rs

/-- The issuing thread keeps a rounding state (R85). -/
def State.commitRs (s : State) (r : Rs) : State := s.modThr (·.commit r)

/-- An instruction completes with a rounded result (R85). -/
def State.completeRs (s : State) (d : Reg) (q : Nat × Rs) : State :=
  (s.commitRs q.2).complete d (BitVec.ofNat 64 q.1)

/-- An instruction that runs past stage 8: the thread parks, and its result, state and flags are written in cycle
c + n - 1 (R18, R131, R201). -/
def State.completeLater (s : State) (n : Nat) (d : Reg) (v : Word) (r : Rs) : State :=
  (s.modThr (fun t =>
    { t with pc := s.cur.next, wait := .longOp (regDst t d) v r.srs r.fl (s.now + n - 1) })).post
    (.longOpComplete s.cur.core s.cur.slot)

end Sys2Proof.Machine
end

