-- ==== Sys2Proof/Machine/Operands.lean ====
section
/-! DEFINITION. Operands in near windows: view descriptors, and loads and stores of one element through a view
(R42-R44, R160, R206, R207). -/

namespace Sys2Proof.Machine

/-- The fields of a view descriptor (R206); `bad` marks a reserved code, an odd SB, a nonzero DB[5:0] or a set reserved
bit (R43). -/
structure View where
  sf : Fmt
  df : Fmt
  sb : Nat
  db : Nat
  doff : Nat
  bad : Bool
  deriving DecidableEq, Repr

def viewOf (w : Word) : View :=
  let x := w.toNat
  let sf := x / 2 ^ 60
  let df := x / 2 ^ 56 % 16
  let sb := x / 2 ^ 39 % 2 ^ 17
  let db := x / 2 ^ 22 % 2 ^ 17
  { sf := BitVec.ofNat 4 sf, df := BitVec.ofNat 4 df, sb := sb, db := db, doff := x / 2 ^ 5 % 2 ^ 17,
    bad := decide (12 ≤ sf) || decide (12 ≤ df) || df == 3 || df == 4 || decide (sb % 2 = 1) || decide (db % 64 ≠ 0) ||
      decide (x % 32 ≠ 0) }

/-- The descriptor of window 0: stored and decoded INT64, raw (R42, R209). -/
def rawView : View := { sf := 11, df := 11, sb := 0, db := 0, doff := 0, bad := false }

/-- The descriptor word of a view as it stands (R208). -/
def Core.descriptor (c : Core) (v : Nat) : Word := Sparse.get 0 c.vd v

/-- The view of a near window, sampled in stage 4 of an issue in a cycle. -/
def Core.view (c : Core) (v cyc : Nat) : View := if v = 0 then rawView else viewOf (c.sampled v cyc)

/-- A write of a view descriptor, in stage 5 (R44, R208). -/
def Core.setView (c : Core) (v : Nat) (w : Word) (cyc : Nat) : Core :=
  { c with vd := Sparse.put 0 c.vd v w, vdOld := some (v, c.descriptor v, cyc + 4) }

def View.scaled (w : View) : Bool := w.sf == 3 || w.sf == 4

/-- The offset of the scale of the element at an offset (R207). -/
def View.scaleAt (w : View) (o : Nat) : Nat := w.sb + 2 * ((o - w.db) / 64)

/-- Whether the element at an offset, and its scale, lie where R207 wants them. -/
def View.inRange (w : View) (o : Nat) : Bool :=
  !w.scaled || (decide (w.db ≤ o) && decide (w.scaleAt o < 2 ^ 17))

/-- A code that a view may decode to (R206). -/
def decodedFmt (f : Fmt) : Bool := decide (f.toNat < 12) && f != 3 && f != 4

/-- Rows 6, 7 and 10 of R127 for an element access of a width through a view (R43, R160, R207). R158 checks alignment by
the access width and R207 by the stored element's; the model takes R207's, DEDUCED (log 57). The access width is compared
with the decoded format's wherever the descriptor names one. -/
def View.fault (w : View) (va : Word) (o : Nat) (inStore : Bool) (bytes : Nat) : Option (BitVec 8) :=
  if va.toNat % fmtBytes w.sf ≠ 0 ∨ (decodedFmt w.df ∧ bytes ≠ fmtBytes w.df) then some 0x04
  else if !inStore || !w.inRange o then some 0x0C
  else if w.bad then some 0x01
  else none

/-- The bits of `n` bytes at an offset of a core's store. -/
def State.localNat (s : State) (p o n : Nat) : Nat := leNat (Memory.bytes s.mem (localKey p o) n)

/-- The exact value of the stored element at an offset, with its block's scale, and whether it is a reserved PR32 word
(R75, R77, R207). -/
def State.element (s : State) (p : Nat) (w : View) (o : Nat) : Num × Bool :=
  let v := s.localNat p o (fmtBytes w.sf)
  if w.scaled then (scaledValue w.sf v (s.localNat p (w.scaleAt o) 2), false) else fmtDecode w.sf v

/-- Whether a conversion is between two integer formats, which never rounds (R69). -/
def intToInt (f g : Fmt) : Bool := fmtIsInt f && fmtIsInt g

/-- The flag a saturation to an integer format sets: OF from an integer, NV from a real (R69). -/
def satFlag (src : Fmt) : BitVec 8 := if fmtIsInt src then flagOF else flagNV

/-- Every value of the source format is one of the real destination format: a load rounds nothing (R67-R71). -/
def exactLoad (f g : Fmt) : Bool :=
  (decide (f.toNat ≤ 2) && decide (5 ≤ g.toNat) && decide (g.toNat ≤ 7)) || ((f == 5 || f == 6 || f == 9) && g == 7)

/-- Whether a converting load is a rounding that steps s.srs in mode 5. R84 lists none into a real format and R75 calls
the load of a product a rounding: one between formats that can lose a value steps, an exact one does not. DEDUCED
(log 12). -/
def loadSteps (f g : Fmt) : Bool := !intToInt f g && !exactLoad f g

/-- A load of one element: unchanged where the formats are equal, else decoded exactly and rounded once (R42, R75). -/
def State.loadElement (s : State) (p : Nat) (w : View) (o : Nat) (r : Rs) : Nat × Rs :=
  if w.sf = w.df then (s.localNat p o (fmtBytes w.sf), r)
  else
    let q := s.element p w o
    fmtEncode w.df (satFlag w.sf) (loadSteps w.sf w.df) (r.raiseIf q.2 flagPRV) q.1

/-- The bits a store through a view writes for a decoded value (R42, R74, R76). Each such store steps s.srs in mode 5, as
the fourth case of R84 says, one between two integer formats too, which R84's second list exempts: DEDUCED (log 57). -/
def encodeStored (w : View) (scale v : Nat) (r : Rs) : Nat × Rs :=
  let q := fmtDecode w.df v
  let r := r.raiseIf q.2 flagPRV
  if w.scaled then
    match bf16.decode scale with
    | .fin b m e =>
      fmtEncode w.sf flagOF true r (match q.1 with
        | .fin a n d => .fin (a != b) (n * e) (d * m)
        | .inf a => .inf (a != b)
        | .zero a => .zero (a != b)
        | .nan x => .nan x)
    | _ => (if w.sf = 3 then 0x80 else 0, r.step.raise flagNV)
  else fmtEncode w.sf (satFlag w.df) true r q.1

/-- A store of one element through a view; the block's scale stays (R76). -/
def State.storeElement (s : State) (p : Nat) (w : View) (o v : Nat) (r : Rs) : State × Rs :=
  let n := fmtBytes w.sf
  let q := if w.sf = w.df then (v % 2 ^ (8 * n), r)
    else encodeStored w (if w.scaled then s.localNat p (w.scaleAt o) 2 else 0) v r
  (s.setBytes (localKey p o) (leList n q.1), q.2)

/-- Loads and stores go on with a home, or with a view of the issuing core's store (R160). `raw` takes the first. -/
def State.accessView (s : State) (n : Need) (bytes : Nat) (va : Word) (raw : Home → State → State)
    (view : View → Nat → State → State) : State :=
  match regionOf va with
  | .near v o inStore =>
    if v = 0 then s.access n bytes va raw
    else
      let w := s.seen.view v s.now
      match w.fault va o inStore bytes with
      | some c => s.raise c 0 va
      | none => view w o s
  | _ => s.access n bytes va raw

end Sys2Proof.Machine
end

