-- ==== Sys2Proof/Machine/Real.lean ====
section
/-! DEFINITION. Scalar real arithmetic and the format conversion (08_isa_arith.md, R201-R203). -/

namespace Sys2Proof.Machine

/-- A register's low bits as a value of a real format (R201). -/
def realOf (f : Fmt) (w : Word) : Num := (fmtDecode f w.toNat).1

/-- A result rounded once into a real format in the thread's mode, with the flags its operation raised (R201). -/
def Slot.rounded (t : Slot) (f : Fmt) (q : Num × BitVec 8) : Nat × Rs := fmtEncode f flagOF true (t.rs.raise q.2) q.1

/-- The operation's invalid mark as its flag. -/
def invalid (q : Num × Bool) : Num × BitVec 8 := (q.1, if q.2 then flagNV else 0)

/-- A scalar real instruction of two operands that completes in stage 8 (R201). -/
def State.real (s : State) (f : Fmt) (d a : Reg) (b : OpB) (op : Num → Num → Num × BitVec 8) : State :=
  s.withRegs (d :: a :: bRegs b) (s.completeRs d (s.thr.rounded f (op (realOf f (s.rd a)) (realOf f (s.opB b)))))

/-- One that completes n cycles after issue. -/
def State.realLong (s : State) (n : Nat) (d : Reg) (rs : List Reg) (q : Nat × Rs) : State :=
  s.withRegs (d :: rs) (s.completeLater n d (BitVec.ofNat 64 q.1) q.2)

/-- A selection: its result is one of its operands, so nothing rounds (R84, R202). -/
def State.realPick (s : State) (f : Fmt) (d a : Reg) (b : OpB) (larger : Bool) : State :=
  s.withRegs (d :: a :: bRegs b) (
    let q := invalid (Num.pick larger (realOf f (s.rd a)) (realOf f (s.opB b)))
    s.completeRs d (fmtEncode f flagOF false (s.rs.raise q.2) q.1))

/-- A comparison: 1 or 0, and the flag of R202. -/
def State.realCompare (s : State) (f : Fmt) (d a : Reg) (b : OpB) (op : Num → Num → Bool) (nv : Num → Num → Bool) :
    State :=
  s.withRegs (d :: a :: bRegs b) (
    let x := realOf f (s.rd a)
    let y := realOf f (s.opB b)
    s.completeRs d (if op x y then 1 else 0, s.rs.raiseIf (nv x y) flagNV))

/-- Either is a NaN. -/
def eitherNan (x y : Num) : Bool := x.isNan || y.isNan

/-- Either is a signalling NaN. -/
def eitherSig (x y : Num) : Bool := x.isSig || y.isSig

/-- `fadd` (R201). -/
def execFadd (f : Fmt) (d a : Reg) (b : OpB) (s : State) : Answer :=
  .next (s.real f d a b (fun x y => invalid (Num.add s.thr.round x y)))

/-- `fsub` (R201). -/
def execFsub (f : Fmt) (d a : Reg) (b : OpB) (s : State) : Answer :=
  .next (s.real f d a b (fun x y => invalid (Num.add s.thr.round x y.neg)))

/-- `fmul` (R201). -/
def execFmul (f : Fmt) (d a : Reg) (b : OpB) (s : State) : Answer :=
  .next (s.real f d a b (fun x y => invalid (Num.mul x y)))

/-- `fma`: one rounding (R201). -/
def execFma (f : Fmt) (d a : Reg) (b : OpB) (c : Reg) (s : State) : Answer :=
  .next (s.withRegs (d :: a :: (bRegs b ++ [c])) (
    s.completeRs d (s.thr.rounded f
      (invalid (Num.fma s.thr.round (realOf f (s.rd a)) (realOf f (s.opB b)) (realOf f (s.rd c)))))))

/-- `fdiv`: 32 cycles (R201, R202). -/
def execFdiv (f : Fmt) (d a : Reg) (b : OpB) (s : State) : Answer :=
  .next (s.realLong 32 d (a :: bRegs b) (s.thr.rounded f (Num.div (realOf f (s.rd a)) (realOf f (s.opB b)))))

/-- `fsqrt`: 32 cycles (R201, R202). -/
def execFsqrt (f : Fmt) (d a : Reg) (s : State) : Answer :=
  .next (s.realLong 32 d [a] (s.thr.rounded f (realOf f (s.rd a)).sqrt))

/-- `fmin` (R202). -/
def execFmin (f : Fmt) (d a : Reg) (b : OpB) (s : State) : Answer := .next (s.realPick f d a b false)

/-- `fmax` (R202). -/
def execFmax (f : Fmt) (d a : Reg) (b : OpB) (s : State) : Answer := .next (s.realPick f d a b true)

/-- `flt` (R201, R202). -/
def execFlt (f : Fmt) (d a : Reg) (b : OpB) (s : State) : Answer :=
  .next (s.realCompare f d a b Num.lt eitherNan)

/-- `fle` (R201, R202). -/
def execFle (f : Fmt) (d a : Reg) (b : OpB) (s : State) : Answer :=
  .next (s.realCompare f d a b (fun x y => x.lt y || x.eq y) eitherNan)

/-- `feq` (R201, R202). -/
def execFeq (f : Fmt) (d a : Reg) (b : OpB) (s : State) : Answer :=
  .next (s.realCompare f d a b Num.eq eitherSig)

/-- A converted element placed in a register: integers extended to 64 bits by their type, the rest zero above (R203). -/
def placed (f : Fmt) (v : Nat) : Nat :=
  match fmtInt f with
  | some g => if g.lo < 0 then (signedOf (8 * fmtBytes f) v % 2 ^ 64).toNat else v
  | none => v

/-- `fcvt` (R203). -/
def execFcvt (dst src : Fmt) (d a : Reg) (s : State) : Answer :=
  .next (s.withRegs [d, a] (
    let x := fmtDecode src (s.rd a).toNat
    let q := fmtEncode dst (satFlag src) (!intToInt src dst) (s.rs.raiseIf x.2 flagPRV) x.1
    s.completeRs d (placed dst q.1, q.2)))

/-- `fexp2`: 24 cycles (R201, R202). -/
def execFexp2 (f : Fmt) (d a : Reg) (s : State) : Answer :=
  .next (s.realLong 24 d [a] (s.thr.rounded f (realOf f (s.rd a)).exp2))

/-- `flog2`: 24 cycles (R201, R202). -/
def execFlog2 (f : Fmt) (d a : Reg) (s : State) : Answer :=
  .next (s.realLong 24 d [a] (s.thr.rounded f (realOf f (s.rd a)).log2))

end Sys2Proof.Machine
end

