-- ==== Sys2Proof/Machine/Contraction.lean ====
section
/-! DEFINITION. The contracting load, its engine, and the instructions that prepare, read and store accumulator tiles
(08_isa_arith.md, R185-R200; 13_contraction.md; R314, R315). -/

namespace Sys2Proof.Machine

/-! ## Tiles (R185, R186, R198, R199) -/

/-- Entry k = 16 m + j of a tile. -/
def tileEntry (x : TileState) (k : Nat) : Word := Sparse.get x.fill x.entries k

/-- A tile with one entry written. -/
def tileSetEntry (x : TileState) (k : Nat) (v : Word) : TileState := { x with entries := Sparse.put x.fill x.entries k v }

def tilePoisoned (x : TileState) (k : Nat) : Bool := Sparse.get false x.poison k
def tileSetPoison (x : TileState) (k : Nat) (v : Bool) : TileState := { x with poison := Sparse.put false x.poison k v }

/-- The entry operand B selects: row B[9:4], column B[3:0] (R198). -/
def entryOfB (b : Word) : Nat := b.toNat % 1024

/-- An instruction of the issuing thread makes its tile access in stage 5: a locked tile answers with a retry (R186). -/
def State.onTile (s : State) (t : Tile) (k : TileState → State) : State :=
  let x := s.tile s.cur.core t
  if x.lock.isSome then s.park (.tile t) else k x

/-- The issuing core's tile replaced. -/
def State.putTile (s : State) (t : Tile) (x : TileState) : State := s.setTile s.cur.core t x

/-- The exact value of an entry (R199). -/
def tileValue (x : TileState) (k : Nat) : Num :=
  if x.recurrence then fp32.decode (tileEntry x k).toNat else Num.ofGrid (tileEntry x k).toInt x.anchor.toInt

/-- An entry converted to a format: its low bits (R199). -/
def tileConvert (f : Fmt) (x : TileState) (k : Nat) (r : Rs) : Nat × Rs :=
  if f = 11 then ((tileEntry x k).toNat, r)
  else if f = 7 && x.recurrence then ((tileEntry x k).toNat % 2 ^ 32, r)
  else fmtEncode f flagNV true r (tileValue x k)

/-- `acz` (R198). -/
def execAcz (t : Tile) (b : OpB) (s : State) : Answer :=
  .next (s.withRegs (bRegs b) (s.onTile t (fun x =>
    (s.putTile t { x with fill := 0, entries := [], poison := [], anchor := (s.opB b).setWidth 11, recurrence := false,
                          prog := 0, cpm := 0 }).advance)))

/-- `acrd` (R198, R199). -/
def execAcrd (f : Fmt) (d : Reg) (t : Tile) (b : OpB) (s : State) : Answer :=
  .next (s.withRegs (d :: bRegs b) (s.onTile t (fun x =>
    let k := entryOfB (s.opB b)
    if tilePoisoned x k then s.raise 0x0B 0 0
    else
      let q := tileConvert f x k s.rs
      s.completeRs d (placed f q.1, q.2))))

/-- `acwr` (R198). -/
def execAcwr (t : Tile) (a : Reg) (b : OpB) (s : State) : Answer :=
  .next (s.withRegs (a :: bRegs b) (s.onTile t (fun x =>
    let k := entryOfB (s.opB b)
    (s.putTile t (tileSetPoison (tileSetEntry x k (s.rd a)) k false)).advance)))

/-- `cmprog` (R185, R197). -/
def execCmprog (t : Tile) (a : Reg) (s : State) : Answer :=
  .next (s.withRegs [a] (s.onTile t (fun x =>
    (s.putTile t { x with fill := s.rd a >>> 32, entries := [], poison := [], recurrence := true, prog := s.rd a,
                          cpm := 0 }).advance)))

/-- `cmst` (R197). -/
def execCmst (d : Reg) (t : Tile) (s : State) : Answer :=
  .next (s.withRegs [d] (s.onTile t (fun x => s.complete d (if x.recurrence then x.prog else 0))))

/-- `cldw` (R192). -/
def execCldw (t : Tile) (s : State) : Answer := .next (s.onTile t (fun _ => s.advance))

/-! ## The descriptor and the checks of cld (R187, R188) -/

/-- The fields of a stream descriptor (R187). -/
def cldStride (d : Word) : Nat := d.toNat / 2 ^ 32
def cldSectors (d : Word) : Nat := d.toNat / 2 ^ 26 % 64 + 1
def cldColumns (d : Word) : Nat := d.toNat / 2 ^ 22 % 16 + 1
def cldFirstColumn (d : Word) : Nat := d.toNat / 2 ^ 18 % 16
def cldFirstBlock (d : Word) : Nat := d.toNat / 2 ^ 12 % 64
def cldFormat (d : Word) : Fmt := BitVec.ofNat 4 (d.toNat / 2 ^ 8)
def cldRows (d : Word) : Nat := d.toNat / 4 % 64 + 1

def cldScaled (d : Word) : Bool := cldFormat d == 3 || cldFormat d == 4

/-- The last K-block a `cld` reads. -/
def cldLastBlock (d : Word) : Nat := cldFirstBlock d + (cldSectors d + cldColumns d - 1) / cldColumns d - 1

/-- The offset of row m of K-block kb (R189). -/
def rowOffset (a kb m : Nat) : Nat := a + kb * 4096 + m * 64

/-- A recurrence program holds a reserved operation (R197). -/
def progReserved (w : Word) : Bool := w.getLsbD 7 || w.getLsbD 15 || w.getLsbD 23 || w.getLsbD 31

/-- The first of the stage-4 checks of R188 that fails: cause, DETAIL and ADDR. -/
def cldCheck (x : TileState) (w : View) (va : Word) (near : Option Nat) (recur : Bool) (b d sc : Word) :
    Option (BitVec 8 × BitVec 8 × Word) :=
  match near with
  | none => some (0x0C, 0, va)
  | some o =>
    if o % 64 ≠ 0 then some (0x04, 0, va)
    else if 2 ^ 17 < o + cldLastBlock d * 4096 + cldRows d * 64 then some (0x0C, 0, va)
    else if w.bad || decide (6 < w.sf.toNat) || decide (6 < (cldFormat d).toNat) ||
        fmtBytes w.sf != fmtBytes (cldFormat d) then some (0x01, 0, va)
    else if w.scaled && !(decide (w.db ≤ o) &&
        decide (w.scaleAt (rowOffset o (cldLastBlock d) (cldRows d - 1)) < 2 ^ 17)) then some (0x0C, 0, va)
    else if b.toNat % 64 ≠ 0 ∨ cldStride d % 64 ≠ 0 then some (0x04, 0, b)
    else if cldScaled d && decide (sc.toNat % 2 = 1) then some (0x04, 0, sc)
    else if d.toNat % 4 ≠ 0 ∨ 16 < cldFirstColumn d + cldColumns d then some (0x0F, 6, 0)
    else if x.recurrence != recur || (recur && progReserved x.prog) then some (0x0F, 7, 0)
    else none

/-- The place after the one a window register names: the scale stream's address (R187). -/
def nextReg (t : Slot) (r : Reg) : Dst :=
  match regIndex t r with
  | some i => .g (t.base + (i + 1).toNat)
  | none => .nul

/-- The register after a window register lies in the window (R187). -/
def nextRegOk (t : Slot) (r : Reg) : Bool :=
  match regIndex t r with
  | some i => decide (i + 1 < t.size)
  | none => false

/-- `cld` with its operands read: the checks, the release, the wait for the thread's own `cld`, then stage 5
(R48, R53, R186, R188, R190). The view descriptor is the one sampled in its first stage 4, whatever it waits for: R44 and
R61 speak of one sample in stage 4 and do not say whether the waits of R48 and R53 repeat it (DESIGN CHOICE, log 15). -/
def State.cldIssue (s : State) (recur inOrder : Bool) (t : Tile) (a b d sc : Word) : State :=
  let p := s.cur.core
  let c := s.seen
  let (v, near) := match regionOf a with
    | .near v o true => (v, if v = 0 then none else some o)
    | _ => (0, none)
  match cldCheck (c.tile t) (c.view v s.now) a near recur b d sc with
  | some (cause, detail, addr) => s.raise cause detail addr
  | none =>
    if (c.tileOf s.cur.slot).isSome then s.hold .cldFree
    else s.afterRelaxed (s.onTile t (fun x =>
      (((s.forget p (.cld p t)).putTile t { x with
        cpm := 0
        lock := some {
          slot := s.cur.slot, hq := s.thr.hq, pc := s.cur.pc, recur := recur, inOrder := inOrder, a := a, b := b, d := d,
          s := sc, vd := c.sampled v s.now, next := 0, scaleNext := false, sent := [], data := [], scale := [], fail := none,
          held := false, reaped := false } }).post (.cldSectorRequest p t)).advance))

/-- `cld` (R187-R190). -/
def execCld (mm inOrder : Bool) (t : Tile) (a b c : Reg) (s : State) : Answer :=
  .next (s.withRegs [a, b, c] (
    let d := s.rd c
    if cldScaled d then
      if !nextRegOk s.thr c then s.raise 0x02 0 0
      else if s.thr.isPending (nextReg s.thr c) then s.park (.regs [nextReg s.thr c])
      else s.cldIssue mm inOrder t (s.rd a) (s.rd b) d (readDst (s.core s.cur.core) s.thr (nextReg s.thr c))
    else s.cldIssue mm inOrder t (s.rd a) (s.rd b) d 0))

/-! ## Contributions (R189-R191, R197) -/

/-- An 8-bit element as an integer multiple of its format's unit; `none` for NaR (R72, R87). -/
def elementUnits (f : Fmt) (v : Nat) : Option Int :=
  match f.toNat with
  | 0 | 4 => some (signedOf 8 v)
  | 1 => some (v % 256 : Nat)
  | _ =>
    if v % 256 = 128 then none
    else some (if v % 256 < 128 then (dy8Mag (v % 128) : Int) else -(dy8Mag (v % 128) : Int))

/-- The exponent of an 8-bit format's unit. -/
def unitExponent (f : Fmt) : Int := if f = 2 || f = 3 then -19 else 0

/-- The exact dot product of two rows of 8-bit elements, in units (R87). -/
def dotUnits (f g : Fmt) : List Byte → List Byte → Option Int
  | x :: xs, y :: ys =>
    match elementUnits f x.toNat, elementUnits g y.toNat, dotUnits f g xs ys with
    | some a, some b, some r => some (a * b + r)
    | _, _, _ => none
  | _, _ => some 0

/-- A value times a scale, exactly; an infinite or NaN scale is invalid (R87, R88). -/
def scaledBy (v : Num) (scale : Option Nat) : Num :=
  match scale with
  | none => v
  | some x =>
    match bf16.decode x with
    | .nan _ => .nan false
    | .inf _ => .nan false
    | y => (Num.mul v y).1

/-- The grid contribution of one row of 8-bit elements (R87, R88). -/
def gridRow8 (f g : Fmt) (row sector : List Byte) (sa sb : Option Nat) (anchor : Int) : Option Int :=
  match dotUnits f g row sector with
  | none => none
  | some n => gridPart (scaledBy (scaledBy (Num.ofGrid n (unitExponent f + unitExponent g)) sa) sb) anchor

/-- The 16-bit elements of a run of bytes. -/
def halves : List Byte → List Nat
  | x :: y :: l => (x.toNat + 256 * y.toNat) :: halves l
  | _ => []

/-- The sum of the valid element products of 16-bit rows, and whether one was invalid (R87, R88). -/
def gridRow16 (f g : Fmt) (anchor : Int) : List Nat → List Nat → Int × Bool
  | x :: xs, y :: ys =>
    let r := gridRow16 f g anchor xs ys
    match gridPart (Num.mul (fmtDecode f x).1 (fmtDecode g y).1).1 anchor with
    | some n => (r.1 + n, r.2)
    | none => (r.1, true)
  | _, _ => (0, false)

/-- The four registers of a recurrence step: s, t, a and b as FP32 bits (R197). -/
structure Recur where
  s : Nat
  t : Nat
  a : Nat
  b : Nat
  deriving DecidableEq, Repr

def recurGet (q : Recur) (i : Nat) : Nat :=
  match i with
  | 0 => q.s
  | 1 => q.t
  | 2 => q.a
  | _ => q.b

def recurSet (q : Recur) (i v : Nat) : Recur :=
  match i with
  | 0 => { q with s := v }
  | 1 => { q with t := v }
  | 2 => { q with a := v }
  | _ => { q with b := v }

/-- A value rounded to FP32, RNE (R82, R197). -/
def toFp32 (v : Num) : Nat := (fp32.encode Rs.rne v).1

/-- One operation of a recurrence program (R197). -/
def recurOp (op : Nat) (q : Recur) : Recur :=
  let di := op / 4 % 4
  let x := recurGet q di
  let y := recurGet q (op % 4)
  let u := fp32.decode x
  let w := fp32.decode y
  match op / 16 % 16 with
  | 1 => recurSet q di (toFp32 (Num.add 0 u w).1)
  | 2 => recurSet q di (toFp32 (Num.add 0 u w.neg).1)
  | 3 => recurSet q di (toFp32 (Num.mul u w).1)
  | 4 => recurSet q di (toFp32 (Num.pick true u w).1)
  | 5 => recurSet q di (toFp32 (Num.pick false u w).1)
  | 6 => recurSet q di (toFp32 (Num.lse2 u w).1)
  | 7 => recurSet q di y
  | _ => q

/-- OP0 to OP3 on one element pair (R197). -/
def recurPair (prog : Word) (st a b : Nat) : Nat :=
  let n := prog.toNat
  (recurOp (n / 2 ^ 24) (recurOp (n / 2 ^ 16) (recurOp (n / 2 ^ 8) (recurOp n { s := st, t := 0, a := a, b := b })))).s

/-- A row's element pairs in ascending order (R197). -/
def recurRow (prog : Word) : Nat → List Nat → List Nat → Nat
  | st, x :: xs, y :: ys => recurRow prog (recurPair prog st x y) xs ys
  | st, _, _ => st

/-- The elements of a row or sector as FP32 (R197). -/
def rowFp32 (f : Fmt) (bytes : List Byte) (scale : Option Nat) : List Nat :=
  (if fmtBytes f = 1 then bytes.map (fun b => b.toNat) else halves bytes).map (fun v =>
    toFp32 (match scale with
      | some x => scaledValue f v x
      | none => (fmtDecode f v).1))

/-- The contribution of a sector to the entry of one row (R190, R191, R197). -/
def tileContribute (x : TileState) (k : Nat) (f g : Fmt) (row sector : List Byte) (sa sb : Option Nat) : TileState :=
  if x.recurrence then
    tileSetEntry x k (BitVec.ofNat 64
      (recurRow x.prog ((tileEntry x k).toNat % 2 ^ 32) (rowFp32 f row sa) (rowFp32 g sector sb)))
  else if fmtBytes f = 1 then
    match gridRow8 f g row sector sa sb x.anchor.toInt with
    | some n => tileSetEntry x k (tileEntry x k + BitVec.ofInt 64 n)
    | none => tileSetPoison x k true
  else
    let q := gridRow16 f g x.anchor.toInt (halves row) (halves sector)
    let x := tileSetEntry x k (tileEntry x k + BitVec.ofInt 64 q.1)
    if q.2 then tileSetPoison x k true else x

/-- Sector i contributes to the rows from `m` on, `n` of them (R190). -/
def State.contributeRows (s : State) (p : Nat) (j : CldJob) (w : View) (i : Nat) (sector : List Byte) (sb : Option Nat) :
    Nat → Nat → TileState → TileState
  | 0, _, x => x
  | n + 1, m, x =>
    let col := cldFirstColumn j.d + i % cldColumns j.d
    let o := rowOffset (j.a.toNat % 2 ^ 17) (cldFirstBlock j.d + i / cldColumns j.d) m
    let sa := if w.scaled then some (s.localNat p (w.scaleAt o) 2) else none
    let x := tileContribute x (16 * m + col) w.sf (cldFormat j.d) (Memory.bytes s.mem (localKey p o) 64) sector sa sb
    s.contributeRows p j w i sector sb n (m + 1) x

/-! ## The stream of a cld (R190, R193, R194, R314, R315) -/

/-- The first sector from `i` on, among `n`, whose mask bit is clear (R190). -/
def firstClear (cpm : Word) : Nat → Nat → Option Nat
  | 0, _ => none
  | n + 1, i => if cpm.getLsbD i then firstClear cpm n (i + 1) else some i

/-- The next sector a `cld` requests. -/
def cldNext (x : TileState) (j : CldJob) : Option Nat := firstClear x.cpm (cldSectors j.d - j.next) j.next

/-- The address of a sector and of its scale (R190). -/
def sectorAddress (j : CldJob) (i : Nat) : Word :=
  j.b + BitVec.ofNat 64 (i % cldColumns j.d * cldStride j.d + i / cldColumns j.d * 64)
def scaleAddress (j : CldJob) (i : Nat) : Word := j.s + BitVec.ofNat 64 (2 * i)

/-- Replaces the job of a tile. -/
def State.setJob (s : State) (p : Nat) (t : Tile) (j : Option CldJob) : State :=
  s.modTile p t (fun x => { x with lock := j })

/-- After a reply or a failure: the lock clears when every sector has contributed (R192); once the requests sent have
contributed, a failed `cld` is held and faults (R193), unless its thread has been reaped (R155). -/
def State.cldSettle (s : State) (p : Nat) (t : Tile) : State :=
  let x := s.tile p t
  match x.lock with
  | none => s
  | some j =>
    if !j.sent.isEmpty then s
    else if j.fail.isSome then (if j.reaped then s.setJob p t none else s.post (.contractionFault p t))
    else if j.scaleNext || (cldNext x j).isSome then s.post (.cldSectorRequest p t)
    else s.setJob p t none

/-- A request of sector i fails: the lowest failing sector is kept with its address, and no later request is sent (R193,
R240). -/
def State.cldFail (s : State) (p : Nat) (t : Tile) (i : Nat) (cause : BitVec 8) : State :=
  match (s.tile p t).lock with
  | none => s
  | some j =>
    let fail := match j.fail with
      | some f => if f.1 ≤ i then some f else some (i, cause, sectorAddress j i)
      | none => some (i, cause, sectorAddress j i)
    (s.setJob p t (some { j with fail := fail })).cldSettle p t

/-- CLD_SECTOR_REQUEST (R190, R314). -/
def execCldSectorRequest (p : Nat) (t : Tile) (s : State) : Answer :=
  .next (
    let x := s.tile p t
    match x.lock with
    | none => s
    | some j =>
      if j.held || j.fail.isSome || (j.inOrder && !j.scaleNext && !j.sent.isEmpty) then s
      else
        match (if j.scaleNext then some j.next else cldNext x j) with
        | none => s
        | some i =>
          let va := if j.scaleNext then scaleAddress j i else sectorAddress j i
          match s.seek p (.cld p t) j.hq .read va with
          | (.fault c, s) => s.cldFail p t i c
          | (.miss _, s) => s
          | (.home h, s) =>
            let j' : CldJob := { j with
              sent := j.sent ++ [i], scaleNext := !j.scaleNext && cldScaled j.d,
              next := if !j.scaleNext && cldScaled j.d then i else i + 1 }
            let r : Request :=
              { core := p, slot := j.slot, hq := j.hq, seq := 0, cls := .engine,
                op := if j.scaleNext then .cldScale t i else .cldData t i, home := h, va := va, pc := j.pc, data := 0,
                expected := 0, dst := .nul, unit := false, attempts := 0, sent := s.cycle p, issued := s.cycle p }
            (((s.setJob p t (some j')).modCore p (fun c => { c with oac := c.oac + 1 })).post (arrivalOf r)).post
              (.cldSectorRequest p t))

/-- A reply is read at its home and is on its way to the tile (R287). -/
def State.cldCapture (s : State) (p : Nat) (t : Tile) (i : Nat) (scale : Bool) (bytes : List Byte) : State :=
  match (s.tile p t).lock with
  | none => s
  | some j =>
    (s.setJob p t (some (if scale then { j with scale := j.scale ++ [(i, BitVec.ofNat 16 (leNat bytes))] }
      else { j with data := j.data ++ [(i, bytes)] }))).post (.cldSectorArrival p t i)

/-- CLD_SECTOR_ARRIVAL (R190, R191): a reply returns; with its sector and scale both here, it contributes to every active
row and the mask bit is set. -/
def execCldSectorArrival (p : Nat) (t : Tile) (sector : Nat) (s : State) : Answer :=
  .next (
    match (s.tile p t).lock with
    | none => s
    | some j =>
      let s := s.modCore p (fun c => { c with oac := c.oac - 1 })
      let j : CldJob := { j with sent := j.sent.erase sector }
      let sb := (j.scale.find? (·.1 = sector)).map (fun e => e.2.toNat)
      let s := s.setJob p t (some j)
      match j.data.find? (·.1 = sector) with
      | none => s.cldSettle p t
      | some e =>
        if j.sent.contains sector || (cldScaled j.d && sb.isNone) then s.cldSettle p t
        else
          let x := s.contributeRows p j (viewOf j.vd) sector e.2 sb (cldRows j.d) 0 (s.tile p t)
          (s.setTile p t { x with
            cpm := x.cpm ||| BitVec.twoPow 64 sector
            lock := some { j with data := j.data.filter (·.1 ≠ sector), scale := j.scale.filter (·.1 ≠ sector) } }).cldSettle
            p t)

/-- CLD_REQUEST_FAIL (R193): a refusal of a sector or a scale returns. -/
def execCldRequestFail (p : Nat) (t : Tile) (sector : Nat) (cause : BitVec 8) (s : State) : Answer :=
  .next (
    match (s.tile p t).lock with
    | none => s
    | some j =>
      let s := s.modCore p (fun c => { c with oac := c.oac - 1 })
      (s.setJob p t (some { j with sent := j.sent.erase sector })).cldFail p t sector cause)

/-- CONTRACTION_FAULT (R193, R315): the tile is held, and 0x0A comes to the issuing thread. -/
def execContractionFault (p : Nat) (t : Tile) (s : State) : Answer :=
  .next (
    match (s.tile p t).lock with
    | none => s
    | some j =>
      if j.held || j.fail.isNone || !j.sent.isEmpty then s
      else if j.reaped then s.setJob p t none
      else (s.setJob p t (some { j with held := true })).late p j.slot { cause := 0x0A, seq := 0, addr := 0, pc := j.pc,
                                                                         tile := t })

/-! ## acst (R200) -/

/-- The bytes of a converted tile, from entry `k` on, `n` of them, in ascending order (R199, R200). -/
def tileBytes (f : Fmt) (x : TileState) : Nat → Nat → Rs → List Byte × Rs
  | 0, _, r => ([], r)
  | n + 1, k, r =>
    let q := tileConvert f x k r
    let rest := tileBytes f x n (k + 1) q.2
    (leList (fmtBytes f) q.1 ++ rest.1, rest.2)

/-- The range of `acst` lies in one region, and through a window in one local store (R200). -/
def acstRange (va : Word) (n : Nat) : Option (BitVec 8) :=
  match regionOf va with
  | .dev a => if a + n ≤ 2 ^ 47 then none else some 0x05
  | .far _ o => if o + n ≤ 2 ^ 17 then none else some 0x0C
  | .near _ o inStore => if inStore && decide (o + n ≤ 2 ^ 17) then none else some 0x0C
  | .none => some 0x05

/-- The first page of a list of addresses that does not translate. -/
inductive Pages
  | ok (s : State)
  | miss (k : PageKey) (va : Word)
  | fault (cause : BitVec 8) (va : Word)

/-- Translates the sectors from an address on: a fault comes before any write (R200). -/
def State.translateSectors (s : State) (n : Need) (va : Word) : Nat → Pages
  | 0 => .ok s
  | k + 1 =>
    match s.translate s.cur.core s.thr.hq n va with
    | .fault c => .fault c va
    | .miss key => .miss key va
    | .home _ => (s.touch s.cur.core s.thr.hq va).translateSectors n (va + 64) k

/-- Rows 8 and 9 of R127 for the range of an `acst`: no sector faults before a page that does not translate at all. -/
def State.translateRange (s : State) (va : Word) (n : Nat) : Pages :=
  match s.translateSectors .valid va n with
  | .ok s => s.translateSectors .write va n
  | x => x

/-- The home of an address that has translated. -/
def State.homeAt (s : State) (n : Need) (va : Word) : Home :=
  match s.translate s.cur.core s.thr.hq n va with
  | .home h => h
  | _ => .dev 0

/-- Pairs each sector of a copied tile with its home. -/
def State.sectorHomes (s : State) (va : Word) : Nat → List Byte → List (Home × List Byte)
  | 0, _ => []
  | k + 1, bytes => (s.homeAt .write va, bytes.take 64) :: s.sectorHomes (va + 64) k (bytes.drop 64)

/-- The request of the next sector of a thread's `acst`. -/
def sectorRequest (p n : Nat) (t : Slot) (j : TileStore) (h : Home) (bytes : List Byte) (unit : Bool) : Request :=
  { core := p, slot := n, hq := t.hq, seq := 0, cls := .plain, op := .sector bytes, home := h, va := j.va, pc := t.pc,
    data := 0, expected := 0, dst := .nul, unit := unit, attempts := 0, sent := 0, issued := j.issued }

/-- An `acst` sends its next sector, parks on the allowance for it, or ends (R182, R200). A stopped thread that finds no
unit is withdrawn (R183). -/
def State.nextSector (s : State) (p n : Nat) (next : Word) (j : TileStore) : State :=
  let t := s.slot p n
  match j.sectors with
  | [] =>
    s.setSlot p n { (t.commit { mode := t.round, srs := j.srs, fl := j.flags }) with
      wait := .none, pc := next, wakeAt := max t.wakeAt (s.cycle p + 1) }
  | (h, bytes) :: _ =>
    let waits (since : Option Nat) (out : Option Request) (s : State) : State :=
      s.modSlot p n (fun t => { t with wait := .tileStore next { j with since := since, out := out } })
    if homeOwn h p then (waits none none s).post (.homePerform { sectorRequest p n t j h bytes false with sent := s.cycle p })
    else if (s.core p).unitFree then
      let s := s.modCore p (fun c => { c with sa := c.sa - 1 })
      let (s, r) := s.send (sectorRequest p n t j h bytes true)
      let s := waits none (some r) s
      if s.pressed h r.hq then s.post (.storeWaitLimit p n) else s
    else if t.st = .active then
      ((waits (some (s.cycle p + 3)) none s).post (.allowanceGrant p)).post (.storeWaitLimit p n)
    else s.modSlot p n (fun t => { t with wait := .none })

/-- Stage 5 of `acst`: the tile is copied as it stands (R200). -/
def State.storeTile (s : State) (f : Fmt) (t : Tile) (va : Word) : State :=
  s.onTile t (fun x =>
    if x.poison.isEmpty then
      let q := tileBytes f x 1024 0 s.rs
      (s.park .none).nextSector s.cur.core s.cur.slot s.cur.next
        { sectors := s.sectorHomes va (16 * fmtBytes f) q.1, va := va, srs := q.2.srs, flags := q.2.fl, since := none, out := none, issued := s.now }
    else s.raise 0x0B 0 0)

/-- `acst` (R200). -/
def execAcst (f : Fmt) (m : MemOp) (t : Tile) (s : State) : Answer :=
  .next (s.withRegs (memRegs m) (
    let va := s.ea m
    if va.toNat % 64 ≠ 0 then s.raise 0x04 0 va
    else
      match acstRange va (1024 * fmtBytes f) with
      | some c => s.raise c 0 va
      | none =>
        match s.translateRange va (16 * fmtBytes f) with
        | .fault c a => s.raise c 0 a
        | .miss key a => s.parkWalk key 0x05 0 a
        | .ok s' => s.afterRelaxed (s'.storeTile f t va)))

end Sys2Proof.Machine
end

