-- ==== Sys2Proof/WellFormed.lean ====
section
/-! DEFINITION. Which operands an instruction may hold: the destinations (R31), the format codes (R124), the
state-register numbers (R233), the tail sizes (R120-R125). The decoder refuses what these refuse. -/

namespace Sys2Proof

/-- z0 and z1 are read-only (R31). -/
def isDest : Reg → Bool
  | .z0 | .z1 => false
  | _ => true

/-- A g register or a relative specifier (R187). -/
def isWindow : Reg → Bool
  | .g _ | .rel _ => true
  | _ => false

/-- A g register, a relative specifier or nul (R147). -/
def isWindowOrNul : Reg → Bool
  | .g _ | .rel _ | .nul => true
  | _ => false

/-- An operand B of an opcode that takes no 96-bit tail. -/
def isShort : OpB → Bool
  | .lit64 _ => false
  | _ => true

/-- Formats of the scalar real instructions (R201). -/
def realFmt (f : Fmt) : Bool := f = 5 || f = 6 || f = 7

/-- Formats of packed lanes (R124, R204). -/
def laneFmt (f : Fmt) : Bool := f.toNat ≤ 2 || (5 ≤ f.toNat && f.toNat ≤ 10)

/-- Formats of `acrd` and `acst` (R124). -/
def tileFmt (f : Fmt) : Bool := (5 ≤ f.toNat && f.toNat ≤ 8) || f = 10 || f = 11

/-- Formats of `fcvt` (R124). -/
def cvtFmt (f : Fmt) : Bool := f.toNat ≤ 2 || (5 ≤ f.toNat && f.toNat ≤ 11)

/-- Numbers that name a state register (R233). -/
def isStateReg (n : BitVec 8) : Bool :=
  n.toNat ≤ 0x06 || (0x10 ≤ n.toNat && n.toNat ≤ 0x1A) || (0x20 ≤ n.toNat && n.toNat ≤ 0x23) ||
  (0x31 ≤ n.toNat && n.toNat ≤ 0x37)

/-- The check an instruction must pass to be encodable. Steps of the other agents carry no operands of an encoding. -/
def wellFormed (i : Instr) : Bool :=
  match i with
  | .add d _ _ => isDest d
  | .sub d _ _ => isDest d
  | .mul d _ _ => isDest d
  | .mulh d _ _ => isDest d
  | .mulhu d _ _ => isDest d
  | .div d _ _ => isDest d
  | .divu d _ _ => isDest d
  | .rem d _ _ => isDest d
  | .remu d _ _ => isDest d
  | .and d _ _ => isDest d
  | .or d _ _ => isDest d
  | .xor d _ _ => isDest d
  | .andn d _ _ => isDest d
  | .orn d _ _ => isDest d
  | .shl d _ _ => isDest d
  | .shr d _ _ => isDest d
  | .sar d _ _ => isDest d
  | .rol d _ _ => isDest d
  | .ror d _ _ => isDest d
  | .min d _ _ => isDest d
  | .max d _ _ => isDest d
  | .minu d _ _ => isDest d
  | .maxu d _ _ => isDest d
  | .slt d _ _ => isDest d
  | .sltu d _ _ => isDest d
  | .seq d _ _ => isDest d
  | .sne d _ _ => isDest d
  | .sel d _ _ _ => isDest d
  | .clz d _ => isDest d
  | .ctz d _ => isDest d
  | .popc d _ => isDest d
  | .bext d _ _ => isDest d
  | .bextu d _ _ => isDest d
  | .bins d _ _ _ => isDest d
  | .fsh d _ _ _ => isDest d
  | .bswap d _ => isDest d
  | .sext d _ _ => isDest d
  | .zext d _ _ => isDest d
  | .lea d _ => isDest d
  | .mov d _ => isDest d
  | .addix b => isShort b
  | .fork d _ a _ => isDest d && isWindowOrNul a
  | .take d => isDest d
  | .reap d _ => isDest d
  | .sleep b => isShort b
  | .ld wd u _ d _ => isDest d && !(u && decide (wd = Width.d))
  | .ldf d _ => isDest d
  | .lde d _ => isDest d
  | .fes d _ => isDest d
  | .amadd d _ _ => isDest d
  | .amand d _ _ => isDest d
  | .amor d _ _ => isDest d
  | .amxor d _ _ => isDest d
  | .ammin d _ _ => isDest d
  | .ammax d _ _ => isDest d
  | .amminu d _ _ => isDest d
  | .ammaxu d _ _ => isDest d
  | .amswp d _ _ => isDest d
  | .amcas d _ _ => isDest d
  | .send d _ => isDest d
  | .cld _ _ _ _ _ c => isWindow c
  | .acz _ b => isShort b
  | .acrd f d _ b => tileFmt f && isDest d && isShort b
  | .acwr _ _ b => isShort b
  | .acst f _ _ => tileFmt f
  | .cmst d _ => isDest d
  | .fadd f d _ _ => realFmt f && isDest d
  | .fsub f d _ _ => realFmt f && isDest d
  | .fmul f d _ _ => realFmt f && isDest d
  | .fma f d _ _ _ => realFmt f && isDest d
  | .fdiv f d _ _ => realFmt f && isDest d
  | .fsqrt f d _ => realFmt f && isDest d
  | .fmin f d _ _ => realFmt f && isDest d
  | .fmax f d _ _ => realFmt f && isDest d
  | .flt f d _ _ => realFmt f && isDest d
  | .fle f d _ _ => realFmt f && isDest d
  | .feq f d _ _ => realFmt f && isDest d
  | .fcvt p q d _ => cvtFmt p && cvtFmt q && isDest d
  | .fexp2 f d _ => realFmt f && isDest d
  | .flog2 f d _ => realFmt f && isDest d
  | .padd f d _ _ => laneFmt f && isDest d
  | .psub f d _ _ => laneFmt f && isDest d
  | .pmul f d _ _ => laneFmt f && isDest d
  | .pmax f d _ _ => laneFmt f && isDest d
  | .pmin f d _ _ => laneFmt f && isDest d
  | .pdot f d _ _ => laneFmt f && isDest d
  | .setvd v _ => decide (v ≠ 0)
  | .getvd v d => decide (v ≠ 0) && isDest d
  | .rnd d _ _ => isDest d
  | .rdst d sr => isDest d && isStateReg sr
  | .wrst sr _ => isStateReg sr
  | .rdcyc d => isDest d
  | .ldMig wd u d _ => isDest d && !(u && decide (wd = Width.d))
  | _ => true

end Sys2Proof
end

