-- ==== Sys2Proof/Decode.lean ====
section
/-! DEFINITION. Lines, heads and tails (04_lines.md R93-R103), the opcode map (05_opcode_map.md R115-R125), and the
encoder written from the same tables. Decoding is total on any 64 bytes and rejects by name. -/

namespace Sys2Proof

/-- Why a head is no instruction: each traps 0x01 (R99, R116). -/
inductive DecodeError
  | overlap
  | afterLineEnd
  | unassigned
  | tailSize
  | modifier
  | specifier
  | field
  deriving DecidableEq, Repr

/-- A head and its tail, taken apart (R94, R96): opcode, modifier bits, tail size, the four register fields and the
64-bit literal (or the 32-bit one in its low half). With T = 0 the fields hold nul and the literal 0. -/
structure Raw where
  op : BitVec 8
  m : BitVec 6
  t : BitVec 2
  d : BitVec 8
  a : BitVec 8
  b : BitVec 8
  c : BitVec 8
  lit : BitVec 64
  deriving DecidableEq, Repr

/-! ## Bytes of a line -/

/-- Byte `i` of a list of bytes; 0 past its end. -/
def byteOf (l : List Byte) (i : Nat) : Byte := l.getD i 0

/-- The little-endian value of `n` bytes from byte `i` (R4). -/
def leValue (l : List Byte) (i : Nat) : Nat → Nat
  | 0 => 0
  | n + 1 => (byteOf l i).toNat + 256 * leValue l (i + 1) n

/-- `n` bytes of a value, least significant first (R4). -/
def leBytes (v : Nat) : Nat → List Byte
  | 0 => []
  | n + 1 => BitVec.ofNat 8 v :: leBytes (v / 256) n

/-- The tail size in bytes of a head (R94, R95). -/
def tailBytes (head : Nat) : Nat :=
  match head / 16384 % 4 with
  | 0 => 0
  | 1 => 4
  | 2 => 8
  | _ => 12

/-- Head `i` of a line (R95). -/
def headAt (line : List Byte) (i : Nat) : Nat := leValue line (2 * i) 2

/-- What stands at a head of a line (R97). -/
inductive LinePos
  | lineEnd
  | head (head tail : Nat) (full : Bool)
  | bad (e : DecodeError)
  deriving DecidableEq, Repr

/-- Head `i` of a line whose earlier tails take `s` bytes (R97). -/
def classify (line : List Byte) (i s : Nat) : LinePos :=
  let h := headAt line i
  let t := tailBytes h
  if 2 * i + 2 + s + t > 64 then .bad .overlap
  else if h = 0 then .lineEnd
  else .head h (leValue line (64 - s - t) t) (2 * i + 2 + s + t = 64)

/-- The head `n` places after head `i`, decoded head by head (R97): nothing stands behind a line end, and an overlap
makes every later head illegal. -/
def scanFrom (line : List Byte) : Nat → Nat → Nat → LinePos
  | 0, i, s => classify line i s
  | n + 1, i, s =>
    match classify line i s with
    | .lineEnd => .bad .afterLineEnd
    | .bad e => .bad e
    | .head h _ _ => scanFrom line n (i + 1) (s + tailBytes h)

/-- The head at byte offset `2 * i` of a line (R95, R97). -/
def lineAt (line : List Byte) (i : Nat) : LinePos := scanFrom line i 0 0

/-! ## Taking a head and its tail apart -/

/-- A byte of a number, `i` bytes up. -/
def byteN (v i : Nat) : BitVec 8 := BitVec.ofNat 8 (v / 256 ^ i)

/-- The fields of a head and its tail value (R94, R96). -/
def rawOf (head tail : Nat) : Raw :=
  let t := head / 16384 % 4
  { op := BitVec.ofNat 8 (head / 64)
    m := BitVec.ofNat 6 head
    t := BitVec.ofNat 2 t
    d := if t = 0 then 0x8A else byteN tail (4 * t - 1)
    a := if t = 0 then 0x8A else byteN tail (4 * t - 2)
    b := if t = 0 then 0x8A else byteN tail (4 * t - 3)
    c := if t = 0 then 0x8A else byteN tail (4 * t - 4)
    lit := if t = 2 then BitVec.ofNat 64 (tail % 2 ^ 32) else if t = 3 then BitVec.ofNat 64 tail else 0 }

/-- The head of taken-apart fields (R94). -/
def headOf (r : Raw) : Nat := r.t.toNat * 16384 + r.op.toNat * 64 + r.m.toNat

/-- The tail of taken-apart fields (R96). -/
def tailOf (r : Raw) : Nat :=
  let f := r.d.toNat * 2 ^ 24 + r.a.toNat * 2 ^ 16 + r.b.toNat * 2 ^ 8 + r.c.toNat
  if r.t = 0 then 0 else if r.t = 1 then f
  else if r.t = 2 then f * 2 ^ 32 + r.lit.toNat % 2 ^ 32 else f * 2 ^ 64 + r.lit.toNat

/-! ## Field codes (R31) -/

/-- The specifier of a register (R31). -/
def regCode : Reg → BitVec 8
  | .g n => n.setWidth 8
  | .h n => 0x80 ||| n.setWidth 8
  | .z0 => 0x88
  | .z1 => 0x89
  | .nul => 0x8A
  | .rel n => 0x90 ||| n.setWidth 8
  | .mb n => 0xA0 ||| n.setWidth 8

/-- The specifier of nul, which every unused field holds (R101). -/
def nulCode : BitVec 8 := 0x8A

/-- The specifier of a tile (R31). -/
def tileCode (t : Tile) : BitVec 8 := 0xA8 ||| t.setWidth 8

/-- The register a specifier names; tiles, the literal marker and reserved specifiers name none (R31). -/
def codeReg (c : BitVec 8) : Except DecodeError Reg :=
  let n := c.toNat
  if n < 0x80 then .ok (.g (BitVec.ofNat 7 n))
  else if n < 0x88 then .ok (.h (BitVec.ofNat 3 n))
  else if n = 0x88 then .ok .z0
  else if n = 0x89 then .ok .z1
  else if n = 0x8A then .ok .nul
  else if n < 0x90 then .error .specifier
  else if n < 0xA0 then .ok (.rel (BitVec.ofNat 4 n))
  else if n < 0xA8 then .ok (.mb (BitVec.ofNat 3 n))
  else .error .specifier

/-- A destination: z0 and z1 are read-only (R31). -/
def codeDest (c : BitVec 8) : Except DecodeError Reg :=
  match codeReg c with
  | .ok r => if isDest r then .ok r else .error .specifier
  | .error e => .error e

/-- A tile field (R117). -/
def codeTile (c : BitVec 8) : Except DecodeError Tile :=
  if 0xA8 ≤ c.toNat ∧ c.toNat < 0xAC then .ok (BitVec.ofNat 2 c.toNat) else .error .specifier

/-- An unused field holds nul (R101). -/
def unused (c : BitVec 8) : Except DecodeError Unit := if c = nulCode then .ok () else .error .field

/-- A check that fails with a name. -/
def need (p : Bool) (e : DecodeError) : Except DecodeError Unit := if p then .ok () else .error e

/-- The operand B, with the tail sizes allowed (R101, R128). -/
def codeB (r : Raw) (three : Bool) : Except DecodeError OpB :=
  if r.t = 1 then (codeReg r.b).map .reg
  else if r.t = 2 then (if r.b = 0xFF then .ok (.lit32 (r.lit.setWidth 32)) else .error .field)
  else if r.t = 3 ∧ three then (if r.b = 0xFF then .ok (.lit64 r.lit) else .error .field)
  else .error .tailSize

/-- A memory operand (R101, R117). -/
def codeMem (r : Raw) : Except DecodeError MemOp := do
  if r.t = 1 then
    return .idx (← codeReg r.a) (← codeReg r.b)
  else if r.t = 2 then
    unused r.b
    return .disp (← codeReg r.a) (r.lit.setWidth 32)
  else .error .tailSize

/-- No modifier bit may be set (R118). -/
def noMod (r : Raw) : Except DecodeError Unit := need (r.m = 0) .modifier

/-- The tail size must be `t` (R100). -/
def tail (r : Raw) (t : BitVec 2) : Except DecodeError Unit := need (r.t = t) .tailSize

/-- The format modifier m[3:0], in the opcode's list (R119). -/
def codeFmt (r : Raw) (legal : Fmt → Bool) : Except DecodeError Fmt :=
  if r.m.toNat < 16 ∧ legal (r.m.setWidth 4) then .ok (r.m.setWidth 4) else .error .modifier

/-! ## Shapes of the opcode map -/

def decNone (r : Raw) (k : Instr) : Except DecodeError Instr := do
  tail r 0; noMod r; return k

def decDAB (r : Raw) (k : Reg → Reg → OpB → Instr) : Except DecodeError Instr := do
  noMod r
  let b ← codeB r true
  let d ← codeDest r.d
  let a ← codeReg r.a
  unused r.c
  return k d a b

def decDABC (r : Raw) (k : Reg → Reg → OpB → Reg → Instr) : Except DecodeError Instr := do
  noMod r
  let b ← codeB r true
  let d ← codeDest r.d
  let a ← codeReg r.a
  let c ← codeReg r.c
  return k d a b c

def decDA (r : Raw) (k : Reg → Reg → Instr) : Except DecodeError Instr := do
  noMod r; tail r 1
  let d ← codeDest r.d
  let a ← codeReg r.a
  unused r.b; unused r.c
  return k d a

def decD (r : Raw) (k : Reg → Instr) : Except DecodeError Instr := do
  noMod r; tail r 1
  let d ← codeDest r.d
  unused r.a; unused r.b; unused r.c
  return k d

def decA (r : Raw) (k : Reg → Instr) : Except DecodeError Instr := do
  noMod r; tail r 1
  unused r.d
  let a ← codeReg r.a
  unused r.b; unused r.c
  return k a

def decAC (r : Raw) (k : Reg → Reg → Instr) : Except DecodeError Instr := do
  noMod r; tail r 1
  unused r.d; unused r.b
  let a ← codeReg r.a
  let c ← codeReg r.c
  return k a c

def decABC (r : Raw) (k : Reg → Reg → Reg → Instr) : Except DecodeError Instr := do
  noMod r; tail r 1
  unused r.d
  let a ← codeReg r.a
  let b ← codeReg r.b
  let c ← codeReg r.c
  return k a b c

def decRRRR (r : Raw) (k : Reg → Reg → Reg → Reg → Instr) : Except DecodeError Instr := do
  noMod r; tail r 1
  let d ← codeReg r.d
  let a ← codeReg r.a
  let b ← codeReg r.b
  let c ← codeReg r.c
  return k d a b c

def decDB (r : Raw) (k : Reg → OpB → Instr) : Except DecodeError Instr := do
  noMod r
  let b ← codeB r true
  let d ← codeDest r.d
  unused r.a; unused r.c
  return k d b

def decB (r : Raw) (k : OpB → Instr) : Except DecodeError Instr := do
  noMod r
  let b ← codeB r true
  unused r.d; unused r.a; unused r.c
  return k b

def decB12 (r : Raw) (k : OpB → Instr) : Except DecodeError Instr := do
  noMod r
  let b ← codeB r false
  unused r.d; unused r.a; unused r.c
  return k b

def decDM (r : Raw) (k : Reg → MemOp → Instr) : Except DecodeError Instr := do
  noMod r
  let m ← codeMem r
  let d ← codeDest r.d
  unused r.c
  return k d m

def decM (r : Raw) (k : MemOp → Instr) : Except DecodeError Instr := do
  noMod r
  let m ← codeMem r
  unused r.d; unused r.c
  return k m

def decMC (r : Raw) (k : MemOp → Reg → Instr) : Except DecodeError Instr := do
  noMod r
  let m ← codeMem r
  unused r.d
  let c ← codeReg r.c
  return k m c

def decDMC (r : Raw) (k : Reg → MemOp → Reg → Instr) : Except DecodeError Instr := do
  noMod r
  let m ← codeMem r
  let d ← codeDest r.d
  let c ← codeReg r.c
  return k d m c

def decDisp (r : Raw) (k : BitVec 32 → Instr) : Except DecodeError Instr := do
  noMod r; tail r 2
  unused r.d; unused r.a; unused r.b; unused r.c
  return k (r.lit.setWidth 32)

def decABDisp (r : Raw) (k : Reg → Reg → BitVec 32 → Instr) : Except DecodeError Instr := do
  noMod r; tail r 2
  unused r.d; unused r.c
  let a ← codeReg r.a
  let b ← codeReg r.b
  return k a b (r.lit.setWidth 32)

def decNADisp (r : Raw) (k : BitVec 6 → Reg → BitVec 32 → Instr) : Except DecodeError Instr := do
  tail r 2
  unused r.d; unused r.b; unused r.c
  let a ← codeReg r.a
  return k r.m a (r.lit.setWidth 32)

/-- `fork` (R147): field a names a g register, a relative specifier or nul. -/
def decFork (r : Raw) : Except DecodeError Instr := do
  noMod r
  let t ← (if r.t = 1 then (codeReg r.b).map ForkTarget.reg
    else if r.t = 2 then (unused r.b).map fun _ => ForkTarget.disp (r.lit.setWidth 32) else .error .tailSize)
  let d ← codeDest r.d
  let a ← codeReg r.a
  need (isWindowOrNul a) .specifier
  let c ← codeReg r.c
  return .fork d t a c

/-- The width of m[1:0] (R122). -/
def codeWidth (m : BitVec 6) : Width :=
  match m.toNat % 4 with
  | 0 => .d
  | 1 => .b
  | 2 => .h
  | _ => .w

/-- `ld` and `ld.mig` (R122, R123). -/
def decLd (r : Raw) : Except DecodeError Instr := do
  need (r.m.getLsbD 3 = false) .modifier
  let wd := codeWidth r.m
  let u := r.m.getLsbD 2
  let mig := r.m.getLsbD 4
  let rx := r.m.getLsbD 5
  need (!(u && wd = .d)) .modifier
  need (!(rx && mig)) .modifier
  let m ← codeMem r
  let d ← codeDest r.d
  unused r.c
  return if mig then .ldMig wd u d m else .ld wd u rx d m

/-- `st` and `st.mig` (R122, R123). -/
def decSt (r : Raw) : Except DecodeError Instr := do
  need (r.m.getLsbD 3 = false && r.m.getLsbD 2 = false) .modifier
  let wd := codeWidth r.m
  let mig := r.m.getLsbD 4
  let rx := r.m.getLsbD 5
  need (!(rx && mig)) .modifier
  let m ← codeMem r
  unused r.d
  let c ← codeReg r.c
  return if mig then .stMig wd m c else .st wd rx m c

def decFence (r : Raw) : Except DecodeError Instr := do
  tail r 0; need (r.m.toNat < 4) .modifier
  return .fence (r.m.setWidth 2)

def decTrap (r : Raw) : Except DecodeError Instr := do
  tail r 0
  return .trap r.m

/-- `cld` (R187): field c names a g register or a relative specifier. -/
def decCld (r : Raw) : Except DecodeError Instr := do
  tail r 1; need (r.m.toNat < 4) .modifier
  let t ← codeTile r.d
  let a ← codeReg r.a
  let b ← codeReg r.b
  let c ← codeReg r.c
  need (isWindow c) .specifier
  return .cld (r.m.getLsbD 0) (r.m.getLsbD 1) t a b c

def decT (r : Raw) (k : Tile → Instr) : Except DecodeError Instr := do
  noMod r; tail r 1
  let t ← codeTile r.d
  unused r.a; unused r.b; unused r.c
  return k t

def decTB12 (r : Raw) (k : Tile → OpB → Instr) : Except DecodeError Instr := do
  noMod r
  let b ← codeB r false
  let t ← codeTile r.d
  unused r.a; unused r.c
  return k t b

def decTAB12 (r : Raw) (k : Tile → Reg → OpB → Instr) : Except DecodeError Instr := do
  noMod r
  let b ← codeB r false
  let t ← codeTile r.d
  let a ← codeReg r.a
  unused r.c
  return k t a b

def decAcrd (r : Raw) : Except DecodeError Instr := do
  let f ← codeFmt r tileFmt
  let b ← codeB r false
  let d ← codeDest r.d
  let t ← codeTile r.a
  unused r.c
  return .acrd f d t b

def decAcst (r : Raw) : Except DecodeError Instr := do
  let f ← codeFmt r tileFmt
  let m ← codeMem r
  unused r.d
  let t ← codeTile r.c
  return .acst f m t

def decTA (r : Raw) (k : Tile → Reg → Instr) : Except DecodeError Instr := do
  noMod r; tail r 1
  let t ← codeTile r.d
  let a ← codeReg r.a
  unused r.b; unused r.c
  return k t a

def decDT (r : Raw) (k : Reg → Tile → Instr) : Except DecodeError Instr := do
  noMod r; tail r 1
  let d ← codeDest r.d
  let t ← codeTile r.a
  unused r.b; unused r.c
  return k d t

def decFDAB (r : Raw) (legal : Fmt → Bool) (k : Fmt → Reg → Reg → OpB → Instr) : Except DecodeError Instr := do
  let f ← codeFmt r legal
  let b ← codeB r true
  let d ← codeDest r.d
  let a ← codeReg r.a
  unused r.c
  return k f d a b

def decFDABC (r : Raw) (k : Fmt → Reg → Reg → OpB → Reg → Instr) : Except DecodeError Instr := do
  let f ← codeFmt r realFmt
  let b ← codeB r true
  let d ← codeDest r.d
  let a ← codeReg r.a
  let c ← codeReg r.c
  return k f d a b c

def decFDA (r : Raw) (k : Fmt → Reg → Reg → Instr) : Except DecodeError Instr := do
  let f ← codeFmt r realFmt
  tail r 1
  let d ← codeDest r.d
  let a ← codeReg r.a
  unused r.b; unused r.c
  return k f d a

/-- `fcvt` (R124): the source code stands in bits [3:0] of the literal. -/
def decFcvt (r : Raw) : Except DecodeError Instr := do
  let f ← codeFmt r cvtFmt
  tail r 2
  need (r.b = 0xFF) .field
  let d ← codeDest r.d
  let a ← codeReg r.a
  unused r.c
  need (r.lit.toNat < 16 && cvtFmt (r.lit.setWidth 4)) .field
  return .fcvt f (r.lit.setWidth 4) d a

def decVtopk (r : Raw) : Except DecodeError Instr := do
  tail r 1; need (r.m.toNat < 32) .modifier
  let d ← codeReg r.d
  let a ← codeReg r.a
  let b ← codeReg r.b
  let c ← codeReg r.c
  return .vtopk (r.m.setWidth 5) d a b c

def decSetvd (r : Raw) : Except DecodeError Instr := do
  tail r 1; need (1 ≤ r.m.toNat && r.m.toNat < 8) .modifier
  unused r.d
  let a ← codeReg r.a
  unused r.b; unused r.c
  return .setvd (r.m.setWidth 3) a

def decGetvd (r : Raw) : Except DecodeError Instr := do
  tail r 1; need (1 ≤ r.m.toNat && r.m.toNat < 8) .modifier
  let d ← codeDest r.d
  unused r.a; unused r.b; unused r.c
  return .getvd (r.m.setWidth 3) d

/-- `coll` (R125, R231). -/
def decColl (r : Raw) : Except DecodeError Instr := do
  tail r 1
  unused r.d; unused r.b
  let a ← codeReg r.a
  let c ← codeReg r.c
  match r.m.toNat with
  | 0 => return .collSum a c
  | 1 => return .collTopk a c
  | 2 => return .collBcast a c
  | 3 => return .collGather a c
  | _ => .error .modifier

def decRdst (r : Raw) : Except DecodeError Instr := do
  noMod r; tail r 1
  let d ← codeDest r.d
  need (isStateReg r.a) .specifier
  unused r.b; unused r.c
  return .rdst d r.a

def decWrst (r : Raw) : Except DecodeError Instr := do
  noMod r
  let b ← codeB r true
  unused r.d
  need (isStateReg r.a) .specifier
  unused r.c
  return .wrst r.a b

def decResume (r : Raw) : Except DecodeError Instr := do
  tail r 1; need (r.m.toNat < 2) .modifier
  unused r.d
  let a ← codeReg r.a
  unused r.b; unused r.c
  return .resume (r.m.getLsbD 0) a

/-- The opcode map (R115). Opcode 0x00 with m = 1 and T = 0 is `nop` (R98). -/
def decodeRaw (r : Raw) : Except DecodeError Instr :=
  match r.op.toNat with
  | 0x00 => if r.t = 0 ∧ r.m = 1 then .ok .nop else .error .unassigned
  | 0x01 => decDAB r .add
  | 0x02 => decDAB r .sub
  | 0x03 => decDAB r .mul
  | 0x04 => decDAB r .mulh
  | 0x05 => decDAB r .mulhu
  | 0x06 => decDAB r .div
  | 0x07 => decDAB r .divu
  | 0x08 => decDAB r .rem
  | 0x09 => decDAB r .remu
  | 0x0A => decDAB r .and
  | 0x0B => decDAB r .or
  | 0x0C => decDAB r .xor
  | 0x0D => decDAB r .andn
  | 0x0E => decDAB r .orn
  | 0x0F => decDAB r .shl
  | 0x10 => decDAB r .shr
  | 0x11 => decDAB r .sar
  | 0x12 => decDAB r .rol
  | 0x13 => decDAB r .ror
  | 0x14 => decDAB r .min
  | 0x15 => decDAB r .max
  | 0x16 => decDAB r .minu
  | 0x17 => decDAB r .maxu
  | 0x18 => decDAB r .slt
  | 0x19 => decDAB r .sltu
  | 0x1A => decDAB r .seq
  | 0x1B => decDAB r .sne
  | 0x1C => decDABC r .sel
  | 0x1D => decDA r .clz
  | 0x1E => decDA r .ctz
  | 0x1F => decDA r .popc
  | 0x20 => decDAB r .bext
  | 0x21 => decDAB r .bextu
  | 0x22 => decDABC r .bins
  | 0x23 => decDABC r .fsh
  | 0x24 => decDA r .bswap
  | 0x25 => decDAB r .sext
  | 0x26 => decDAB r .zext
  | 0x27 => decDM r .lea
  | 0x28 => decDB r .mov
  | 0x29 => decB12 r .addix
  | 0x40 => decDisp r .b
  | 0x41 => decABDisp r .beq
  | 0x42 => decABDisp r .bne
  | 0x43 => decABDisp r .blt
  | 0x44 => decABDisp r .bge
  | 0x45 => decABDisp r .bltu
  | 0x46 => decABDisp r .bgeu
  | 0x47 => decNADisp r .bbs
  | 0x48 => decNADisp r .bbc
  | 0x49 => decDisp r .call
  | 0x4A => decA r .callr
  | 0x4B => decA r .jmp
  | 0x4C => decNone r .ret
  | 0x4D => decFork r
  | 0x4E => decM r .dec
  | 0x4F => decM r .cancel
  | 0x50 => decD r .take
  | 0x51 => decABC r .start
  | 0x52 => decDA r .reap
  | 0x53 => decNone r .exit
  | 0x54 => decB12 r .sleep
  | 0x60 => decLd r
  | 0x61 => decSt r
  | 0x62 => decDM r .ldf
  | 0x63 => decDM r .lde
  | 0x64 => decMC r .stf
  | 0x65 => decMC r .stn
  | 0x66 => decM r .clre
  | 0x67 => decDM r .fes
  | 0x68 => decDMC r .amadd
  | 0x69 => decDMC r .amand
  | 0x6A => decDMC r .amor
  | 0x6B => decDMC r .amxor
  | 0x6C => decDMC r .ammin
  | 0x6D => decDMC r .ammax
  | 0x6E => decDMC r .amminu
  | 0x6F => decDMC r .ammaxu
  | 0x70 => decDMC r .amswp
  | 0x71 => decDMC r .amcas
  | 0x72 => decMC r .redadd
  | 0x73 => decMC r .redand
  | 0x74 => decMC r .redor
  | 0x75 => decMC r .redmax
  | 0x76 => decMC r .redmin
  | 0x77 => decMC r .redfadd
  | 0x78 => decMC r .stg
  | 0x79 => decFence r
  | 0x7A => decDM r .send
  | 0x7B => decM r .go
  | 0x7C => decRRRR r .cpy
  | 0xA0 => decCld r
  | 0xA1 => decT r .cldw
  | 0xA2 => decTB12 r .acz
  | 0xA3 => decAcrd r
  | 0xA4 => decTAB12 r .acwr
  | 0xA5 => decAcst r
  | 0xA6 => decTA r .cmprog
  | 0xA7 => decDT r .cmst
  | 0xA8 => decFDAB r realFmt .fadd
  | 0xA9 => decFDAB r realFmt .fsub
  | 0xAA => decFDAB r realFmt .fmul
  | 0xAB => decFDABC r .fma
  | 0xAC => decFDAB r realFmt .fdiv
  | 0xAD => decFDA r .fsqrt
  | 0xAE => decFDAB r realFmt .fmin
  | 0xAF => decFDAB r realFmt .fmax
  | 0xB0 => decFDAB r realFmt .flt
  | 0xB1 => decFDAB r realFmt .fle
  | 0xB2 => decFDAB r realFmt .feq
  | 0xB3 => decFcvt r
  | 0xB4 => decFDA r .fexp2
  | 0xB5 => decFDA r .flog2
  | 0xB6 => decFDAB r laneFmt .padd
  | 0xB7 => decFDAB r laneFmt .psub
  | 0xB8 => decFDAB r laneFmt .pmul
  | 0xB9 => decFDAB r laneFmt .pmax
  | 0xBA => decFDAB r laneFmt .pmin
  | 0xBB => decFDAB r laneFmt .pdot
  | 0xBC => decRRRR r .vadd
  | 0xBD => decRRRR r .vsub
  | 0xBE => decRRRR r .vmul
  | 0xBF => decRRRR r .vmax
  | 0xC0 => decRRRR r .vmin
  | 0xC1 => decRRRR r .vfma
  | 0xC2 => decRRRR r .vmap
  | 0xC3 => decRRRR r .vsum
  | 0xC4 => decVtopk r
  | 0xC5 => decRRRR r .vbcast
  | 0xC6 => decSetvd r
  | 0xC7 => decGetvd r
  | 0xC8 => decDAB r .rnd
  | 0xD0 => decM r .tup
  | 0xD1 => decM r .tdn
  | 0xD2 => decB r .tcfg
  | 0xD3 => decAC r .klu
  | 0xD4 => decAC r .kbwd
  | 0xD5 => decAC r .gat
  | 0xD6 => decColl r
  | 0xF0 => decTrap r
  | 0xF1 => decNone r .brk
  | 0xF2 => decRdst r
  | 0xF3 => decWrst r
  | 0xF4 => decResume r
  | 0xF5 => decA r .stop
  | 0xF6 => decD r .rdcyc
  | 0xF7 => decA r .sysc
  | _ => .error .unassigned

/-- The instruction of a head and its tail value. -/
def decodeHead (head tailV : Nat) : Except DecodeError Instr := decodeRaw (rawOf head tailV)

/-! ## The encoder -/

/-- A head without a tail. -/
def encNone (op : BitVec 8) (m : BitVec 6) : Raw :=
  { op, m, t := 0, d := nulCode, a := nulCode, b := nulCode, c := nulCode, lit := 0 }

/-- The register tail (T = 1). -/
def encR (op : BitVec 8) (m : BitVec 6) (d a b c : BitVec 8) : Raw := { op, m, t := 1, d, a, b, c, lit := 0 }

/-- The tail of an operand B: T = 1, 2 or 3 (R101). -/
def encB (op : BitVec 8) (m : BitVec 6) (d a : BitVec 8) (b : OpB) (c : BitVec 8) : Raw :=
  match b with
  | .reg x => { op, m, t := 1, d, a, b := regCode x, c, lit := 0 }
  | .lit32 v => { op, m, t := 2, d, a, b := 0xFF, c, lit := v.setWidth 64 }
  | .lit64 v => { op, m, t := 3, d, a, b := 0xFF, c, lit := v }

/-- The tail of a memory operand (R117). -/
def encM (op : BitVec 8) (m : BitVec 6) (d : BitVec 8) (mem : MemOp) (c : BitVec 8) : Raw :=
  match mem with
  | .idx x y => { op, m, t := 1, d, a := regCode x, b := regCode y, c, lit := 0 }
  | .disp x v => { op, m, t := 2, d, a := regCode x, b := nulCode, c, lit := v.setWidth 64 }

/-- The wide tail of a branch (R102). -/
def encDisp (op : BitVec 8) (m : BitVec 6) (a b : BitVec 8) (disp : BitVec 32) : Raw :=
  { op, m, t := 2, d := nulCode, a, b, c := nulCode, lit := disp.setWidth 64 }

def encFork (d : Reg) (t : ForkTarget) (a c : Reg) : Raw :=
  match t with
  | .reg x => encR 0x4D 0 (regCode d) (regCode a) (regCode x) (regCode c)
  | .disp v => { op := 0x4D, m := 0, t := 2, d := regCode d, a := regCode a, b := nulCode, c := regCode c,
                 lit := v.setWidth 64 }

/-- A Boolean as a modifier bit 0. -/
def boolBit (b : Bool) : BitVec 6 := if b then 1 else 0

/-- The width code (R122). -/
def widthCode : Width → BitVec 6
  | .d => 0
  | .b => 1
  | .h => 2
  | .w => 3

/-- The modifier bits of `ld` and `st` (R122). -/
def ldMod (wd : Width) (u rx mig : Bool) : BitVec 6 :=
  widthCode wd ||| (if u then 4 else 0) ||| (if mig then 16 else 0) ||| (if rx then 32 else 0)

def cldMod (mm s : Bool) : BitVec 6 := (if mm then 1 else 0) ||| (if s then 2 else 0)

/-- The encoding of an instruction; the other agents' steps have none. -/
def encodeRaw (i : Instr) : Option Raw :=
  match i with
  | .add d a b => some (encB 0x01 0 (regCode d) (regCode a) b nulCode)
  | .sub d a b => some (encB 0x02 0 (regCode d) (regCode a) b nulCode)
  | .mul d a b => some (encB 0x03 0 (regCode d) (regCode a) b nulCode)
  | .mulh d a b => some (encB 0x04 0 (regCode d) (regCode a) b nulCode)
  | .mulhu d a b => some (encB 0x05 0 (regCode d) (regCode a) b nulCode)
  | .div d a b => some (encB 0x06 0 (regCode d) (regCode a) b nulCode)
  | .divu d a b => some (encB 0x07 0 (regCode d) (regCode a) b nulCode)
  | .rem d a b => some (encB 0x08 0 (regCode d) (regCode a) b nulCode)
  | .remu d a b => some (encB 0x09 0 (regCode d) (regCode a) b nulCode)
  | .and d a b => some (encB 0x0A 0 (regCode d) (regCode a) b nulCode)
  | .or d a b => some (encB 0x0B 0 (regCode d) (regCode a) b nulCode)
  | .xor d a b => some (encB 0x0C 0 (regCode d) (regCode a) b nulCode)
  | .andn d a b => some (encB 0x0D 0 (regCode d) (regCode a) b nulCode)
  | .orn d a b => some (encB 0x0E 0 (regCode d) (regCode a) b nulCode)
  | .shl d a b => some (encB 0x0F 0 (regCode d) (regCode a) b nulCode)
  | .shr d a b => some (encB 0x10 0 (regCode d) (regCode a) b nulCode)
  | .sar d a b => some (encB 0x11 0 (regCode d) (regCode a) b nulCode)
  | .rol d a b => some (encB 0x12 0 (regCode d) (regCode a) b nulCode)
  | .ror d a b => some (encB 0x13 0 (regCode d) (regCode a) b nulCode)
  | .min d a b => some (encB 0x14 0 (regCode d) (regCode a) b nulCode)
  | .max d a b => some (encB 0x15 0 (regCode d) (regCode a) b nulCode)
  | .minu d a b => some (encB 0x16 0 (regCode d) (regCode a) b nulCode)
  | .maxu d a b => some (encB 0x17 0 (regCode d) (regCode a) b nulCode)
  | .slt d a b => some (encB 0x18 0 (regCode d) (regCode a) b nulCode)
  | .sltu d a b => some (encB 0x19 0 (regCode d) (regCode a) b nulCode)
  | .seq d a b => some (encB 0x1A 0 (regCode d) (regCode a) b nulCode)
  | .sne d a b => some (encB 0x1B 0 (regCode d) (regCode a) b nulCode)
  | .sel d a b c => some (encB 0x1C 0 (regCode d) (regCode a) b (regCode c))
  | .clz d a => some (encR 0x1D 0 (regCode d) (regCode a) nulCode nulCode)
  | .ctz d a => some (encR 0x1E 0 (regCode d) (regCode a) nulCode nulCode)
  | .popc d a => some (encR 0x1F 0 (regCode d) (regCode a) nulCode nulCode)
  | .bext d a b => some (encB 0x20 0 (regCode d) (regCode a) b nulCode)
  | .bextu d a b => some (encB 0x21 0 (regCode d) (regCode a) b nulCode)
  | .bins d a b c => some (encB 0x22 0 (regCode d) (regCode a) b (regCode c))
  | .fsh d a b c => some (encB 0x23 0 (regCode d) (regCode a) b (regCode c))
  | .bswap d a => some (encR 0x24 0 (regCode d) (regCode a) nulCode nulCode)
  | .sext d a b => some (encB 0x25 0 (regCode d) (regCode a) b nulCode)
  | .zext d a b => some (encB 0x26 0 (regCode d) (regCode a) b nulCode)
  | .lea d m => some (encM 0x27 0 (regCode d) m nulCode)
  | .mov d b => some (encB 0x28 0 (regCode d) nulCode b nulCode)
  | .addix b => some (encB 0x29 0 nulCode nulCode b nulCode)
  | .b disp => some (encDisp 0x40 0 nulCode nulCode disp)
  | .beq a b disp => some (encDisp 0x41 0 (regCode a) (regCode b) disp)
  | .bne a b disp => some (encDisp 0x42 0 (regCode a) (regCode b) disp)
  | .blt a b disp => some (encDisp 0x43 0 (regCode a) (regCode b) disp)
  | .bge a b disp => some (encDisp 0x44 0 (regCode a) (regCode b) disp)
  | .bltu a b disp => some (encDisp 0x45 0 (regCode a) (regCode b) disp)
  | .bgeu a b disp => some (encDisp 0x46 0 (regCode a) (regCode b) disp)
  | .bbs n a disp => some (encDisp 0x47 n (regCode a) nulCode disp)
  | .bbc n a disp => some (encDisp 0x48 n (regCode a) nulCode disp)
  | .call disp => some (encDisp 0x49 0 nulCode nulCode disp)
  | .callr a => some (encR 0x4A 0 nulCode (regCode a) nulCode nulCode)
  | .jmp a => some (encR 0x4B 0 nulCode (regCode a) nulCode nulCode)
  | .ret => some (encNone 0x4C 0)
  | .fork d t a c => some (encFork d t a c)
  | .dec m => some (encM 0x4E 0 nulCode m nulCode)
  | .cancel m => some (encM 0x4F 0 nulCode m nulCode)
  | .take d => some (encR 0x50 0 (regCode d) nulCode nulCode nulCode)
  | .start a b c => some (encR 0x51 0 nulCode (regCode a) (regCode b) (regCode c))
  | .reap d a => some (encR 0x52 0 (regCode d) (regCode a) nulCode nulCode)
  | .exit => some (encNone 0x53 0)
  | .sleep b => some (encB 0x54 0 nulCode nulCode b nulCode)
  | .ld wd u rx d m => some (encM 0x60 (ldMod wd u rx false) (regCode d) m nulCode)
  | .st wd rx m c => some (encM 0x61 (ldMod wd false rx false) nulCode m (regCode c))
  | .ldf d m => some (encM 0x62 0 (regCode d) m nulCode)
  | .lde d m => some (encM 0x63 0 (regCode d) m nulCode)
  | .stf m c => some (encM 0x64 0 nulCode m (regCode c))
  | .stn m c => some (encM 0x65 0 nulCode m (regCode c))
  | .clre m => some (encM 0x66 0 nulCode m nulCode)
  | .fes d m => some (encM 0x67 0 (regCode d) m nulCode)
  | .amadd d m c => some (encM 0x68 0 (regCode d) m (regCode c))
  | .amand d m c => some (encM 0x69 0 (regCode d) m (regCode c))
  | .amor d m c => some (encM 0x6A 0 (regCode d) m (regCode c))
  | .amxor d m c => some (encM 0x6B 0 (regCode d) m (regCode c))
  | .ammin d m c => some (encM 0x6C 0 (regCode d) m (regCode c))
  | .ammax d m c => some (encM 0x6D 0 (regCode d) m (regCode c))
  | .amminu d m c => some (encM 0x6E 0 (regCode d) m (regCode c))
  | .ammaxu d m c => some (encM 0x6F 0 (regCode d) m (regCode c))
  | .amswp d m c => some (encM 0x70 0 (regCode d) m (regCode c))
  | .amcas d m c => some (encM 0x71 0 (regCode d) m (regCode c))
  | .redadd m c => some (encM 0x72 0 nulCode m (regCode c))
  | .redand m c => some (encM 0x73 0 nulCode m (regCode c))
  | .redor m c => some (encM 0x74 0 nulCode m (regCode c))
  | .redmax m c => some (encM 0x75 0 nulCode m (regCode c))
  | .redmin m c => some (encM 0x76 0 nulCode m (regCode c))
  | .redfadd m c => some (encM 0x77 0 nulCode m (regCode c))
  | .stg m c => some (encM 0x78 0 nulCode m (regCode c))
  | .fence scope => some (encNone 0x79 (scope.setWidth 6))
  | .send d m => some (encM 0x7A 0 (regCode d) m nulCode)
  | .go m => some (encM 0x7B 0 nulCode m nulCode)
  | .cpy d a b c => some (encR 0x7C 0 (regCode d) (regCode a) (regCode b) (regCode c))
  | .cld mm s t a b c => some (encR 0xA0 (cldMod mm s) (tileCode t) (regCode a) (regCode b) (regCode c))
  | .cldw t => some (encR 0xA1 0 (tileCode t) nulCode nulCode nulCode)
  | .acz t b => some (encB 0xA2 0 (tileCode t) nulCode b nulCode)
  | .acrd f d t b => some (encB 0xA3 (f.setWidth 6) (regCode d) (tileCode t) b nulCode)
  | .acwr t a b => some (encB 0xA4 0 (tileCode t) (regCode a) b nulCode)
  | .acst f m t => some (encM 0xA5 (f.setWidth 6) nulCode m (tileCode t))
  | .cmprog t a => some (encR 0xA6 0 (tileCode t) (regCode a) nulCode nulCode)
  | .cmst d t => some (encR 0xA7 0 (regCode d) (tileCode t) nulCode nulCode)
  | .fadd f d a b => some (encB 0xA8 (f.setWidth 6) (regCode d) (regCode a) b nulCode)
  | .fsub f d a b => some (encB 0xA9 (f.setWidth 6) (regCode d) (regCode a) b nulCode)
  | .fmul f d a b => some (encB 0xAA (f.setWidth 6) (regCode d) (regCode a) b nulCode)
  | .fma f d a b c => some (encB 0xAB (f.setWidth 6) (regCode d) (regCode a) b (regCode c))
  | .fdiv f d a b => some (encB 0xAC (f.setWidth 6) (regCode d) (regCode a) b nulCode)
  | .fsqrt f d a => some (encR 0xAD (f.setWidth 6) (regCode d) (regCode a) nulCode nulCode)
  | .fmin f d a b => some (encB 0xAE (f.setWidth 6) (regCode d) (regCode a) b nulCode)
  | .fmax f d a b => some (encB 0xAF (f.setWidth 6) (regCode d) (regCode a) b nulCode)
  | .flt f d a b => some (encB 0xB0 (f.setWidth 6) (regCode d) (regCode a) b nulCode)
  | .fle f d a b => some (encB 0xB1 (f.setWidth 6) (regCode d) (regCode a) b nulCode)
  | .feq f d a b => some (encB 0xB2 (f.setWidth 6) (regCode d) (regCode a) b nulCode)
  | .fcvt dstFmt srcFmt d a => some (encB 0xB3 (dstFmt.setWidth 6) (regCode d) (regCode a) (.lit32 (srcFmt.setWidth 32)) nulCode)
  | .fexp2 f d a => some (encR 0xB4 (f.setWidth 6) (regCode d) (regCode a) nulCode nulCode)
  | .flog2 f d a => some (encR 0xB5 (f.setWidth 6) (regCode d) (regCode a) nulCode nulCode)
  | .padd f d a b => some (encB 0xB6 (f.setWidth 6) (regCode d) (regCode a) b nulCode)
  | .psub f d a b => some (encB 0xB7 (f.setWidth 6) (regCode d) (regCode a) b nulCode)
  | .pmul f d a b => some (encB 0xB8 (f.setWidth 6) (regCode d) (regCode a) b nulCode)
  | .pmax f d a b => some (encB 0xB9 (f.setWidth 6) (regCode d) (regCode a) b nulCode)
  | .pmin f d a b => some (encB 0xBA (f.setWidth 6) (regCode d) (regCode a) b nulCode)
  | .pdot f d a b => some (encB 0xBB (f.setWidth 6) (regCode d) (regCode a) b nulCode)
  | .vadd d a b c => some (encR 0xBC 0 (regCode d) (regCode a) (regCode b) (regCode c))
  | .vsub d a b c => some (encR 0xBD 0 (regCode d) (regCode a) (regCode b) (regCode c))
  | .vmul d a b c => some (encR 0xBE 0 (regCode d) (regCode a) (regCode b) (regCode c))
  | .vmax d a b c => some (encR 0xBF 0 (regCode d) (regCode a) (regCode b) (regCode c))
  | .vmin d a b c => some (encR 0xC0 0 (regCode d) (regCode a) (regCode b) (regCode c))
  | .vfma d a b c => some (encR 0xC1 0 (regCode d) (regCode a) (regCode b) (regCode c))
  | .vmap d a b c => some (encR 0xC2 0 (regCode d) (regCode a) (regCode b) (regCode c))
  | .vsum d a b c => some (encR 0xC3 0 (regCode d) (regCode a) (regCode b) (regCode c))
  | .vtopk k d a b c => some (encR 0xC4 (k.setWidth 6) (regCode d) (regCode a) (regCode b) (regCode c))
  | .vbcast d a b c => some (encR 0xC5 0 (regCode d) (regCode a) (regCode b) (regCode c))
  | .setvd v a => some (encR 0xC6 (v.setWidth 6) nulCode (regCode a) nulCode nulCode)
  | .getvd v d => some (encR 0xC7 (v.setWidth 6) (regCode d) nulCode nulCode nulCode)
  | .rnd d a b => some (encB 0xC8 0 (regCode d) (regCode a) b nulCode)
  | .tup m => some (encM 0xD0 0 nulCode m nulCode)
  | .tdn m => some (encM 0xD1 0 nulCode m nulCode)
  | .tcfg b => some (encB 0xD2 0 nulCode nulCode b nulCode)
  | .klu a c => some (encR 0xD3 0 nulCode (regCode a) nulCode (regCode c))
  | .kbwd a c => some (encR 0xD4 0 nulCode (regCode a) nulCode (regCode c))
  | .gat a c => some (encR 0xD5 0 nulCode (regCode a) nulCode (regCode c))
  | .collSum a c => some (encR 0xD6 0 nulCode (regCode a) nulCode (regCode c))
  | .collTopk a c => some (encR 0xD6 1 nulCode (regCode a) nulCode (regCode c))
  | .collBcast a c => some (encR 0xD6 2 nulCode (regCode a) nulCode (regCode c))
  | .collGather a c => some (encR 0xD6 3 nulCode (regCode a) nulCode (regCode c))
  | .trap n => some (encNone 0xF0 n)
  | .brk => some (encNone 0xF1 0)
  | .rdst d sr => some (encR 0xF2 0 (regCode d) sr nulCode nulCode)
  | .wrst sr b => some (encB 0xF3 0 nulCode sr b nulCode)
  | .resume replay a => some (encR 0xF4 (boolBit replay) nulCode (regCode a) nulCode nulCode)
  | .stop a => some (encR 0xF5 0 nulCode (regCode a) nulCode nulCode)
  | .rdcyc d => some (encR 0xF6 0 (regCode d) nulCode nulCode nulCode)
  | .sysc a => some (encR 0xF7 0 nulCode (regCode a) nulCode nulCode)
  | .ldMig wd u d m => some (encM 0x60 (ldMod wd u false true) (regCode d) m nulCode)
  | .stMig wd m c => some (encM 0x61 (ldMod wd false false true) nulCode m (regCode c))
  | .nop => some (encNone 0x00 1)
  | _ => none

/-- The head and tail of an instruction: the 16-bit head, the tail's size in bytes and its value. -/
def encode (i : Instr) : Option (Nat × Nat × Nat) :=
  (encodeRaw i).map fun r => (headOf r, tailBytes (headOf r), tailOf r)

/-! ## Words as the opcode table numbers them -/

/-- A line that holds one instruction: the head at its front, the tail at its end, zeros between (R95). -/
def lineOf (head tailV : Nat) : List Byte :=
  let t := tailBytes head
  leBytes head 2 ++ List.replicate (62 - t) 0 ++ leBytes tailV t

/-- The line of a table word: the head is its low 16 bits, the tail the bits above them. -/
def lineOfTableWord (nbits w : Nat) : List Byte :=
  let v := w % 2 ^ nbits
  let h := v % 65536
  lineOf h (v / 65536 % 256 ^ tailBytes h)

/-- The instruction the decoder reads from a table word placed at the head of a line. -/
def decodeTableWord (nbits w : Nat) : Option Instr :=
  match lineAt (lineOfTableWord nbits w) 0 with
  | .head h tl _ => (decodeHead h tl).toOption
  | _ => none

end Sys2Proof
end

