-- ==== Sys2Proof/Machine/Fetch.lean ====
section
/-! DEFINITION. Instruction fetch: the line of a PC, what stands at it, and who may issue (R14-R21, R93-R105). -/

namespace Sys2Proof.Machine

/-- The key of a line in a core's instruction cache: the queue and the line's virtual address. -/
def lineKey (hq : BitVec 6) (va : Word) : Nat := hq.toNat * 2 ^ 64 + va.toNat / 64 * 64

/-- The address of the line a PC lies in. -/
def lineBase (pc : Word) : Word := pc >>> 6 <<< 6

/-- What a fetch comes to. -/
inductive Fetched
  | instr (i : Instr) (next : Word)
  | lineEnd (next : Word)
  | illegal (next : Word)
  | fault (cause detail : BitVec 8)
  | walk (k : PageKey)
  | fill
  deriving DecidableEq, Repr

/-- What a line holds at a PC (R97, R103). Where no head stands, or one that overlaps, the record names the PC (R103,
R240). -/
def inLine (line : List Byte) (pc : Word) : Fetched :=
  let base := lineBase pc
  match lineAt line (pc.toNat % 64 / 2) with
  | .lineEnd => .lineEnd (base + 64)
  | .bad _ => .fault 0x01 0
  | .head h t full =>
    let next := if full then base + 64 else pc + 2
    match decodeHead h t with
    | .ok i => .instr i next
    | .error _ => .illegal next

/-- The fetch of a thread's PC (R93, R104, R105). -/
def State.fetch (s : State) (p n : Nat) : Fetched :=
  let c := s.core p
  let t := c.slot n
  if t.pc.getLsbD 0 then .fault 0x04 0
  else
    match regionOf t.pc with
    | .dev _ =>
      match s.translate p t.hq .fetch t.pc with
      | .fault cause => .fault cause 2
      | .miss k => .walk k
      | .home _ =>
        match c.icache.find? (fun e => e.1 = lineKey t.hq t.pc) with
        | some e => inLine e.2 t.pc
        | none => .fill
    | _ => .fault 0x05 2

/-- A miss in the instruction cache parks the thread while the line is read; misses of several slots are merged (R105). -/
def State.parkFill (s : State) (line : Word) : State :=
  let p := s.cur.core
  let hq := s.thr.hq
  if (s.core p).fills.contains (hq, line) then s.park (.line line)
  else ((s.modCore p (fun c => { c with fills := c.fills ++ [(hq, line)] })).post (.icacheLineFill p hq line)).park (.line line)

/-- No walk of the core's walker is for a slot. -/
def Core.walkEnded (c : Core) (n : Nat) : Bool := !c.walks.any (fun w => w.for_.contains (.thread n))

/-- The condition of an instruction that is held has come to hold (R18). -/
def State.holdOver (s : State) (p n : Nat) (t : Slot) (h : Hold) : Bool :=
  match h with
  | .relaxedDone => t.relaxedOut.isEmpty
  | .copyFree => (s.core p).copyRoom
  | .cldFree => ((s.core p).tileOf n).isNone
  | .seqFree => decide (t.out.length < 4096)
  | .classFree r => !s.pressed r.home r.hq || decide (s.heldAt p (s.classOf r.hq) < 8)
  | .links => !s.hub.linksWait

/-- What a `fence` waits for has come (R51, R173). -/
def State.fenceOver (s : State) (p n : Nat) (scope : BitVec 2) : Bool :=
  (s.slot p n).relaxedOut.all (fun o => !inScope scope p o.home) && (scope != 3 || (s.core p).oac == 0)

/-- Whether what a parked thread waits for has come, for the waits after which it takes a turn again (R18, R21). A
thread whose tree instruction runs past stage 8 has turns, which it skips (R221). -/
def State.waitOver (s : State) (p n : Nat) (t : Slot) : Bool :=
  let c := s.core p
  match t.wait with
  | .none => true
  | .pageWalk _ _ _ _ none _ => c.walkEnded n
  | .fetchWalk _ => c.walkEnded n
  | .line a => !c.fills.contains (t.hq, a)
  | .regs ds => ds.all (fun d => !t.isPending d)
  | .tile x => (c.tile x).lock.isNone
  | .tree _ => t.skip != 0
  | _ => false

/-- A late event that the thread may take at its position (R340). -/
def Slot.lateReady (t : Slot) : Bool := !t.late.isEmpty && t.wait.givesWay

/-- What a parked thread waits for has come, or a late event has. -/
def State.mayGoOn (s : State) (p n : Nat) : Bool :=
  let t := s.slot p n
  s.waitOver p n t || t.lateReady

/-- An instruction that is held goes on in the cycle in which its condition comes to hold, and a `fence` completes; a late event
comes first (R18, R340). -/
def State.goOnHeld (s : State) (p n : Nat) : State :=
  let t := s.slot p n
  if t.st ≠ .active ∨ t.lateReady then s
  else
    match t.wait with
    | .held h since i next views =>
      if s.holdOver p n t h then
        { (s.setSlot p n { t with wait := .none, wakeAt := max t.wakeAt (s.cycle p + 1) }) with
          walked := s.walked ++ [{ core := p, slot := n, pc := t.pc, next := next, instr := i,
                                   again := some { since := some since, views := some views } }] }
      else s
    | .fence scope next =>
      if s.fenceOver p n scope then
        s.setSlot p n { t with pc := next, wait := .none, wakeAt := max t.wakeAt (s.cycle p + 1) }
      else s
    | _ => s

/-- What a step ends at a slot: an instruction that was held goes on; a slot whose wait is over may issue `d` cycles from now
(R16). `a` is the state before the step. -/
def State.awakeSlot (a : State) (s : State) (p n d : Nat) : State :=
  let s := s.goOnHeld p n
  let t := s.slot p n
  if t.st = .active ∧ t.wakeAt < s.cycle p + d ∧ s.mayGoOn p n ∧ ¬ a.mayGoOn p n then
    s.setSlot p n { t with wakeAt := s.cycle p + d }
  else s

/-- The same of every slot that has a thread. -/
def State.awake (a : State) (s : State) (d : Nat) : State :=
  (s.cores.flatMap (fun e => e.2.slots.map (fun q => (e.1, q.1)))).foldl (fun s q => a.awakeSlot s q.1 q.2 d) s

/-- A slot is runnable in its core's current cycle (R16, R21). -/
def State.runnable (s : State) (p n : Nat) : Bool :=
  let t := s.slot p n
  let cyc := s.cycle p
  t.st == .active && decide (t.wakeAt ≤ cyc) &&
    (match t.stopAt with
      | some c => decide (cyc < c)
      | none => true) &&
    s.mayGoOn p n

/-- The slots that may have a position: its owner, then its partner (R14, R15). -/
def turnSlots (cyc : Nat) : Nat × Nat := (cyc % 16, (cyc % 16) ^^^ 8)

/-- Whether a core's position of the current cycle can be used. -/
def State.hasTurn (s : State) (p : Nat) : Bool :=
  let q := turnSlots (s.cycle p)
  decide ((s.core p).turn ≤ s.cycle p) && (s.runnable p q.1 || s.runnable p q.2)

/-- Gives up one of a thread's turns (R2, R221). -/
def State.skipTurn (s : State) (p n : Nat) : State := s.modSlot p n (fun t => { t with skip := t.skip - 1 })

/-- Who issues at a core's position (R15): the owner if it is runnable, else the partner. An owner that skips its turn
gives the position to the partner; a partner's skipped position goes unused (R2). A position that a runnable owner skips
counts as one of the partner's turns, also for the turns that the partner itself skips: R2 leaves it open. DESIGN CHOICE
(log 56). -/
def State.pickSlot (s : State) (p : Nat) : State × Option Nat :=
  let q := turnSlots (s.cycle p)
  let partner (s : State) : State × Option Nat :=
    if s.runnable p q.2 then
      if (s.slot p q.2).skip = 0 then (s, some q.2) else (s.skipTurn p q.2, none)
    else (s, none)
  if s.runnable p q.1 then
    if (s.slot p q.1).skip = 0 then (s, some q.1) else partner (s.skipTurn p q.1)
  else partner s

/-- A die's clock counts one cycle (R54); stops that take effect from it are taken (R238). -/
def State.tick (s : State) (d : Nat) : State :=
  let cyc := (s.die d).cyc + 1
  let s := s.modDie d (fun x => { x with cyc := cyc })
  let due := (s.cores.filter (fun e => dieOfCore e.1 == d)).flatMap (fun e =>
    (e.2.slots.filter (fun q =>
      match q.2.stopAt with
      | some c => decide (c ≤ cyc)
      | none => false)).map (fun q => (e.1, q.1)))
  due.foldl (fun s q => s.stopSlot q.1 q.2) s

/-- A hub's counter, and at H0 the quanta of the mapped hardware slots (R54, R324). -/
def State.hubTick (s : State) (hub : Nat) : State :=
  s.modHub (fun h =>
    if hub = 1 then { h with cyc1 := h.cyc1 + 1 } else
    { h with cyc := h.cyc + 1
             hw := h.hw.map (fun e => (e.1, if e.2.st == .mapped then { e.2 with left := e.2.left - 1 } else e.2)) })

end Sys2Proof.Machine
end

