-- ==== Sys2Proof/Machine/Integer.lean ====
section
/-! DEFINITION. Group A: integer and address instructions (06_isa_core.md, R128-R137). -/

namespace Sys2Proof.Machine

/-- A group A instruction of the form `op gd, ga, B` (R128, R129). -/
def State.alu (s : State) (d a : Reg) (b : OpB) (f : Word → Word → Word) : State :=
  s.withRegs (d :: a :: bRegs b) (s.complete d (f (s.rd a) (s.opB b)))

/-- One that completes n cycles after issue (R131). -/
def State.aluLong (s : State) (n : Nat) (d a : Reg) (b : OpB) (f : Word → Word → Word) : State :=
  s.withRegs (d :: a :: bRegs b) (s.completeLater n d (f (s.rd a) (s.opB b)) s.rs)

/-- One with a third source in field c (R132, R134). -/
def State.aluC (s : State) (d a : Reg) (b : OpB) (c : Reg) (f : Word → Word → Word → Word) : State :=
  s.withRegs (d :: a :: (bRegs b ++ [c])) (s.complete d (f (s.rd a) (s.opB b) (s.rd c)))

/-- One of the form `op gd, ga` (R133). -/
def State.aluUnary (s : State) (d a : Reg) (f : Word → Word) : State :=
  s.withRegs [d, a] (s.complete d (f (s.rd a)))

/-- A comparison's 1 or 0. -/
def bit64 (b : Bool) : Word := if b then 1 else 0

/-- Bits [127:64] of the signed product (R130). -/
def mulHigh (a b : Word) : Word := (((a.signExtend 128) * (b.signExtend 128)) >>> 64).setWidth 64

/-- Bits [127:64] of the unsigned product (R130). -/
def mulHighU (a b : Word) : Word := (((a.setWidth 128) * (b.setWidth 128)) >>> 64).setWidth 64

/-- Signed quotient, truncated; all ones for a zero divisor (R131). -/
def divS (a b : Word) : Word := if b = 0 then BitVec.allOnes 64 else a.sdiv b

/-- Signed remainder with the sign of A; A for a zero divisor (R131). -/
def remS (a b : Word) : Word := if b = 0 then a else a.srem b

def divU (a b : Word) : Word := if b = 0 then BitVec.allOnes 64 else a.udiv b
def remU (a b : Word) : Word := if b = 0 then a else a.umod b

/-- The shift count B[5:0] (R130). -/
def count6 (b : Word) : Nat := b.toNat % 64

/-- The number of leading zero bits, from bit `n - 1` down (R133). -/
def leadingZeros (x : Word) : Nat → Nat
  | 0 => 0
  | n + 1 => if x.getLsbD n then 0 else 1 + leadingZeros x n

/-- The number of trailing zero bits among the `n` bits from bit `i` up (R133). -/
def trailingZeros (x : Word) (i : Nat) : Nat → Nat
  | 0 => 0
  | n + 1 => if x.getLsbD i then 0 else 1 + trailingZeros x (i + 1) n

/-- The number of set bits among the low `n` (R133). -/
def countOnes (x : Word) : Nat → Nat
  | 0 => 0
  | n + 1 => (if x.getLsbD n then 1 else 0) + countOnes x n

/-- The eight bytes reversed (R133). -/
def swapBytes (x : Word) : Word :=
  x.extractLsb' 0 8 ++ x.extractLsb' 8 8 ++ x.extractLsb' 16 8 ++ x.extractLsb' 24 8 ++ x.extractLsb' 32 8 ++
    x.extractLsb' 40 8 ++ x.extractLsb' 48 8 ++ x.extractLsb' 56 8

/-- The low n bits, n in 1..64, zero-extended. -/
def lowBits (n : Nat) (x : Word) : Word := x <<< (64 - n) >>> (64 - n)

/-- The low n bits, n in 1..64, sign-extended. -/
def lowBitsSigned (n : Nat) (x : Word) : Word := (x <<< (64 - n)).sshiftRight (64 - n)

/-- The position and the width that select a field (R134). -/
def fieldLo (b : Word) : Nat := b.toNat % 64
def fieldWidth (b : Word) : Nat := b.toNat / 256 % 64 + 1

def extractSigned (a b : Word) : Word := lowBitsSigned (fieldWidth b) (a >>> fieldLo b)
def extractUnsigned (a b : Word) : Word := lowBits (fieldWidth b) (a >>> fieldLo b)

/-- The field's mask; bits at or above 64 fall out (R134). -/
def fieldMask (b : Word) : Word := lowBits (fieldWidth b) (BitVec.allOnes 64) <<< fieldLo b

def insertField (a b c : Word) : Word := (a &&& ~~~fieldMask b) ||| ((c <<< fieldLo b) &&& fieldMask b)

/-- Bits [63:0] of (A x 2^64 + C) shifted right by B[6:0] (R134). -/
def funnel (a b c : Word) : Word := ((a ++ c : BitVec 128) >>> (b.toNat % 128)).setWidth 64

/-- A bit count n = B[5:0], 0 read as 64 (R134). -/
def extendCount (b : Word) : Nat := if b.toNat % 64 = 0 then 64 else b.toNat % 64

/-- `add` (R130). -/
def execAdd (d a : Reg) (b : OpB) (s : State) : Answer := .next (s.alu d a b (fun a b => a + b))

/-- `sub` (R130). -/
def execSub (d a : Reg) (b : OpB) (s : State) : Answer := .next (s.alu d a b (fun a b => a - b))

/-- `and` (R130). -/
def execAnd (d a : Reg) (b : OpB) (s : State) : Answer := .next (s.alu d a b (fun a b => a &&& b))

/-- `or` (R130). -/
def execOr (d a : Reg) (b : OpB) (s : State) : Answer := .next (s.alu d a b (fun a b => a ||| b))

/-- `xor` (R130). -/
def execXor (d a : Reg) (b : OpB) (s : State) : Answer := .next (s.alu d a b (fun a b => a ^^^ b))

/-- `andn` (R130). -/
def execAndn (d a : Reg) (b : OpB) (s : State) : Answer := .next (s.alu d a b (fun a b => a &&& ~~~b))

/-- `orn` (R130). -/
def execOrn (d a : Reg) (b : OpB) (s : State) : Answer := .next (s.alu d a b (fun a b => a ||| ~~~b))

/-- `shl` (R130). -/
def execShl (d a : Reg) (b : OpB) (s : State) : Answer := .next (s.alu d a b (fun a b => a <<< count6 b))

/-- `shr` (R130). -/
def execShr (d a : Reg) (b : OpB) (s : State) : Answer := .next (s.alu d a b (fun a b => a >>> count6 b))

/-- `sar` (R130). -/
def execSar (d a : Reg) (b : OpB) (s : State) : Answer := .next (s.alu d a b (fun a b => a.sshiftRight (count6 b)))

/-- `rol` (R130). -/
def execRol (d a : Reg) (b : OpB) (s : State) : Answer := .next (s.alu d a b (fun a b => a.rotateLeft (count6 b)))

/-- `ror` (R130). -/
def execRor (d a : Reg) (b : OpB) (s : State) : Answer := .next (s.alu d a b (fun a b => a.rotateRight (count6 b)))

/-- `min` (R130). -/
def execMin (d a : Reg) (b : OpB) (s : State) : Answer := .next (s.alu d a b (fun a b => if a.slt b then a else b))

/-- `max` (R130). -/
def execMax (d a : Reg) (b : OpB) (s : State) : Answer := .next (s.alu d a b (fun a b => if a.slt b then b else a))

/-- `minu` (R130). -/
def execMinu (d a : Reg) (b : OpB) (s : State) : Answer := .next (s.alu d a b (fun a b => if a.ult b then a else b))

/-- `maxu` (R130). -/
def execMaxu (d a : Reg) (b : OpB) (s : State) : Answer := .next (s.alu d a b (fun a b => if a.ult b then b else a))

/-- `slt` (R130). -/
def execSlt (d a : Reg) (b : OpB) (s : State) : Answer := .next (s.alu d a b (fun a b => bit64 (a.slt b)))

/-- `sltu` (R130). -/
def execSltu (d a : Reg) (b : OpB) (s : State) : Answer := .next (s.alu d a b (fun a b => bit64 (a.ult b)))

/-- `seq` (R130). -/
def execSeq (d a : Reg) (b : OpB) (s : State) : Answer := .next (s.alu d a b (fun a b => bit64 (a == b)))

/-- `sne` (R130). -/
def execSne (d a : Reg) (b : OpB) (s : State) : Answer := .next (s.alu d a b (fun a b => bit64 (a != b)))

/-- `mul`: 16 cycles (R130, R131). -/
def execMul (d a : Reg) (b : OpB) (s : State) : Answer := .next (s.aluLong 16 d a b (fun a b => a * b))

/-- `mulh`: 16 cycles (R130, R131). -/
def execMulh (d a : Reg) (b : OpB) (s : State) : Answer := .next (s.aluLong 16 d a b mulHigh)

/-- `mulhu`: 16 cycles (R130, R131). -/
def execMulhu (d a : Reg) (b : OpB) (s : State) : Answer := .next (s.aluLong 16 d a b mulHighU)

/-- `div`: 72 cycles (R130, R131). -/
def execDiv (d a : Reg) (b : OpB) (s : State) : Answer := .next (s.aluLong 72 d a b divS)

/-- `divu`: 72 cycles (R130, R131). -/
def execDivu (d a : Reg) (b : OpB) (s : State) : Answer := .next (s.aluLong 72 d a b divU)

/-- `rem`: 72 cycles (R130, R131). -/
def execRem (d a : Reg) (b : OpB) (s : State) : Answer := .next (s.aluLong 72 d a b remS)

/-- `remu`: 72 cycles (R130, R131). -/
def execRemu (d a : Reg) (b : OpB) (s : State) : Answer := .next (s.aluLong 72 d a b remU)

/-- `sel` (R132, R134). -/
def execSel (d a : Reg) (b : OpB) (c : Reg) (s : State) : Answer :=
  .next (s.aluC d a b c (fun a b c => if c = 0 then b else a))

/-- `bins` (R132, R134). -/
def execBins (d a : Reg) (b : OpB) (c : Reg) (s : State) : Answer :=
  .next (s.aluC d a b c (fun a b c => insertField a b c))

/-- `fsh` (R132, R134). -/
def execFsh (d a : Reg) (b : OpB) (c : Reg) (s : State) : Answer :=
  .next (s.aluC d a b c (fun a b c => funnel a b c))

/-- `clz` (R133). -/
def execClz (d a : Reg) (s : State) : Answer := .next (s.aluUnary d a (fun a => BitVec.ofNat 64 (leadingZeros a 64)))

/-- `ctz` (R133). -/
def execCtz (d a : Reg) (s : State) : Answer := .next (s.aluUnary d a (fun a => BitVec.ofNat 64 (trailingZeros a 0 64)))

/-- `popc` (R133). -/
def execPopc (d a : Reg) (s : State) : Answer := .next (s.aluUnary d a (fun a => BitVec.ofNat 64 (countOnes a 64)))

/-- `bswap` (R133). -/
def execBswap (d a : Reg) (s : State) : Answer := .next (s.aluUnary d a (fun a => swapBytes a))

/-- `bext` (R134). -/
def execBext (d a : Reg) (b : OpB) (s : State) : Answer := .next (s.alu d a b (fun a b => extractSigned a b))

/-- `bextu` (R134). -/
def execBextu (d a : Reg) (b : OpB) (s : State) : Answer := .next (s.alu d a b (fun a b => extractUnsigned a b))

/-- `sext` (R134). -/
def execSext (d a : Reg) (b : OpB) (s : State) : Answer := .next (s.alu d a b (fun a b => lowBitsSigned (extendCount b) a))

/-- `zext` (R134). -/
def execZext (d a : Reg) (b : OpB) (s : State) : Answer := .next (s.alu d a b (fun a b => lowBits (extendCount b) a))

/-- `lea`: the address is formed, not checked (R136). -/
def execLea (d : Reg) (m : MemOp) (s : State) : Answer :=
  .next (s.withRegs (d :: memRegs m) (s.complete d (s.ea m)))

/-- `mov` (R135). -/
def execMov (d : Reg) (b : OpB) (s : State) : Answer :=
  .next (s.withRegs (d :: bRegs b) (s.complete d (s.opB b)))

/-- `addix`: s.ix moves by the low 16 bits of B; no register is written (R137). -/
def execAddix (b : OpB) (s : State) : Answer :=
  .next (s.withRegs (bRegs b) ((s.modThr (fun t => { t with ix := t.ix + (s.opB b).setWidth 16 })).advance))

/-- The steps of `rnd` (R215). -/
def mix (x : Word) : Word :=
  let x := (x ^^^ (x >>> 30)) * 0xBF58476D1CE4E5B9#64
  let x := (x ^^^ (x >>> 27)) * 0x94D049BB133111EB#64
  x ^^^ (x >>> 31)

/-- `rnd`: a counter-based random word (R215). -/
def execRnd (d a : Reg) (b : OpB) (s : State) : Answer :=
  .next (s.alu d a b (fun a b => mix (a + b * 0x9E3779B97F4A7C15#64)))

end Sys2Proof.Machine
end

