-- ==== Sys2Proof/Machine/Control.lean ====
section
/-! DEFINITION. Group B: branches, calls, tasks and threads (06_isa_core.md, R138-R157), with `nop`, `trap` and `brk`
(R98, R232). -/

namespace Sys2Proof.Machine

/-- `nop` (R98). -/
def execNop (s : State) : Answer := .next s.advance

/-! ## Branches and calls (R138, R139) -/

/-- The target of a displacement form: the branch's own PC plus the displacement (R102). -/
def State.target (s : State) (disp : BitVec 32) : Word := s.cur.pc + disp.signExtend 64

/-- A branch on two registers. -/
def State.branch (s : State) (a b : Reg) (disp : BitVec 32) (taken : Word → Word → Bool) : State :=
  s.withRegs [a, b] (s.goto (if taken (s.rd a) (s.rd b) then s.target disp else s.cur.next))

/-- A call: h7 takes the next-instruction address, and so does z0 (R139). -/
def State.callTo (s : State) (target : Word) : State :=
  (s.result s.cur.core s.cur.slot (.h 7) s.cur.next).goto target

/-- `b` (R138). -/
def execB (disp : BitVec 32) (s : State) : Answer := .next (s.goto (s.target disp))

/-- `beq` (R138). -/
def execBeq (a b : Reg) (disp : BitVec 32) (s : State) : Answer :=
  .next (s.branch a b disp (fun a b => a == b))

/-- `bne` (R138). -/
def execBne (a b : Reg) (disp : BitVec 32) (s : State) : Answer :=
  .next (s.branch a b disp (fun a b => a != b))

/-- `blt` (R138). -/
def execBlt (a b : Reg) (disp : BitVec 32) (s : State) : Answer :=
  .next (s.branch a b disp (fun a b => a.slt b))

/-- `bge` (R138). -/
def execBge (a b : Reg) (disp : BitVec 32) (s : State) : Answer :=
  .next (s.branch a b disp (fun a b => !a.slt b))

/-- `bltu` (R138). -/
def execBltu (a b : Reg) (disp : BitVec 32) (s : State) : Answer :=
  .next (s.branch a b disp (fun a b => a.ult b))

/-- `bgeu` (R138). -/
def execBgeu (a b : Reg) (disp : BitVec 32) (s : State) : Answer :=
  .next (s.branch a b disp (fun a b => !a.ult b))

/-- `bbs` (R138). -/
def execBbs (n : BitVec 6) (a : Reg) (disp : BitVec 32) (s : State) : Answer :=
  .next (s.branch a .nul disp (fun a _ => a.getLsbD n.toNat))

/-- `bbc` (R138). -/
def execBbc (n : BitVec 6) (a : Reg) (disp : BitVec 32) (s : State) : Answer :=
  .next (s.branch a .nul disp (fun a _ => !a.getLsbD n.toNat))

/-- `call` (R138). -/
def execCall (disp : BitVec 32) (s : State) : Answer := .next (s.withRegs [.h 7] (s.callTo (s.target disp)))

/-- `callr`: A is read before h7 is written (R139). -/
def execCallr (a : Reg) (s : State) : Answer := .next (s.withRegs [a, .h 7] (s.callTo (s.rd a)))

/-- `jmp` (R138). -/
def execJmp (a : Reg) (s : State) : Answer := .next (s.withRegs [a] (s.goto (s.rd a)))

/-- `ret` (R138). -/
def execRet (s : State) : Answer := .next (s.withRegs [.h 7] (s.goto (s.rd (.h 7))))

/-! ## fork (R147, R148) -/

/-- The record address `fork` accepts: its logical core and word offset (R148). -/
def State.locate (s : State) (v : Word) : Option (BitVec 13 × BitVec 14) :=
  if v.toNat % 8 ≠ 0 then none
  else
    match regionOf v with
    | .near _ o true => some (BitVec.ofNat 13 (s.logical s.cur.core), BitVec.ofNat 14 (o / 8))
    | .far l o => some (BitVec.ofNat 13 l, BitVec.ofNat 14 (o / 8))
    | _ => none

/-- The places of the three arguments, where field a names a window register (R147). -/
def forkArgs (t : Slot) (a : Reg) : List Dst :=
  match regIndex t a with
  | some i => [.g (t.base + i.toNat), .g (t.base + i.toNat + 1), .g (t.base + i.toNat + 2)]
  | none => []

/-- All three argument indices lie in the window (R147). -/
def forkArgsOk (t : Slot) (a : Reg) : Bool :=
  match regIndex t a with
  | some i => decide (0 ≤ i) && decide (i + 2 < t.size)
  | none => true

/-- Whether `fork` pushes: the record is none or valid, the deque has room for it, and no machine check stands
(R144, R145, R147, R352). -/
def Core.forkRoom (c : Core) : Bool := decide (c.deque.length < 48 + c.dsn.toNat) && !c.mcs.valid

/-- The task record field c names: none for nul, else what `locate` gives (R147). -/
def State.forkRecord (s : State) (c : Reg) : Option (Option (BitVec 13 × BitVec 14)) :=
  if c = .nul then some none else (s.locate (s.rd c)).map some

/-- The deque entry of a fork (R140, R141, R147). -/
def State.forkEntry (s : State) (target : Word) (a : Reg) (record : Option (BitVec 13 × BitVec 14)) : TaskEntry :=
  let args := (forkArgs s.thr a).map (readDst (s.core s.cur.core) s.thr)
  { hasRec := record.isSome, rw := (record.map (·.2)).getD 0, pc := target.setWidth 48, a0 := args.getD 0 0,
    a1 := args.getD 1 0, a2 := args.getD 2 0, rc := (record.map (·.1)).getD 0, hq := s.thr.hq }

/-- `fork` with its target known (R147). -/
def State.forkTo (s : State) (d : Reg) (target : Word) (a c : Reg) : State :=
  match s.forkRecord c with
  | none => s.complete d 0
  | some record =>
    if (s.core s.cur.core).forkRoom then (s.complete d 1).pushBottom s.cur.core (s.forkEntry target a record) 5
    else s.complete d 0

/-- `fork` (R147). -/
def execFork (d : Reg) (t : ForkTarget) (a c : Reg) (s : State) : Answer :=
  let target := match t with
    | .reg r => s.rd r
    | .disp x => s.target x
  let regs := match t with
    | .reg r => [d, a, r, c]
    | .disp _ => [d, a, c]
  .next (
    if forkArgsOk s.thr a then
      s.withRegs regs (
        if (forkArgs s.thr a).any s.thr.isPending then s.park (.regs (forkArgs s.thr a)) else s.forkTo d target a c)
    else s.raise 0x02 0 0)

/-! ## dec and cancel (R150, R151) -/

/-- A `dec` or `cancel` waits at its core behind those that came before it, for a deque entry (R145, R150). -/
def State.waitPush (s : State) (r : Request) (p : Nat) : State :=
  s.modCore p (fun c => { c with pushes := c.pushes ++ [{ entry := entryOf 0 0 0 0 0 r.hq, cause := some r }] })

/-- A `dec` or `cancel` whose turn has come at its record's home: it performs whole, waits for a deque entry, or waits for the
cancel it sends onward. The first component says whether it is done; `d` is the delay of what it wakes. -/
def State.recordPerform (s : State) (r : Request) (p off d : Nat) : Bool × State :=
  match s.recordStep (r.op == .cancel) p off r.hq d with
  | .done s => (true, s.clearOwed r (s.logical p) off)
  | .full => (false, s.waitPush r p)
  | .onward s l o => (false, (s.clearOwed r (s.logical p) off).post (.cancelPropagation l o r.hq (some r)))

/-- A `dec` or `cancel` has reached its record's home, which performs them in the order it receives them (R150). -/
def State.recordAccess (s : State) (r : Request) (p off d : Nat) : Bool × State :=
  if (s.core p).pushes.any (·.cause.isSome) then (false, s.waitPush r p) else s.recordPerform r p off d

/-- `dec` and `cancel` of the issuing thread (R151). -/
def State.decAt (s : State) (o : AccOp) (m : MemOp) : State :=
  s.withRegs (memRegs m) (
    let va := s.ea m
    if !aligned va 8 then s.raise 0x04 0 va
    else
      match regionOf va with
      | .near _ _ _ | .far _ _ =>
        s.access .both 8 va (fun h s =>
          match h with
          | .ls q off =>
            if q = s.cur.core then
              s.afterRelaxed (
                let r := s.request .plain o h va 0 0 .nul false
                let (done, s) := (s.useBanks q s.rank off 8).recordAccess r q off s.stage5
                if done then s.advance else s.modThr (fun t => { t with pc := s.cur.next, wait := .reply r }))
            else s.goRemote (s.request .plain o h va 0 0 .nul false)
          | _ => s.goRemote (s.request .plain o h va 0 0 .nul false))
      | _ => s.raise 0x0C 0 va)

/-- `dec` (R150). -/
def execDec (m : MemOp) (s : State) : Answer := .next (s.decAt .dec m)

/-- `cancel` (R150). -/
def execCancel (m : MemOp) (s : State) : Answer := .next (s.decAt .cancel m)

/-! ## take, start and reap (R152-R155) -/

/-- The result word of `take` (R152). -/
def takeWord (st slot pc : Nat) : Word := BitVec.ofNat 64 (st * 2 ^ 56 + slot * 2 ^ 48 + pc)

/-- The bottom-most entry of a queue, by position from the top (R152). -/
def bottomMost (l : List TaskEntry) (q : BitVec 6) : Option Nat :=
  ((List.range l.length).filter (fun i =>
    match l[i]? with
    | some e => e.hq == q
    | none => false)).getLast?

/-- The topmost entry of a queue (R153). -/
def topMost (l : List TaskEntry) (q : BitVec 6) : Option Nat := l.findIdx? (·.hq == q)

/-- The next member of a block after a core, in cyclic order of logical index (R153). -/
def nextInBlock (i : Nat) : Nat :=
  let row := i % 1024 / 32
  let col := i % 32
  let k := (row % 8 * 8 + col % 8 + 1) % 64
  i / 1024 * 1024 + (row / 8 * 8 + k / 8) * 32 + col / 8 * 8 + k % 8

def nextInDie (i : Nat) : Nat := i / 1024 * 1024 + (i % 1024 + 1) % 1024
def nextInModule (i : Nat) : Nat := (i + 1) % 8192

/-- The next member that is not retired (R398); `fuel` is the number of retired cores. -/
def skipRetired (retired : List Nat) (next : Nat → Nat) : Nat → Nat → Nat
  | 0, v => next v
  | n + 1, v => if retired.contains (next v) then skipRetired retired next n (next v) else next v

/-- The next victim: the cursor moves to the next member other than the core itself (R153, R398). -/
def nextVictim (retired : List Nat) (next : Nat → Nat) (own : Nat) (cursor : Option Nat) : Nat :=
  let go := skipRetired retired next retired.length
  let v := go (cursor.getD own)
  if v = own then go v else v

/-- The victim of a steal for a stealing domain, and the core with its cursor moved (R153). -/
def Core.victim (c : Core) (retired : List Nat) (own : Nat) (stl : BitVec 2) : Nat × Core :=
  match stl.toNat with
  | 1 => let v := nextVictim retired nextInBlock own c.cursorBlock
    (v, { c with cursorBlock := some v })
  | 2 => let v := nextVictim retired nextInDie own c.cursorDie
    (v, { c with cursorDie := some v })
  | _ => let v := nextVictim retired nextInModule own c.cursorModule
    (v, { c with cursorModule := some v })

/-- A latched task goes back to the bottom of the deque (R152), also where 64 + s.dsn entries are there already: it then
stands in the hardware part beyond them. DESIGN CHOICE (log 39). -/
def State.unlatch (s : State) (p : Nat) : State :=
  match (s.core p).latchTask with
  | none => s
  | some e => (s.modCore p (fun c => { c with latchTask := none })).pushBottom p e 5

/-- An entry at a position of a core's deque lies in the spill area. -/
def Core.isSpilled (c : Core) (i : Nat) : Bool := decide (i < c.spilled)

/-- `take` in slot 0 (R152). A spilled entry is read when the die links carry traffic (R391), and slot 0 stops where the read is
refused (R144). A steal is a remote request: it takes a sequence number and counts in s.oac (R50, R342; log 30, log 33). -/
def State.takeTask (s : State) (d : Reg) : State :=
  let p := s.cur.core
  let s := s.unlatch p
  let c := s.core p
  match c.eligibleSlot with
  | none => s.complete d (takeWord 3 0 0)
  | some n =>
    let q := (c.owner n).getD 0
    match bottomMost c.deque q with
    | some i =>
      if c.isSpilled i && s.hub.linksWait then s.hold .links
      else
        match s.takeEntry p i with
        | (some e, s) => (s.modCore p (fun c => { c with latchTask := some e })).complete d (takeWord 0 n e.pc.toNat)
        | (none, s) => s
    | none =>
      if (s.hw q).stl = 0 then s.complete d (takeWord 2 n 0)
      else if 4096 ≤ s.thr.out.length then s.hold .seqFree
      else
        let (v, c) := c.victim s.hub.retired (s.logical p) (s.hw q).stl
        let s := (s.setCore p { c with oac := c.oac + 1 }).post (.stealRequest p v q)
        s.modThr (fun t => { t with
          seq := t.seq + 1, out := t.out ++ [{ seq := t.seq, relaxed := false, home := .ls (s.physical v) 0, kind := .steal }],
          pc := s.cur.next, wait := .steal n q (regDst t d) })

/-- `take` (R152). -/
def execTake (d : Reg) (s : State) : Answer := .next (s.privileged [d] (s.takeTask d))

/-- The conditions of `start` on a slot and a window (R154). -/
def Core.startOk (c : Core) (e : TaskEntry) (a base size : Word) : Bool :=
  decide (1 ≤ a.toNat) && decide (a.toNat ≤ 15) && (c.slot a.toNat).st == .empty && !c.tsm.getLsbD a.toNat &&
  c.owner a.toNat == some e.hq && decide (8 ≤ size.toNat) && decide (size.toNat ≤ 128) && decide (size.toNat % 8 = 0) &&
  decide (base.toNat % 8 = 0) && decide (base.toNat + size.toNat ≤ 2048) && c.windowFree base.toNat size.toNat

/-- `start` in slot 0 (R154). It acts in stage 5. -/
def State.startTask (s : State) (a base size : Word) : State :=
  let p := s.cur.core
  let c := s.core p
  match c.latchTask with
  | none => s
  | some e =>
    if c.startOk e a base size then
      ((s.setCore p { c with latchTask := none }).startThread p a.toNat base.toNat size.toNat e).modSlot p a.toNat
        (fun t => { t with wakeAt := s.now + 5 })
    else s

/-- `start` (R154). -/
def execStart (a b c : Reg) (s : State) : Answer :=
  .next (s.privileged [a, b, c] ((s.startTask (s.rd a) (s.rd b) (s.rd c)).advance))

/-- A reaped thread's `cld`: in flight, it runs to its end and is never held; held, its lock clears (R155, R194). -/
def State.reapCld (s : State) (p n : Nat) : State :=
  match (s.core p).tileOf n with
  | none => s
  | some t =>
    s.modTile p t (fun x =>
      { x with lock := match x.lock with
          | some j => if j.held then none else some { j with reaped := true }
          | none => none })

/-- What a slot's thread has waiting at its own core for a deque entry no longer answers a thread (R155, R353). -/
def Core.disown (c : Core) (p n : Nat) : Core :=
  { c with pushes := c.pushes.map (fun w => { w with cause := w.cause.map (fun r =>
      if r.core = p ∧ r.slot = n ∧ homeOwn r.home p then { r with cls := .engine } else r) }) }

/-- The end of a reap: slot 0's result is the thread's saved PC, and the slot is empty (R155); the record that a frozen
thread owes is cancelled now at the latest (R335). -/
def State.reapDone (s : State) (p n : Nat) (d : Dst) : State :=
  let pc := (s.slot p n).pc
  let s := match (s.slot p n).owedDue, (s.slot p n).owed with
    | true, some (rc, rw) => s.post (.cancelPropagation rc.toNat (rw.toNat * 8) (s.slot p n).hq .none)
    | _, _ => s
  ((((s.modCore p (·.disown p n)).reapCld p n).emptySlot p n).result p 0 d (BitVec.ofNat 64 (pc.toNat % 2 ^ 48)))

/-- A tree instruction of the slot is still making its accesses (R222, R318). -/
def Slot.inTree (t : Slot) : Bool :=
  match t.wait with
  | .tree _ => true
  | _ => false

/-- `reap` in slot 0 (R155): it waits for the thread's requests, and for the accesses of its tree instruction (R318). -/
def State.reapSlot (s : State) (d : Reg) (a : Word) : State :=
  let p := s.cur.core
  let n := a.toNat
  if n = 0 ∨ 15 < n then s.complete d (takeWord 3 0 0)
  else
    let t := s.slot p n
    match t.st with
    | .empty => s.complete d (takeWord 1 0 0)
    | .active => s.complete d (takeWord 2 0 0)
    | _ =>
      if t.out.isEmpty ∧ ¬ t.inTree then (s.reapDone p n (regDst s.thr d)).advance
      else
        (s.modThr (fun t => { t with pc := s.cur.next, wait := .reap n (regDst t d) })).post (.reapComplete p)

/-- `reap` (R155). -/
def execReap (d a : Reg) (s : State) : Answer := .next (s.privileged [d, a] (s.reapSlot d (s.rd a)))

/-! ## exit and sleep (R156, R157) -/

/-- `exit` (R156): in slot 0 a machine check; elsewhere the slot empties when the relaxed accesses have performed, not
before stage 8. -/
def execExit (s : State) : Answer :=
  let p := s.cur.core
  if s.cur.slot = 0 then .next ((s.modThr (fun t => { t with pc := s.cur.pc })).machineCheck p 2 0 (s.record0 p 0))
  else .next ((s.park (.exit (s.now + 7))).post (.exitComplete p s.cur.slot))

/-- `sleep` (R157). -/
def execSleep (b : OpB) (s : State) : Answer :=
  .next (s.withRegs (bRegs b) (
    let n := min (s.opB b).toNat (2 ^ 32 - 1)
    if n = 0 then s.advance
    else
      (s.modThr (fun t => { t with pc := s.cur.next, wait := .sleep (s.now + n) })).post (.sleepExpiry s.cur.core s.cur.slot)))

/-! ## Software traps (R232) -/

/-- `trap n`: 0x0D with n in DETAIL; the saved PC is the next instruction. -/
def execTrap (n : BitVec 6) (s : State) : Answer :=
  .next (s.trap s.cur.core s.cur.slot 0x0D (n.setWidth 8) s.cur.next s.cur.pc 0 0)

/-- `brk`: 0x0E. -/
def execBrk (s : State) : Answer :=
  .next (s.trap s.cur.core s.cur.slot 0x0E 0 s.cur.next s.cur.pc 0 0)

end Sys2Proof.Machine
end

