-- ==== Sys2Proof/Machine/Outside.lean ====
section
/-! DEFINITION. What lies outside the module: words of other modules and of the host as seen from here (R268, R275, R277,
R380, R382); and the state of an agent's piece of work. -/

namespace Sys2Proof.Machine

/-! ## The way to another module (R380, R392, R403) -/

/-- The Colonnade port of a hub that its MODRT names for a module: the word holds the number among the hub's nine ports plus
one, 0 for none (00_scope.md; log 4). -/
def Hub.portFor (h : Hub) (hub mod : Nat) : Option Nat :=
  let w : Word := Sparse.get 0 h.modrt (256 * hub + mod % 256)
  if w = 0 ∨ 9 < w.toNat then none else some (9 * hub + (w.toNat - 1))

/-- A port carries traffic (R403). -/
def Hub.portUp (h : Hub) (n : Nat) : Bool := (Sparse.get Port.reset h.ports n).en && (Sparse.get Port.reset h.ports n).up

/-- A module can be reached from a hub: its MODRT names a port for it, and the port carries traffic. -/
def Hub.reaches (h : Hub) (hub mod : Nat) : Bool :=
  match h.portFor hub mod with
  | some n => h.portUp n
  | none => false

/-- A packet leaves a hub by the port that its MODRT names for its module; without one that runs, it goes nowhere (R380). -/
def State.sendFrame (s : State) (hub : Nat) (f : ColFrame) : State :=
  match s.hub.portFor hub f.dest with
  | some n => if s.hub.portUp n then s.modHub (fun h => { h with colOut := h.colOut ++ [(n, f)] }) else s
  | none => s

/-- A request to another module leaves by the local hub, with this module's number and its next sequence number (R380). -/
def State.sendOut (s : State) (r : Request) (m pa : Nat) : State :=
  let f : ColFrame :=
    { kind := .request, src := Config.moduleNumber, dest := m, seq := s.hub.colSeq, op := r.op, pa := pa, data := r.data,
      expected := r.expected, bytes := [] }
  (s.sendFrame (hubOf (dieOfCore r.core)) f).modHub (fun h => { h with colSeq := h.colSeq + 1 })

/-- Whether another module refuses an access, and with which cause: no way there, or the other module's own tables and
directories, which are free (R162, R380). -/
def State.outsideRefusal (s : State) (r : Request) : Option (BitVec 8) × State :=
  match r.home with
  | .remote m pa =>
    if !s.hub.reaches (hubOf (dieOfCore r.core)) m then (some 0x06, s)
    else
      let (i, s) := (s.sendOut r m pa).draw
      if Config.outsideOk i then (none, s)
      else
        let (j, s) := s.draw
        (some (if Config.outsideOk j then 0x05 else 0x06), s)
  | _ => (none, s)

/-! ## Words outside (R268, R275, R277) -/

/-- The aligned word a home outside lies in, and the home's byte in it. -/
def outsideAt (h : Home) : Home × Nat :=
  match h with
  | .remote m pa => (.remote m (pa / 8 * 8), pa % 8)
  | .host ha => (.host (ha / 8 * 8), ha % 8)
  | _ => (h, 0)

/-- The home some bytes after another. -/
def homePlus (h : Home) (n : Nat) : Home :=
  match h with
  | .ls p o => .ls p (o + n)
  | .dev pa => .dev (pa + n)
  | .remote m pa => .remote m (pa + n)
  | .host ha => .host (ha + n)

/-- A word outside has a value from now on: what its last write from here, or the last look at it, left there. -/
def State.keepWord (s : State) (h : Home) (w : Word) : State :=
  { s with outMem := (h, w) :: s.outMem.filter (fun e => e.1 != h) }

def State.keepBit (s : State) (h : Home) (b : Bool) : State :=
  { s with outFull := (h, b) :: s.outFull.filter (fun e => e.1 != h) }

/-- A word outside as an access finds it: the value last seen from here, unless another party has written it since, which
is free (log 4). -/
def State.outsideWord (s : State) (h : Home) : Word × State :=
  let (i, s) := s.draw
  match s.outMem.find? (fun e => e.1 == h), Config.outsideWrote i with
  | some e, false => (e.2, s)
  | _, _ =>
    let (j, s) := s.draw
    (Config.outsideWord j, s.keepWord h (Config.outsideWord j))

/-- The full/empty bit of a word outside, in the same way. -/
def State.outsideBit (s : State) (h : Home) : Bool × State :=
  let (i, s) := s.draw
  match s.outFull.find? (fun e => e.1 == h), Config.outsideWrote i with
  | some e, false => (e.2, s)
  | _, _ =>
    let (j, s) := s.draw
    (Config.outsideOk j, s.keepBit h (Config.outsideOk j))

/-- `n` aligned words outside, one after another. -/
def State.outsideWords (s : State) (h : Home) : Nat → List Word × State
  | 0 => ([], s)
  | n + 1 =>
    let (w, s) := s.outsideWord h
    let (l, s) := s.outsideWords (homePlus h 8) n
    (w :: l, s)

/-- `n` bytes outside. -/
def State.outsideBytes (s : State) (h : Home) (n : Nat) : List Byte × State :=
  let a := outsideAt h
  let (ws, s) := s.outsideWords a.1 ((a.2 + n + 7) / 8)
  (((ws.flatMap (fun w => leList 8 w.toNat)).drop a.2).take n, s)

/-- The little-endian words of a run of bytes. -/
def wordsOfBytes : List Byte → List Word
  | a :: b :: c :: d :: e :: f :: g :: h :: l => BitVec.ofNat 64 (leNat [a, b, c, d, e, f, g, h]) :: wordsOfBytes l
  | [] => []
  | l => [BitVec.ofNat 64 (leNat l)]

/-- Keeps a run of words outside. -/
def State.keepWords (s : State) (h : Home) : List Word → State
  | [] => s
  | w :: ws => (s.keepWord h w).keepWords (homePlus h 8) ws

/-- A write to host memory goes out from the host port, with the bytes it writes (R382). -/
def State.hostWrite (s : State) (h : Home) (bs : List Byte) : State :=
  match h with
  | .host ha => s.modHub (fun x => { x with hostOut := x.hostOut ++ [(ha, bs)] })
  | _ => s

/-- Bytes are written outside: the words they lie in take them, and they go out. -/
def State.outsideStore (s : State) (h : Home) (bs : List Byte) : State :=
  let a := outsideAt h
  let (ws, s) := s.outsideWords a.1 ((a.2 + bs.length + 7) / 8)
  let old := ws.flatMap (fun w => leList 8 w.toNat)
  (s.keepWords a.1 (wordsOfBytes (old.take a.2 ++ bs ++ old.drop (a.2 + bs.length)))).hostWrite h bs

/-! ## The work of an agent -/

/-- The piece of work an agent is at. -/
def State.run (s : State) (a : Agent) : Run := ((s.runs.find? (fun e => e.1 == a)).map (·.2)).getD Run.start

def State.setRun (s : State) (a : Agent) (r : Run) : State := { s with runs := (a, r) :: s.runs.filter (fun e => e.1 != a) }

def State.endRun (s : State) (a : Agent) : State := { s with runs := s.runs.filter (fun e => e.1 != a) }

/-- An access of an agent has been answered: with bytes, or with the cause of a refusal, which is kept with the part of the
work that it befell (R225). -/
def Run.answer (r : Run) (k : AccKey) (a : Except (BitVec 8) (List Byte)) : Run :=
  match a with
  | .ok bs => { r with out := r.out.erase k, got := r.got ++ [(k, bs)] }
  | .error c => { r with out := r.out.erase k, fails := r.fails ++ [(c, k.tag)] }

/-- Puts a step under way unless it is already. -/
def State.postOnce (s : State) (e : Instr) : State := if s.due.contains e then s else s.post e

/-- The step of an engine that executes a command. -/
def engineStep (c : EngineCmd) (stack : Nat) : Instr :=
  match c.op with
  | .klu => .kluExecute stack
  | .kbwd => .kbwdExecute stack
  | _ => .gatExecute stack

/-- The step in which an agent goes on when an answer or a translation has come. -/
def State.agentStep (s : State) (a : Agent) : Option Instr :=
  match a with
  | .walker _ | .spill _ | .back _ | .onward _ => none
  | .line p hq va => some (.icacheLineFill p hq va)
  | .stack k => (s.klu k).head?.map (fun c => engineStep c k)
  | .coll die grp tag => some (.collExecute grp tag die)
  | .copy p => some (.copyCommandStart p)
  | .cld p t => some (.cldSectorRequest p t)
  | .hqs q => match (s.hw q).launch with
    | some l => match l.stage with
      | .list | .cores _ _ | .tasks _ => some (.launchPacket q)
      | .running | .ending => some (.launchDone q)
    | none => some (.launchPacket q)
  | .arrivals p => match (s.core p).arrivalRun with
    | some r => some (if r.op = 1 then .arrivalSpill p else .arrivalReturn p)
    | none => none
  | .cancel l o q => some (.cancelPropagation l o q none)
  | .image p _ _ | .far p _ _ => some (.contextCopy p)

/-- An agent goes on. -/
def State.stepAgent (s : State) (a : Agent) : State :=
  match s.agentStep a with
  | some e => s.postOnce e
  | none => s

end Sys2Proof.Machine
end

