-- ==== Sys2Proof/Machine/Home.lean ====
section
/-! DEFINITION. What requests do at their homes and what their answers do at the core: HOME_PERFORM to STORE_WAIT_LIMIT,
the copy engine's accesses, the line fills and the page walks (R45-R50, R105, R159, R162, R164, R168, R181, R182, R332,
R333, R359, R368, R380, R382). -/

namespace Sys2Proof.Machine

/-! ## A thread whose wait ends -/

/-- Slot 0 waits in `reap` for a slot: what still comes back for its thread is discarded (R155, R343). -/
def State.reaping (s : State) (p n : Nat) : Bool :=
  match (s.slot p 0).wait with
  | .reap m _ => m == n
  | _ => false

/-- A thread's wait ends; it is runnable from the next cycle (R16). -/
def State.goOn (s : State) (p n : Nat) : State :=
  (s.modSlot p n (fun t => { t with wait := .none, wakeAt := max t.wakeAt (s.cycle p + 1) })).settle p n

/-! ## The copy engine's accesses (R181) -/

/-- The request of a copy command for a word, sent in a cycle. -/
def copyRequest (p : Nat) (c : CopyCmd) (o : AccOp) (h : Home) (va v : Word) (cyc : Nat) : Request :=
  { core := p, slot := c.slot, hq := c.hq, seq := 0, cls := .engine, op := o, home := h, va := va, pc := 0, data := v,
    expected := 0, dst := .nul, unit := false, attempts := 0, sent := cyc, issued := cyc }

/-- The failing word of lowest offset is kept (R181). -/
def CopyRun.failAt (r : CopyRun) (j : Nat) (cause : BitVec 8) : CopyRun :=
  { r with fail := match r.fail with
      | some (i, c) => if i ≤ j then some (i, c) else some (j, cause)
      | none => some (j, cause) }

def State.modCopy (s : State) (p : Nat) (f : CopyRun → CopyRun) : State :=
  s.modCore p (fun c => { c with copyRun := c.copyRun.map f })

/-- A word of a copy is done or has failed: its request no longer counts in s.oac (R50, R181). -/
def State.copyDone (s : State) (p : Nat) (f : CopyRun → CopyRun) : State :=
  (s.modCore p (fun c => { c with oac := c.oac - 1 })).modCopy p (fun x => f { x with flight := x.flight - 1 })

/-- Words that have been read are written, unless the command has stopped issuing; one whose page is not in the buffer
waits for its walk (R181, R362). -/
def State.copyWrites (s : State) (p : Nat) (cmd : CopyCmd) (failed : Bool) : List (Nat × Word) → State
  | [] => s
  | (j, v) :: l =>
    if failed then (s.copyDone p id).copyWrites p cmd failed l
    else
      let va := cmd.dst + BitVec.ofNat 64 (8 * j)
      match s.seek p (.copy p) cmd.hq .write va with
      | (.fault c, s) => (s.copyDone p (·.failAt j c)).copyWrites p cmd true l
      | (.miss _, s) => (s.modCopy p (fun x => { x with words := x.words ++ [(j, v)] })).copyWrites p cmd failed l
      | (.home h, s) => (s.post (arrivalOf (copyRequest p cmd (.copyWrite j) h va v (s.cycle p)))).copyWrites p cmd failed l

/-- The word that the engine asks for next: any that it has not asked for yet, of a choice that is not promised (R181, R278). -/
def CopyRun.choice (r : CopyRun) (i : Nat) : Nat :=
  let j := r.next + Config.pick i % max 1 (r.cmd.len / 8 - r.next)
  if r.ahead.contains j then r.next else j

/-- A word of a copy has been asked for. `fuel` bounds the words that follow it. -/
def CopyRun.skip (r : CopyRun) : Nat → CopyRun
  | 0 => r
  | k + 1 => if r.ahead.contains r.next then { r with next := r.next + 1, ahead := r.ahead.erase r.next }.skip k else r

def CopyRun.asked (r : CopyRun) (j : Nat) : CopyRun :=
  { r with ahead := j :: r.ahead }.skip (r.ahead.length + 1)

/-- The engine reads on while it has units and nothing has failed (R181). `fuel` bounds the reads of one step. -/
def State.copyPump (s : State) (p : Nat) : Nat → State
  | 0 => s
  | k + 1 =>
    match (s.core p).copyRun with
    | none => s
    | some r =>
      if r.fail.isSome || decide (16 ≤ r.flight) || decide (r.cmd.len / 8 ≤ r.next) then s
      else
        let (i, s) := s.draw
        let j := r.choice i
        let va := r.cmd.src + BitVec.ofNat 64 (8 * j)
        match s.seek p (.copy p) r.cmd.hq .read va with
        | (.fault c, s) => s.modCopy p (fun x => (x.failAt j c).asked j)
        | (.miss _, s) => s
        | (.home h, s) =>
          let s := s.modCopy p (fun x => { x.asked j with flight := r.flight + 1 })
          let s := s.modCore p (fun c => { c with oac := c.oac + 1 })
          (s.post (arrivalOf (copyRequest p r.cmd (.copyRead j) h va 0 (s.cycle p)))).copyPump p k

/-- Nothing of a command is in flight and nothing is left to send. -/
def CopyRun.over (r : CopyRun) : Bool := r.flight == 0 && (r.fail.isSome || decide (r.cmd.len / 8 ≤ r.next))

/-- With nothing in flight and nothing left, the completion store goes out (R181). -/
def State.copyEnd (s : State) (p : Nat) : State :=
  match (s.core p).copyRun with
  | none => s
  | some r => if r.over then s.postOnce (.copyCompletion p) else s

def State.copyAdvance (s : State) (p : Nat) : State :=
  match (s.core p).copyRun with
  | none => s
  | some r =>
    ((((s.modCopy p (fun x => { x with words := [] })).copyWrites p r.cmd r.fail.isSome r.words).copyPump p 16).copyEnd p)

/-- A word has been read (R181). -/
def State.copyWord (s : State) (p j : Nat) (v : Word) : State :=
  (s.modCopy p (fun x => { x with words := x.words ++ [(j, v)] })).copyAdvance p

/-- COPY_COMMAND_START (R181, R335): a command that a freeze has met before it started completes with 0x10. A command under
way goes on where a page it waited for has come. -/
def execCopyCommandStart (p : Nat) (s : State) : Answer :=
  .next (
    let c := s.core p
    match c.copyQueue, c.copyRun with
    | cmd :: _, none =>
      let fail := if cmd.cancelled || (s.hw cmd.hq).st == .frozen then some (0, 0x10#8) else none
      ((s.forget p (.copy p)).modCore p (fun c => { c with
        copyRun := some { cmd := cmd, next := 0, ahead := [], flight := 0, words := [], fail := fail } })).copyAdvance p
    | _, some _ => s.copyAdvance p
    | _, none => s)

/-- The status a copy command stores (R181). -/
def CopyRun.status (r : CopyRun) : Word :=
  match r.fail with
  | some (j, c) => BitVec.ofNat 64 (8 * j % 2 ^ 32 * 2 ^ 32 + c.toNat)
  | none => 0

/-! ## The answers of the agents' accesses -/

/-- A core's deque has an entry to read back (R143). -/
def State.readBack (s : State) (p : Nat) : State := if (s.core p).readsBack then s.postOnce (.dequeReadback p) else s

/-- A core's deque has written the entry at the top of its hardware part: it now lies in the spill area, unless it has been
removed meanwhile. A refused write leaves it where it is, until the next push, and is a machine check (R143, R144, R352;
log 39). -/
def State.spillAnswered (s : State) (p : Nat) (a : Except (BitVec 8) (List Byte)) : State :=
  let c := s.core p
  match c.spilling with
  | none => s
  | some (i, live) =>
    let s := s.setCore p { c with spilling := none }
    match a with
    | .error cause => (s.machineCheck p 3 cause (s.record0 p cause)).readBack p
    | .ok _ =>
      ((if live then s.modCore p (fun c => { c with spilled := c.spilled + 1, spillAt := c.spillAt ++ [i] }) else s).spillOne
        p).readBack p

/-- The entry nearest the hardware part has been read back (R143, R157): it is what the spill area held. A refused read is a
machine check, and is tried again when the deque next loses an entry. DESIGN CHOICE (log 39). -/
def State.backAnswered (s : State) (p : Nat) (a : Except (BitVec 8) (List Byte)) : State :=
  let c := s.core p
  let s := s.setCore p { c with reading := none }
  match a with
  | .error cause => s.machineCheck p 3 cause (s.record0 p cause)
  | .ok bs =>
    if c.reading.isSome ∧ c.spillAt.getLast? = c.reading then
      let s := s.setCore p { c with
        reading := none, spilled := c.spilled - 1, spillAt := c.spillAt.dropLast,
        deque := c.deque.set (c.spilled - 1) (spilledEntry (wordsOfBytes bs)) }
      (if (s.core p).eligibleSlot.isSome then s.wake0 p 1 else s).readBack p
    else s.readBack p

/-- The slots of a core whose wait is a given one. -/
def Core.waiters (c : Core) (w : Slot → Bool) : List Nat := (List.range 16).filter (fun n => w (c.slot n))

/-- Each of a list of slots traps at its own PC. -/
def State.trapAll (s : State) (p : Nat) (ns : List Nat) (f : Slot → BitVec 8 × BitVec 8 × Word) : State :=
  ns.foldl (fun s n =>
    let t := s.slot p n
    s.trap p n (f t).1 (f t).2.1 t.pc t.pc (f t).2.2 0) s

/-- Each of a list of slots may issue again. -/
def State.wakeAll (s : State) (p : Nat) (ns : List Nat) : State :=
  ns.foldl (fun s n => s.modSlot p n (fun t => { t with wakeAt := max t.wakeAt (s.cycle p + 1) })) s

/-- A line has come, or cannot be read (R105, R241): it enters the instruction cache, and the slots that wait for it go on
or trap. -/
def State.lineAnswered (s : State) (p : Nat) (hq : BitVec 6) (line : Word) (a : Except (BitVec 8) (List Byte)) : State :=
  let ns := (s.core p).waiters (fun t => t.wait == .line line && t.hq == hq)
  let s := s.modCore p (fun c => { c with fills := c.fills.erase (hq, line) })
  match a with
  | .error c => s.trapAll p ns (fun t => (c, 2, t.pc))
  | .ok bytes =>
    (s.modCore p (fun c => { c with
      icache := ((lineKey hq line, bytes) :: c.icache.filter (·.1 ≠ lineKey hq line)).take 256 })).wakeAll p ns

/-- The entry that the walk at the head of a core's list reads has come: a refused read gives an invalid one (R359). -/
def State.walkAnswered (s : State) (p : Nat) (a : Except (BitVec 8) (List Byte)) : State :=
  match (s.core p).walks with
  | [] => s
  | w :: l =>
    let e : Word := match a with
      | .ok bs => BitVec.ofNat 64 (leNat bs)
      | .error _ => 0
    (s.modCore p (fun c => { c with walks := { w with entry := some e } :: l })).post (.translationWalk p w.key)

/-- An agent whose accesses count in a core's s.oac (R50): the units that act for a thread's command (R225), its line fills and
its arrival commands. The deque's accesses and the walker's do not (R143, R362), and the HQS's are no core's. -/
def agentCounts (a : Agent) : Bool :=
  match a with
  | .stack _ | .coll _ _ _ | .line _ _ _ | .arrivals _ => true
  | _ => false

/-- An access of an agent has been answered (R225, R268). -/
def State.answered (s : State) (r : Request) (a : Agent) (k : AccKey) (x : Except (BitVec 8) (List Byte)) : State :=
  let s := if agentCounts a then s.modCore r.core (fun c => { c with oac := c.oac - 1 }) else s
  match a with
  | .walker p => s.walkAnswered p x
  | .line p hq va => s.lineAnswered p hq va x
  | .spill p => s.spillAnswered p x
  | .back p => s.backAnswered p x
  | .copy _ | .cld _ _ | .onward _ => s
  | .stack _ | .coll _ _ _ | .hqs _ | .arrivals _ | .cancel _ _ _ | .image _ _ _ | .far _ _ _ =>
    if s.runs.any (fun e => e.1 == a) then (s.setRun a ((s.run a).answer k x)).stepAgent a else s

/-- A completion store has performed, or has been refused with a cause (R161, R181, R225, R328): the copy engine's next
command begins, an engine's no longer counts in s.oac, the HQS ends its packet. -/
def State.completed (s : State) (r : Request) (a : Agent) (cause : Option (BitVec 8)) : State :=
  match a with
  | .copy p =>
    let s := s.modCore p (fun c => { c with
      copyRun := none, copyQueue := c.copyQueue.tail, oac := if homeOwn r.home p then c.oac else c.oac - 1 })
    let s := s.noteProgress r.hq
    if (s.core p).copyQueue.isEmpty then s else s.post (.copyCommandStart p)
  | .hqs q =>
    ((s.setRun (.hqs q) { (s.run (.hqs q)) with
      got := [({ tag := 8, idx := 0, off := 0 }, if cause.isSome then [1] else [0])], out := [] })).post (.launchDone q)
  | _ => s.modCore r.core (fun c => { c with oac := c.oac - 1 })

/-! ## Orders of requests (R46, R260, R276, R375) -/

/-- The word a request is for, by its key. -/
def requestWord (r : Request) : Option Nat := (homeKey r.home).map (· / 8)

/-- A relaxed request of one thread to one word on the issuing die that was sent before another (R46, R260, R375). -/
def earlierRelaxed (a b : Request) : Bool :=
  a.core == b.core && a.slot == b.slot && a.cls == .relaxed && b.cls == .relaxed && requestWord a == requestWord b &&
  (requestWord a).isSome && homeDie a.home == some (dieOfCore a.core) && a.seq != b.seq && decide ((b.seq - a.seq).toNat < 2 ^ 15)

/-- The request of a step that brings one to its home. -/
def requestOf (e : Instr) : Option Request :=
  match e with
  | .homePerform r => some r
  | _ => none

/-- A request must come after another of its thread that is still on its way, or waits at the slice (R46). -/
def State.behindOwn (s : State) (r : Request) : Bool :=
  r.cls == .relaxed && s.due.any (fun e =>
    match requestOf e with
    | some a => earlierRelaxed a r
    | none => false)

/-! ## At the home (R159, R162, R164-R172) -/

/-- A home answers a request that has performed: an agent's by what it read, a thread's by a reply or an
acknowledgement (R45, R46, R49). -/
def State.performed (s : State) (r : Request) (v : Word) (bytes : List Byte) : State :=
  match r.op with
  | .copyRead j => s.copyWord r.core j v
  | .copyWrite _ => (s.copyDone r.core id).copyAdvance r.core
  | .cldData t i => s.cldCapture r.core t i false bytes
  | .cldScale t i => s.cldCapture r.core t i true bytes
  | .agentRead a k _ => s.answered r a k (.ok bytes)
  | .agentWrite a k _ => s.answered r a k (.ok [])
  | .complete a _ => s.completed r a none
  | .load _ _ =>
    if r.cls = .relaxed then s.post (.relaxedLoadReply r v) else s.post (.remoteReply r v)
  | _ =>
    if r.cls = .engine then s
    else if r.cls = .relaxed then s.post (.writeAck r)
    else s.post (.remoteReply r v)

/-- A home refuses a request (R162, R181, R193, R225). -/
def State.refuse (s : State) (r : Request) (cause : BitVec 8) : State :=
  match r.op with
  | .copyRead j | .copyWrite j => (s.copyDone r.core (·.failAt j cause)).copyAdvance r.core
  | .cldData t i | .cldScale t i => s.post (.cldRequestFail r.core t i cause)
  | .agentRead a k _ | .agentWrite a k _ => s.answered r a k (.error cause)
  | .complete a _ => s.completed r a (some cause)
  | _ => if r.cls = .engine then s else s.post (.refusal r cause)

/-- An attempt of a synchronising access has failed: it no longer counts, and the thread tries again or has reached its
limit (R47, R168). -/
def State.failedAttempt (s : State) (r : Request) : State :=
  let r' := { r with attempts := r.attempts + 1 }
  let t := s.slot r.core r.slot
  let s := s.modCore r.core (fun c => { c with oac := c.oac - 1 })
  let s := s.setSlot r.core r.slot
    { t with out := t.out.filter (·.seq ≠ r.seq), wait := match t.wait with
        | .reply q => if q.seq = r.seq then .retry r' else t.wait
        | w => w }
  if t.fel.toNat < r'.attempts then s.post (.feRetryLimit r') else s.post (.feRetry r')

/-- What a request reads in this module, for the operations that answer with bytes. -/
def State.bytesFor (s : State) (o : AccOp) (k : Nat) : List Byte :=
  match o with
  | .agentRead _ _ n => Memory.bytes s.mem k n
  | .cldData _ _ => Memory.bytes s.mem k 64
  | .cldScale _ _ => Memory.bytes s.mem k 2
  | _ => []

/-- A contracting load reads a sector of its own core's store (R283). -/
def ownSector (r : Request) : Bool :=
  match r.op with
  | .cldData _ _ => homeOwn r.home r.core
  | _ => false

/-- The bank rank of a request at a local store (R272, R283). -/
def bankRankOf (r : Request) : Nat :=
  match r.op with
  | .cldData _ _ | .cldScale _ _ => if homeOwn r.home r.core then 3 else 2
  | _ => 2

/-- A request takes its banks in the current cycle; a contraction's sector is the only one of its cycle (R266, R283). -/
def State.takeBanks (s : State) (r : Request) (q off : Nat) : State :=
  let s := s.useBanks q (bankRankOf r) off (opBytes r.op)
  if ownSector r then s.modCore q (fun c => { c with sectorAt := s.cycle q + 1 }) else s

/-- A request performs at a byte of this module: one step of the bank or the slice (R159, R266, R268). -/
def State.performHere (s : State) (r : Request) : State :=
  match r.home with
  | .ls q off =>
    let s := s.takeBanks r q off
    match r.op with
    | .dec | .cancel =>
      let (done, s) := s.recordAccess r q off 1
      if done then s.performed r 0 [] else s
    | o =>
      if s.ready o (localKey q off) then
        let bs := s.bytesFor o (localKey q off)
        let (v, s) := s.performLocal o q off r.data r.expected 1
        s.performed r v bs
      else s.failedAttempt r
  | .dev pa =>
    if s.ready r.op pa then
      let bs := s.bytesFor r.op pa
      let (v, s) := s.touchMemory r.op pa r.data r.expected
      s.performed r v bs
    else s.failedAttempt r
  | _ => s

/-! ## The slice's budgets and its write buffer (R332, R333, R366, R368) -/

/-- A class has budget left for a request (R332). -/
def Slice.hasBudget (x : Slice) (c : Nat) (w : Bool) : Bool :=
  if w then decide (Sparse.get 0 x.writeUsed c < (x.classReg c).wb.toNat)
  else decide (Sparse.get 0 x.readUsed c < (x.classReg c).rb.toNat)

/-- The request a slice serves next, of those that have come (R332, R368): the lowest class that has one and budget left,
else the lowest waiting class whose WC is 1, in order of arrival within a class. Write-lane operations wait while the
buffer is full, and a request waits behind an earlier relaxed one of its thread to its word (R46). -/
def State.serveNext (s : State) (i : Nat) (l : List (Nat × Request)) : Option (Nat × Request) :=
  let x := (s.slice i).refreshed (s.sliceCycle i)
  let l := l.filter (fun e => !(opWrites e.2.op && x.bufferFull) && !s.behindOwn e.2)
  match ([0, 1, 2, 3] : List Nat).findSome? (fun c => l.find? (fun e => e.1 == c && x.hasBudget c (opWrites e.2.op))) with
  | some e => some e
  | none => ([0, 1, 2, 3] : List Nat).findSome? (fun c => l.find? (fun e => e.1 == c && (x.classReg c).wc))

/-- A slice that counts cycles serves one request in each (R332). -/
def State.sliceBusy (s : State) (i : Nat) : Bool :=
  (s.die (dieOfSlice i)).running && decide (s.sliceCycle i < (s.slice i).served)

/-- The class of a request, as a number (R332). -/
def State.classNumber (s : State) (r : Request) : Nat := (s.classOf r.hq).toNat

/-- A request is served now: the slice is free, and it is the one whose turn it is (R332). -/
def State.mayServe (s : State) (r : Request) (pa : Nat) : Bool :=
  let i := sliceOf pa
  let l := (s.slice i).waiting
  let l := if s.atSlice r then l else l ++ [(s.classNumber r, r)]
  !s.sliceBusy i && (s.serveNext i l).map (·.2) == some r

/-- The back-pressure that a slice signals: for each class of which as many requests wait as its queue limit (R333). -/
def Slice.signal (x : Slice) : Slice :=
  let held (c : Nat) : Nat := (x.waiting.filter (fun e => e.1 == c)).length
  { x with pressure := ([0, 1, 2, 3] : List Nat).foldl (fun b c =>
      if 0 < held c ∧ (x.classReg c).ql.toNat ≤ held c then b ||| BitVec.twoPow 4 c else b) 0 }

/-- A request waits at its slice, and is served by a later step (R332, R333). -/
def State.waitAtSlice (s : State) (r : Request) (pa : Nat) : State :=
  let s := if s.atSlice r then s
    else (s.modSlice (sliceOf pa) (fun x => ({ x with waiting := x.waiting ++ [(s.classNumber r, r)] } : Slice).signal)).armSlice
      (sliceOf pa)
  s.post (.homePerform r)

/-- A request no longer waits at its slice. -/
def State.leaveSlice (s : State) (r : Request) (pa : Nat) : State :=
  if s.atSlice r then
    s.modSlice (sliceOf pa) (fun x => ({ x with waiting := x.waiting.eraseP (fun e => e.2 == r) } : Slice).signal)
  else s

/-- The cause with which a slice refuses a request (R365, R369, R370, R397). -/
def State.requestRefused (s : State) (r : Request) (pa : Nat) : Option (BitVec 8) :=
  if opReads r.op then s.readRefuses pa else s.sliceRefuses pa

/-- A request at its slice: refused, served, or kept waiting (R162, R332, R333, R365). -/
def State.atHomeSlice (s : State) (r : Request) (pa : Nat) : State :=
  match s.requestRefused r pa with
  | some c => (s.leaveSlice r pa).refuse r c
  | none =>
    if s.mayServe r pa then ((s.leaveSlice r pa).chargeSlice (s.classNumber r) (opWrites r.op) pa).performHere r
    else s.waitAtSlice r pa

/-! ## Homes outside the module (R275, R277, R380, R382) -/

/-- A word outside with a value of some bytes put in at a byte. -/
def putBytes (old : Word) (sh n : Nat) (v : Word) : Word :=
  let o := leList 8 old.toNat
  BitVec.ofNat 64 (leNat (o.take sh ++ leList n v.toNat ++ o.drop (sh + n)))

/-- The value an operation at byte `sh` of a word outside returns, and the word it leaves where it writes. -/
def outsideOp (o : AccOp) (old : Word) (sh : Nat) (data expected : Word) : Word × Option Word :=
  match o with
  | .load wd u => (extendLoad wd u (old >>> (8 * sh)), none)
  | .store wd => (0, some (putBytes old sh (widthBytes wd) data))
  | .ldf | .lde | .copyRead _ => (old, none)
  | .stf | .stn | .copyWrite _ => (0, some data)
  | .complete _ v => (0, some v)
  | .atomic f => (old, some (atomicApply f old data expected))
  | .red f => (0, some (redApply f old data))
  | .stg => (0, if (data >>> 48).setWidth 16 - (old >>> 48).setWidth 16 < 0x8000#16 then some data else none)
  | _ => (0, none)

/-- The full/empty bit an operation leaves (R161, R166). -/
def outsideFull (o : AccOp) : Option Bool :=
  match o with
  | .stf | .stn | .complete _ _ => some true
  | .lde | .clre => some false
  | _ => none

/-- The bytes of a write that goes out to the host: those it writes (R382). -/
def outsideBytesOf (o : AccOp) (data new : Word) : List Byte :=
  match o with
  | .store wd => leList (widthBytes wd) data.toNat
  | _ => leList 8 new.toNat

/-- An operation on one word performs at a home outside the module (R268, R275, R277). -/
def State.performWord (s : State) (r : Request) : State :=
  let a := outsideAt r.home
  let (full, s) := s.outsideBit a.1
  if !readyBit r.op full then s.failedAttempt r
  else
    let (old, s) := s.outsideWord a.1
    let q := outsideOp r.op old a.2 r.data r.expected
    let s := match q.2 with
      | some v => (s.keepWord a.1 v).hostWrite r.home (outsideBytesOf r.op r.data v)
      | none => s
    let s := match outsideFull r.op with
      | some b => s.keepBit a.1 b
      | none => s
    s.performed r (if r.op = .fes then (if full then 1 else 0) else q.1) []

/-- A request performs at a home outside the module. -/
def State.performOutside (s : State) (r : Request) : State :=
  match s.outsideRefusal r with
  | (some c, s) => s.refuse r c
  | (none, s) =>
    match r.op with
    | .cldData _ _ | .cldScale _ _ | .agentRead _ _ _ =>
      let (l, s) := s.outsideBytes r.home (opBytes r.op)
      s.performed r 0 l
    | .sector bs | .agentWrite _ _ bs => (s.outsideStore r.home bs).performed r 0 []
    | _ => s.performWord r

/-- A request that reaches a vacated core is kept for the core the context went to, in order, or is refused (R276, R337,
R338). -/
def State.arrive (s : State) (r : Request) : State :=
  match r.home with
  | .ls q _ =>
    match (s.core q).gone with
    | none => s.performHere r
    | some none => s.post (.savedStoreRefusal r)
    | some (some _) =>
      (s.modCore q (fun c => { c with forwards := c.forwards ++ [.homePerform r] })).post (.forwardReinject q 0)
  | .dev pa => s.atHomeSlice r pa
  | _ => s.performOutside r

/-- COPY_COMPLETION (R161, R181): the status goes to the completion word, which is set full; a store outside the core counts
in s.oac. -/
def execCopyCompletion (p : Nat) (s : State) : Answer :=
  .next (
    match (s.core p).copyRun with
    | none => s
    | some r =>
      if r.over then
        let s := s.modCore p (fun c => { c with oac := if homeOwn r.cmd.comp p then c.oac else c.oac + 1 })
        let q := { copyRequest p r.cmd (.complete (.copy p) r.status) r.cmd.comp 0 0 (s.cycle p) with issued := r.cmd.issued }
        if homeOwn r.cmd.comp p then s.arrive q else s.post (arrivalOf q)
      else s)

/-- HOME_PERFORM (R159). -/
def execHomePerform (r : Request) (s : State) : Answer := .next (s.arrive r)

/-- HOST_PAGE_ACCESS (R277, R382): it goes out from the host port in the order of performing there. -/
def execHostPageAccess (r : Request) (s : State) : Answer := .next (s.performOutside r)

/-! ## At the core -/

/-- Whether an operation's reply carries a value for a register. -/
def opResult (o : AccOp) : Bool :=
  match o with
  | .load _ _ | .ldf | .lde | .fes | .atomic _ => true
  | _ => false

/-- The accounts of a request that was sent (R49, R50); an access to the core's own store was not. -/
def State.settled (s : State) (r : Request) : State :=
  if (s.slot r.core r.slot).out.any (·.seq = r.seq) then s.returned r else s

/-- REMOTE_REPLY (R45, R49, R50, R164): the result is written, and the thread is runnable. -/
def execRemoteReply (r : Request) (v : Word) (s : State) : Answer :=
  .next (
    let s := s.settled r
    match (s.slot r.core r.slot).wait with
    | .reply q =>
      if q.seq = r.seq then
        (if opResult r.op && !s.reaping r.core r.slot then s.result r.core r.slot r.dst v else s).goOn r.core r.slot
      else s
    | .tileStore next j =>
      (s.nextSector r.core r.slot next { j with sectors := j.sectors.tail, since := none, out := none }).settle r.core r.slot
    | _ => s)

/-- RELAXED_LOAD_REPLY (R34, R45): the destination is written and is no longer pending. -/
def execRelaxedLoadReply (r : Request) (v : Word) (s : State) : Answer :=
  .next (
    let t := s.slot r.core r.slot
    let s := if t.pending.any (·.1 = r.seq) && !s.reaping r.core r.slot then s.writeDst r.core r.slot r.dst v else s
    (s.modSlot r.core r.slot (fun t => { t with pending := t.pending.filter (·.1 ≠ r.seq) })).settled r)

/-- WRITE_ACK (R49, R50). -/
def execWriteAck (r : Request) (s : State) : Answer := .next (s.settled r)

/-- A request's thread traps at the request's instruction; where a freeze has trapped it already, the event joins the record
that is being completed (R341). -/
def State.trapRequest (s : State) (r : Request) (cause detail : BitVec 8) : State :=
  match (s.slot r.core r.slot).st with
  | .trapped _ => (s.modSlot r.core r.slot (fun t => { t with wait := .none })).late r.core r.slot
      { cause := cause, seq := r.seq, addr := r.va, pc := r.pc, tile := 0 }
  | _ => s.trap r.core r.slot cause detail r.pc r.pc r.va 0

/-- REFUSAL (R162, R241): a relaxed access's is late; any other traps the instruction. -/
def execRefusal (r : Request) (cause : BitVec 8) (s : State) : Answer :=
  .next (
    let discarded := s.reaping r.core r.slot
    if r.cls = .relaxed then
      (if discarded then s
        else s.late r.core r.slot { cause := 0x09, seq := r.seq, addr := r.va, pc := r.pc, tile := 0 }).settled r
    else
      let s := s.settled r
      match (s.slot r.core r.slot).wait with
      | .reply q => if q.seq = r.seq ∧ ¬ discarded then s.trapRequest r cause 1 else s
      | .tileStore _ _ => if discarded then s else s.trapRequest r cause 1
      | _ => s)

/-- SAVED_STORE_REFUSAL (R338). -/
def execSavedStoreRefusal (r : Request) (s : State) : Answer := .next (s.refuse r 0x05)

/-- FE_RETRY (R47): the next attempt is sent, with the unit still held. -/
def execFeRetry (r : Request) (s : State) : Answer :=
  .next (
    if (s.slot r.core r.slot).wait = .retry r then
      let (s, r) := s.send r
      s.modSlot r.core r.slot (fun t => { t with wait := .reply r })
    else if r.unit then s.modCore r.core (·.unitBack)
    else s)

/-- FE_RETRY_LIMIT (R168): the unit returns, and the access traps 0x07. -/
def execFeRetryLimit (r : Request) (s : State) : Answer :=
  .next (
    let s := if r.unit then s.modCore r.core (·.unitBack) else s
    if (s.slot r.core r.slot).wait = .retry r then s.trapRequest r 0x07 0 else s)

/-! ## The store allowance (R49, R182, R333) -/

/-- A slot that is parked on the allowance is granted a unit: its request goes out in this cycle (R182). -/
def State.grant (s : State) (p n : Nat) : State :=
  match (s.slot p n).wait with
  | .allowance _ next r =>
    let s := s.modCore p (fun c => { c with saHeld := c.saHeld - 1 })
    (s.dispatch next r).modSlot p n (fun t => { t with wakeAt := max t.wakeAt (s.cycle p + 1) })
  | .tileStore next j =>
    match j.sectors with
    | (h, bytes) :: _ =>
      let t := s.slot p n
      let s := s.modCore p (fun c => { c with saHeld := c.saHeld - 1 })
      let (s, r) := s.send (sectorRequest p n t j h bytes true)
      s.modSlot p n (fun t => { t with wait := .tileStore next { j with since := none, out := some r } })
    | [] => s
  | _ => s

/-- Grants in ascending slot order while held units last (R182). -/
def State.grants (s : State) (p : Nat) : List Nat → State
  | [] => s
  | n :: ns =>
    if (s.core p).saHeld = 0 then s
    else if (s.slot p n).onAllowance then (s.grant p n).grants p ns
    else s.grants p ns

/-- ALLOWANCE_GRANT (R182): the held units go to the parked slots; with none parked, they are free again. -/
def execAllowanceGrant (p : Nat) (s : State) : Answer :=
  .next (
    let s := s.grants p (List.range 16)
    if (s.core p).allowanceParked then s
    else s.modCore p (fun c => { c with sa := c.sa + BitVec.ofNat 7 c.saHeld, saHeld := 0 }))

/-- The cycle from which a slot's wait counts toward s.swl (R49, R182, R333). An operation that goes on after a page walk or a
wait counts from 3 cycles after the one in which it goes on, as one that issues in it. DESIGN CHOICE (log 61). -/
def State.waitSince (s : State) (p n : Nat) : Option Nat :=
  match (s.slot p n).wait with
  | .allowance since _ _ => some since
  | .tileStore _ j => j.since.or (match j.out with
    | some r => if s.heldRequest r then some (r.sent + 3) else none
    | none => none)
  | .held (.classFree r) since _ _ _ => if opWriteLane r.op then some since else none
  | .reply r => if r.unit && s.heldRequest r then some (r.sent + 3) else none
  | _ => none

/-- The cycle in which a slot's wait for the store allowance ends in a trap (R182). -/
def State.storeDeadline (s : State) (p n : Nat) : Option Nat :=
  (s.waitSince p n).map (· + (s.core p).swl.toNat)

/-- STORE_WAIT_LIMIT (R49, R182): nothing has been sent; the trap 0x08 names the operation itself. -/
def execStoreWaitLimit (p n : Nat) (s : State) : Answer :=
  .next (
    match s.storeDeadline p n with
    | none => s
    | some c =>
      if s.cycle p < c then s
      else
        match (s.slot p n).wait with
        | .allowance _ _ r => s.trapRequest r 0x08 0
        | .held (.classFree r) _ _ _ _ => s.trapRequest r 0x08 0
        | .reply r => ({ s with due := s.due.erase (.homePerform r) }.settled r).trapRequest r 0x08 0
        | .tileStore _ j =>
          let t := s.slot p n
          let s := match j.out with
            | some r => { s with due := s.due.erase (.homePerform r) }.settled r
            | none => s
          (match t.st with
          | .trapped _ => (s.modSlot p n (fun t => { t with wait := .none })).late p n
              { cause := 0x08, seq := 0, addr := j.va, pc := t.pc, tile := 0 }
          | _ => s.trap p n 0x08 0 t.pc t.pc j.va 0)
        | _ => s)

/-! ## Long operations and sleep (R18, R157) -/

/-- LONG_OP_COMPLETE (R18, R85). -/
def execLongOpComplete (p n : Nat) (s : State) : Answer :=
  .next (
    match (s.slot p n).wait with
    | .longOp d v srs fl till =>
      if s.cycle p < till then s
      else
        ((s.result p n d v).modSlot p n (fun t => t.commit { mode := t.round, srs := srs, fl := fl })).goOn p n
    | _ => s)

/-- SLEEP_EXPIRY (R157). -/
def execSleepExpiry (p n : Nat) (s : State) : Answer :=
  .next (
    match (s.slot p n).wait with
    | .sleep till => if s.cycle p < till then s else s.goOn p n
    | _ => s)

/-! ## Line fills and page walks (R105, R359, R362) -/

/-- An access of an agent goes to its home; those of a command's units count in s.oac (R50, R225). -/
def State.sendAgent (s : State) (p : Nat) (a : Agent) (hq : BitVec 6) (o : AccOp) (h : Home) (va : Word) : State :=
  (if agentCounts a then s.modCore p (fun c => { c with oac := c.oac + 1 }) else s).post
    (arrivalOf { agentRequest p hq o h va with sent := s.cycle p, issued := s.cycle p })

/-- ICACHE_LINE_FILL (R105, R241): the line's address is translated, and the line is asked for in the class of the thread's
queue as one plain read. -/
def execIcacheLineFill (p : Nat) (hq : BitVec 6) (line : Word) (s : State) : Answer :=
  .next (
    if (s.core p).fills.contains (hq, line) then
      match s.seek p (.line p hq line) hq .fetch line with
      | (.fault c, s) => s.lineAnswered p hq line (.error c)
      | (.miss _, s) => s
      | (.home h, s) => s.sendAgent p (.line p hq line) hq (.agentRead (.line p hq line) { tag := 0, idx := 0, off := 0 } 64) h line
    else s)

/-- What a walk that finds no leaf traps (R104, R180, R359). -/
def walkTrap (t : Slot) : BitVec 8 × BitVec 8 × Word :=
  match t.wait with
  | .pageWalk _ cause detail addr _ _ => (cause, detail, addr)
  | _ => (0x05, 2, t.pc)

/-- A slot still waits for a page: its instruction, or its fetch. -/
def Slot.onWalk (t : Slot) (k : PageKey) : Bool :=
  match t.wait with
  | .pageWalk k' _ _ _ _ _ => k' == k
  | .fetchWalk k' => k' == k
  | _ => false

/-- One that has waited for a page goes on: an instruction in flight in this cycle, a fetch from the next on, an agent in its
next step (R16, R260, R263). -/
def State.walkFound (s : State) (p : Nat) (k : PageKey) (w : WalkFor) : State :=
  match w with
  | .agent a => s.stepAgent a
  | .thread n =>
    let t := s.slot p n
    match t.wait with
    | .pageWalk k' _ _ _ (some i) next =>
      if k' = k then
        { (s.setSlot p n { t with wait := .none }) with
          walked := s.walked ++ [{ core := p, slot := n, pc := t.pc, next := next, instr := some i,
                                   again := some { since := none, views := none } }] }
      else s
    | _ => if t.onWalk k then s.wakeAll p [n] else s

/-- One whose page has no valid leaf: a thread traps, an agent takes the fault in its next step (R359). -/
def State.walkLost (s : State) (p : Nat) (k : PageKey) (w : WalkFor) : State :=
  match w with
  | .agent a => (s.modCore p (fun c => { c with noPage := (a, k) :: c.noPage.erase (a, k) })).stepAgent a
  | .thread n => if (s.slot p n).onWalk k then s.trapAll p [n] walkTrap else s

/-- The next walk of the core's walker begins (R362). -/
def State.nextWalk (s : State) (p : Nat) : State :=
  match (s.core p).walks with
  | w :: _ => s.post (.translationWalk p w.key)
  | [] => s

/-- A walk has found a leaf: it enters the buffer, and ends every walk of the core for a page it serves (R41, R362). -/
def State.endWalk (s : State) (p : Nat) (e : TlbEntry) : State :=
  let c := s.core p
  let done := c.walks.filter (fun w => tlbServes e w.key)
  let s := s.setCore p { c with
    walks := c.walks.filter (fun w => !tlbServes e w.key)
    tlb := if done.all (fun w => c.tlb.any (tlbServes · w.key)) then c.tlb else tlbFill c.tlb e }
  (done.foldl (fun s w => w.for_.foldl (fun s x => s.walkFound p w.key x) s) s).nextWalk p

/-- A walk has found none (R359). -/
def State.failWalk (s : State) (p : Nat) (w : Walk) : State :=
  let s := s.modCore p (fun c => { c with walks := c.walks.tail })
  (w.for_.foldl (fun s x => s.walkLost p w.key x) s).nextWalk p

/-- A walk reads the entry of a level, in the class of the walking queue (R359, R362). -/
def State.readEntry (s : State) (p : Nat) (w : Walk) (level a : Nat) : State :=
  (s.modCore p (fun c => { c with walks := { w with level := level, at_ := a, entry := none } :: c.walks.tail })).sendAgent p
    (.walker p) w.hq (.agentRead (.walker p) { tag := level, idx := 0, off := 0 } 8) (.dev a) 0

/-- A walk begins again, because a drop of its page's translations has come meanwhile (R363). -/
def State.restartWalk (s : State) (p : Nat) (w : Walk) : State :=
  (s.modCore p (fun c => { c with walks := { w with again := false, level := 3, entry := none } :: c.walks.tail })).post
    (.translationWalk p w.key)

/-- TRANSLATION_WALK (R359, R362): the core's walker takes the walk at the head of its list one level further. -/
def execTranslationWalk (p : Nat) (k : PageKey) (s : State) : Answer :=
  .next (
    match (s.core p).walks with
    | [] => s
    | w :: _ =>
      if w.key ≠ k then s
      else
        match w.entry with
        | some e =>
          if w.again then s.restartWalk p w
          else
          match walkStep k w.level e with
          | .leaf e => s.endWalk p e
          | .table a => s.readEntry p w (w.level - 1) a
          | .fault => s.failWalk p w
        | none =>
          if w.level ≠ 3 then s
          else
            match (s.core p).tlb.find? (tlbServes · k) with
            | some e => s.endWalk p e
            | none => s.readEntry p w (walkTop k) (s.walkRoot k))

end Sys2Proof.Machine
end

