-- ==== Sys2Proof/Machine/Packed.lean ====
section
/-! DEFINITION. Packed arithmetic on the lanes of a register (08_isa_arith.md, R204, R205). -/

namespace Sys2Proof.Machine

/-- The number of lanes of a format, and the bits of one (R204). -/
def laneCount (f : Fmt) : Nat := 8 / fmtBytes f
def laneBits (f : Fmt) : Nat := 8 * fmtBytes f

/-- Lane k of a word. -/
def lane (f : Fmt) (w : Word) (k : Nat) : Nat := w.toNat / 2 ^ (laneBits f * k) % 2 ^ laneBits f

/-- The sum of two values of a format. -/
def laneAdd (mode : BitVec 3) (x y : Num) : Num × BitVec 8 := invalid (Num.add mode x y)

/-- The difference of two values of a format. -/
def laneSub (mode : BitVec 3) (x y : Num) : Num × BitVec 8 := invalid (Num.add mode x y.neg)

/-- The product of two values of a format. -/
def laneMul (_mode : BitVec 3) (x y : Num) : Num × BitVec 8 := invalid (Num.mul x y)

/-- The larger or the smaller of two lanes: a NaR gives NaR in DY8 (R204), a NaN the other operand in an IEEE format
(R202). -/
def lanePick (f : Fmt) (larger : Bool) (_mode : BitVec 3) (x y : Num) : Num × BitVec 8 :=
  if f = 2 && (x.isNan || y.isNan) then (.nan false, 0) else invalid (Num.pick larger x y)

/-- An exact lane result encoded (R204): integers saturate with OF and do not round; `steps` is false for a selection
(R84). -/
def laneEncode (f : Fmt) (steps : Bool) (r : Rs) (q : Num × BitVec 8) : Nat × Rs :=
  fmtEncode f flagOF (steps && !fmtIsInt f) (r.raise q.2) q.1

/-- Lanes k, k + 1, ... below the lane count, in ascending order (R204). `acc` holds the lanes done. -/
def lanesFrom (f : Fmt) (steps : Bool) (op : BitVec 3 → Num → Num → Num × BitVec 8) (a b : Word) :
    Nat → Nat → Nat × Rs → Nat × Rs
  | 0, _, q => q
  | n + 1, k, q =>
    let x := fmtDecode f (lane f a k)
    let y := fmtDecode f (lane f b k)
    let e := laneEncode f steps (q.2.raiseIf (x.2 || y.2) flagPRV) (op q.2.mode x.1 y.1)
    lanesFrom f steps op a b n (k + 1) (q.1 + e.1 * 2 ^ (laneBits f * k), e.2)

/-- A packed instruction (R204). -/
def State.packed (s : State) (f : Fmt) (d a : Reg) (b : OpB) (steps : Bool) (op : BitVec 3 → Num → Num → Num × BitVec 8) :
    State :=
  s.withRegs (d :: a :: bRegs b) (s.completeRs d (lanesFrom f steps op (s.rd a) (s.opB b) (laneCount f) 0 (0, s.rs)))

/-- `padd` (R204). -/
def execPadd (f : Fmt) (d a : Reg) (b : OpB) (s : State) : Answer := .next (s.packed f d a b true laneAdd)

/-- `psub` (R204). -/
def execPsub (f : Fmt) (d a : Reg) (b : OpB) (s : State) : Answer := .next (s.packed f d a b true laneSub)

/-- `pmul` (R204). -/
def execPmul (f : Fmt) (d a : Reg) (b : OpB) (s : State) : Answer := .next (s.packed f d a b true laneMul)

/-- `pmax` (R204). -/
def execPmax (f : Fmt) (d a : Reg) (b : OpB) (s : State) : Answer := .next (s.packed f d a b false (lanePick f true))

/-- `pmin` (R204). -/
def execPmin (f : Fmt) (d a : Reg) (b : OpB) (s : State) : Answer := .next (s.packed f d a b false (lanePick f false))

/-- The exact sum of the lane products from lane k on, with the flags (R205). -/
def dotFrom (f : Fmt) (mode : BitVec 3) (a b : Word) : Nat → Nat → Num × BitVec 8 → Num × BitVec 8
  | 0, _, q => q
  | n + 1, k, q =>
    let x := fmtDecode f (lane f a k)
    let y := fmtDecode f (lane f b k)
    let m := Num.mul x.1 y.1
    let t := if k = 0 then (m.1, false) else Num.add mode q.1 m.1
    dotFrom f mode a b n (k + 1)
      (t.1, q.2 ||| (if m.2 || t.2 then flagNV else 0) ||| (if x.2 || y.2 then flagPRV else 0))

/-- The format of a dot product's result (R205). -/
def dotFmt (f : Fmt) : Fmt := if fmtIsInt f then 11 else if f = 8 then 8 else 7

/-- `pdot`: the exact dot product, rounded once (R205). -/
def execPdot (f : Fmt) (d a : Reg) (b : OpB) (s : State) : Answer :=
  .next (s.withRegs (d :: a :: bRegs b) (
    let q := dotFrom f s.thr.round (s.rd a) (s.opB b) (laneCount f) 0 (.zero false, 0)
    s.completeRs d (fmtEncode (dotFmt f) flagOF (!fmtIsInt f) (s.rs.raise q.2) q.1)))

end Sys2Proof.Machine
end

