-- ==== Sys2Proof/Machine/Vector.lean ====
section
/-! DEFINITION. The vector stream instructions and their unit (08_isa_arith.md, R209-R214). -/

namespace Sys2Proof.Machine

/-! ## The control word (R209) -/

def vecCount (c : Word) : Nat := c.toNat % 2 ^ 18
def vecFn (c : Word) : Nat := c.toNat / 2 ^ 32 % 256
def vecAnchor (c : Word) : Int := ((c >>> 53).setWidth 11 : BitVec 11).toInt

/-- The reserved fields, ANC and FN where the instruction does not use them, and N (R209). -/
def vecControlBad (o : VecOp) (c : Word) : Bool :=
  decide (c.toNat / 2 ^ 40 % 2 ^ 13 ≠ 0) || decide (c.toNat / 2 ^ 18 % 2 ^ 14 ≠ 0) || decide (131072 < vecCount c) ||
    (o != .sum && decide (c.toNat / 2 ^ 53 ≠ 0)) || (o != .map && decide (vecFn c ≠ 0))

/-! ## Operands and their checks (R209, R210, R127) -/

/-- An operand of a vector instruction: elements of a view, or raw words. -/
structure VecArg where
  va : Word
  n : Nat
  raw : Bool
  deriving DecidableEq, Repr

/-- The operands that an instruction checks (R209-R214). -/
def vecArgs (o : VecOp) (k : Nat) (d a b c : Word) : List VecArg :=
  let n := vecCount c
  match o with
  | .sum => [⟨d, 1, true⟩, ⟨a, n, false⟩] ++ (if b = 0 then [] else [⟨b, 1, true⟩])
  | .topk => [⟨d, k, true⟩, ⟨a, n, false⟩]
  | .bcast => [⟨d, n, false⟩, ⟨a, min b.toNat n, false⟩]
  | .map => [⟨d, n, false⟩, ⟨a, n, false⟩] ++ (if vecFn c = 6 ∨ vecFn c = 7 then [⟨b, 2, true⟩] else [])
  | _ => [⟨d, n, false⟩, ⟨a, n, false⟩, ⟨b, n, false⟩]

/-- The view an operand is read through, for a near-window address. -/
def argView (c : Core) (cyc : Nat) (x : VecArg) : View :=
  match regionOf x.va with
  | .near v _ _ => if x.raw then rawView else c.view v cyc
  | _ => rawView

/-- Row 6: a misaligned operand (R209). -/
def argMisaligned (c : Core) (cyc : Nat) (x : VecArg) : Bool :=
  match regionOf x.va with
  | .near _ _ _ => decide (x.va.toNat % fmtBytes (argView c cyc x).sf ≠ 0)
  | _ => false

/-- Row 7: an operand outside the near windows, or past a bound, also of a view with a reserved field (R209, R207). -/
def argOutside (c : Core) (cyc : Nat) (x : VecArg) : Bool :=
  match regionOf x.va with
  | .near _ o inStore =>
    let w := argView c cyc x
    !inStore || decide (2 ^ 17 < o + x.n * fmtBytes w.sf) ||
      (decide (x.n ≠ 0) && w.scaled &&
        !(decide (w.db ≤ o) && decide (w.scaleAt (o + x.n * fmtBytes w.sf - 1) < 2 ^ 17)))
  | _ => true

/-- A computation format (R210). -/
def vecFmt (f : Fmt) : Bool := 5 ≤ f.toNat && f.toNat ≤ 11

/-- The stored formats `vtopk` takes (R214). -/
def topkFmt (f : Fmt) : Bool := f.toNat ≤ 7 || f = 9

/-- A `vmap` function and the formats of its row (R212). -/
def mapOk (fn : Nat) (f : Fmt) : Bool :=
  decide (fn ≤ 7) && (decide (fn = 0) || decide (fn = 7) || (5 ≤ f.toNat && f.toNat ≤ 7))

/-- The format checks of row 10 (R210-R214). -/
def vecFormatBad (o : VecOp) (wd wa wb : View) (b c : Word) : Bool :=
  match o with
  | .sum => false
  | .topk => !topkFmt wa.sf
  | .bcast => !vecFmt wa.df || wd.df != wa.df || (decide (vecCount c ≠ 0) && !(decide (1 ≤ b.toNat) && decide (b.toNat ≤ vecCount c)))
  | .map => !vecFmt wa.df || wd.df != wa.df || !mapOk (vecFn c) wa.df
  | _ => !vecFmt wa.df || wd.df != wa.df || wb.df != wa.df

/-- The first check that fails: cause, DETAIL and ADDR (R127 rows 6, 7 and 10). -/
def vecCheck (o : VecOp) (k : Nat) (c : Core) (cyc : Nat) (d a b cw : Word) : Option (BitVec 8 × BitVec 8 × Word) :=
  let args := vecArgs o k d a b cw
  match args.find? (argMisaligned c cyc) with
  | some x => some (0x04, 0, x.va)
  | none =>
    match args.find? (argOutside c cyc) with
    | some x => some (0x0C, 0, x.va)
    | none =>
      match args.find? (fun x => (argView c cyc x).bad) with
      | some x => some (0x01, 0, x.va)
      | none =>
        let w (va : Word) : View := argView c cyc ⟨va, 0, false⟩
        if vecControlBad o cw || vecFormatBad o (w d) (w a) (w b) b cw then some (0x0F, 8, 0) else none

/-- The view descriptor of an address, as it is sampled. -/
def vecDescriptor (c : Core) (cyc : Nat) (va : Word) : Word :=
  match regionOf va with
  | .near v _ _ => if v = 0 then 0 else c.sampled v cyc
  | _ => 0

/-- A vector stream instruction: its checks, then the unit's queue (R209, R210). -/
def State.vector (s : State) (o : VecOp) (k : Nat) (d a b c : Reg) : State :=
  s.withRegs [d, a, b, c] (
    let p := s.cur.core
    let core := s.seen
    match vecCheck o k core s.now (s.rd d) (s.rd a) (s.rd b) (s.rd c) with
    | some (cause, detail, addr) => s.raise cause detail addr
    | none => s.afterRelaxed (
      let j : VecJob :=
        { slot := s.cur.slot, op := o, d := s.rd d, a := s.rd a, b := s.rd b, c := s.rd c,
          vdD := vecDescriptor core s.now (s.rd d), vdA := vecDescriptor core s.now (s.rd a),
          vdB := vecDescriptor core s.now (s.rd b), k := k, next := 0, sum := 0, bad := 0, pairs := [], taken := s.now }
      ((s.modCore p (fun c => { c with vecQueue := c.vecQueue ++ [j] })).post (.vsuTake p)).modThr
        (fun t => { t with pc := s.cur.next, wait := .vector })))

/-- `vadd` (R211). -/
def execVadd (d a b c : Reg) (s : State) : Answer := .next (s.vector .add 0 d a b c)

/-- `vsub` (R211). -/
def execVsub (d a b c : Reg) (s : State) : Answer := .next (s.vector .sub 0 d a b c)

/-- `vmul` (R211). -/
def execVmul (d a b c : Reg) (s : State) : Answer := .next (s.vector .mul 0 d a b c)

/-- `vmax` (R211). -/
def execVmax (d a b c : Reg) (s : State) : Answer := .next (s.vector .max 0 d a b c)

/-- `vmin` (R211). -/
def execVmin (d a b c : Reg) (s : State) : Answer := .next (s.vector .min 0 d a b c)

/-- `vfma` (R211). -/
def execVfma (d a b c : Reg) (s : State) : Answer := .next (s.vector .fma 0 d a b c)

/-- `vmap` (R212). -/
def execVmap (d a b c : Reg) (s : State) : Answer := .next (s.vector .map 0 d a b c)

/-- `vsum` (R213). -/
def execVsum (d a b c : Reg) (s : State) : Answer := .next (s.vector .sum 0 d a b c)

/-- `vtopk`: the field holds k - 1 (R214). -/
def execVtopk (k : BitVec 5) (d a b c : Reg) (s : State) : Answer := .next (s.vector .topk (k.toNat + 1) d a b c)

/-- `vbcast` (R211). -/
def execVbcast (d a b c : Reg) (s : State) : Answer := .next (s.vector .bcast 0 d a b c)

/-! ## The unit (R210) -/

/-- The view of an operand by the descriptor copied at issue. -/
def jobView (va vd : Word) : View :=
  match regionOf va with
  | .near v _ _ => if v = 0 then rawView else viewOf vd
  | _ => rawView

/-- The offset of element i of an operand. -/
def elementAt (va : Word) (w : View) (i : Nat) : Nat := va.toNat % 2 ^ 17 + i * fmtBytes w.sf

/-- `vmap` on a value of a format: the exact result, its flags, and whether it rounds (R212, R84). -/
def mapFn (fn : Nat) (f : Fmt) (mode : BitVec 3) (x p0 p1 : Num) : Num × BitVec 8 × Bool :=
  match fn with
  | 0 => (x, 0, false)
  | 1 => let q := x.exp2
    (q.1, q.2, true)
  | 2 => let q := x.log2
    (q.1, q.2, true)
  | 3 => let q := Num.div (.fin false 1 1) x
    (q.1, q.2, true)
  | 4 => let q := x.rsqrt
    (q.1, q.2, true)
  | 5 => let q := invalid (Num.pick true x (.zero false))
    (q.1, q.2, false)
  | 6 => let q := invalid (Num.fma mode x p0 p1)
    (q.1, q.2, true)
  | _ =>
    let q := lanePick f true mode x p0
    let u := lanePick f false mode q.1 p1
    (u.1, q.2 ||| u.2, false)

/-- A raw word at an operand's offset. -/
def State.rawAt (s : State) (p : Nat) (va : Word) (i : Nat) : Word := s.word (localKey p (va.toNat % 2 ^ 17 + 8 * i))

/-- Adds to a raw word at an operand's offset (R213). -/
def State.addRaw (s : State) (p : Nat) (va v : Word) : State :=
  s.setWord (localKey p (va.toNat % 2 ^ 17)) (s.rawAt p va 0 + v)

/-- One element of an element-wise instruction: its sources, its result, its store (R210-R212). Where several sources are
rounded in mode 5, s.srs is stepped for A, then B, then D: R84 and R210 order sources only before the destination. DESIGN CHOICE
(log 59). -/
def State.vecElement (s : State) (p : Nat) (j : VecJob) (i : Nat) (r : Rs) : State × Rs :=
  let wd := jobView j.d j.vdD
  let wa := jobView j.a j.vdA
  let f := wa.df
  let ia := if j.op = .bcast then i % j.b.toNat else i
  let qa := s.loadElement p wa (elementAt j.a wa ia) r
  let x := fmtDecode f qa.1
  let r := qa.2.raiseIf x.2 flagPRV
  let two (op : BitVec 3 → Num → Num → Num × BitVec 8) (steps : Bool) : Nat × Rs :=
    let wb := jobView j.b j.vdB
    let qb := s.loadElement p wb (elementAt j.b wb i) r
    let y := fmtDecode f qb.1
    let r := qb.2.raiseIf y.2 flagPRV
    if j.op = .fma then
      let qd := s.loadElement p wd (elementAt j.d wd i) r
      let z := fmtDecode f qd.1
      laneEncode f true (qd.2.raiseIf z.2 flagPRV) (invalid (Num.fma r.mode x.1 y.1 z.1))
    else laneEncode f steps r (op r.mode x.1 y.1)
  let q := match j.op with
    | .add => two laneAdd true
    | .sub => two laneSub true
    | .mul => two laneMul true
    | .max => two (lanePick f true) false
    | .min => two (lanePick f false) false
    | .fma => two laneMul true
    | .map =>
      let p0 := fmtDecode f (s.rawAt p j.b 0).toNat
      let p1 := fmtDecode f (s.rawAt p j.b 1).toNat
      let used := vecFn j.c = 6 ∨ vecFn j.c = 7
      let m := mapFn (vecFn j.c) f r.mode x.1 p0.1 p1.1
      laneEncode f m.2.2 (r.raiseIf (used && (p0.2 || p1.2)) flagPRV) (m.1, m.2.1)
    | _ => laneEncode f false r (x.1, 0)
  s.storeElement p wd (elementAt j.d wd i) q.1 q.2

/-- One element of `vsum` or `vtopk`: its exact value goes into the job (R213, R214). -/
def State.vecTake (s : State) (p : Nat) (j : VecJob) (i : Nat) (r : Rs) : VecJob × Rs :=
  let wa := jobView j.a j.vdA
  let x := s.element p wa (elementAt j.a wa i)
  let r := r.raiseIf x.2 flagPRV
  if j.op = .sum then
    match gridPart x.1 (vecAnchor j.c) with
    | some n => ({ j with sum := j.sum + BitVec.ofInt 64 n }, r)
    | none => ({ j with bad := j.bad + 1 }, r.raiseIf x.1.isSig flagNV)
  else
    let q := fp32.encode { Rs.rne with fl := r.fl } x.1
    let pair := (BitVec.ofNat 32 q.1, BitVec.ofNat 32 (j.b.toNat + i))
    ({ j with pairs := (rankInsert pair.1 pair.2 j.pairs).take j.k }, { r with fl := q.2.fl })

/-- Elements i, i + 1, ..., `n` of them, in ascending order. -/
def State.vecRun (s : State) (p : Nat) : Nat → Nat → VecJob → Rs → State × VecJob × Rs
  | 0, _, j, r => (s, j, r)
  | n + 1, i, j, r =>
    if j.op = .sum ∨ j.op = .topk then
      let q := s.vecTake p j i r
      s.vecRun p n (i + 1) q.1 q.2
    else
      let q := s.vecElement p j i r
      q.1.vecRun p n (i + 1) j q.2

/-- The elements of one group of 64 decoded bytes (R210). -/
def vecPerGroup (j : VecJob) : Nat := 64 / fmtBytes (jobView j.a j.vdA).df

/-- The padding of `vtopk` (R214). -/
def topkPad : Word := 0xFFFFFFFF7FC00000#64

/-- The result words of `vsum` and `vtopk` (R213, R214). -/
def State.vecResult (s : State) (p : Nat) (j : VecJob) : State :=
  match j.op with
  | .sum =>
    if vecCount j.c = 0 then s
    else
      let s := s.addRaw p j.d j.sum
      if j.b = 0 then s else s.addRaw p j.b (BitVec.ofNat 64 j.bad)
  | .topk =>
    let ws := j.pairs.map (fun e => (e.2 ++ e.1 : Word))
    s.setWords (localKey p (j.d.toNat % 2 ^ 17)) (ws ++ List.replicate (j.k - ws.length) topkPad)
  | _ => s

/-- VSU_TAKE (R210): the free unit takes the instruction that waits longest. -/
def execVsuTake (p : Nat) (s : State) : Answer :=
  .next (
    let c := s.core p
    match c.vecRun, c.vecQueue with
    | none, j :: l =>
      (s.setCore p { c with vecRun := some { j with taken := max j.taken (s.cycle p) }, vecQueue := l }).post (.vsuComplete p)
    | _, _ => s)

/-- The banks of elements i to i + n - 1 of an operand, and of their scales (R40, R207). -/
def elementBanks (va : Word) (w : View) (i n : Nat) : List Nat :=
  (List.range n).flatMap (fun k =>
    let o := elementAt va w (i + k)
    banksOf o (fmtBytes w.sf) ++ (if w.scaled then banksOf (w.scaleAt o) 2 else []))

/-- The banks that the unit's next group uses (R210): its sources and destinations, and the result words with the last. Without
elements there is no group to delay, and the thread is runnable in a cycle that does not depend on the banks. -/
def VecJob.banks (j : VecJob) (n : Nat) : List Nat :=
  let wa := jobView j.a j.vdA
  let a := if j.op = .bcast then (List.range n).flatMap (fun k => elementBanks j.a wa ((j.next + k) % j.b.toNat) 1)
    else elementBanks j.a wa j.next n
  let last := vecCount j.c - j.next ≤ n
  if vecCount j.c = 0 then []
  else
  match j.op with
  | .sum => a ++ (if last then banksOf (j.d.toNat % 2 ^ 17) 8 ++ (if j.b = 0 then [] else banksOf (j.b.toNat % 2 ^ 17) 8) else [])
  | .topk => a ++ (if last then banksOf (j.d.toNat % 2 ^ 17) (8 * j.k) else [])
  | .map => a ++ elementBanks j.d (jobView j.d j.vdD) j.next n ++
      (if vecFn j.c = 6 ∨ vecFn j.c = 7 then banksOf (j.b.toNat % 2 ^ 17) 16 else [])
  | .bcast => a ++ elementBanks j.d (jobView j.d j.vdD) j.next n
  | _ => a ++ elementBanks j.b (jobView j.b j.vdB) j.next n ++ elementBanks j.d (jobView j.d j.vdD) j.next n

/-- An access that ranks before the unit takes one of a group's banks in the current cycle (R210, R272). -/
def State.bankTaken (s : State) (p : Nat) (banks : List Nat) : Bool :=
  (s.core p).bankAt == s.cycle p && banks.any (s.core p).bankUsed.contains

/-- VSU_COMPLETE (R210): the next group performs; after the last one the result words are written, the flags and s.srs
are kept, and the thread becomes runnable. A group that finds a bank taken performs one cycle later, with the later ones. -/
def execVsuComplete (p : Nat) (s : State) : Answer :=
  .next (
    match (s.core p).vecRun with
    | none => s
    | some j =>
      let left := vecCount j.c - j.next
      let n := min left (vecPerGroup j)
      if s.bankTaken p (j.banks n) then
        (s.modCore p (fun c => { c with vecRun := some { j with taken := j.taken + 1 } })).post (.vsuComplete p)
      else
      let s := s.modCore p (fun c =>
        { c with bankAt := s.cycle p, bankRank := 4, bankUsed := if c.bankAt = s.cycle p then c.bankUsed else [] })
      let (s, j, r) := s.vecRun p n j.next j (s.slot p j.slot).rs
      let s := s.modSlot p j.slot (·.commit r)
      if n < left then (s.modCore p (fun c => { c with vecRun := some { j with next := j.next + n } })).post (.vsuComplete p)
      else
        let s := (s.vecResult p j).modCore p (fun c => { c with
          vecRun := none
          vecQueue := match c.vecQueue with
            | j :: l => { j with taken := max j.taken (s.cycle p + 1) } :: l
            | [] => [] })
        let s := s.modSlot p j.slot (fun t => { t with wait := .none, wakeAt := max t.wakeAt (s.cycle p + 5) })
        if (s.core p).vecQueue.isEmpty then s else s.post (.vsuTake p))

end Sys2Proof.Machine
end

