-- ==== Sys2Proof/Machine/Engines.lean ====
section
/-! DEFINITION. The engine commands and their units: key lookup, key lookup backward, row gather, collectives
(09_isa_engines.md, R224-R231; R294, R295, R378). -/

namespace Sys2Proof.Machine

/-! ## Command blocks (R224, R226, R228-R230) -/

/-- The word `w` of a block, as a number. -/
def blk (b : List Word) (w : Nat) : Nat := (b.getD w 0).toNat

/-- A field of word 0. -/
def blk0 (b : List Word) (hi lo : Nat) : Nat := blk b 0 / 2 ^ lo % 2 ^ (hi - lo + 1)

def blkStack (b : List Word) : Nat := blk0 b 63 59
def blkDv (b : List Word) : Nat := blk0 b 58 49 + 1
def blkVf (b : List Word) : Nat := blk0 b 48 45
def blkN (b : List Word) : Nat := blk0 b 43 32 + 1
def blkK (b : List Word) : Nat := blk0 b 31 27 + 1
def blkK2 (b : List Word) : Nat := blk0 b 26 22 + 1
def blkK1 (b : List Word) : Nat := blk0 b 21 17 + 1
def blkH (b : List Word) : Nat := blk0 b 16 9 + 1

/-- A near-window address whose range of `n` bytes lies in bound (R226). -/
def nearRange (v n : Nat) : Bool :=
  match regionOf (BitVec.ofNat 64 v) with
  | .near _ o inStore => inStore && decide (o + n ≤ 2 ^ 17)
  | _ => false

/-- n / d rounded up. -/
def ceilDiv (n d : Nat) : Nat := (n + d - 1) / d

/-- The word checks of a `klu` block: `true` marks a failing word (R226). -/
def kluBad (b : List Word) : List Bool :=
  [!(blkVf b == 3 || blkVf b == 6) || decide (blkK1 b * blkK2 b < blkK b) || decide (blkN b < blkK2 b) ||
      decide (blkN b < blkK1 b) || decide (128 < blkH b) || decide (5 < blk0 b 8 4) || decide (blk0 b 3 0 ≠ 0),
    !nearRange (blk b 1) (4 * blkH b) || decide (blk b 1 % 8 ≠ 0), decide (blk b 2 % 64 ≠ 0), decide (blk b 3 % 64 ≠ 0),
    decide (blk b 4 % 64 ≠ 0), blkVf b == 3 && decide (blk b 5 % 2 ≠ 0),
    !nearRange (blk b 6) (64 * ceilDiv (4 * blkDv b) 64 + 8 * blkK b) || decide (blk b 6 % 64 ≠ 0), decide (blk b 7 ≠ 0)]

/-- The word checks of a `kbwd` block (R228). A BUF that is no device address fails its word's check, as a PAIR, GRD or SGR that
is no near-window address does. DESIGN CHOICE (log 67). -/
def kbwdBad (b : List Word) : List Bool :=
  [!(blkVf b == 3 || blkVf b == 6) || decide (blk0 b 26 0 ≠ 0),
    !nearRange (blk b 1) (8 * blkK b) || decide (blk b 1 % 8 ≠ 0),
    !nearRange (blk b 2) (4 * blkDv b) || decide (blk b 2 % 4 ≠ 0), decide (blk b 3 % 64 ≠ 0),
    blkVf b == 3 && decide (blk b 4 % 2 ≠ 0), decide (blk b 5 % 64 ≠ 0) || decide (2 ^ 47 ≤ blk b 5),
    !nearRange (blk b 6) (4 * blkK b) || decide (blk b 6 % 4 ≠ 0), decide (blk b 7 ≠ 0)]

/-- The word checks of a `gat` block (R229). -/
def gatBad (b : List Word) : List Bool :=
  [!(blkVf b == 3 || blkVf b == 6 || blkVf b == 7) || decide (5 < blk0 b 42 38) || decide (blk0 b 37 17 ≠ 0),
    decide (blk b 1 % 4 ≠ 0), decide (blk0 b 44 44 = 0) && decide (blk b 2 % 4 ≠ 0), decide (blk b 3 % 64 ≠ 0),
    blkVf b == 3 && decide (blk b 4 % 2 ≠ 0), decide (blk b 5 % 64 ≠ 0), false, decide (blk b 7 ≠ 0)]

def collGrp (b : List Word) : Nat := blk0 b 63 56
def collTag (b : List Word) : Nat := blk0 b 55 32
def collFmt (b : List Word) : Fmt := BitVec.ofNat 4 (blk0 b 31 28)
def collN (b : List Word) : Nat := blk b 1 % 2 ^ 32
def collRoot (b : List Word) : Nat := blk b 1 / 2 ^ 48

/-- The source formats of `coll.sum` (R230). -/
def sumFmt (f : Fmt) : Bool := f.toNat ≤ 7 || (9 ≤ f.toNat && f.toNat ≤ 11)

/-- The word checks of a `coll` block; `configured` says whether GRP is (R230). -/
def collBad (o : CollOp) (configured : Bool) (b : List Word) : List Bool :=
  let f := collFmt b
  let scaled := f == 3 || f == 4
  [!configured || decide (blk0 b 11 0 ≠ 0) || (if o = .sum then !sumFmt f else f != 0) ||
      (o != .sum && decide (blk0 b 27 17 ≠ 0)) || (o != .topk && decide (blk0 b 16 12 ≠ 0)),
    decide (blk b 1 / 2 ^ 32 % 2 ^ 16 ≠ 0) || ((o == .sum || o == .topk) && decide (collRoot b ≠ 0)) ||
      (o == .topk && decide (32 < collN b)) || ((o == .bcast || o == .gather) && decide (collN b % 8 ≠ 0)),
    (o == .sum && decide (blk b 2 % fmtBytes f ≠ 0)) || (o == .topk && decide (blk b 2 % 8 ≠ 0)),
    (o == .sum || o == .topk) && decide (blk b 3 % 8 ≠ 0),
    if o = .sum then decide (blk b 4 % 8 ≠ 0) else decide (blk b 4 ≠ 0),
    if o = .sum && scaled then decide (blk b 5 = 0) || decide (blk b 5 % 2 ≠ 0) else decide (blk b 5 ≠ 0),
    decide (blk b 6 ≠ 0), decide (blk b 7 ≠ 0)]

/-- The address of a group's entry in a die's table (R378). -/
def State.groupEntry (s : State) (die grp : Nat) : Nat := (s.die die).gtb.toNat / 2 ^ 14 * 2 ^ 14 + 64 * grp

/-- A word of a group table, or of the list of a group's members, as an engine reads it; a refused read gives 0 (R365; log 28). -/
def State.tableWord (s : State) (pa : Nat) : Word := if (s.readRefuses pa).isSome then 0 else s.word pa

def State.tableWords (s : State) (pa n : Nat) : List Word := (List.range n).map (fun i => s.tableWord (pa + 8 * i))

/-- An engine's read of a group table is counted for its frame (R366). -/
def State.chargeTable (s : State) (pa : Nat) : State := if (s.readRefuses pa).isSome then s else s.chargeFrame false pa

/-- A group is configured (R378). -/
def State.groupOk (s : State) (die grp : Nat) : Bool := (s.tableWord (s.groupEntry die grp)).getLsbD 63

/-- The first failing word of a block (R224). -/
def firstBad (l : List Bool) : Option Nat := l.findIdx? id

def blockBad (o : EngineOp) (configured : Bool) (b : List Word) : Option Nat :=
  firstBad (match o with
    | .klu => kluBad b
    | .kbwd => kbwdBad b
    | .gat => gatBad b
    | .coll c => collBad c configured b)

/-! ## Issue (R224) -/

/-- Two commands go to one queue: a stack's, or a die's collective engine (R224). -/
def sameQueue (a b : EngineCmd) : Bool :=
  match a.op, b.op with
  | .coll _, .coll _ => dieOfCore a.core == dieOfCore b.core
  | .coll _, _ => false
  | _, .coll _ => false
  | _, _ => blkStack a.block == blkStack b.block

/-- The commands on their way to the queue of a command (R295). -/
def State.commandsToward (s : State) (c : EngineCmd) : Nat :=
  (s.due.filter (fun e =>
    match e with
    | .engineQueueAccept _ (.reaches d) => sameQueue c d
    | _ => false)).length

/-- The queue a command goes to has room, also for those on their way to it (R224). -/
def State.engineRoom (s : State) (c : EngineCmd) : Bool :=
  match c.op with
  | .coll _ => decide ((s.die (dieOfCore c.core)).coll.length + s.commandsToward c < 16)
  | _ => decide ((s.klu (blkStack c.block)).length + s.commandsToward c < 64)

/-- A command enters its engine's queue (R224, R295). -/
def State.engineEnqueue (s : State) (c : EngineCmd) : State :=
  match c.op with
  | .coll _ => (s.modDie (dieOfCore c.core) (fun d => { d with coll := d.coll ++ [c] })).post
      (.collExecute (collGrp c.block) (collTag c.block) (dieOfCore c.core))
  | _ =>
    let k := blkStack c.block
    let q := s.klu k
    let s := s.setKlu k (q ++ [c])
    if q.isEmpty then s.post (engineStep c k) else s

/-- A command leaves its core for its engine's queue; commands of different cores arrive in no promised order (R295). -/
def State.engineLeave (s : State) (c : EngineCmd) : State := s.post (.engineQueueAccept c.core (.reaches c))

/-- Whether an engine command reads a group table, which lies in device memory (R230, R378). -/
def readsTable (o : EngineOp) : Bool :=
  match o with
  | .coll _ => true
  | _ => false

/-- Stage 5 of an engine command: the block is read, its checks, then the queue (R224); a `coll` waits while the die links carry
no traffic (R391). -/
def State.engineSend (s : State) (o : EngineOp) (off : Nat) (comp : Home) : State :=
  let p := s.cur.core
  let b := s.words (localKey p off) 8
  if readsTable o && s.hub.linksWait then s.hold .links
  else
  let s := s.useBanks p s.rank off 64
  let s := if readsTable o then s.chargeTable (s.groupEntry (dieOfCore p) (collGrp b)) else s
  match blockBad o (s.groupOk (dieOfCore p) (collGrp b)) b with
  | some w => s.raise 0x0F (BitVec.ofNat 8 (0x10 + w)) 0
  | none =>
    let c : EngineCmd := { op := o, core := p, slot := s.cur.slot, hq := s.thr.hq, block := b, comp := comp, issued := s.now }
    if s.engineRoom c then (s.engineLeave c).advance
    else (s.park (.engineQueue s.cur.next c)).post (.engineQueueAccept p (.leaves s.cur.slot))

/-- An engine command (R224). -/
def State.engine (s : State) (o : EngineOp) (a c : Reg) : State :=
  s.withRegs [a, c] (
    let va := s.rd a
    match regionOf va with
    | .near _ off true =>
      if va.toNat % 64 ≠ 0 then s.raise 0x04 0 va
      else s.access .write 8 (s.rd c) (fun h s => s.afterRelaxed (s.engineSend o off h))
    | _ => s.raise 0x0C 0 va)

/-- `klu` (R224, R226). -/
def execKlu (a c : Reg) (s : State) : Answer := .next (s.engine .klu a c)

/-- `kbwd` (R224, R228). -/
def execKbwd (a c : Reg) (s : State) : Answer := .next (s.engine .kbwd a c)

/-- `gat` (R224, R229). -/
def execGat (a c : Reg) (s : State) : Answer := .next (s.engine .gat a c)

/-- `coll.sum` (R224, R230). -/
def execCollSum (a c : Reg) (s : State) : Answer := .next (s.engine (.coll .sum) a c)

/-- `coll.topk` (R224, R230). -/
def execCollTopk (a c : Reg) (s : State) : Answer := .next (s.engine (.coll .topk) a c)

/-- `coll.bcast` (R224, R230). -/
def execCollBcast (a c : Reg) (s : State) : Answer := .next (s.engine (.coll .bcast) a c)

/-- `coll.gather` (R224, R230). -/
def execCollGather (a c : Reg) (s : State) : Answer := .next (s.engine (.coll .gather) a c)

/-- ENGINE_QUEUE_ACCEPT (R224, R295): a command on its way reaches its queue, or a parked thread's command finds room and
leaves. -/
def execEngineQueueAccept (p : Nat) (q : QueueStep) (s : State) : Answer :=
  .next (
    match q with
    | .reaches c => s.engineEnqueue c
    | .leaves n =>
      match (s.slot p n).wait with
      | .engineQueue next c =>
        if s.engineRoom c then
          (s.engineLeave c).modSlot p n (fun t =>
            { t with wait := .none, pc := next, wakeAt := max t.wakeAt (s.cycle p + 1) })
        else s.post (.engineQueueAccept p (.leaves n))
      | _ => s)

/-! ## The accesses of an engine (R225, R278)

A command's work is a function of the answers that its accesses have brought so far: it comes to a result, or it wants more
accesses. Every access is a request of its own; the engine's step sends one of those wanted, of a choice that is not promised. -/

/-- An access that a piece of work wants: in the address space of a core's queue, of another module's member, or at a home
that needs no translation. -/
structure Ask where
  key : AccKey
  core : Nat
  hq : BitVec 6
  va : Nat
  n : Nat
  write : Option (List Byte)
  remote : Option Nat
  home : Option Home
  deriving DecidableEq, Repr

/-- Work that has no result: it wants more answers, or it fails with a cause and its INFO. -/
inductive Stop
  | wait
  | fail (cause : BitVec 8) (info : Nat)
  deriving DecidableEq, Repr

abbrev Work := ReaderT Run (ExceptT Stop (StateM (List Ask)))

/-- What work comes to with the answers of a run, and what it wants. -/
def Work.result {α : Type} (w : Work α) (r : Run) : Except Stop α × List Ask := ((w.run r).run).run []

/-- Two pieces of work with no order between their accesses. -/
def Work.both {α β : Type} (a : Work α) (b : Work β) : Work (α × β) := fun r => ExceptT.mk (do
  let x ← (a r).run
  let y ← (b r).run
  pure (match x, y with
    | .ok u, .ok v => .ok (u, v)
    | .error (.fail c i), _ => .error (.fail c i)
    | _, .error (.fail c i) => .error (.fail c i)
    | _, _ => .error .wait))

/-- Pieces of work with no order between their accesses. -/
def Work.all {α : Type} : List (Work α) → Work (List α)
  | [] => pure []
  | w :: ws => do
    let q ← w.both (Work.all ws)
    pure (q.1 :: q.2)

/-- The accesses of one kind are all answered, or they are wanted. -/
def Work.want (l : List Ask) : Work (List (List Byte)) := do
  let r ← read
  let missing := l.filter (fun a => !r.got.any (fun e => e.1 == a.key))
  if missing.isEmpty then pure (l.map (fun a => ((r.got.find? (fun e => e.1 == a.key)).map (·.2)).getD []))
  else do
    modify (· ++ missing)
    throw .wait

/-- The pieces of a range of `n` bytes, each within one word: offset and length (R278). `fuel` bounds their number. -/
def wordPieces (va : Nat) : Nat → Nat → Nat → List (Nat × Nat)
  | 0, _, _ => []
  | fuel + 1, o, n => if n = 0 then [] else
    let k := min n (8 - (va + o) % 8)
    (o, k) :: wordPieces va fuel (o + k) (n - k)

def pieces (va n : Nat) : List (Nat × Nat) := wordPieces va (n / 8 + 2) 0 n

/-- Reads a range of a command's address space: `info` names the part of the command, `idx` the range in it. -/
def readRange (c : EngineCmd) (info idx va n : Nat) : Work (List Byte) := do
  let l ← Work.want ((pieces va n).map (fun q =>
    { key := { tag := info, idx := idx, off := q.1 }, core := c.core, hq := c.hq, va := (va + q.1) % 2 ^ 64, n := q.2,
      write := none, remote := none, home := none }))
  pure l.flatten

/-- Reads `k` bytes from byte `o` of a range of `n` bytes on, waiting only for the words that hold them. -/
def readPart (c : EngineCmd) (info idx va n o k : Nat) : Work (List Byte) := do
  let ps := (pieces va n).filter (fun q => decide (q.1 < o + k) && decide (o < q.1 + q.2))
  let l ← Work.want (ps.map (fun q =>
    { key := { tag := info, idx := idx, off := q.1 }, core := c.core, hq := c.hq, va := (va + q.1) % 2 ^ 64, n := q.2,
      write := none, remote := none, home := none }))
  pure ((l.flatten.drop (o - ((ps.head?.map (·.1)).getD 0))).take k)

/-- Writes bytes from byte `o` of a range of a command's address space on. -/
def writeAt (c : EngineCmd) (info idx va o : Nat) (bs : List Byte) : Work Unit := do
  let _ ← Work.want ((pieces (va + o) bs.length).map (fun q =>
    { key := { tag := info, idx := idx, off := o + q.1 }, core := c.core, hq := c.hq, va := (va + o + q.1) % 2 ^ 64, n := q.2,
      write := some ((bs.drop q.1).take q.2), remote := none, home := none }))
  pure ()

/-- Writes a range of a command's address space. -/
def writeRange (c : EngineCmd) (info idx va : Nat) (bs : List Byte) : Work Unit := writeAt c info idx va 0 bs

/-- Bytes that the member of another module supplies (R231). -/
def readRemote (c : EngineCmd) (info idx mod n : Nat) : Work (List Byte) := do
  let l ← Work.want [{ key := { tag := info, idx := idx, off := 0 }, core := c.core, hq := c.hq, va := 0, n := n, write := none,
                       remote := some mod, home := none }]
  pure l.flatten

/-! ## Walks without a buffer (R321, R357-R361) -/

/-- One word of device-physical memory, in the class of a queue. -/
def readPhys (q : BitVec 6) (key : AccKey) (pa : Nat) : Work Word := do
  let l ← Work.want [{ key := key, core := 0, hq := q, va := 0, n := 8, write := none, remote := none, home := some (.dev pa) }]
  pure (BitVec.ofNat 64 (leNat l.flatten))

/-- A walk of an agent that has no translation buffer, from the entry of a level on: one read for each level (R357-R359). -/
def walkWork (q : BitVec 6) (tag idx : Nat) (k : PageKey) : Nat → Nat → Work TlbEntry
  | 0, a => do
    match walkStep k 0 (← readPhys q { tag := tag, idx := idx, off := 0 } a) with
    | .leaf e => pure e
    | _ => throw (.fail 0x05 tag)
  | l + 1, a => do
    match walkStep k (l + 1) (← readPhys q { tag := tag, idx := idx, off := l + 1 } a) with
    | .leaf e => pure e
    | .table a' => walkWork q tag idx k l a'
    | .fault => throw (.fail 0x05 tag)

/-- The home of a device-memory address of a queue for the HQS, which walks the queue's tables for each of its accesses (R321;
log 16). -/
def homeWork (s : State) (q : BitVec 6) (tag idx : Nat) (n : Need) (va : Word) : Work Home := do
  match regionOf va with
  | .dev v =>
    let k : PageKey := .dev q (v / 2 ^ 16)
    match tlbHome (← walkWork q tag idx k (walkTop k) (s.walkRoot k)) 0 (2 ^ 13) n v with
    | .home h => pure h
    | .fault c => throw (.fail c tag)
  | _ => throw (.fail 0x05 tag)

/-! ## FP32 work of the units, always RNE (R82) -/

/-- A value rounded to FP32, with the flags of its operation. -/
def r32 (r : Rs) (q : Num × BitVec 8) : Nat × Rs := fp32.encode (r.raise q.2) q.1

def n32 (v : Nat) : Num := fp32.decode v

/-- The 4-byte elements of a run of bytes. -/
def quads : List Byte → List Nat
  | a :: b :: c :: d :: l => leNat [a, b, c, d] :: quads l
  | _ => []

/-- The bytes of FP32 words. -/
def bytes32 (l : List Nat) : List Byte := l.flatMap (leList 4)

/-- The exact dot product of two lists of values, with the flags of its invalid operations (R227, R228). -/
def dotNum : List Num → List Num → Option Num → BitVec 8 → Num × BitVec 8
  | x :: xs, y :: ys, acc, fl =>
    let m := Num.mul x y
    match acc with
    | none => dotNum xs ys (some m.1) (fl ||| if m.2 then flagNV else 0)
    | some a =>
      let t := Num.add 0 a m.1
      dotNum xs ys (some t.1) (fl ||| if m.2 || t.2 then flagNV else 0)
  | _, _, acc, fl => (acc.getD (.zero false), fl)

/-- Bytes of a value row, and of its scales' row, of dimension dv (R226, R229). -/
def rowBytes (vf dv : Nat) : Nat :=
  if vf = 3 then 64 * ceilDiv dv 64 else if vf = 6 then 64 * ceilDiv (2 * dv) 64 else 256 * ceilDiv dv 64

/-- The exact elements of a value row and its scales (R75, R226, R229). -/
def rowValues (vf dv : Nat) (row scales : List Byte) : List Num :=
  if vf = 3 then
    ((List.range dv).zip row).map (fun e => scaledValue 3 e.2.toNat ((halves scales).getD (e.1 / 64) 0))
  else if vf = 6 then ((halves row).take dv).map bf16.decode
  else ((quads row).take dv).map n32

/-- Reads row `idx` of the values, as the `j`-th row that a command reads. -/
def valueRow (c : EngineCmd) (wv ws j idx : Nat) : Work (List Num) := do
  let vf := blkVf c.block
  let dv := blkDv c.block
  let nb := ceilDiv dv 64
  let q ← (readRange c wv (1 + j) (blk c.block wv + idx * rowBytes vf dv) (rowBytes vf dv)).both
    (if vf = 3 then readRange c ws (1 + j) (blk c.block ws + 2 * (idx * nb)) (2 * nb) else pure [])
  pure (rowValues vf dv q.1 q.2)

/-- The activation ACT applied to an FP32 value: 0 none, 1 to 5 a `vmap` function (R226). -/
def activation (act : Nat) (v : Nat) (r : Rs) : Nat × Rs :=
  if act = 0 then (v, r)
  else
    let m := mapFn act 7 0 (n32 v) (.zero false) (.zero false)
    fp32.encode (r.raise m.2.1) m.1

/-- acc + w x v with one rounding, element by element (R227, R229). -/
def accumulate (w : Nat) : List Num → List Nat → Rs → List Nat × Rs
  | v :: vs, a :: as, r =>
    let q := r32 r (invalid (Num.fma 0 (n32 w) v (n32 a)))
    let rest := accumulate w vs as q.2
    (q.1 :: rest.1, rest.2)
  | _, _, r => ([], r)

/-- A function with flags over a list, in order. -/
def mapRs (f : Nat → Rs → Nat × Rs) : List Nat → Rs → List Nat × Rs
  | [], r => ([], r)
  | x :: xs, r =>
    let q := f x r
    let rest := mapRs f xs q.2
    (q.1 :: rest.1, rest.2)

/-- The flags that several pieces of work have raised. -/
def orFlags (l : List (BitVec 8)) : BitVec 8 := l.foldl (· ||| ·) 0

/-- The status of a command that ends without failure (R225). -/
def engineStatus (info : Nat) (fl : BitVec 8) (cause : Nat) : Word :=
  BitVec.ofNat 64 (info % 2 ^ 32 * 2 ^ 32 + fl.toNat * 2 ^ 8 + cause)

/-! ## klu (R227) -/

/-- Scores of a half table: row i rounded once (R227). -/
def kluScores (q : List Num) (h : Nat) : Nat → List Nat → Rs → List Nat × Rs
  | 0, _, r => ([], r)
  | n + 1, t, r =>
    let e := r32 r (dotNum q ((t.take h).map bf16.decode) none 0)
    let rest := kluScores q h n (t.drop h) e.2
    (e.1 :: rest.1, rest.2)

/-- The first k pairs of a list of scores with their indices (R92). -/
def bestOf (k : Nat) (l : List Nat) : List (BitVec 32 × BitVec 32) :=
  topK k (((List.range l.length).zip l).map (fun e => (BitVec.ofNat 32 e.2, BitVec.ofNat 32 e.1)))

/-- The sums of one first-half candidate with every second-half candidate (R227). -/
def kluSums (n : Nat) (a : BitVec 32 × BitVec 32) : List (BitVec 32 × BitVec 32) → Rs →
    List (BitVec 32 × BitVec 32) × Rs
  | [], r => ([], r)
  | b :: bs, r =>
    let q := r32 r (invalid (Num.add 0 (n32 a.1.toNat) (n32 b.1.toNat)))
    let rest := kluSums n a bs q.2
    ((BitVec.ofNat 32 q.1, BitVec.ofNat 32 (a.2.toNat * n + b.2.toNat)) :: rest.1, rest.2)

/-- Every candidate sum (R227). -/
def kluCandidates (n : Nat) (bs : List (BitVec 32 × BitVec 32)) : List (BitVec 32 × BitVec 32) → Rs →
    List (BitVec 32 × BitVec 32) × Rs
  | [], r => ([], r)
  | a :: as, r =>
    let q := kluSums n a bs r
    let rest := kluCandidates n bs as q.2
    (q.1 ++ rest.1, rest.2)

/-- The base-2 softmax weights of scores in rank order (R227). -/
def softmax (scores : List Nat) (r : Rs) : List Nat × Rs :=
  let first := scores.headD 0
  let e := mapRs (fun x r =>
    let d := r32 r (invalid (Num.add 0 (n32 x) (n32 first).neg))
    r32 d.2 (n32 d.1).exp2) scores r
  let z := e.1.foldl (fun q x => r32 q.2 (invalid (Num.add 0 (n32 q.1) (n32 x)))) (0, e.2)
  mapRs (fun x r => r32 r (Num.div (n32 x) (n32 z.1))) e.1 z.2

/-- The weighted sum of selected rows (R227, R229). -/
def weightedSum : List (Nat × List Num) → List Nat → Rs → List Nat × Rs
  | [], acc, r => (acc, r)
  | (w, row) :: l, acc, r =>
    let q := accumulate w row acc r
    weightedSum l q.1 q.2

/-- An FP32 value that is a NaN. -/
def isNan32 (v : Nat) : Bool := (n32 v).isNan

/-- What a `klu` selects from its query and half tables: the ranked scores, the pairs of index and weight, and the flags so
far (R227). -/
def kluSelect (b : List Word) (qry t1 t2 : List Byte) : List Nat × List (Nat × Nat) × Rs :=
  let h := blkH b
  let n := blkN b
  let qs := (halves qry).map bf16.decode
  let s1 := kluScores (qs.take h) h n (halves t1) Rs.rne
  let s2 := kluScores (qs.drop h) h n (halves t2) s1.2
  let all := kluCandidates n (bestOf (blkK2 b) s2.1) (bestOf (blkK1 b) s1.1) s2.2
  let best := topK (blkK b) all.1
  let r := all.2.raiseIf (s1.1.any isNan32 || s2.1.any isNan32 || all.1.any (fun e => isNan32 e.1.toNat)) flagNV
  let scores := best.map (fun e => e.1.toNat)
  let w := if blk0 b 44 44 = 1 then softmax scores r else (scores, r)
  (scores, (best.map (fun e => e.2.toNat)).zip w.1, w.2)

/-- The result row of a `klu` or a summing `gat`: the weighted rows and the activation (R227, R229). -/
def sumRows (dv act : Nat) (weights : List Nat) (rows : List (List Num)) (r : Rs) : List Nat × Rs :=
  let acc := weightedSum (weights.zip rows) (List.replicate dv 0) r
  mapRs (activation act) acc.1 acc.2

/-- A `klu` command, whole (R227). -/
def kluWork (c : EngineCmd) : Work Word := do
  let b := c.block
  let h := blkH b
  let n := blkN b
  let dv := blkDv b
  let q ← (readRange c 1 0 (blk b 1) (4 * h)).both
    ((readRange c 2 0 (blk b 2) (2 * n * h)).both (readRange c 3 0 (blk b 3) (2 * n * h)))
  let sel := kluSelect b q.1 q.2.1 q.2.2
  let sum : Work Rs := do
    let rows ← Work.all (((List.range sel.2.1.length).zip sel.2.1).map (fun e => valueRow c 4 5 e.1 e.2.1))
    let out := sumRows dv (blk0 b 8 4) (sel.2.1.map (·.2)) rows sel.2.2
    writeRange c 6 0 (blk b 6) (bytes32 out.1)
    pure out.2
  let r ← sum.both
    (writeRange c 6 1 (blk b 6 + 64 * ceilDiv (4 * dv) 64) (sel.2.1.flatMap (fun e => leList 8 (e.1 * 2 ^ 32 + e.2))))
  pure (engineStatus (sel.1.filter isNan32).length r.1.fl 0)

/-! ## kbwd (R228) -/

/-- The bytes of record j: its index and the scaled gradient (R228). -/
def kbwdRecord (idx w : Nat) (grd : List Nat) (r : Rs) : List Byte × Rs :=
  let q := mapRs (fun x r => r32 r (invalid (Num.mul (n32 w) (n32 x)))) grd r
  (leList 64 idx ++ bytes32 q.1, q.2)

/-- The score gradient of a pair: the output gradient times the pair's row (R228). -/
def kbwdScore (grd : List Nat) (row : List Num) : Nat × Rs := r32 Rs.rne (dotNum (grd.map n32) row none 0)

/-- The score gradients under base-2 softmax (R228). -/
def kbwdScores (ws gs : List Nat) (r : Rs) : List Nat × Rs :=
  let m := r32 r (dotNum (ws.map n32) (gs.map n32) none 0)
  (ws.zip gs).foldl (fun q e =>
    let d := r32 q.2 (invalid (Num.add 0 (n32 e.2) (n32 m.1).neg))
    let t := r32 d.2 (invalid (Num.mul (n32 e.1) (n32 d.1)))
    let u := r32 t.2 (invalid (Num.mul (n32 0x3F317218) (n32 t.1)))
    (q.1 ++ [u.1], u.2)) ([], m.2)

/-- The size of a record of a `kbwd` (R228). -/
def kbwdSize (dv : Nat) : Nat := 64 + 64 * ceilDiv (4 * dv) 64

/-- Pair word j of a `kbwd`: its index, which must lie below n², and its weight (R228). -/
def kbwdPair (c : EngineCmd) (j : Nat) : Work (Nat × Nat) := do
  let b := c.block
  let l ← readPart c 1 0 (blk b 1) (8 * blkK b) (8 * j) 8
  let idx := leNat l / 2 ^ 32
  if idx < blkN b * blkN b then pure (idx, leNat l % 2 ^ 32) else throw (.fail 0x0F j)

/-- The output gradient of a `kbwd`. -/
def kbwdGrd (c : EngineCmd) : Work (List Nat) := do
  let l ← readRange c 2 0 (blk c.block 2) (4 * blkDv c.block)
  pure (quads l)

/-- Score gradient j of a `kbwd` as the row gives it, with its flags and the pair's weight (R228). -/
def kbwdOne (c : EngineCmd) (j : Nat) : Work (Nat × BitVec 8 × Nat) := do
  let q ← (kbwdPair c j).both (kbwdGrd c)
  let row ← valueRow c 3 4 j q.1.1
  let g := kbwdScore q.2 row
  pure (g.1, g.2.fl, q.1.2)

/-- Record j of a `kbwd` is written; its flags (R228). -/
def kbwdPut (c : EngineCmd) (j : Nat) : Work (BitVec 8) := do
  let q ← (kbwdPair c j).both (kbwdGrd c)
  let r := kbwdRecord q.1.1 q.1.2 q.2 Rs.rne
  writeRange c 5 (1 + j) (blk c.block 5 + j * kbwdSize (blkDv c.block)) r.1
  pure r.2.fl

/-- The score gradients of a `kbwd` are written: under softmax when all are known, else each word once its own are; their
flags (R228). -/
def kbwdScoresOut (c : EngineCmd) : Work (BitVec 8) := do
  let b := c.block
  let n := blkK b
  if blk0 b 44 44 = 1 then do
    let l ← Work.all ((List.range n).map (kbwdOne c))
    let out := kbwdScores (l.map (·.2.2)) (l.map (·.1)) { Rs.rne with fl := orFlags (l.map (·.2.1)) }
    writeRange c 6 0 (blk b 6) (bytes32 out.1)
    pure out.2.fl
  else do
    let l ← Work.all ((pieces (blk b 6) (4 * n)).map (fun q => do
      let g ← Work.all ((List.range (q.2 / 4)).map (fun i => kbwdOne c (q.1 / 4 + i)))
      writeAt c 6 0 (blk b 6) q.1 (bytes32 (g.map (·.1)))
      pure (orFlags (g.map (·.2.1)))))
    pure (orFlags l)

/-- A `kbwd` command, whole (R228): its accesses have no order but that of the data, and one of its pairs whose index does not
exist ends it, with what it has written by then (R225). -/
def kbwdWork (c : EngineCmd) : Work Word := do
  let l ← (Work.all ((List.range (blkK c.block)).map (kbwdPut c))).both (kbwdScoresOut c)
  pure (engineStatus 0 (orFlags l.1 ||| l.2) 0)

/-! ## gat (R229) -/

/-- A row scaled by its weight, with the activation (R229). -/
def gatRow (act w : Nat) (row : List Num) (r : Rs) : List Nat × Rs :=
  row.foldl (fun q v =>
    let x := r32 q.2 (invalid (Num.mul (n32 w) v))
    let y := activation act x.1 x.2
    (q.1 ++ [y.1], y.2)) (([] : List Nat), r)

/-- Index r of a `gat` with its weight and its row; none for an index at or above NR (R229). -/
def gatItem (c : EngineCmd) (r : Nat) : Work (Option (Nat × List Num)) := do
  let b := c.block
  let n := blk0 b 16 0 + 1
  let q ← (readPart c 1 0 (blk b 1) (4 * n) (4 * r) 4).both
    (if blk0 b 44 44 = 1 then pure (bytes32 [0x3F800000]) else readPart c 2 0 (blk b 2) (4 * n) (4 * r) 4)
  if leNat q.1 < blk b 6 then do
    let row ← valueRow c 3 4 r (leNat q.1)
    pure (some (leNat q.2, row))
  else pure none

/-- Row r of a `gat` with BR set is written on its own; its flags (R229). -/
def gatPut (c : EngineCmd) (r : Nat) : Work (Option (BitVec 8)) := do
  let b := c.block
  match (← gatItem c r) with
  | none => pure none
  | some e => do
    let o := gatRow (blk0 b 42 38) e.1 e.2 Rs.rne
    writeRange c 5 (1 + r) (blk b 5 + r * (64 * ceilDiv (4 * blkDv b) 64)) (bytes32 o.1)
    pure (some o.2.fl)

/-- A `gat` command, whole (R229): an index at or above NR is counted and reads no row. -/
def gatWork (c : EngineCmd) : Work Word := do
  let b := c.block
  let n := blk0 b 16 0 + 1
  if blk0 b 43 43 = 1 then do
    let l ← Work.all ((List.range n).map (gatPut c))
    pure (engineStatus (l.filter (·.isNone)).length (orFlags (l.filterMap id)) 0)
  else do
    let l ← Work.all ((List.range n).map (gatItem c))
    let items := l.filterMap id
    let out := sumRows (blkDv b) (blk0 b 42 38) (items.map (·.1)) (items.map (·.2)) Rs.rne
    writeRange c 5 0 (blk b 5) (bytes32 out.1)
    pure (engineStatus (n - items.length) out.2.fl 0)

/-! ## Execution and completion (R225, R295) -/

/-- The status of a command that fails: the FLAGS raised so far are not stated, and are a free value (log 26). -/
def State.failStatus (s : State) (info : Nat) (cause : BitVec 8) : Word × State :=
  let (i, s) := s.draw
  (engineStatus info ((Config.unstated i).setWidth 8) cause.toNat, s)

/-- A command's completion store goes out, and counts in s.oac (R50, R225). -/
def State.postCompletion (s : State) (c : EngineCmd) (st : Word) : State :=
  ((s.noteProgress c.hq).modCore c.core (fun x => { x with oac := x.oac + 1 })).post
    (.engineCompletion { core := c.core, slot := c.slot, hq := c.hq, comp := c.comp, status := st, issued := c.issued })

/-- The causes with which a member's access of another module may fail (R225, R231). -/
def remoteCause (i : Nat) : BitVec 8 := if i % 3 = 0 then 0x05 else if i % 3 = 1 then 0x06 else 0x0C

/-- What another module's member supplies: free bytes, or a failure of any of its accesses (R231, R275, R392). -/
def State.askRemote (s : State) (a : Ask) (mod : Nat) (r : Run) : Run × State :=
  if !s.hub.reaches (hubOf (dieOfCore a.core)) mod then (r.answer a.key (.error 0x06), s)
  else
    let (i, s) := s.draw
    if Config.outsideOk i then
      let (l, s) := (List.range ((a.n + 7) / 8)).foldl (fun (q : List Byte × State) _ =>
        let (j, s) := q.2.draw
        (q.1 ++ leList 8 (Config.outsideWord j).toNat, s)) ([], s)
      (r.answer a.key (.ok (l.take a.n)), s)
    else
      let (j, s) := s.draw
      let v := (Config.outsideWord j).toNat
      ({ r with fails := r.fails ++ [(remoteCause (v / 8), a.key.tag / 256 * 256 + (2 + v % 8 % 4))] }, s)

/-- The home of an access that work wants, where it has one by now. -/
def State.askHome (s : State) (a : Agent) (x : Ask) : Xlate × State :=
  let n : Need := if x.write.isSome then .write else .read
  match x.home with
  | some h => (.home h, s)
  | none => s.seek x.core a x.hq n (BitVec.ofNat 64 x.va)

/-- An agent sends one of the accesses that its work wants, of a free choice (R278): its address is translated first. -/
def State.sendAsk (s : State) (a : Agent) (l : List Ask) : State :=
  let r := s.run a
  let (i, s) := s.draw
  match l[Config.pick i % l.length]? with
  | none => s
  | some x =>
    let again (s : State) : State := s.stepAgent a
    match x.remote with
    | some m =>
      let (r, s) := s.askRemote x m { r with sent := r.sent ++ [x.key] }
      again (s.setRun a r)
    | none =>
      match s.askHome a x with
      | (.fault c, s) => again (s.setRun a { r with fails := r.fails ++ [(c, x.key.tag)] })
      | (.miss _, s) => if 1 < l.length then again s else s
      | (.home h, s) =>
        let s := s.setRun a { r with sent := r.sent ++ [x.key], out := r.out ++ [x.key] }
        let s := s.sendAgent x.core a x.hq (match x.write with
          | some bs => .agentWrite a x.key bs
          | none => .agentRead a x.key x.n) h (BitVec.ofNat 64 x.va)
        if 1 < l.length then again s else s

/-- What the work of an agent comes to now. -/
inductive Progress (α : Type)
  | more (s : State)
  | ended (r : Except (List (BitVec 8 × Nat)) α) (s : State)

/-- An agent's work goes one step further: it ends with its result, ends with its failures once nothing is on its way, or
sends an access (R225, R278). -/
def State.workOn {α : Type} (s : State) (a : Agent) (w : Work α) : Progress α :=
  let r := s.run a
  let q := w.result r
  let r := match q.1 with
    | .error (.fail c i) => if r.fails.isEmpty then { r with fails := [(c, i)] } else r
    | _ => r
  let s := s.setRun a r
  if !r.fails.isEmpty then (if r.out.isEmpty then .ended (.error r.fails) (s.endRun a) else .more s)
  else
    match q.1 with
    | .ok st => .ended (.ok st) (s.endRun a)
    | .error _ =>
      let l := q.2.filter (fun x => !r.sent.contains x.key)
      .more (if l.isEmpty then s else s.sendAsk a l)

/-- The unit's command has ended: its completion store goes out, and the next command of the queue follows (R225, R295). -/
def State.endCommand (s : State) (stack : Nat) (c : EngineCmd) (l : List EngineCmd) (st : Word) : State :=
  let s := (s.setKlu stack l).postCompletion c st
  match l with
  | d :: _ => s.post (engineStep d stack)
  | [] => s

/-- The head of a stack's queue goes on, if it is of the given kind (R295). A frozen queue's command that has not started
ends with 0x10 (R335). -/
def State.runStack (s : State) (stack : Nat) (o : EngineOp) (w : EngineCmd → Work Word) : State :=
  match s.klu stack with
  | c :: l =>
    if c.op = o then
      if (s.hw c.hq).st = .frozen ∧ ¬ s.runs.any (fun e => e.1 == .stack stack) then s.endCommand stack c l 0x10
      else
        match s.workOn (.stack stack) (w c) with
        | .more s => s
        | .ended (.ok st) s => s.endCommand stack c l st
        | .ended (.error f) s =>
          let e := f.headD (0, 0)
          let (st, s) := s.failStatus e.2 e.1
          s.endCommand stack c l st
    else s
  | [] => s

/-- KLU_EXECUTE (R227). -/
def execKluExecute (stack : Nat) (s : State) : Answer := .next (s.runStack stack .klu kluWork)

/-- KBWD_EXECUTE (R228). -/
def execKbwdExecute (stack : Nat) (s : State) : Answer := .next (s.runStack stack .kbwd kbwdWork)

/-- GAT_EXECUTE (R229). -/
def execGatExecute (stack : Nat) (s : State) : Answer := .next (s.runStack stack .gat gatWork)

/-- The completion store of an engine as a request: it names no run, and counts in s.oac until it has performed (R225). -/
def completionRequest (c : Completion) (cyc : Nat) : Request :=
  { core := c.core, slot := c.slot, hq := c.hq, seq := 0, cls := .engine, op := .complete (.stack 0) c.status, home := c.comp,
    va := 0, pc := 0, data := 0, expected := 0, dst := .nul, unit := false, attempts := 0, sent := cyc, issued := c.issued }

/-- ENGINE_COMPLETION (R225): the status goes to the completion word's home, where the word is set full. -/
def execEngineCompletion (c : Completion) (s : State) : Answer :=
  .next (
    let r := completionRequest c (s.cycle c.core)
    match r.home with
    | .host _ => s.post (.hostPageAccess r)
    | _ => s.arrive r)

/-! ## coll (R230, R231, R378) -/

/-- A member of a group: the die of its engine, or another module. -/
inductive Member
  | die (d : Nat)
  | remote (mod : Nat)
  deriving DecidableEq, Repr

/-- The members of a group in rank order, and whether no reserved bit of its entry is set (R378). -/
def State.groupMembers (s : State) (die grp : Nat) : List Member × Bool :=
  let e := s.groupEntry die grp
  let w0 := s.tableWord e
  let ms := s.tableWords (s.tableWord (e + 8)).toNat (w0.toNat / 2 ^ 32 % 2 ^ 16 + 1)
  let clean := decide (w0.toNat / 2 ^ 48 % 2 ^ 15 = 0) && decide (w0.toNat / 2 ^ 16 % 2 ^ 16 = 0) &&
    (s.tableWords (e + 16) 6).all (fun w => w == 0) &&
    ms.all (fun m => decide (m.toNat / 2 ^ 56 % 2 ^ 7 = 0) && decide (m.toNat / 2 ^ 3 % 2 ^ 45 = 0))
  (ms.map (fun m => if m.getLsbD 63 then .remote (m.toNat / 2 ^ 48 % 2 ^ 8) else .die (m.toNat % 8)), clean)

/-- The reads of a group's entry and of its list are counted for their frames (R366). -/
def State.chargeGroup (s : State) (die grp : Nat) : State :=
  let e := s.groupEntry die grp
  (List.range ((s.tableWord e).toNat / 2 ^ 32 % 2 ^ 16 + 1)).foldl
    (fun s i => s.chargeTable ((s.tableWord (e + 8)).toNat + 8 * i)) (s.chargeTable e)

/-- The rank of a die in a group, as its own table's entry states it (R378). -/
def State.groupRank (s : State) (die grp : Nat) : Nat := (s.tableWord (s.groupEntry die grp)).toNat % 2 ^ 16

/-- The waiting command of a die that matches a group and a tag. -/
def State.collAt (s : State) (d grp tag : Nat) : Option EngineCmd :=
  (s.die d).coll.find? (fun c => collGrp c.block == grp && collTag c.block == tag)

/-- A waiting command leaves its die's queue and completes (R230). -/
def State.collDone (s : State) (d : Nat) (c : EngineCmd) (st : Word) : State :=
  (s.modDie d (fun x => { x with coll := x.coll.erase c })).postCompletion c st

/-- A member's command, where it is in this module. -/
def State.memberCmd (s : State) (grp tag : Nat) (m : Member) : Option EngineCmd :=
  match m with
  | .die d => s.collAt d grp tag
  | .remote _ => none

/-- A member as the engines work with it: its place in the list, its rank, its command, or the module it is on. -/
structure Part where
  place : Nat
  rank : Nat
  cmd : Option EngineCmd
  mod : Nat
  deriving DecidableEq, Repr

/-- The members of a group as they take part in a collective: a die's rank is the one its own table states, another module's
is its place in the list (R378). -/
def State.collParts (s : State) (grp tag : Nat) (ms : List Member) : List Part :=
  ((List.range ms.length).zip ms).map (fun e =>
    match e.2 with
    | .die d => { place := e.1, rank := s.groupRank d grp, cmd := s.collAt d grp tag, mod := 0 }
    | .remote m => { place := e.1, rank := e.1, cmd := none, mod := m })

/-- INFO of a member's block word (R231). -/
def collInfo (m : Part) (w : Nat) : Nat := m.rank * 256 + w

/-- The bytes a member supplies from a block word's address; `c` is the command that the engines share. -/
def memberBytes (c : EngineCmd) (m : Part) (w n : Nat) : Work (List Byte) :=
  match m.cmd with
  | some d => readRange d (collInfo m w) (2 * m.place) (blk d.block w) n
  | none => readRemote c (collInfo m w) (2 * m.place) m.mod n

/-- Element i that one member adds to a `.sum`: a word, and whether it is invalid (R87, R231). Another module's member adds words
and a count of its own, at most N. -/
def memberElement (c : EngineCmd) (i : Nat) (m : Part) : Work (Word × Nat) := do
  let f := collFmt c.block
  let n := collN c.block
  let w := fmtBytes f
  match m.cmd with
  | none => do
    let q ← (readRemote c (collInfo m 2) (2 * m.place) m.mod (8 * n)).both
      (readRemote c (collInfo m 4) (2 * m.place) m.mod 8)
    pure ((wordsOfBytes q.1).getD i 0, if i = 0 then leNat q.2 % (n + 1) else 0)
  | some d => do
    let q ← (readPart d (collInfo m 2) (2 * m.place) (blk d.block 2) (n * w) (w * i) w).both
      (if f = 3 ∨ f = 4 then readPart d (collInfo m 5) (2 * m.place) (blk d.block 5) (2 * ceilDiv n 64) (2 * (i / 64)) 2
        else pure [])
    let v := leNat q.1
    match gridPart (if f = 3 ∨ f = 4 then scaledValue f v (leNat q.2) else (fmtDecode f v).1)
        ((BitVec.ofNat 11 (blk0 c.block 27 17)).toInt) with
    | some x => pure (BitVec.ofInt 64 x, 0)
    | none => pure (0, 1)

/-- The words of a `.topk`: the pairs that rank first, and the padding (R231). -/
def collTop (k : Nat) (l : List Word) : List Word :=
  let best := topK k (l.map (fun (w : Word) => ((w.setWidth 32 : BitVec 32), ((w >>> 32).setWidth 32 : BitVec 32))))
  let ws := best.map (fun e => (e.2 ++ e.1 : Word))
  ws ++ List.replicate (k - ws.length) topkPad

/-- What the members add to element i of a `.sum` (R231). -/
def elementParts (c : EngineCmd) (ms : List Part) (i : Nat) : Work (List (Word × Nat)) := Work.all (ms.map (memberElement c i))

/-- The invalid count of a `.sum` over all members (R231). -/
def invalidCount (c : EngineCmd) (ms : List Part) : Work Nat := do
  let l ← Work.all ((List.range (collN c.block)).map (elementParts c ms))
  pure (l.flatten.map (·.2)).sum

/-- Adds the invalid count to the word at CNT of a member that names one (R231). -/
def memberCount (c : EngineCmd) (ms : List Part) (m : Part) : Work Unit :=
  match m.cmd with
  | none => pure ()
  | some d =>
    if blk d.block 4 = 0 then pure ()
    else do
      let q ← (readRange d (collInfo m 4) (2 * m.place) (blk d.block 4) 8).both (invalidCount c ms)
      writeRange d (collInfo m 4) (2 * m.place + 1) (blk d.block 4) (leList 8 (leNat q.1 + q.2))

/-- Writes bytes at a member's DST, from byte `o` on; another module's member writes its own, and only has to be reached (R231,
R392). -/
def memberWrite (c : EngineCmd) (m : Part) (o : Nat) (bs : List Byte) : Work Unit :=
  match m.cmd with
  | some d => writeAt d (collInfo m 3) (2 * m.place) (blk d.block 3) o bs
  | none => do
    let _ ← readRemote c (collInfo m 3) (2 * m.place) m.mod 0
    pure ()

/-- Writes bytes at every member's DST, from byte `o` on. -/
def writeAll (c : EngineCmd) (ms : List Part) (o : Nat) (bs : List Byte) : Work Unit := do
  let _ ← Work.all (ms.map (fun m => memberWrite c m o bs))
  pure ()

/-- The bytes `o` to `o + 7` of the N that a member supplies at its SRC. -/
def memberWord (c : EngineCmd) (m : Part) (n o : Nat) : Work (List Byte) :=
  match m.cmd with
  | some d => readPart d (collInfo m 2) (2 * m.place) (blk d.block 2) n o 8
  | none => do
    let l ← readRemote c (collInfo m 2) (2 * m.place) m.mod n
    pure ((l.drop o).take 8)

/-- The member of a rank. -/
def partOf (ms : List Part) (rank : Nat) : Option Part := ms.find? (·.rank == rank)

/-- Member m's bytes go to the root's DST + r N, word by word (R231). -/
def gatherOne (c : EngineCmd) (root : Option Part) (n : Nat) (m : Part) : Work Unit := do
  let _ ← Work.all ((List.range (n / 8)).map (fun i => do
    let l ← memberWord c m n (8 * i)
    match root with
    | some r => memberWrite c r (m.rank * n + 8 * i) l
    | none => pure ()))
  pure ()

/-- A collective, whole (R231). `c` is the command that the members agree on. -/
def collWork (o : CollOp) (c : EngineCmd) (ms : List Part) : Work Word := do
  let n := collN c.block
  match o with
  | .sum => do
    let sums := Work.all ((List.range n).map (fun i => do
      let l ← elementParts c ms i
      writeAll c ms (8 * i) (leList 8 ((l.map (·.1)).foldl (· + ·) 0 : Word).toNat)))
    let _ ← sums.both (Work.all (ms.map (memberCount c ms)))
  | .topk => do
    let l ← Work.all (ms.map (fun m => memberBytes c m 2 (8 * n)))
    writeAll c ms 0 ((collTop (blk0 c.block 16 12 + 1) (l.flatMap wordsOfBytes)).flatMap (fun w => leList 8 w.toNat))
  | .bcast =>
    match partOf ms (collRoot c.block) with
    | some m => do
      let _ ← Work.all ((List.range (n / 8)).map (fun i => do
        let bs ← memberWord c m n (8 * i)
        writeAll c ms (8 * i) bs))
    | none => pure ()
  | .gather => do
    let _ ← Work.all (ms.map (gatherOne c (partOf ms (collRoot c.block)) n))
  pure 0

/-- Two commands agree in op, FMT, ANC, K, ROOT and N (R230). -/
def collAgree (a b : EngineCmd) : Bool := a.op == b.op && blk a.block 0 == blk b.block 0 && blk a.block 1 == blk b.block 1

/-- Every member's command has come; those of other modules come when they come. -/
def State.collReady (s : State) (grp tag : Nat) (ms : List Member) : Bool :=
  ms.all (fun m =>
    match m with
    | .die d => (s.collAt d grp tag).isSome
    | .remote _ => true)

/-- Completes the command of every local member with a status (R231). -/
def State.collFinish (s : State) (grp tag : Nat) (ms : List Member) (st : Word) : State :=
  ms.foldl (fun s m =>
    match m with
    | .die d =>
      match s.collAt d grp tag with
      | some c => s.collDone d c st
      | none => s
    | .remote _ => s) s

/-- The die whose engine leads a collective: that of the first member in this module. -/
def collLead (die : Nat) (ms : List Member) : Nat :=
  (ms.findSome? (fun m =>
    match m with
    | .die d => some d
    | .remote _ => none)).getD die

/-- The failure of the lowest rank (R231). -/
def lowestRank (l : List (BitVec 8 × Nat)) : BitVec 8 × Nat :=
  l.foldl (fun b e => if e.2 / 256 < b.2 / 256 then e else b) (l.headD (0, 0))

/-- The collective of an operation. -/
def collOp (c : EngineCmd) : CollOp :=
  match c.op with
  | .coll o => o
  | _ => .sum

/-- The members' commands agree and run (R231): the work goes one step further, and its end completes them all, those of a
`.gather` too, of which R231 says that a member's completes with its own data and that a failure of any member completes all.
DESIGN CHOICE (log 62). -/
def State.collRun (s : State) (grp tag lead : Nat) (c : EngineCmd) (ms : List Member) : State :=
  match s.workOn (.coll lead grp tag) (collWork (collOp c) c (s.collParts grp tag ms)) with
  | .more s => s
  | .ended (.ok st) s => s.collFinish grp tag ms st
  | .ended (.error f) s =>
    let e := lowestRank f
    let (st, s) := s.failStatus e.2 e.1
    s.collFinish grp tag ms st

/-- The members of a group that lie in other modules. -/
def remoteMembers (ms : List Member) : List Nat :=
  ms.filterMap (fun m =>
    match m with
    | .remote n => some n
    | .die _ => none)

/-- The commands of a group's members in this module have met: they agree or not, and run. Those of members in other modules have
come or not, and agree or not: free values (R230; log 28). -/
def State.collMeet (s : State) (grp tag die lead : Nat) (c : EngineCmd) (ms : List Member) : State :=
  if !(ms.filterMap (s.memberCmd grp tag)).all (collAgree c) then s.collFinish grp tag ms (engineStatus 1 0 0x0F)
  else if (remoteMembers ms).isEmpty then s.collRun grp tag lead c ms
  else
    let (i, s) := s.draw
    if !Config.outsideOk i then s.postOnce (.collExecute grp tag die)
    else
      let (j, s) := s.draw
      if Config.outsideOk j then s.collRun grp tag lead c ms else s.collFinish grp tag ms (engineStatus 1 0 0x0F)

/-- COLL_EXECUTE (R230, R231): the command of a die meets those of its group's members. One of a frozen queue that has not
started ends with 0x10 (R335), and one with a member that cannot be reached with 0x06 (R392). -/
def execCollExecute (grp tag die : Nat) (s : State) : Answer :=
  .next (
    match s.collAt die grp tag with
    | none => s
    | some c =>
      let (ms, clean) := s.groupMembers die grp
      let lead := collLead die ms
      if s.runs.any (fun e => e.1 == .coll lead grp tag) then s.collRun grp tag lead c ms
      else
        let s := s.chargeGroup die grp
        if (s.hw c.hq).st = .frozen then s.collDone die c 0x10
        else if !clean then s.collDone die c (engineStatus 3 0 0x0F)
        else if (collOp c = .bcast ∨ collOp c = .gather) ∧ ms.length ≤ collRoot c.block then
          s.collDone die c (engineStatus 4 0 0x0F)
        else if !(remoteMembers ms).all (s.hub.reaches (hubOf die)) then s.collDone die c (engineStatus 0 0 0x06)
        else if !s.collReady grp tag ms then s
        else s.collMeet grp tag die lead c ms)

/-- A command of a die's collective engine has started: the members have met (R231). -/
def State.collStarted (s : State) (die : Nat) (c : EngineCmd) : Bool :=
  let grp := collGrp c.block
  s.runs.any (fun e => e.1 == .coll (collLead die (s.groupMembers die grp).1) grp (collTag c.block))

/-- GABORT (R378): the waiting commands of a group on a die complete. -/
def execGabort (die : Nat) (grp : BitVec 8) (s : State) : Answer :=
  .next (
    let s := s.modDie die (fun d => { d with gabort := grp })
    ((s.die die).coll.filter (fun c => collGrp c.block == grp.toNat && !s.collStarted die c)).foldl
      (fun s c => s.collDone die c (engineStatus 2 0 0x0F)) s)

end Sys2Proof.Machine
end

