-- ==== Sys2Proof/Machine/Sharing.lean ====
section
/-! DEFINITION. The deque seen from outside the thread: continuations, cancels sent onward, read-back, steals, and the ends
of `reap` and `exit` (R143-R156). -/

namespace Sys2Proof.Machine

/-- The physical core at which a store stands now: after a move, the core its context went to (R337). -/
def State.storeAt (s : State) (q : Nat) : Nat :=
  match (s.core q).gone with
  | some (some d) => d
  | _ => q

/-- The cancel of a record has been sent onward and has performed: the completion store of the record that caused it is made,
and its `dec` or `cancel` is answered (R151). -/
def State.finishCancel (s : State) (parent : Option Request) : State :=
  match parent with
  | none => s
  | some r =>
    match r.home with
    | .ls q off => (s.cancelledAt (s.storeAt q) off).performed r 0 []
    | _ => s

/-- The cancel that a core makes for a record of its own store. -/
def onwardRequest (q off : Nat) (hq : BitVec 6) : Request :=
  { core := q, slot := 0, hq := hq, seq := 0, cls := .engine, op := .cancel, home := .ls q off, va := 0, pc := 0, data := 0,
    expected := 0, dst := .nul, unit := false, attempts := 0, sent := 0, issued := 0 }

/-- The page of a record's far-window address. -/
def recordPage (lcore off : Nat) : PageKey := .far lcore (off / 2 ^ 16)

/-- The core whose store a cancel reaches by a translation, which must let it read and write (R8, R151, R361). A cancel whose page
does not, or that meets a saved store, performs nowhere, and the record that caused it completes all the same. DESIGN CHOICE
(log 34). -/
def State.cancelHome (s : State) (off : Nat) (e : TlbEntry) : Option Nat :=
  match tlbHome e 0 0 .both off with
  | .home (.ls q _) => if (s.core (s.storeAt q)).gone.isSome then none else some (s.storeAt q)
  | _ => none

/-- The core that sends a cancel onward: the one at which the record that caused it stands. -/
def State.cancelFrom (s : State) (parent : Option Request) : Option Nat :=
  match parent with
  | some r => match r.home with
    | .ls q _ => some (s.storeAt q)
    | _ => none
  | none => none

/-- The walk that the HQS makes for a cancel of its own (R321, R361). -/
def State.cancelWalk (s : State) (lcore off : Nat) (hq : BitVec 6) : Work TlbEntry :=
  walkWork hq 0 0 (recordPage lcore off) 0 (s.walkRoot (recordPage lcore off))

/-- Where a cancel goes, once its page has been translated: a core's in the core's own buffer, the HQS's by a walk (R362). The
inner `none` is a cancel that performs nowhere. -/
def State.cancelFound (s : State) (lcore off : Nat) (hq : BitVec 6) (parent : Option Request) : Option (Option Nat) :=
  match s.cancelFrom parent with
  | some p =>
    match (s.core p).tlb.find? (tlbServes · (recordPage lcore off)) with
    | some e => some (s.cancelHome off e)
    | none => if (s.core p).noPage.contains (.onward p, recordPage lcore off) then some none else none
  | none =>
    match ((s.cancelWalk lcore off hq).result (s.run (.cancel lcore off hq))).1 with
    | .ok e => some (s.cancelHome off e)
    | .error _ =>
      let r := s.run (.cancel lcore off hq)
      match ((s.cancelWalk lcore off hq).result r).1 with
      | .error (.fail _ _) => some none
      | _ => if r.fails.isEmpty then none else some none

/-- A core asks its walker for the page of a cancel, or the HQS walks. -/
def State.cancelSeek (s : State) (lcore off : Nat) (hq : BitVec 6) (parent : Option Request) : State :=
  match s.cancelFrom parent with
  | some p => (s.askWalk p (recordPage lcore off) hq (.agent (.onward p))).post (.cancelPropagation lcore off hq parent)
  | none =>
    match s.workOn (.cancel lcore off hq) (s.cancelWalk lcore off hq) with
    | .more s => s
    | .ended _ s => s

/-- A cancel's translation is used up. -/
def State.cancelSought (s : State) (lcore off : Nat) (hq : BitVec 6) (parent : Option Request) : State :=
  match s.cancelFrom parent with
  | some p => (s.forget p (.onward p)).touch p hq (recordAddress (BitVec.ofNat 13 lcore) (BitVec.ofNat 14 (off / 8)))
  | none => s.endRun (.cancel lcore off hq)

/-- CANCEL_PROPAGATION (R150, R151, R335, R337, R338): the cancel performs on its record before the completion store of the
record that caused it. -/
def execCancelPropagation (lcore off : Nat) (hq : BitVec 6) (parent : Option Request) (s : State) : Answer :=
  .next (
    match s.cancelFound lcore off hq parent with
    | none => s.cancelSeek lcore off hq parent
    | some none => (s.cancelSought lcore off hq parent).finishCancel parent
    | some (some q) =>
      let s := s.cancelSought lcore off hq parent
      match (s.useBanks q 2 off 8).recordStep true q off hq 1 with
      | .done s => s.finishCancel parent
      | .full => s.finishCancel parent
      | .onward s l o => (s.finishCancel parent).post (.cancelPropagation l o hq (some (onwardRequest q off hq))))

/-- The position of the push that goes first: a continuation before a launch entry (R146). -/
def firstPush (l : List PushWait) : Nat := (l.findIdx? (·.cause.isSome)).getD 0

/-- The first waiting push of a core can be made: an entry is free for it, or it needs none (R145, R150). -/
def State.pushReady (s : State) (p : Nat) : Bool :=
  let c := s.core p
  match c.pushes[firstPush c.pushes]? with
  | none => false
  | some w =>
    match w.cause with
    | none => c.dequeRoom
    | some r => match r.home with
      | .ls _ off => match s.recordStep (r.op == .cancel) p off r.hq 1 with
        | .full => false
        | _ => true
      | _ => true

/-- CONTINUATION_PUSH (R145, R150): the push that goes first is made once it can be. -/
def execContinuationPush (p : Nat) (s : State) : Answer :=
  .next (
    let c := s.core p
    let i := firstPush c.pushes
    match c.pushes[i]? with
    | none => s
    | some w =>
      if s.pushReady p then
        let s := s.setCore p { c with pushes := c.pushes.eraseIdx i }
        let s := match w.cause with
          | none => s.pushBottom p w.entry 1
          | some r =>
            match r.home with
            | .ls _ off =>
              let (done, s) := s.recordPerform r p off 1
              if done then s.performed r 0 [] else s
            | _ => s
        if (s.core p).pushes.isEmpty then s else s.post (.continuationPush p)
      else s)

/-- DEQUE_READBACK (R143, R332): the spilled entry nearest the hardware part is read from the spill area, in the class of its
queue; entries come back one at a time until the hardware part holds 16. DESIGN CHOICE (log 39). -/
def execDequeReadback (p : Nat) (s : State) : Answer :=
  .next (
    let c := s.core p
    match c.spillAt.getLast?, c.deque[c.spilled - 1]? with
    | some i, some e =>
      if c.readsBack ∧ c.reading.isNone ∧ c.spilling.isNone then
        (s.setCore p { c with reading := some i }).post (.homePerform { agentRequest p e.hq
          (.agentRead (.back p) { tag := 0, idx := i, off := 0 } 64) (.dev (c.spillAddress i)) 0 with
          sent := s.cycle p, issued := s.cycle p })
      else s
    | _, _ => s)

/-- STEAL_REQUEST (R153, R338): the victim removes its topmost entry of the queue, or answers none. -/
def execStealRequest (p victim : Nat) (hq : BitVec 6) (s : State) : Answer :=
  .next (
    let q := s.storeAt (s.physical victim)
    let c := s.core q
    if c.gone.isSome then s.post (.stealReply p none)
    else
      match topMost c.deque hq with
      | none => s.post (.stealReply p none)
      | some i =>
        let (e, s) := s.takeEntry q i
        s.post (.stealReply p e))

/-- The answer of a steal is no longer outstanding (R50, R342). -/
def State.stealAnswered (s : State) (p : Nat) : State :=
  (s.modCore p (fun c => { c with oac := c.oac - 1 })).modSlot p 0 (fun t => { t with out := t.out.eraseP (·.kind == .steal) })

/-- STEAL_REPLY (R152): `take` completes. A task of a frozen queue is cancelled on its way (R335). A task that comes when slot 0 no
longer waits for it is pushed at the bottom of the thief's deque. DESIGN CHOICE (log 39). -/
def execStealReply (p : Nat) (e : Option TaskEntry) (s : State) : Answer :=
  .next (
    let s := s.stealAnswered p
    let frozen := e.filter (fun t => (s.hw t.hq).st == .frozen)
    let s := frozen.toList.foldl State.cancelTask s
    match (s.slot p 0).wait, (if frozen.isSome then none else e) with
    | .steal n _ d, some e =>
      ((s.modCore p (fun c => { c with latchTask := some e })).result p 0 d (takeWord 1 n e.pc.toNat)).goOn p 0
    | .steal n _ d, none => (s.result p 0 d (takeWord 2 n 0)).goOn p 0
    | _, some e => s.pushBottom p e 1
    | _, none => s)

/-- REAP_COMPLETE (R155, R318): the slot's answers have come, and a tree instruction of it has made its writes. -/
def execReapComplete (p : Nat) (s : State) : Answer :=
  .next (
    match (s.slot p 0).wait with
    | .reap n d => if (s.slot p n).out.isEmpty ∧ ¬ (s.slot p n).inTree then (s.reapDone p n d).goOn p 0 else s
    | _ => s)

/-- What an `exit` waits for has come: stage 8, the relaxed accesses, its `cld` (R156, R196). -/
def State.mayExit (s : State) (p n till : Nat) : Bool :=
  let t := s.slot p n
  decide (till ≤ s.cycle p) && t.relaxedOut.isEmpty && (s.core p).tileOf n == none && t.late.isEmpty

/-- EXIT_COMPLETE (R156). -/
def execExitComplete (p n : Nat) (s : State) : Answer :=
  .next (
    match (s.slot p n).wait with
    | .exit till => if ((s.slot p n).st = .active ∨ (s.slot p n).st = .stopped) ∧ s.mayExit p n till then s.emptySlot p n else s
    | _ => s)

end Sys2Proof.Machine
end

