-- ==== Sys2Proof/Machine/Queues.lean ====
section
/-! DEFINITION. The hardware queue scheduler: user queues, hardware slots, launches, freezing (21_scheduler.md,
R321-R335). -/

namespace Sys2Proof.Machine

/-! ## Descriptors (R321) -/

/-- A word of device-physical memory as the HQS reads it; a refused read gives 0 (not stated; log 27). -/
def State.physWord (s : State) (pa : Nat) : Word := if (s.readRefuses pa).isSome then 0 else s.word pa

def State.descAddress (s : State) (u : Nat) : Nat := s.hub.qtb.toNat / 64 * 64 + 64 * u

/-- A word of a descriptor as it stands in its memory. -/
def State.descRaw (s : State) (u w : Nat) : Word := s.physWord (s.descAddress u + 8 * w)

/-- A word of a descriptor as the HQS reads it; one whose sector fails its ECC or its tag twice is a refused read (R369, R393). -/
def State.descWord (s : State) (u w : Nat) : Word := if s.hub.descLost.contains u then 0 else s.descRaw u w

/-- The HQS's reads of a descriptor in one step are over: a failure that they met is past. -/
def State.descRead (s : State) (u : Nat) : State :=
  if s.hub.descLost.contains u then s.modHub (fun h => { h with descLost := h.descLost.erase u }) else s

/-- Bits [hi:lo] of a word. -/
def field (v : Word) (hi lo : Nat) : Nat := v.toNat / 2 ^ lo % 2 ^ (hi - lo + 1)

/-- The HQS's access to a word of a descriptor takes the queue's class (R321, R332). -/
def State.chargeDesc (s : State) (u w : Nat) (write : Bool) : State :=
  let pa := s.descAddress u + 8 * w
  if (s.sliceRefuses pa).isSome then s else s.chargeSlice (field (s.descRaw u 3) 53 52) write pa

/-- The HQS writes a word of a descriptor. -/
def State.setDesc (s : State) (u w : Nat) (v : Word) : State :=
  let pa := s.descAddress u + 8 * w
  if (s.sliceRefuses pa).isSome then s else (s.chargeDesc u w true).setWord pa v

/-- STATE alone, or STATE with FCAUSE (R321). -/
def State.setQueueState (s : State) (u st : Nat) : State :=
  s.setDesc u 5 (BitVec.ofNat 64 (st * 2 ^ 56 + (s.descRaw u 5).toNat % 2 ^ 56))
def State.setQueueFrozen (s : State) (u : Nat) (fc : BitVec 8) : State :=
  s.setDesc u 5 (BitVec.ofNat 64 (2 * 2 ^ 56 + fc.toNat * 2 ^ 48 + (s.descRaw u 5).toNat % 2 ^ 48))

def State.queueRd (s : State) (u : Nat) : BitVec 32 := (s.descWord u 1).setWidth 32
def State.queueWr (s : State) (u : Nat) : BitVec 32 := (s.descWord u 2).setWidth 32

/-- A descriptor the HQS accepts when it maps the queue (R321). -/
def State.descOk (s : State) (u : Nat) : Bool :=
  let w := s.descWord u
  field (w 0) 11 0 == 0 && decide (6 ≤ field (w 1) 63 59) && decide (field (w 1) 63 59 ≤ 20) && field (w 1) 58 32 == 0 &&
  field (w 2) 63 32 == 0 && field (w 3) 63 56 != 0 && field (w 3) 51 0 == 0 && field (w 5) 47 0 == 0 &&
  field (w 6) 63 32 == 0 && (w 7) == 0

/-! ## The work count (R323) -/

/-- Entries of a list of tasks that belong to a queue. -/
def countHq (l : List TaskEntry) (q : BitVec 6) : Nat := (l.filter (·.hq == q)).length

/-- A core's part of a queue's work. The entries of a launch that wait for room are its tasks too; a continuation that waits
is none yet (R145). -/
def Core.work (c : Core) (q : BitVec 6) : Nat :=
  ((List.range 16).filter (fun n => decide (1 ≤ n) && (c.slot n).st != .empty && (c.slot n).hq == q)).length +
  countHq c.deque q + countHq c.latchTask.toList q + countHq ((c.pushes.filter (·.cause.isNone)).map (·.entry)) q +
  ((c.arrivals ++ c.heldArrivals).filter (·.hq == q)).length + (c.spilledArrivals.filter (· == q)).length

/-- Whether a step under way carries a queue's work: a packet in flight, or a stolen task. -/
def workInFlight (q : BitVec 6) (e : Instr) : Bool :=
  match e with
  | .arrival _ _ a => a.hq == q
  | .messageReoffer (.ctx _ _ a _) => a.hq == q
  | .stealReply _ (some t) => t.hq == q
  | _ => false

/-- Packets that forwarding entries hold. -/
def Core.forwardedWork (c : Core) (q : BitVec 6) : Nat := (c.forwards.filter (workInFlight q)).length

/-- The work count of a hardware slot (R323): saved contexts carry theirs with them. -/
def State.work (s : State) (q : BitVec 6) : Nat :=
  (s.cores.map (fun e => e.2.work q + e.2.forwardedWork q)).sum + (s.saved.map (fun e => e.2.core.work q)).sum +
    (s.due.filter (workInFlight q)).length

/-! ## Mapping and the quantum (R322-R325) -/

/-- The hardware slot a user queue is mapped to. -/
def State.slotOf (s : State) (u : Nat) : Option (BitVec 6) :=
  ((List.range 64).map (BitVec.ofNat 6)).find? (fun q => (s.hw q).st != .free && (s.hw q).uq == u)

def State.freeHw (s : State) : Option (BitVec 6) :=
  ((List.range 64).map (BitVec.ofNat 6)).find? (fun q => (s.hw q).st == .free)

/-- The next packet of a mapped slot is looked for; one look at a time. -/
def State.intake (s : State) (q : BitVec 6) : State :=
  if (s.hw q).st = .mapped ∧ (s.hw q).launch = none ∧ ¬ s.due.contains (.launchPacket q) ∧ ¬ s.due.contains (.nopPacket q) then
    s.post (.launchPacket q)
  else s

/-- A queue that is active and unmapped waits for a slot (R323). -/
def State.activate (s : State) (u : Nat) : State :=
  if s.hub.active.contains u then s
  else (s.modHub (fun h => { h with active := h.active ++ [u] })).post (.queueMap u)

/-- DOORBELL (R322). -/
def execDoorbell (u : Nat) (s : State) : Answer :=
  .next (
    let u := u % 65536
    let s := (s.modHub (fun h => { h with dbell := BitVec.ofNat 16 u })).chargeDesc u 2 false
    match s.slotOf u with
    | some q => s.intake q
    | none => (if s.queueWr u ≠ s.queueRd u then s.activate u else s).descRead u)

/-- A page of a hardware slot's address space. -/
def pageOfHq (k : PageKey) (q : BitVec 6) : Bool :=
  match k with
  | .dev h _ => h == q
  | .far _ _ => false

/-- Every core drops a hardware slot's translations, and a walk for one that is under way begins again (R362). -/
def State.dropHq (s : State) (q : BitVec 6) : State :=
  { s with cores := s.cores.map (fun e => (e.1, { e.2 with
      tlb := e.2.tlb.filter (fun t => !pageOfHq t.key q)
      walks := e.2.walks.map (fun w => if pageOfHq w.key q && w.level != 3 then { w with again := true } else w) })) }

/-! ## Freezing (R334, R335) -/

/-- The threads of a queue on a core, with the event that comes to each. -/
def Core.threadsOf (c : Core) (q : BitVec 6) : List Nat :=
  (List.range 16).filter (fun n => decide (1 ≤ n) && (c.slot n).st != .empty && (c.slot n).hq == q)

def cancelled : Late := { cause := 0x10, seq := 0, addr := 0, pc := 0, tile := 0 }

/-- Threads of the queue trap 0x10, and the HQS's cancel is owed to their records (R335). -/
def State.freezeThreads (s : State) (p : Nat) : List Nat → State
  | [] => s
  | n :: ns =>
    let s := s.modSlot p n (fun t => { t with owedDue := true })
    ((s.late p n cancelled).post (.freezeCancel p n)).freezeThreads p ns

/-- The positions of a queue's entries in a core's deque, from the bottom. -/
def Core.entriesOf (c : Core) (q : BitVec 6) : List Nat :=
  ((List.range c.deque.length).filter (fun i => (c.deque[i]?).any (·.hq == q))).reverse

/-- The entries at positions of a core's deque, from the bottom, are removed, and the record of each is cancelled (R335). -/
def State.freezeEntries (s : State) (p : Nat) : List Nat → State
  | [] => s
  | i :: l =>
    let q := s.takeEntry p i
    (q.1.toList.foldl State.cancelTask q.2).freezeEntries p l

/-- The tasks of a queue leave a core, and the record of each is cancelled; its arrivals are discarded (R335). -/
def State.freezeTasks (s : State) (p : Nat) (q : BitVec 6) : State :=
  let s := s.freezeEntries p ((s.core p).entriesOf q)
  let c := s.core p
  let gone := (c.latchTask.toList ++ (c.pushes.filter (·.cause.isNone)).map (·.entry)).filter (·.hq == q)
  let s := s.setCore p { c with
    latchTask := if (c.latchTask.map (·.hq)) = some q then none else c.latchTask
    pushes := c.pushes.filter (fun w => w.cause.isSome || w.entry.hq != q), arrivals := c.arrivals.filter (·.hq != q) }
  gone.foldl State.cancelTask s

/-- What a freeze does at one core; a context on its way is marked in its frozen mask (R335, R338). -/
def State.freezeCore (s : State) (p : Nat) (q : BitVec 6) : State :=
  if (s.core p).saving.isSome then s.modCore p (fun c => { c with frozen := c.frozen ||| BitVec.twoPow 64 q.toNat })
  else (s.freezeThreads p ((s.core p).threadsOf q)).freezeTasks p q

/-- Collective commands of a frozen queue that have not started complete with 0x10 (R335). -/
def State.freezeColl (s : State) (q : BitVec 6) : List Nat → State
  | [] => s
  | d :: ds =>
    (((s.die d).coll.filter (fun c => c.hq == q && !s.collStarted d c)).foldl (fun s c => s.collDone d c 0x10) s).freezeColl q ds

/-- Commands of a frozen queue on a stack that have not started complete with 0x10 (R335). -/
def State.freezeStack (s : State) (q : BitVec 6) (k : Nat) : State :=
  let l := s.klu k
  let n := if s.runs.any (fun e => e.1 == .stack k) then 1 else 0
  let gone := (l.drop n).filter (·.hq == q)
  if gone.isEmpty then s
  else
    let left := l.take n ++ (l.drop n).filter (·.hq != q)
    let s := gone.foldl (fun s c => s.postCompletion c 0x10) (s.setKlu k left)
    match left with
    | c :: _ => s.postOnce (engineStep c k)
    | [] => s

/-- The engine command of a queue that a step brings to its engine. -/
def commandOf (q : BitVec 6) (e : Instr) : Option EngineCmd :=
  match e with
  | .engineQueueAccept _ (.reaches c) => if c.hq = q then some c else none
  | _ => none

/-- Commands of a frozen queue on their way to their engines complete with 0x10 (R335). -/
def State.freezeOnWay (s : State) (q : BitVec 6) : State :=
  let gone := s.due.filterMap (commandOf q)
  gone.foldl (fun s c => s.postCompletion c 0x10) { s with due := s.due.filter (fun e => (commandOf q e).isNone) }

/-- A core's copy commands of a frozen queue that have not started are to complete with 0x10 when their turn comes (R181, R335). -/
def Core.freezeCopies (c : Core) (q : BitVec 6) : Core :=
  let n := if c.copyRun.isSome then 1 else 0
  { c with copyQueue := c.copyQueue.take n ++
      (c.copyQueue.drop n).map (fun d => if d.hq = q then { d with cancelled := true } else d) }

/-- The engine commands of a frozen queue that have not started complete with 0x10 (R335). -/
def State.freezeCommands (s : State) (q : BitVec 6) : State :=
  let s := { s with cores := s.cores.map (fun (e : Nat × Core) => (e.1, e.2.freezeCopies q)) }
  (((List.range 32).foldl (fun s k => s.freezeStack q k) s).freezeOnWay q).freezeColl q (List.range 8)

/-- A hardware slot is frozen (R334, R335). -/
def State.freezeSlot (s : State) (q : BitVec 6) (fc : BitVec 8) : State :=
  if (s.hw q).st = .mapped ∨ (s.hw q).st = .draining then
    let s := { s with due := s.due.erase (.quantumExpiry q) }.setQueueFrozen (s.hw q).uq fc
    let s := s.modHw q (fun h => { h with
      st := .frozen, launch := h.launch.map (fun l => if l.status = 0 then { l with status := 0x10 } else l) })
    let s := { s with saved := s.saved.map (fun (e : Nat × Saved) =>
      (e.1, { e.2 with core := { e.2.core with frozen := e.2.core.frozen ||| BitVec.twoPow 64 q.toNat } })) }
    ((s.cores.map (·.1)).foldl (fun s p => s.freezeCore p q) s).freezeCommands q
  else s

/-- The word of a command (R325). -/
def hcmdWord (op : Nat) (n : BitVec 6) (lcore dest : Nat) : Word :=
  BitVec.ofNat 64 (op * 2 ^ 60 + n.toNat * 2 ^ 54 + lcore % 2 ^ 13 * 2 ^ 41 + dest % 2 ^ 13 * 2 ^ 28)

/-- HCMD while a command runs (R325): the word that was written for it, of which the command uses the bits of a mask; a command
given by its operands alone is a write whose other fields are 0 (log 38). -/
def State.hcmdStart (s : State) (w mask : Word) : State :=
  s.modHub (fun h => { h with hcmd := if h.hcmd &&& mask = w &&& mask then h.hcmd else w })

/-- The bits of OP and HQ, of OP and CORE, and of OP, CORE and DEST. -/
def hcmdQueueMask : Word := 0xFFC0000000000000
def hcmdSaveMask : Word := 0xF03FFE0000000000
def hcmdCoreMask : Word := 0xF03FFFFFF0000000

/-- A command of a system core is done: OP reads 0, and the other fields keep what was written (R325). -/
def State.hcmdDone (s : State) : State := s.modHub (fun h => { h with hcmd := BitVec.ofNat 64 (h.hcmd.toNat % 2 ^ 60) })

/-- FREEZE (R325, R334, R335). -/
def execFreeze (n : BitVec 6) (fcause : BitVec 8) (s : State) : Answer :=
  .next (((s.hcmdStart (hcmdWord 1 n 0 0) hcmdQueueMask).freezeSlot n fcause).hcmdDone)

/-- FREEZE_CANCEL (R335): a trapped thread whose requests have been answered has its owed record cancelled. -/
def execFreezeCancel (p n : Nat) (s : State) : Answer :=
  .next (
    let t := s.slot p n
    match t.st, t.owed with
    | .trapped _, some (rc, rw) =>
      if t.owedDue ∧ t.out.isEmpty then
        (s.setSlot p n { t with owed := none, owedDue := false }).post
          (.cancelPropagation rc.toNat (rw.toNat * 8) t.hq none)
      else s
    | _, _ => s)

/-- WATCHDOG_EXPIRY (R334). -/
def execWatchdogExpiry (n : BitVec 6) (s : State) : Answer :=
  .next (
    if s.hub.wdog ≠ 0 ∧ (s.hw n).progress + 1024 * s.hub.wdog.toNat ≤ s.hub.cyc then
      if 0 < s.work n then s.freezeSlot n 3
      else if (s.hw n).launch.isSome then (s.modHw n (fun h => { h with progress := s.hub.cyc })).post (.watchdogExpiry n)
      else s
    else s)

/-! ## Slots that become free (R323, R324) -/

/-- QUEUE_MAP (R321, R323): the lowest free slot takes the queue; a bad descriptor freezes it. -/
def execQueueMap (u : Nat) (s : State) : Answer :=
  .next (
    match s.freeHw with
    | none => if s.hub.active.contains u then s.post (.queueMap u) else s
    | some q =>
      if s.hub.active.contains u then
        let w := s.descWord u
        let s := (List.range 8).foldl (fun s i => s.chargeDesc u i false) s
        let quantum := if field (w 6) 31 0 = 0 then 3000000 else field (w 6) 31 0
        let bad := !s.descOk u
        let s := (s.modHub (fun h => { h with active := h.active.erase u })).descRead u
        let s := s.setHw q { HwSlot.reset with
          st := .mapped, uq := u, ring := w 0, rlog := field (w 1) 63 59, rd := (w 1).setWidth 32,
          weight := field (w 3) 63 56, stl := BitVec.ofNat 2 (field (w 3) 55 54), cls := BitVec.ofNat 2 (field (w 3) 53 52),
          ptb := w 4, quantum := quantum, left := quantum, progress := s.hub.cyc }
        let s := s.dropHq q
        if bad then s.freezeSlot q 1 else ((s.setQueueState u 1).intake q).post (.quantumExpiry q)
      else s)

/-- A hardware slot becomes free: STATE 0, its quantum is over, and its queue is active if packets are left (R323). -/
def State.freeSlot (s : State) (q : BitVec 6) : State :=
  let u := (s.hw q).uq
  let s := (({ s with due := s.due.erase (.quantumExpiry q) }.setQueueState u 0).setHw q HwSlot.reset).endRun (.hqs q)
  (if s.queueWr u ≠ s.queueRd u then s.activate u else s).descRead u

/-- Nothing of a hardware slot is left (R323): no work, no packet under way, and no access of the HQS for one. -/
def State.idle (s : State) (q : BitVec 6) : Bool :=
  s.work q == 0 && (s.hw q).launch.isNone && (s.run (.hqs q)).out.isEmpty

/-- SLOT_DRAIN_COMPLETE (R323). -/
def execSlotDrainComplete (n : BitVec 6) (s : State) : Answer :=
  .next (if (s.hw n).st = .draining ∧ s.idle n then s.freeSlot n else s)

/-- UNFREEZE (R323, R325): OP reads 0 once the slot is free. -/
def execUnfreeze (n : BitVec 6) (s : State) : Answer :=
  .next (
    let s := s.hcmdStart (hcmdWord 2 n 0 0) hcmdQueueMask
    if (s.hw n).st = .frozen then
      if s.idle n then s.hcmdDone.freeSlot n else s.post (.unfreeze n)
    else s.hcmdDone)

/-- The mapped slot that drains: of those whose quantum has expired, the one of least weight, then the lowest (R324). -/
def State.drainChoice (s : State) : Option (BitVec 6) :=
  ((((List.range 64).map (BitVec.ofNat 6)).filter (fun q => (s.hw q).st == .mapped && (s.hw q).left == 0)).foldl
    (fun best q =>
      match best with
      | none => some q
      | some b => if (s.hw q).weight < (s.hw b).weight then some q else some b) none)

/-- QUANTUM_EXPIRY (R324, R331): each expiry makes a choice, also that of a slot that another expiry of the same cycle has
chosen. -/
def execQuantumExpiry (n : BitVec 6) (s : State) : Answer :=
  .next (
    if ((s.hw n).st = .mapped ∨ (s.hw n).st = .draining) ∧ (s.hw n).left = 0 then
      let s := (s.cores.map (·.1)).foldl State.reassign s
      if s.hub.active.isEmpty ∨ s.freeHw.isSome then
        if (s.hw n).st = .mapped then (s.modHw n (fun h => { h with left := h.quantum })).post (.quantumExpiry n) else s
      else
        match s.drainChoice with
        | some q => (s.modHw q (fun h => { h with st := .draining })).post (.slotDrainComplete q)
        | none => s
    else s)

/-! ## The HQS's accesses (R321) -/

/-- One word that the HQS reads in a queue's address space, whose tables it walks first; `tag` names what it is, and the reads of
its walk have a tag of their own. -/
def hqsWord (s : State) (q : BitVec 6) (tag : Nat) (va : Word) (i : Nat) : Work Word := do
  let h ← homeWork s q (tag + 2 ^ 20) i .read (va + BitVec.ofNat 64 (8 * i))
  let l ← Work.want [{ key := { tag := tag, idx := 0, off := i }, core := 0, hq := q, va := 0, n := 8, write := none,
                       remote := none, home := some h }]
  pure (BitVec.ofNat 64 (leNat l.flatten))

/-- Reads of the HQS in a queue's address space: `n` words. -/
def hqsRead (s : State) (q : BitVec 6) (tag : Nat) (va : Word) (n : Nat) : Work (List Word) :=
  Work.all ((List.range n).map (hqsWord s q tag va))

/-- Reads of device-physical words. -/
def hqsPhys (q : BitVec 6) (tag pa n : Nat) : Work (List Word) := do
  let l ← Work.want ((List.range n).map (fun i =>
    { key := { tag := tag, idx := 0, off := i }, core := 0, hq := q, va := 0, n := 8, write := none, remote := none,
      home := some (.dev (pa + 8 * i)) }))
  pure (l.map (fun b => BitVec.ofNat 64 (leNat b)))

/-- Words written into a core's store from an offset on; each is set full where it performs (R161, R328). -/
def hqsFill (q : BitVec 6) (tag p off : Nat) (ws : List Word) : Work Unit := do
  let _ ← Work.want (((List.range ws.length).zip ws).map (fun e =>
    { key := { tag := tag, idx := 0, off := e.1 }, core := 0, hq := q, va := 0, n := 8, write := some (leList 8 e.2.toNat),
      remote := none, home := some (.ls p (off + 8 * e.1)) }))
  pure ()

/-- The next packet of a slot, as its eight words (R321). -/
def HwSlot.packet (h : HwSlot) (s : State) (q : BitVec 6) : Work (List Word) :=
  hqsRead s q 0 (h.ring + BitVec.ofNat 64 (64 * (h.rd.toNat % 2 ^ h.rlog))) 8

/-- RD advances (R321, R328). -/
def State.advanceRd (s : State) (q : BitVec 6) : State :=
  let u := (s.hw q).uq
  let rd := (s.hw q).rd + 1
  (s.modHw q (fun h => { h with rd := rd })).setDesc u 1 (BitVec.ofNat 64 ((s.descRaw u 1).toNat / 2 ^ 32 * 2 ^ 32 + rd.toNat))

/-! ## Launches (R326-R329) -/

/-- A launch packet's fields (R326). -/
structure LaunchPacket where
  type : Nat
  nt : Nat
  tlist : Word
  f : Nat
  cols : Nat
  rows : Nat
  dies : Nat
  img : Word
  isz : Nat
  done : Word
  /-- a reserved bit is set -/
  bad : Bool
  deriving DecidableEq, Repr

def launchOf (l : List Word) : LaunchPacket :=
  let w (i : Nat) : Word := l.getD i 0
  { type := field (w 0) 63 56, nt := field (w 0) 31 0, tlist := w 1, f := field (w 2) 12 0, cols := field (w 3) 20 16 + 1,
    rows := field (w 3) 12 8 + 1, dies := field (w 3) 2 0 + 1, img := w 4, isz := field (w 5) 16 0, done := w 7,
    bad := field (w 0) 55 32 != 0 || field (w 2) 63 13 != 0 || field (w 3) 63 21 != 0 || field (w 3) 15 13 != 0 ||
      field (w 3) 7 3 != 0 || field (w 5) 63 17 != 0 }

/-- The packet's own checks (R326). -/
def LaunchPacket.ok (k : LaunchPacket) : Bool :=
  k.type == 1 && !k.bad && decide (1 ≤ k.nt) && decide (k.nt ≤ 2 ^ 20) && decide (k.f / 1024 + k.dies ≤ 8) &&
  decide (k.f % 1024 / 32 + k.rows ≤ 32) && decide (k.f % 32 + k.cols ≤ 32) &&
  (k.img == 0 || (k.isz % 64 == 0 && decide (k.isz ≤ 0x10000)))

/-- The logical cores of a domain, ascending (R326). -/
def LaunchPacket.domain (k : LaunchPacket) : List Nat :=
  (List.range k.dies).flatMap (fun d => (List.range k.rows).flatMap (fun r =>
    (List.range k.cols).map (fun c => 1024 * (k.f / 1024 + d) + 32 * (k.f % 1024 / 32 + r) + (k.f % 32 + c))))

/-- The entry that eight words hold, if it passes its checks (R327). -/
def entryIn (domain : List Nat) (q : BitVec 6) (l : List Word) : Option LaunchEntry :=
  let w (i : Nat) : Word := l.getD i 0
  let e : LaunchEntry :=
    { task := entryOf (w 0) (w 1) (w 2) (w 3) (BitVec.ofNat 13 (field (w 4) 44 32)) q, core := field (w 4) 12 0,
      slot := field (w 4) 23 20, win := field (w 4) 31 24 }
  if (w 0).getLsbD 62 || field (w 4) 63 45 != 0 || field (w 4) 19 13 != 0 || w 5 != 0 || w 6 != 0 || w 7 != 0 ||
      !domain.contains e.core || (e.slot != 0 && (decide (e.win < 8) || decide (128 < e.win) || e.win % 8 != 0))
  then none else some e

/-- The entries that runs of eight words hold, if every one passes. -/
def entriesIn (domain : List Nat) (q : BitVec 6) (ws : List Word) : Nat → Option (List LaunchEntry)
  | 0 => some []
  | n + 1 =>
    match entryIn domain q (ws.take 8), entriesIn domain q (ws.drop 8) n with
    | some e, some l => some (e :: l)
    | _, _ => none

/-- The task list, read and checked before any change to a core (R327). -/
def taskWork (s : State) (q : BitVec 6) (k : LaunchPacket) : Work (List LaunchEntry) := do
  let ws ← hqsRead s q 1 k.tlist (8 * k.nt)
  match entriesIn k.domain q ws k.nt with
  | some l => pure l
  | none => throw (.fail 0x0F 0)

/-- The accesses of step 1 of R328 on one core: the image, and the pool word and the stack tops (R329). Every word is written
once it has been read. -/
def coreWork (s : State) (q : BitVec 6) (k : LaunchPacket) (stkt l p : Nat) : Work Unit := do
  let image : List (Work Unit) := if k.img = 0 then [] else (List.range (k.isz / 8)).map (fun i => do
    let w ← hqsRead s q (4 + 2 * i) (k.img + BitVec.ofNat 64 (8 * i)) 1
    hqsFill q (5 + 2 * i) p (8 * i) w)
  let stack : Work Unit := if stkt = 0 then hqsFill q 3 p 0x1FF00 [0] else do
    let w ← hqsPhys q 2 (stkt / 128 * 128 + 128 * l) 16
    if field (w.getD 0 0) 63 15 ≠ 0 then throw (.fail 0x0F 0)
    hqsFill q 3 p 0x1FF00 w
  let _ ← (Work.all image).both stack
  pure ()

def State.modLaunch (s : State) (q : BitVec 6) (f : Launch → Launch) : State :=
  s.modHw q (fun h => { h with launch := h.launch.map f })

/-- The launch goes on to its next stage. -/
def State.launchStage (s : State) (q : BitVec 6) (t : LaunchStage) : State :=
  ((s.endRun (.hqs q)).modLaunch q (fun l => { l with stage := t })).postOnce (.launchPacket q)

/-- The launch ends with a status once its work is done (R328). -/
def State.launchEnds (s : State) (q : BitVec 6) (status : BitVec 8) : State :=
  ((s.endRun (.hqs q)).modLaunch q (fun l =>
    { l with stage := .running, status := if l.status = 0 then status else l.status })).postOnce (.launchDone q)

/-- A core of a launch's domain is not ready: a latched task, or a context that is not there (R328, R338). -/
def State.coreBusy (s : State) (l : Nat) : Bool :=
  let c := s.core (s.physical l)
  c.latchTask.isSome || c.gone.isSome || c.saving.isSome

/-- A core's slot owners are reassigned for a launch, and its instruction cache is emptied (R105, R328, R331). -/
def State.prepareCore (s : State) (q : BitVec 6) (es : List LaunchEntry) (l : Nat) : State :=
  let mine := es.filter (·.core == l)
  s.modCore (s.physical l) (fun c => { (c.reassign (fun q => (s.hw q).weight) (if mine.isEmpty then [] else [q])
    ((mine.map (·.slot)).filter (· != 0)) q) with icache := [] })

/-- Step 2 of R328 for one entry: it is pushed, or waits behind the pushes of its core that wait (R145, R146). -/
def State.pushEntry (s : State) (e : LaunchEntry) : State :=
  let p := s.physical e.core
  if (s.core p).pushes.isEmpty && (s.core p).dequeRoom then s.pushBottom p e.task 1
  else (s.modCore p (fun c => { c with pushes := c.pushes ++ [{ entry := e.task, cause := none }] })).post (.continuationPush p)

/-- Step 3 of R328 for one entry; one that is refused freezes the launch. -/
def State.startPinned (s : State) (q : BitVec 6) (e : LaunchEntry) : State :=
  let p := s.physical e.core
  let c := s.core p
  if (c.slot e.slot).st = .empty ∧ ¬ c.tsm.getLsbD e.slot ∧ c.owner e.slot = some q ∧ c.windowFree (128 * e.slot) e.win then
    s.startThread p e.slot (128 * e.slot) e.win e.task
  else s.freezeSlot q 2

/-- Step 4 of R328: slot 0 of every core that received an entry wakes. Of the acts of the HQS this one and the write of the
reply mailbox are the commands that wake slot 0 (R157), and a freeze is none. DESIGN CHOICE (log 38). -/
def State.wakeCores (s : State) (es : List LaunchEntry) : State :=
  ((es.map (·.core)).eraseDups).foldl (fun s l => s.wake0 (s.physical l) 1) s

/-- A slot takes its next packet: it is mapped, nothing runs, and packets are left (R326, R328). -/
def State.mayTake (s : State) (q : BitVec 6) : Bool :=
  (s.hw q).st == .mapped && (s.hw q).launch == none && s.work q == 0

/-- A packet has been read: a launch's own checks, then its task list; a packet of TYPE 0 has nothing to start (R326, R327,
R398). -/
def State.takePacket (s : State) (q : BitVec 6) (ws : List Word) : State :=
  let k := launchOf ws
  let l : Launch := { stage := .list, packet := ws, entries := [], done := k.done, store := true, status := 0 }
  if k.type = 0 then
    (s.modHw q (fun h => { h with launch := some { l with stage := .running, store := k.done != 0 } })).post (.nopPacket q)
  else
    let s := s.modHw q (fun h => { h with launch := some l })
    if !k.ok || k.domain.any s.hub.retired.contains then s.launchEnds q 0x0F else s.launchStage q .list

/-- The pushes and the pinned starts, in that order, each in the order of the list (R328). -/
def tasksInOrder (es : List LaunchEntry) : List LaunchEntry := es.filter (·.slot == 0) ++ es.filter (·.slot != 0)

/-- A launch is to end before its tasks run: its slot is frozen, or a core of its domain has been retired (R335, R398). -/
def Launch.over (l : Launch) : Bool := l.status != 0

/-- A slot's work count is about to leave 0: the watchdog counts from here (R334). -/
def State.noteWork (s : State) (q : BitVec 6) : State := if s.work q = 0 then s.noteProgress q else s

/-- A launch goes one step further (R327-R329): the task list, each core of the domain in turn, each entry in turn. -/
def State.launchOn (s : State) (q : BitVec 6) (l : Launch) : State :=
  let k := launchOf l.packet
  if l.over ∧ l.stage ≠ .running ∧ l.stage ≠ .ending then
    if (s.run (.hqs q)).out.isEmpty then s.launchEnds q 0x10 else s
  else
    match l.stage with
    | .list =>
      match s.workOn (.hqs q) (taskWork s q k) with
      | .more s => s
      | .ended (.error _) s => s.launchEnds q 0x0F
      | .ended (.ok es) s => (s.modLaunch q (fun l => { l with entries := es })).launchStage q (.cores k.domain false)
    | .cores [] _ =>
      let s := s.launchStage q (.tasks (tasksInOrder l.entries))
      (s.modHw q (fun h => { h with progress := s.hub.cyc })).postOnce (.watchdogExpiry q)
    | .cores (c :: cs) false =>
      if s.coreBusy c then s.post (.launchPacket q) else (s.prepareCore q l.entries c).launchStage q (.cores (c :: cs) true)
    | .cores (c :: cs) true =>
      match s.workOn (.hqs q) (coreWork s q k s.hub.stkt.toNat c (s.physical c)) with
      | .more s => s
      | .ended (.error _) s => s.launchEnds q 0x0F
      | .ended (.ok _) s => s.launchStage q (.cores cs false)
    | .tasks [] => (s.wakeCores l.entries).launchEnds q 0
    | .tasks (e :: es) =>
      let s := (s.launchStage q (.tasks es)).noteWork q
      if e.slot = 0 then s.pushEntry e else s.startPinned q e
    | .running | .ending => s

/-- LAUNCH_PACKET (R321, R326-R328): the next packet is read, or the packet under way goes one step further. A failed read of
the ring freezes the slot before the packet is taken. -/
def execLaunchPacket (n : BitVec 6) (s : State) : Answer :=
  .next (
    match (s.hw n).launch with
    | some l => s.launchOn n l
    | none =>
      if !s.mayTake n then (if (s.run (.hqs n)).out.isEmpty then s.endRun (.hqs n) else s)
      else
        let u := (s.hw n).uq
        let started := s.runs.any (fun e => e.1 == .hqs n)
        let left := started || s.queueWr u != (s.hw n).rd
        let s := if started then s else (s.chargeDesc u 2 false).descRead u
        if left then
          match s.workOn (.hqs n) ((s.hw n).packet s n) with
          | .more s => s
          | .ended (.error _) s => s.freezeSlot n 5
          | .ended (.ok ws) s => s.takePacket n ws
        else s)

/-- The end of a packet: RD advances, and a store to DONE that failed freezes the slot unless it is frozen (R326, R328). -/
def State.finishPacket (s : State) (q : BitVec 6) (ok : Bool) : State :=
  let s := (s.modHw q (fun h => { h with launch := none })).advanceRd q
  if ok then s.intake q else s.freezeSlot q 5

/-- The key under which the answer to the store to DONE is kept. -/
def doneKey : AccKey := { tag := 8, idx := 0, off := 0 }

/-- The home of a packet's DONE, found by a walk of the HQS (R321). -/
def doneWork (s : State) (q : BitVec 6) (done : Word) : Work Home := homeWork s q 9 0 .write done

/-- A packet whose work is done stores its status to DONE, and ends when the store has performed or has been refused (R326,
R328). -/
def State.endPacket (s : State) (q : BitVec 6) : State :=
  match (s.hw q).launch with
  | none => s
  | some l =>
    match l.stage with
    | .running =>
      if s.work q ≠ 0 then s
      else if !l.store then s.finishPacket q true
      else
        match s.workOn (.hqs q) (doneWork s q l.done) with
        | .more s => s
        | .ended (.ok h) s =>
          ((s.modLaunch q (fun l => { l with stage := .ending })).setRun (.hqs q) { Run.start with out := [doneKey] }).sendAgent 0
            (.hqs q) q (.complete (.hqs q) (l.status.setWidth 64)) h l.done
        | .ended (.error _) s => s.finishPacket q false
    | .ending =>
      match (s.run (.hqs q)).got with
      | e :: _ => (s.endRun (.hqs q)).finishPacket q (e.2 == [0])
      | [] => s
    | _ => s

/-- NOP_PACKET (R326): a packet of TYPE 0 stores to DONE if that is given, and RD advances. -/
def execNopPacket (n : BitVec 6) (s : State) : Answer := .next (s.endPacket n)

/-- LAUNCH_DONE (R328). -/
def execLaunchDone (n : BitVec 6) (s : State) : Answer := .next (s.endPacket n)

end Sys2Proof.Machine
end

