-- ==== Sys2Proof/Machine/System.lean ====
section
/-! DEFINITION. State registers, the slots' control, `sysc`, and what issues where no instruction can (09_isa_engines.md,
R233-R239; R104, R116). -/

namespace Sys2Proof.Machine

/-! ## State registers (R233-R236) -/

/-- The state of a slot as s.sst shows it (R234, R340). -/
def Slot.code (t : Slot) : Nat :=
  match t.st with
  | .empty => 0
  | .active => 1
  | .trapped _ => 2
  | .stopped => 3

/-- The state of a slot in stage 5 of an issue in a cycle (R17): a `stop` that acts by then has acted, and an `exit` that
completes by then has completed. -/
def Core.codeAt (c : Core) (cyc n : Nat) : Nat :=
  let t := c.slot n
  match t.st, t.wait, t.stopAt with
  | .active, .exit till, none =>
    if decide (till ≤ cyc + 3) && t.relaxedOut.isEmpty && c.tileOf n == none && t.late.isEmpty then 0 else 1
  | .active, _, some at_ => if at_ ≤ cyc + 4 then 3 else 1
  | _, _, _ => t.code

/-- s.sst in stage 5 of an issue in a cycle (R17, R234). -/
def Core.slotStates (c : Core) (cyc : Nat) : Nat := ((List.range 16).map (fun n => c.codeAt cyc n * 4 ^ n)).sum

/-- s.tqb (R345). -/
def Core.trapQueue (c : Core) : Word :=
  (0 : BitVec 24) ++ c.tail ++ c.head ++ (0 : BitVec 4) ++ c.log ++ c.ringBase ++ (0 : BitVec 6)

/-- The value of a state register for a thread of a core in stage 5 of an issue in a cycle, reserved bits zero (R234, R235). -/
def Core.stateReg (c : Core) (t : Slot) (cyc : Nat) (sr : BitVec 8) : Word :=
  match sr.toNat with
  | 0x00 => t.round.setWidth 64
  | 0x01 => t.srs.setWidth 64
  | 0x02 => t.ix.setWidth 64
  | 0x03 => t.fel.setWidth 64
  | 0x04 => t.nflag.setWidth 64
  | 0x05 => t.tb.setWidth 64
  | 0x06 => t.seq.setWidth 64
  | 0x10 => c.sa.setWidth 64
  | 0x11 => c.swl.setWidth 64
  | 0x12 => c.oac.setWidth 64
  | 0x13 => BitVec.ofNat 64 (cyc + 4)
  | 0x14 => c.aqhw.setWidth 64
  | 0x15 => c.tsm.setWidth 64
  | 0x16 => c.dsb.setWidth 64
  | 0x17 => c.dsn.setWidth 64
  | 0x18 => BitVec.ofNat 64 c.deque.length
  | 0x19 => BitVec.ofNat 64 (c.slotStates cyc)
  | 0x1A => c.trapQueue
  | 0x20 => (c.tile 0).cpm
  | 0x21 => (c.tile 1).cpm
  | 0x22 => (c.tile 2).cpm
  | 0x23 => (c.tile 3).cpm
  | k => if 0x31 ≤ k ∧ k ≤ 0x37 then c.descriptor (k - 0x30) >>> 5 <<< 5 else 0

/-- `rdst` (R235). -/
def execRdst (d : Reg) (sr : BitVec 8) (s : State) : Answer :=
  .next (s.withRegs [d] (s.complete d ((s.core s.cur.core).stateReg s.thr s.now sr)))

/-- The registers that only slot 0 writes (R6, R234, R345). -/
def isS0 (sr : BitVec 8) : Bool := [0x11, 0x14, 0x15, 0x16, 0x17, 0x1A].contains sr.toNat

/-- The traveller-slot mask after a write: a bit that becomes set needs an empty slot and a free window, or the register
keeps its value (R28). -/
def Core.newTsm (c : Core) (m : BitVec 16) : BitVec 16 :=
  if (List.range 16).all (fun p => !m.getLsbD p || c.tsm.getLsbD p ||
      ((c.slot p).st == .empty && (List.range 16).all (fun q =>
        (c.slot q).st == .empty || !overlap (1920 + 8 * p) 8 (c.slot q).base (c.slot q).size)))
  then m else c.tsm

/-- A write of s.tqb: its three S0 fields, LOG only to 4 or 5 (R345). -/
def Core.writeTrapQueue (c : Core) (b : Word) : Core :=
  let l : BitVec 3 := (b >>> 17).setWidth 3
  { c with head := (b >>> 24).setWidth 8, log := if l = 4 ∨ l = 5 then l else c.log, ringBase := (b >>> 6).setWidth 11 }

/-- A thread's own register written (R234, R235). -/
def Slot.writeReg (t : Slot) (sr : BitVec 8) (b : Word) : Slot :=
  match sr.toNat with
  | 0x00 => { t with round := b.setWidth 3 }
  | 0x01 => { t with srs := b.setWidth 32 }
  | 0x02 => { t with ix := b.setWidth 16 }
  | 0x03 => { t with fel := b.setWidth 32 }
  | 0x04 => { t with nflag := b.setWidth 8 }
  | 0x05 => { t with tb := b.setWidth 17 &&& 0x1FFFC }
  | _ => t

/-- A core's register written; what is read-only stays (R6, R44, R234, R345). -/
def Core.writeReg (c : Core) (cyc : Nat) (sr : BitVec 8) (b : Word) : Core :=
  match sr.toNat with
  | 0x11 => { c with swl := b.setWidth 32 }
  | 0x14 => if 1 ≤ (b.setWidth 6 : BitVec 6).toNat ∧ (b.setWidth 6 : BitVec 6).toNat ≤ 32 then { c with aqhw := b.setWidth 6 } else c
  | 0x15 => { c with tsm := c.newTsm (b.setWidth 16 &&& 0xFFFE) }
  | 0x16 => { c with dsb := b.setWidth 48 &&& 0xFFFFFFFFFFC0 }
  | 0x17 => { c with dsn := b.setWidth 21 }
  | 0x1A => c.writeTrapQueue b
  | k => if 0x31 ≤ k ∧ k ≤ 0x37 then c.setView (k - 0x30) b cyc else c

/-- What a write lets go on: a free place in the trap ring, a traveller slot for a waiting arrival (R27, R344). -/
def State.afterWrite (s : State) (p : Nat) (sr : BitVec 8) : State :=
  if sr = 0x1A then s.post (.trapRecordEnqueue p)
  else if sr = 0x15 ∧ ¬ (s.core p).arrivals.isEmpty then s.post (.arrivalStart p)
  else s

/-- `wrst` with its operand read: stage 4's check of s.round (R81), then the write of stage 5. -/
def State.writeState (s : State) (sr : BitVec 8) (b : Word) : State :=
  if sr = 0x00 ∧ 6 ≤ (b.setWidth 3 : BitVec 3).toNat then s.raise 0x01 0 0
  else
    (((s.modThr (·.writeReg sr b)).modCore s.cur.core (fun c => c.writeReg s.now sr b)).afterWrite s.cur.core sr).advance

/-- `wrst` (R235). -/
def execWrst (sr : BitVec 8) (b : OpB) (s : State) : Answer :=
  .next (
    if isS0 sr then s.privileged (bRegs b) (s.writeState sr (s.opB b))
    else s.withRegs (bRegs b) (s.writeState sr (s.opB b)))

/-- `rdcyc` (R236). -/
def execRdcyc (d : Reg) (s : State) : Answer :=
  .next (s.withRegs [d] (s.complete d (BitVec.ofNat 64 s.now)))

/-! ## resume and stop (R237, R238) -/

/-- `resume` (R237). -/
def execResume (replay : Bool) (a : Reg) (s : State) : Answer :=
  .next (s.privileged [a] (
    let v := s.rd a
    (s.resumeSlot s.cur.core (v.toNat % 16) replay
      (if v.getLsbD 4 then some (BitVec.ofNat 64 (v.toNat / 2 ^ 16)) else none)).advance))

/-- `stop` acts in its stage 5: the thread issues nothing from the next cycle on (R238). -/
def State.stopFrom (s : State) (p n : Nat) : State :=
  if n ≠ 0 ∧ (s.slot p n).st = .active ∧ (s.slot p n).stopAt = none then
    s.modSlot p n (fun t => { t with stopAt := some (s.cycle p + 5) })
  else s

/-- `stop` (R238). -/
def execStop (a : Reg) (s : State) : Answer :=
  .next (s.privileged [a] ((s.stopFrom s.cur.core ((s.rd a).toNat % 16)).advance))

/-! ## sysc (R239) -/

/-- A request to the hub leaves the core: it counts in s.oac and takes a sequence number until the hub accepts it (R50). -/
def State.callHub (s : State) (off : Nat) : State :=
  let p := s.cur.core
  if 4096 ≤ s.thr.out.length then s.hold .seqFree
  else
  let s := s.useBanks p s.rank off 64
  let m : SyscMsg := { core := p, slot := s.cur.slot, lcore := s.logical p, hq := s.thr.hq, words := s.words (localKey p off) 8 }
  ((s.modCore p (fun c => { c with oac := c.oac + 1 })).modThr (fun t =>
    { t with seq := t.seq + 1, out := t.out ++ [{ seq := t.seq, relaxed := false, home := .host 0, kind := .sysc }], pc := s.cur.next,
             wait := .sysc m })).post (.hubRequest (hubOf (dieOfCore p)) m)

/-- `sysc` (R239). -/
def execSysc (a : Reg) (s : State) : Answer :=
  .next (s.withRegs [a] (
    let va := s.rd a
    if !aligned va 64 then s.raise 0x04 0 va
    else
      match regionOf va with
      | .near _ off true => s.afterRelaxed (s.callHub off)
      | _ => s.raise 0x0C 0 va))

/-! ## What issues where no instruction can (R104, R116) -/

/-- ILLEGAL_ENCODING (R116, R127). -/
def execIllegalEncoding (s : State) : Answer := .next (s.raise 0x01 0 0)

/-- FETCH_FAULT (R104, R240): ADDR is the PC. -/
def execFetchFault (cause detail : BitVec 8) (s : State) : Answer := .next (s.raise cause detail s.cur.pc)

end Sys2Proof.Machine
end

