-- ==== Sys2Proof/Machine/Trapping.lean ====
section
/-! DEFINITION. From a trap to its record in the ring, and the end of a machine check (22_traps.md, R340-R345, R351-R353). -/

namespace Sys2Proof.Machine

/-- DEFERRED_TRAP (R340): at its next position the thread traps on what came late. -/
def execDeferredTrap (p n : Nat) (s : State) : Answer :=
  .next (if (s.slot p n).st = .active ∧ (s.slot p n).lateReady then s.takeLates p n else s)

/-- An access of the thread is between two attempts (R47). -/
def Slot.retrying (t : Slot) : Bool :=
  match t.wait with
  | .retry _ => true
  | _ => false

/-- A trapped thread has drained: every remote request of it has been answered, its messages and steals too (R50, R340). -/
def Core.drained (c : Core) (n : Nat) : Bool := (c.slot n).out.isEmpty && !(c.slot n).retrying && !c.cldInFlight n

/-- The record that enters a latch; a latch that still held one when the thread trapped gives a double fault (R351). -/
def latchRecord (double : Bool) (r : Record) : Record :=
  if double then { r with cause := 0x11, detail := r.cause } else r

/-- TRAP_DRAIN_END (R340, R341, R344, R351): the record stands in its latch and the pending marks are gone; in slot 0 the
trap is a machine check (R352). -/
def execTrapDrainEnd (p n : Nat) (s : State) : Answer :=
  .next (
    let t := s.slot p n
    match t.st, t.record with
    | .trapped false, some r =>
      if !(s.core p).drained n then s
      else if n = 0 then (s.modSlot p 0 (fun t => { t with pending := [] })).machineCheck p 1 r.cause r
      else
        (s.setSlot p n { t with
          st := .trapped true, record := none, latch := some (latchRecord t.double r), double := false, pending := [],
          latchAt := s.cycle p + 1 }).post (.trapRecordEnqueue p)
    | _, _ => s)

/-- The ring has a free place (R345). -/
def Core.ringRoom (c : Core) : Bool := decide ((c.tail - c.head).toNat ≠ 2 ^ c.log.toNat)

/-- The offset of the next record in the local store (R345). -/
def Core.ringOffset (c : Core) : Nat := 64 * c.ringBase.toNat + 64 * (c.tail.toNat % 2 ^ c.log.toNat)

/-- Writes the words of a record from a local-store offset on; it wraps at the end of the store (log 11). -/
def State.writeRecord (s : State) (p off : Nat) : Nat → List Word → State
  | _, [] => s
  | i, w :: ws => (s.setWord (recordKey p off i) w).writeRecord p off (i + 1) ws

/-- A latched record enters the ring: 64 bytes raw, TAIL, and slot 0 wakes (R344). -/
def State.enqueueRecord (s : State) (p n : Nat) (r : Record) : State :=
  (((s.writeRecord p (s.core p).ringOffset 0 (recordWords r)).modSlot p n (fun t => { t with latch := none })).modCore p
    (fun c => { c with tail := c.tail + 1 })).wake0 p 1

/-- A slot's latch holds a record that may enter the ring: one that was filled in an earlier cycle, so that of several filled in
one cycle the lowest slot's goes first (R344). DESIGN CHOICE (log 65). -/
def Slot.latched (t : Slot) (cyc : Nat) : Option Record := if t.latchAt ≤ cyc then t.latch else none

/-- The latched records of a list of slots enter the ring while it has room. -/
def State.enqueueAll (s : State) (p : Nat) : List Nat → State
  | [] => s
  | n :: ns =>
    match (s.slot p n).latched (s.cycle p) with
    | none => s.enqueueAll p ns
    | some r => if (s.core p).ringRoom then (s.enqueueRecord p n r).enqueueAll p ns else s

/-- TRAP_RECORD_ENQUEUE (R344): in ascending slot order. -/
def execTrapRecordEnqueue (p : Nat) (s : State) : Answer := .next (s.enqueueAll p (List.range 16))

/-- A wait of slot 0 for work of its own core that is sure to end: the write that clears MCS comes after it (R318). -/
def Wait.ends (w : Wait) : Bool :=
  match w with
  | .longOp _ _ _ _ _ | .tree _ | .vector => true
  | _ => false

/-- MCS_CLEAR (R353): slot 0 runs from RPC in the next cycle; the result of what it had sent is discarded. A trap in slot 0 that
has not drained goes on. -/
def execMcsClear (p : Nat) (s : State) : Answer :=
  .next (
    let c := s.core p
    if c.mcs.valid then
      let s := s.setCore p { c.disown p 0 with mcs := { c.mcs with valid := false } }
      if (s.slot p 0).st = .trapped false then s
      else
        s.modSlot p 0 (fun t =>
          { t with st := .active, wait := .none, pc := c.mcs.rpc.setWidth 64, record := none,
                   double := false, stopAt := none, wakeAt := max t.wakeAt (s.cycle p + 1) })
    else s)

end Sys2Proof.Machine
end

