-- ==== Sys2Proof/Machine/Travel.lean ====
section
/-! DEFINITION. Travellers, messages and requests to a hub: what happens on the way and at the far end (R26, R27, R174-R179,
R239, R349, R354, R376). -/

namespace Sys2Proof.Machine

/-! ## Travellers (R26, R27, R178, R179) -/

/-- The context packet of a traveller that leaves (R179). -/
def State.packetOf (s : State) (p n : Nat) (pc : Word) : Packet :=
  let t := s.slot p n
  { pc := pc, hq := t.hq, round := t.round, srs := t.srs, g := (List.range 8).map (fun i => (s.core p).reg (t.base + i)),
    fel := t.fel.setWidth 64, left := s.logical p }

/-- What a departure waits for has come: the thread's own accesses and its `cld`, and a context buffer (R178, R376). -/
def State.mayDepart (s : State) (p n : Nat) : Bool :=
  let t := s.slot p n
  t.relaxedOut.isEmpty && t.pending.isEmpty && (s.core p).tileOf n == none && decide ((s.core p).ctxOut < 16) &&
    t.late.isEmpty

/-- MIGRATION_DEPART (R178, R376): the packet goes out and the slot is empty. -/
def execMigrationDepart (p n : Nat) (s : State) : Answer :=
  .next (
    match (s.slot p n).wait with
    | .migrate pc dest =>
      if (s.slot p n).st = .active ∧ s.mayDepart p n then
        ((s.modCore p (fun c => { c with ctxOut := c.ctxOut + 1 })).post
          (.arrival p (s.physical dest) (s.packetOf p n pc))).emptySlot p n
      else s
    | _ => s)

/-- A packet enters a core's arrival queue; at the high-water mark slot 0 wakes (R27, R28, R157). -/
def State.enqueueArrival (s : State) (p : Nat) (a : Packet) : State :=
  let s := s.modCore p (fun c => { c with arrivals := c.arrivals ++ [a] })
  let s := if (s.core p).aqhw.toNat ≤ (s.core p).arrivals.length then s.wake0 p 1 else s
  s.post (.arrivalStart p)

/-- The sender's context buffer is free (R376). -/
def State.freeContext (s : State) (src : Nat) : State := s.modCore src (fun c => { c with ctxOut := c.ctxOut - 1 })

/-- The arrival queue has a free entry; one that is being spilled keeps its own (R27, R354). -/
def Core.arrivalRoom (c : Core) : Bool := decide (c.arrivals.length + c.heldArrivals.length < 32)

/-- A context packet reaches a core that is in place (R27, R376); one of a frozen queue is discarded (R335). -/
def State.acceptPacket (s : State) (src dest : Nat) (a : Packet) : State :=
  if (s.hw a.hq).st = .frozen then s.freeContext src
  else if (s.core dest).arrivalRoom then (s.freeContext src).enqueueArrival dest a
  else s.post (.messageReoffer (.ctx src dest a (s.cycle src + 64)))

/-- ARRIVAL (R27, R337, R338, R376). -/
def execArrival (src dest : Nat) (a : Packet) (s : State) : Answer :=
  .next (
    match (s.core dest).gone with
    | none => s.acceptPacket src dest a
    | some none => s.post (.messageReoffer (.ctx src dest a (s.cycle src + 64)))
    | some (some _) =>
      (s.modCore dest (fun c => { c with forwards := c.forwards ++ [.arrival src dest a] })).post (.forwardReinject dest 0))

/-- The slot in which hardware starts an arrival: the lowest empty one whose bit of s.tsm is set (R27). -/
def Core.travellerSlot (c : Core) : Option Nat :=
  (List.range 16).find? (fun n => decide (1 ≤ n) && c.tsm.getLsbD n && (c.slot n).st == .empty)

/-- A traveller starts in a slot: its window, PC, queue, s.round, s.srs and s.fel come with it, the rest is 0 (R26, R28). -/
def State.startTraveller (s : State) (p n : Nat) (a : Packet) : State :=
  let c := (s.core p).setRegs (1920 + 8 * n) a.g
  s.setCore p (c.setSlot n { Slot.reset with
    st := .active, pc := a.pc, base := 1920 + 8 * n, size := 8, hq := a.hq, round := a.round, srs := a.srs,
    fel := a.fel.setWidth 32, latch := (c.slot n).latch, wakeAt := s.cycle p + 1 })

/-- ARRIVAL_START (R27): the oldest arrival starts; a core that is stopped for pre-emption starts none (R336). -/
def execArrivalStart (p : Nat) (s : State) : Answer :=
  .next (
    let c := s.core p
    match c.arrivals, c.travellerSlot, c.saving with
    | a :: l, some n, none =>
      let s := (s.setCore p { c with arrivals := l }).startTraveller p n a
      if l.isEmpty then s else s.post (.arrivalStart p)
    | _, _, _ => s)

/-! ## Messages (R174-R177) -/

/-- A message is written at its mailbox in one step, or goes back (R174, R176). -/
def State.deliver (s : State) (m : Message) (q : Nat) : State :=
  let k := localKey q m.toOff
  let s := s.useBanks q 2 m.toOff 72
  if s.full k then s.post (.messageReoffer (.mail m (s.cycle m.core + 64)))
  else
    let s := (s.setWords (k + 8) m.data).setWordFull k (headerOf m.slot m.lcore m.hq)
    (s.afterChange q m.toOff false 1).post (.messageAck m)

/-- MAILBOX_WRITE (R174, R176, R337, R338). -/
def execMailboxWrite (m : Message) (s : State) : Answer :=
  .next (
    match (s.core m.toCore).gone with
    | none => s.deliver m m.toCore
    | some none => s.post (.messageReoffer (.mail m (s.cycle m.core + 64)))
    | some (some _) =>
      (s.modCore m.toCore (fun c => { c with forwards := c.forwards ++ [.mailboxWrite m] })).post
        (.forwardReinject m.toCore 0))

/-- MESSAGE_ACK (R50, R174): the allowance returns, and the message is no longer outstanding. -/
def execMessageAck (m : Message) (s : State) : Answer :=
  .next ((s.modCore m.core (fun c => { c with sendsOut := c.sendsOut - 1, oac := c.oac - 1 })).modSlot m.core m.slot (fun t =>
    { t with out := t.out.filter (fun o => !(o.seq == m.seq && o.kind == .message m.issued)) }))

/-- MESSAGE_REOFFER (R176, R239, R376). -/
def execMessageReoffer (o : Offer) (s : State) : Answer :=
  .next (
    match o with
    | .mail m _ => s.post (.mailboxWrite m)
    | .ctx src dest a _ => s.post (.arrival src dest a)
    | .sysc hub m _ => s.post (.hubRequest hub m))

/-! ## Requests to a hub and replies (R239, R349) -/

/-- The hub has accepted a request: it no longer counts, and its thread goes on (R50, R239). -/
def State.hubAccepted (s : State) (m : SyscMsg) : State :=
  let s := s.modCore m.core (fun c => { c with oac := c.oac - 1 })
  let s := s.modSlot m.core m.slot (fun t => { t with out := t.out.filter (·.kind != .sysc) })
  if (s.slot m.core m.slot).wait = .sysc m then s.goOn m.core m.slot else s

/-- HUB_REQUEST (R239). -/
def execHubRequest (hub : Nat) (m : SyscMsg) (s : State) : Answer :=
  .next (
    let (i, s) := s.draw
    if Config.hubHasRoom i then
      (s.modHub (fun h => if hub = 0 then { h with sysc0 := h.sysc0 ++ [m] } else { h with sysc1 := h.sysc1 ++ [m] })).hubAccepted m
    else s.post (.messageReoffer (.sysc hub m (s.cycle m.core + 64))))

/-- The offset of the reply mailbox (R346). -/
def replyOffset : Nat := 0x1FE00

/-- REPLY_MAILBOX_WRITE (R349): the eight words and a zero header in one step, and slot 0 wakes; a full header makes it
wait. -/
def execReplyMailboxWrite (p : Nat) (words : List Word) (s : State) : Answer :=
  .next (
    let k := localKey p replyOffset
    if s.full k then s.post (.replyMailboxWrite p words)
    else (((s.setWords (k + 8) (words.take 8)).setWordFull k 0).afterChange p replyOffset false 1).wake0 p 1)

/-! ## Spill and return of arrivals (R354) -/

/-- The twelve words of a context packet (R179). -/
def packetWords (a : Packet) : List Word :=
  [a.pc, BitVec.ofNat 64 (a.hq.toNat * 2 ^ 48 + a.round.toNat * 2 ^ 40 + a.srs.toNat)] ++ a.g ++
    [a.fel, BitVec.ofNat 64 (a.left % 2 ^ 13)]

/-- The packet that twelve words hold (R179). -/
def packetAt (l : List Word) : Packet :=
  let w := l.getD 1 0
  { pc := l.getD 0 0, hq := (w >>> 48).setWidth 6, round := (w >>> 40).setWidth 3, srs := w.setWidth 32,
    g := (l.drop 2).take 8, fel := l.getD 10 0, left := (l.getD 11 0).toNat % 2 ^ 13 }

/-- The area of a command: a device-physical address in units of 128 bytes. -/
def ArrivalRun.area (r : ArrivalRun) (i : Nat) : Nat := r.addr.toNat / 128 * 128 + 128 * i

/-- The accesses of packet `i` of a command go out: its two sectors, with the bytes to write or none to read (R354). -/
def State.packetAccess (s : State) (p : Nat) (r : ArrivalRun) (hq : BitVec 6) (bs : Option (List Byte)) : State :=
  let a : Agent := .arrivals p
  let key (o : Nat) : AccKey := { tag := r.moved, idx := 0, off := o }
  let op (o n : Nat) : AccOp := match bs with
    | some l => .agentWrite a (key o) ((l.drop o).take n)
    | none => .agentRead a (key o) n
  let s := s.setRun a { Run.start with sent := [key 0, key 64], out := [key 0, key 64] }
  (s.sendAgent p a hq (op 0 64) (.dev (r.area r.moved)) 0).sendAgent p a hq (op 64 32) (.dev (r.area r.moved + 64)) 0

/-- A command has moved what it could; its result follows. -/
def State.arrivalMoved (s : State) (p : Nat) (r : ArrivalRun) (st : BitVec 2) : State :=
  ((s.endRun (.arrivals p)).modCore p (fun c => { c with arrivalRun := some { r with st := st, held := [] } })).post
    (.arrivalCommandComplete p)

/-- A packet has been moved: the command goes on with the next. -/
def State.packetMoved (s : State) (p : Nat) (r : ArrivalRun) : State :=
  ((s.endRun (.arrivals p)).modCore p (fun c =>
    { c with arrivalRun := some { r with moved := r.moved + 1, held := r.held.tail } })).stepAgent (.arrivals p)

/-- A spill writes the arrivals that it holds, the oldest first, each in the class of its queue; where one cannot be written, it
and those after it are the oldest again and may start (R317, R332, R354). -/
def State.spillPacket (s : State) (p : Nat) (r : ArrivalRun) : State :=
  match r.held with
  | [] => s.arrivalMoved p r (if r.moved = r.n then 0 else 1)
  | a :: _ =>
    let run := s.run (.arrivals p)
    if !s.runs.any (fun e => e.1 == .arrivals p) then
      s.packetAccess p r a.hq (some ((packetWords a).flatMap (fun w => leList 8 w.toNat)))
    else if !run.out.isEmpty then s
    else
      match run.fails with
      | (cause, _) :: _ =>
        ((s.modCore p (fun c => { c with arrivals := r.held ++ c.arrivals })).arrivalMoved p { r with cause := cause } 2).post
          (.arrivalStart p)
      | [] => (s.modCore p (fun c => { c with spilledArrivals := c.spilledArrivals ++ [a.hq] })).packetMoved p r

/-- The packet that a return has read enters the queue; one of a frozen queue is discarded (R335, R354). -/
def State.returnRead (s : State) (p : Nat) (r : ArrivalRun) (bs : List Byte) : State :=
  if !(s.core p).arrivalRoom then s.arrivalMoved p r 1
  else
    let a := packetAt (wordsOfBytes bs)
    let s := s.modCore p (fun c => { c with spilledArrivals := c.spilledArrivals.erase a.hq })
    (if (s.hw a.hq).st = .frozen then s else s.enqueueArrival p a).packetMoved p r

/-- A return reads packets back while the queue has room (R354), in the class of slot 0's accesses (log 43). -/
def State.returnPacket (s : State) (p : Nat) (r : ArrivalRun) : State :=
  if s.runs.any (fun e => e.1 == .arrivals p) then
    let run := s.run (.arrivals p)
    if !run.out.isEmpty then s
    else
      match run.fails with
      | (cause, _) :: _ => s.arrivalMoved p { r with cause := cause } 2
      | [] => s.returnRead p r (([0, 64] : List Nat).flatMap (fun o =>
          ((run.got.find? (fun e => e.1.off == o)).map (·.2)).getD []))
  else if r.moved = r.n then s.arrivalMoved p r 0
  else if !(s.core p).arrivalRoom then s.arrivalMoved p r 1
  else s.packetAccess p r Config.slot0Queue none

/-- ARRIVAL_SPILL (R354): the command goes one step further. -/
def execArrivalSpill (p : Nat) (s : State) : Answer :=
  .next (
    match (s.core p).arrivalRun with
    | some r => if r.op = 1 then s.spillPacket p r else s
    | none => s)

/-- ARRIVAL_RETURN (R354): the command goes one step further. -/
def execArrivalReturn (p : Nat) (s : State) : Answer :=
  .next (
    match (s.core p).arrivalRun with
    | some r => if r.op = 2 then s.returnPacket p r else s
    | none => s)

/-- ARRIVAL_COMMAND_INVALID (R354): ST 1, and nothing moves. -/
def execArrivalCommandInvalid (p : Nat) (s : State) : Answer :=
  .next (
    match (s.core p).arrivalRun with
    | some r => s.arrivalMoved p r 1
    | none => s)

/-- The offset of the arrival result word (R346). -/
def resultOffset : Nat := 0x1FEF0

/-- ARRIVAL_COMMAND_COMPLETE (R352, R354): the result word is set full; a fault is a machine check. A command that waits in the word is taken, and a `stf` that waits for the word to be empty is served. -/
def execArrivalCommandComplete (p : Nat) (s : State) : Answer :=
  .next (
    match (s.core p).arrivalRun with
    | none => s
    | some r =>
      let s := s.modCore p (fun c => { c with arrivalRun := none })
      let s := (s.setWordFull (localKey p resultOffset) (BitVec.ofNat 64 (r.st.toNat * 64 + r.moved % 64))).afterChange p
        resultOffset false 1
      let s := if (s.core p).acw && s.full (localKey p acwOffset) then (s.takeArrivalCommand p).afterChange p acwOffset false 1 else s
      if r.st = 2 then s.machineCheck p 4 r.cause (s.record0 p r.cause) else s)

end Sys2Proof.Machine
end

