-- ==== Sys2Proof/Machine/Preempt.lean ====
section
/-! DEFINITION. Pre-emption and forwarding, retired cores, and the drops of translations (R336-R338, R362, R363, R398). -/

namespace Sys2Proof.Machine

/-! ## Drops (R362, R363) -/

/-- Whether an entry matches a TLBI word (R362). -/
def dropMatches (k : BitVec 64) (e : TlbEntry) : Bool :=
  let hq : BitVec 6 := (k >>> 54).setWidth 6
  match k.toNat / 2 ^ 60 with
  | 1 => true
  | 2 => match e.key with
    | .dev h _ => h == hq
    | .far _ _ => false
  | 3 => tlbServes e (.dev hq (k.toNat % 2 ^ 31))
  | 4 => match e.key with
    | .dev _ _ => false
    | .far l _ => l == k.toNat / 2 ^ 41 % 2 ^ 13
  | _ => false

/-- Every core that holds translations, or walks for one, has a drop to make at its next rotation boundary (R363). -/
def State.dropEverywhere (s : State) (k : BitVec 64) : State :=
  let ps := (s.cores.filter (fun e => !e.2.tlb.isEmpty || !e.2.walks.isEmpty)).map (·.1)
  ps.foldl (fun s p => (s.modCore p (fun c => { c with drops := c.drops ++ [k] })).post (.tlbEntryDrop p)) s

/-- The word of a TLBI operation (R362). -/
def tlbiWord (op : Nat) (hq : BitVec 6) (core : BitVec 13) (vpn : BitVec 31) : BitVec 64 :=
  BitVec.ofNat 64 (op * 2 ^ 60 + hq.toNat * 2 ^ 54 + core.toNat * 2 ^ 41 + vpn.toNat)

/-- A write of TLBI sets its fields, and starts the operation that OP names; OP 0 and a reserved OP name none (R6, R362). An
operation given by its operands alone is a write whose other fields are 0 (log 38). -/
def State.tlbiWrite (s : State) (w : Word) : State :=
  let s := s.modHub (fun h => { h with tlbi := w })
  if 1 ≤ w.toNat / 2 ^ 60 ∧ w.toNat / 2 ^ 60 ≤ 4 then (s.dropEverywhere w).post .tlbiComplete else s

/-- TLBI_DROP_ALL (R362). -/
def execTlbiDropAll (s : State) : Answer := .next (s.tlbiWrite (tlbiWord 1 0 0 0))

/-- TLBI_DROP_HQ (R362). -/
def execTlbiDropHq (hq : BitVec 6) (s : State) : Answer := .next (s.tlbiWrite (tlbiWord 2 hq 0 0))

/-- TLBI_DROP_PAGE (R362). -/
def execTlbiDropPage (hq : BitVec 6) (vpn : BitVec 31) (s : State) : Answer := .next (s.tlbiWrite (tlbiWord 3 hq 0 vpn))

/-- TLBI_DROP_FAR (R362). -/
def execTlbiDropFar (lcore : BitVec 13) (s : State) : Answer := .next (s.tlbiWrite (tlbiWord 4 0 lcore 0))

/-- A translation that a walk under way would give: the whole 32 MiB page, for one of device memory. -/
def walkEntry (k : PageKey) : TlbEntry := { key := k, big := true, map := .dev 0, r := false, w := false, x := false }

/-- TLB_ENTRY_DROP (R363): the entries go, and a walk under way for such a page begins again. -/
def execTlbEntryDrop (p : Nat) (s : State) : Answer :=
  .next (s.modCore p (fun c =>
    if c.drops.isEmpty then c
    else
      { c with
        tlb := c.tlb.filter (fun e => !c.drops.any (dropMatches · e))
        walks := c.walks.map (fun w => if c.drops.any (dropMatches · (walkEntry w.key)) && w.level != 3 then { w with again := true } else w)
        drops := [], lastDrop := s.cycle p + 1 }))

/-- Every core has made its drops. -/
def State.dropsMade (s : State) : Bool := s.cores.all (fun e => e.2.drops.isEmpty)

/-- The cycle in which the access that a wait holds was translated. -/
def Wait.translated (w : Wait) : Option Nat :=
  match w with
  | .order _ r | .held (.classFree r) _ _ _ _ | .allowance _ _ r | .bank _ r | .reply r | .retry r => some r.issued
  | .engineQueue _ c => some c.issued
  | .tileStore _ j => some j.issued
  | _ => .none

/-- The core of an access under way, and the cycle in which it was translated. -/
def translatedBy (e : Instr) : Option (Nat × Nat) :=
  match e with
  | .homePerform r | .hostPageAccess r | .savedStoreRefusal r | .feRetry r | .cancelPropagation _ _ _ (some r) => some (r.core, r.issued)
  | .mailboxWrite m | .messageReoffer (.mail m _) => some (m.core, m.issued)
  | .engineCompletion c => some (c.core, c.issued)
  | .engineQueueAccept p (.reaches c) => some (p, c.issued)
  | _ => none

/-- Accesses of a core that may have used an entry it has dropped are still to perform or to be refused (R363). -/
def State.usesDropped (s : State) (p : Nat) (c : Core) : Bool :=
  let old (q : Nat × Nat) : Bool := q.1 == p && decide (q.2 < c.lastDrop)
  c.slots.any (fun e => e.2.wait.translated.any (fun n => decide (n < c.lastDrop))) ||
  (s.due ++ s.cores.flatMap (·.2.forwards)).any (fun e => (translatedBy e).any old) ||
  s.cores.any (fun e => e.2.pushes.any (fun w => (w.cause.map (fun r => (r.core, r.issued))).any old)) ||
  (s.klus.flatMap (·.2) ++ s.dies.flatMap (·.2.coll)).any (fun d => old (d.core, d.issued)) ||
  c.copyQueue.any (fun d => decide (d.issued < c.lastDrop))

/-- The drops of TLBI are made, and what used a dropped entry has come to its end (R363). -/
def State.tlbiOver (s : State) : Bool :=
  s.dropsMade && s.cores.all (fun e => e.2.lastDrop == 0 || !s.usesDropped e.1 e.2)

/-- TLBI_COMPLETE (R362, R363): OP reads 0. -/
def execTlbiComplete (s : State) : Answer :=
  .next (
    if s.tlbiOver then s.modHub (fun h => { h with tlbi := BitVec.ofNat 64 (h.tlbi.toNat % 2 ^ 60) }) else s.post .tlbiComplete)

/-! ## The stop and the copy of a context (R336) -/

/-- Every slot of a core is stopped from the next cycle on (R336). -/
def State.stopAll (s : State) (p : Nat) : State :=
  let cyc := s.cycle p + 1
  s.modCore p (fun c => { c with slots := c.slots.map (fun e =>
    (e.1, if e.2.st = .active then { e.2 with stopAt := some (min cyc (e.2.stopAt.getD cyc)) } else e.2)) })

/-- The start of a save or a move (R336); slot 0 first completes a `reap` (R155). A thread that a `stop` of its own is about to
stop does not run again (R238). A core whose context is not there, and a destination that is retired, leave the command
without effect. DESIGN CHOICE (log 40). -/
def State.beginSave (s : State) (op lcore : Nat) (target : Option Nat) (again : Instr) : State :=
  let p := s.physical lcore
  let c := s.core p
  let s := s.hcmdStart (hcmdWord op 0 lcore (target.getD 0)) (if target.isSome then hcmdCoreMask else hcmdSaveMask)
  if (match (c.slot 0).wait with
      | .reap _ _ => true
      | _ => false) then s.post again
  else if c.gone.isSome ∨ c.saving.isSome ∨ (target.map (fun d => (s.core d).retired)) = some true then s.hcmdDone
  else
    let was := (List.range 16).filter (fun n => (c.slot n).st == .active && (c.slot n).stopAt.isNone)
    (((s.setCore p { c with saving := some target, wasActive := was }).stopAll p)).post (.contextCopy p)

/-- SAVE_CORE (R336). -/
def execSaveCore (lcore : Nat) (s : State) : Answer := .next (s.beginSave 3 lcore none (.saveCore lcore))

/-- MOVE_CORE (R336). -/
def execMoveCore (lcore dest : Nat) (s : State) : Answer := .next (s.beginSave 4 lcore (some dest) (.moveCore lcore dest))

/-- A slot holds nothing that must still come: it is not running, and what it waits for is a deque entry for its own `dec`
at most, which the context carries. One whose synchronising access is between two attempts goes on trying, and the copy of the
context waits until that access has ended. DESIGN CHOICE (log 64). -/
def Slot.atRest (t : Slot) (p : Nat) : Bool :=
  t.st != .active && (match t.wait with
    | .none => true
    | .reply r => homeOwn r.home p && (match r.op with
      | .dec => true
      | _ => false)
    | _ => false)

/-- Steps under way that belong to a core's context. -/
def contextStep (p : Nat) (e : Instr) : Bool :=
  match e with
  | .homePerform r => r.core == p && (match r.op with
    | .agentRead (.hqs _) _ _ | .agentWrite (.hqs _) _ _ | .complete (.hqs _) _ => false
    | _ => true)
  | .remoteReply r _ => r.core == p
  | .cancelPropagation _ _ _ (some r) => match r.home with
    | .ls q _ => q == p
    | _ => false
  | _ => false

/-- The core that the context of a logical core goes to is empty: it does not stand vacated before its forwarding entry is
removed, or while it refuses requests to another context's saved store (R337, R338). -/
def State.destReady (s : State) (lcore d : Nat) : Bool :=
  match (s.core d).gone with
  | none => true
  | some none => s.physical lcore == d
  | some (some _) => false

/-- The context may be copied: nothing of the core is outstanding, and the core it goes to may receive it (R336, R337). -/
def State.copyReady (s : State) (p : Nat) : Bool :=
  let c := s.core p
  c.oac == 0 && c.slots.all (fun e => e.2.atRest p) && c.copyQueue.isEmpty && c.vecQueue.isEmpty && c.vecRun.isNone &&
  c.arrivalRun.isNone && c.spilling.isNone && c.reading.isNone && [0, 1, 2, 3].all (fun (t : Tile) =>
    match (c.tile t).lock with
    | some j => j.held
    | none => true) && !s.due.any (contextStep p) && (match c.saving with
    | some (some d) => (s.core d).retired || s.destReady (s.logical p) d
    | _ => true)

/-- The bytes and full/empty bits of a core's store, by offset. -/
def State.storeBytes (s : State) (p : Nat) : List Host.Cell :=
  (s.mem.filter (fun c => decide (localKey p 0 ≤ c.1) && decide (c.1 < localKey (p + 1) 0))).map
    (fun c => (c.1 - localKey p 0, c.2))
def State.storeBits (s : State) (p : Nat) : List (Nat × Bool) :=
  (s.fe.filter (fun e => decide (localKey p 0 / 8 ≤ e.1) && decide (e.1 < localKey (p + 1) 0 / 8))).map
    (fun e => (e.1 - localKey p 0 / 8, e.2))

/-- A core's store holds given bytes and bits and nothing else. -/
def State.setStore (s : State) (p : Nat) (bytes : List Host.Cell) (fe : List (Nat × Bool)) : State :=
  let mem := s.mem.filter (fun c => !(decide (localKey p 0 ≤ c.1) && decide (c.1 < localKey (p + 1) 0)))
  let bits := s.fe.filter (fun e => !(decide (localKey p 0 / 8 ≤ e.1) && decide (e.1 < localKey (p + 1) 0 / 8)))
  { s with mem := bytes.foldl (fun m c => Memory.setByte m (localKey p 0 + c.1) c.2) mem
           fe := fe.foldl (fun m e => Sparse.put true m (localKey p 0 / 8 + e.1) e.2) bits }

/-- A request of a context at its new core. -/
def moveRequest (p d : Nat) (r : Request) : Request :=
  { r with core := if r.core = p then d else r.core
           home := match r.home with
             | .ls q o => .ls (if q = p then d else q) o
             | h => h }

/-- A slot of a context at its new core: it runs again if it ran before the stop (R336). -/
def moveSlot (p d cyc : Nat) (was : List Nat) (e : Nat × Slot) : Nat × Slot :=
  let t := e.2
  (e.1, { t with
    st := if t.st = .stopped ∧ was.contains e.1 then .active else t.st
    wait := match t.wait with
      | .reply r => .reply (moveRequest p d r)
      | w => w
    wakeAt := cyc + 1, stopAt := none, latchAt := 0 })

/-- The context of a core as it stands at a physical core `d`, which keeps its own buffers (R336), its instruction cache with the
lines of the context's queues among them. DESIGN CHOICE (log 63). -/
def installCore (c old : Core) (p d cyc : Nat) (logical : Option Nat) : Core :=
  { c with
    logical := logical
    slots := c.slots.map (moveSlot p d cyc c.wasActive)
    pushes := c.pushes.map (fun w => { w with cause := w.cause.map (moveRequest p d) })
    vdOld := none, tlb := old.tlb, walks := old.walks, noPage := old.noPage, drops := old.drops, lastDrop := old.lastDrop
    icache := old.icache, fills := old.fills, saving := none, wasActive := [], gone := none, forwards := []
    sendsOut := old.sendsOut, ctxOut := old.ctxOut, retired := old.retired, turn := 0, bankAt := old.bankAt
    bankRank := old.bankRank, bankUsed := old.bankUsed, sectorAt := old.sectorAt }

/-- A core whose context has left: its network interface still offers the context packets it has not handed over (R376), and
its translations are its own. -/
def vacated (c : Core) (target : Option Nat) : Core :=
  { Core.reset with
    logical := if target.isNone then c.logical else none, gone := some target, ctxOut := c.ctxOut, tlb := c.tlb, walks := c.walks
    noPage := c.noPage, drops := c.drops, lastDrop := c.lastDrop, icache := c.icache, fills := c.fills, retired := c.retired }

/-- The HQS rewrites a far-window entry of a logical core, so that it names the physical core (R337, R361): a read and a write at
its slice, in the class of slot 0's accesses (log 43). -/
def farEntryWork (s : State) (p lcore d half : Nat) : Work Unit := do
  let pa := s.hub.fwtb.toNat / 2 ^ 17 * 2 ^ 17 + 8 * (2 * lcore + half)
  let w ← readPhys Config.slot0Queue { tag := half, idx := 0, off := 0 } pa
  let _ ← Work.want [{ key := { tag := half, idx := 1, off := 0 }, core := p, hq := Config.slot0Queue, va := 0, n := 8,
                       write := some (leList 8 (w.toNat / 2 ^ 13 * 2 ^ 13 + d % 2 ^ 13)), remote := none,
                       home := some (.dev pa) }]
  pure ()

/-- Both entries, in no promised order; one that is refused stays as it is (log 40). -/
def farWork (s : State) (p lcore d : Nat) : Work Unit := do
  let _ ← (farEntryWork s p lcore d 0).both (farEntryWork s p lcore d 1)
  pure ()

/-- The words of a context's image go to the save area; their number and layout are not stated, and they are free (log 40). -/
def imageWork (p addr : Nat) (l : List Word) : Work Unit := do
  let _ ← Work.want (((List.range l.length).zip l).map (fun e =>
    { key := { tag := 0, idx := 0, off := e.1 }, core := p, hq := Config.slot0Queue, va := 0, n := 8,
      write := some (leList 8 e.2.toNat), remote := none, home := some (.dev (addr + 8 * e.1)) }))
  pure ()

/-- What is under way for a context goes on at its new core. -/
def State.rearm (s : State) (d : Nat) : State :=
  let c := s.core d
  let s := (List.range 16).foldl (fun s n =>
    let s := if (c.slot n).st = .trapped false then s.post (.trapDrainEnd d n) else s
    if (c.slot n).owedDue then s.post (.freezeCancel d n) else s) s
  let s := if (List.range 16).any (fun n => (c.slot n).latch.isSome) then s.post (.trapRecordEnqueue d) else s
  let s := if c.pushes.isEmpty then s else s.post (.continuationPush d)
  (if c.arrivals.isEmpty then s else s.post (.arrivalStart d)).readBack d

/-- Freezes that came while the context was on its way take effect (R338). -/
def State.applyFrozen (s : State) (d : Nat) : State :=
  let mask := (s.core d).frozen
  ((List.range 64).filter (fun q => mask.getLsbD q)).foldl (fun s q => s.freezeCore d (BitVec.ofNat 6 q))
    (s.modCore d (fun c => { c with frozen := 0 }))

/-- What has been going on for a command's context is over; a stop of the core that has come meanwhile goes on. -/
def State.contextDone (s : State) (p : Nat) : State :=
  if (s.core p).saving.isSome then s.hcmdDone.postOnce (.contextCopy p) else s.hcmdDone

/-- The far-window entries have been rewritten: every core drops the translations, and the forwarding entry may go once they have
(R337). -/
def State.farDone (s : State) (p lcore d : Nat) : State :=
  (if p = d then s
    else (s.dropEverywhere (tlbiWord 4 0 (BitVec.ofNat 13 lcore) 0)).post (.forwardingRelease p)).contextDone p

/-- The accesses that the HQS makes for a command's context go one step further (R336, R337). -/
def State.contextOn (s : State) (a : Agent) : State :=
  match a with
  | .far p l d => match s.workOn a (farWork s p l d) with
    | .more s => s
    | .ended _ s => s.farDone p l d
  | .image p i addr => match s.workOn a (imageWork p addr (Config.contextImage i)) with
    | .more s => s
    | .ended _ s => s.contextDone p
  | _ => s

/-- A context from physical core `p` stands at `d` (R336-R338). -/
def State.install (s : State) (lcore p d : Nat) (c : Core) (bytes : List Host.Cell) (fe : List (Nat × Bool)) : State :=
  let s := s.setStore d bytes fe
  let s := s.setCore d (installCore c (s.core d) p d (s.cycle d) (if d = lcore then none else some lcore))
  let s := { s with place := Sparse.put lcore s.place lcore d }
  let s := if p = d then s else s.setCore p (vacated (s.core p) (some d))
  ((s.rearm d).applyFrozen d).contextOn (.far p lcore d)

/-- A stopped context goes on where it stands (R336). -/
def State.resumeContext (s : State) (p : Nat) : State :=
  let s := s.modCore p (fun c =>
    { c with slots := c.slots.map (moveSlot p p (s.cycle p) c.wasActive), saving := none, wasActive := [] })
  ((s.rearm p).applyFrozen p).hcmdDone

/-- The accesses for a command's context that are still under way at a core. -/
def State.contextRun (s : State) (p : Nat) : Option Agent :=
  (s.runs.map (·.1)).find? (fun a =>
    match a with
    | .far q _ _ | .image q _ _ => q == p
    | _ => false)

/-- Where a saved context is found: the save area it was written to, and its logical core. -/
def savedKey (ctx : BitVec 48) (lcore : Nat) : Nat := ctx.toNat * 2 ^ 13 + lcore % 2 ^ 13

/-- CONTEXT_COPY (R336): at a rotation boundary the context is written to HCTX or streamed to its new core; one whose new core has
been retired meanwhile goes on where it is. DESIGN CHOICE (log 40). -/
def execContextCopy (p : Nat) (s : State) : Answer :=
  .next (
    let c := s.core p
    match s.contextRun p with
    | some a => s.contextOn a
    | none =>
    if s.copyReady p then
      match c.saving with
      | none => s
      | some none =>
        let l := s.logical p
        let v : Saved := { lcore := l, core := c, bytes := s.storeBytes p, fe := s.storeBits p, ctx := s.hub.hctx }
        let k := savedKey s.hub.hctx l
        let s := { s with saved := (s.saved.filter (fun (e : Nat × Saved) => e.1 != k)) ++ [(k, v)] }
        let (i, s) := (s.setCore p (vacated c none)).draw
        s.contextOn (.image p i s.hub.hctx.toNat)
      | some (some d) =>
        if (s.core d).retired then s.resumeContext p else s.install (s.logical p) p d c (s.storeBytes p) (s.storeBits p)
    else s.post (.contextCopy p))

/-- RESTORE_CORE (R325, R338): the context that was saved at HCTX stands at a physical core again, once that core may receive
it. -/
def execRestoreCore (lcore dest : Nat) (s : State) : Answer :=
  .next (
    let s := s.hcmdStart (hcmdWord 5 0 lcore dest) hcmdCoreMask
    let k := savedKey s.hub.hctx lcore
    match s.saved.find? (fun e => e.1 == k) with
    | none => s.hcmdDone
    | some (_, v) =>
      if (s.core dest).retired then s.hcmdDone
      else if !s.destReady lcore dest then s.post (.restoreCore lcore dest)
      else
        let s := { s with saved := s.saved.filter (fun (e : Nat × Saved) => e.1 != k) }
        s.install lcore (s.physical lcore) dest v.core v.bytes v.fe)

/-! ## The forwarding entry (R276, R337) -/

/-- A request's home after a move. -/
def forwardHome (d : Nat) (h : Home) : Home :=
  match h with
  | .ls _ o => .ls d o
  | h => h

/-- FORWARD_REINJECT (R337): the oldest held request, message or packet goes to the core the context went to. -/
def execForwardReinject (p i : Nat) (s : State) : Answer :=
  match (s.core p).gone, (s.core p).forwards[i]? with
  | some (some d), some e =>
    let s := s.modCore p (fun c => { c with forwards := c.forwards.eraseIdx i })
    match e with
    | .homePerform r => .next (s.arrive { r with home := forwardHome d r.home })
    | .mailboxWrite m => execMailboxWrite { m with toCore := d } s
    | .arrival src _ a => execArrival src d a s
    | _ => .next s
  | _, _ => .next s

/-- A home lies in a physical core's store. -/
def homeIn (p : Nat) (h : Home) : Bool :=
  match h with
  | .ls q _ => q == p
  | _ => false

/-- A step under way that is heading for a physical core's store. -/
def headsFor (p : Nat) (e : Instr) : Bool :=
  match e with
  | .homePerform r | .feRetry r | .cancelPropagation _ _ _ (some r) => homeIn p r.home
  | .engineCompletion c => homeIn p c.comp
  | .engineQueueAccept _ (.reaches c) => homeIn p c.comp
  | .mailboxWrite m => m.toCore == p
  | .messageReoffer (.mail m _) => m.toCore == p
  | .arrival _ d _ => d == p
  | .messageReoffer (.ctx _ d _ _) => d == p
  | .forwardReinject q _ => q == p
  | _ => false

/-- What a parked thread holds that is to be sent to a physical core's store. -/
def Wait.headsFor (w : Wait) (p : Nat) : Bool :=
  match w with
  | .order _ r | .held (.classFree r) _ _ _ _ | .allowance _ _ r | .retry r => homeIn p r.home
  | .engineQueue _ c => homeIn p c.comp
  | .tileStore _ j => j.sectors.any (fun e => homeIn p e.1)
  | _ => false

/-- The forwarding entry is no longer needed: every core has dropped, and nothing is on its way here, or still to be sent to the
home that its translation gave: a parked access, and the completion of a command (R337). -/
def State.releaseReady (s : State) (p : Nat) : Bool :=
  s.dropsMade && (s.core p).forwards.isEmpty && !s.due.any (headsFor p) &&
  !s.cores.any (fun e => e.2.slots.any (fun t => t.2.wait.headsFor p) || e.2.copyQueue.any (fun d => homeIn p d.comp)) &&
  !(s.klus.flatMap (·.2) ++ s.dies.flatMap (·.2.coll)).any (fun d => homeIn p d.comp)

/-- FORWARDING_RELEASE (R337). -/
def execForwardingRelease (p : Nat) (s : State) : Answer :=
  .next (
    if s.releaseReady p then s.modCore p (fun c => { c with gone := none }) else s.post (.forwardingRelease p))

/-! ## Retired cores (R398) -/

/-- The physical core that CRET holds in reset: the one of that number, unless another context stands there. A context that
was moved away stays where it went (R336, R398). DESIGN CHOICE (log 40). -/
def State.retiredCore (s : State) (l : Nat) : Option Nat :=
  if s.physical l = l ∨ ¬ s.place.any (fun e => e.2 == l) then some l else none

/-- A core held in reset: what its network interface still forwards, refuses or offers goes on. -/
def Core.heldInReset (c : Core) : Core :=
  match c.gone with
  | some _ => { c with retired := true }
  | none => { Core.reset with logical := c.logical, retired := true, ctxOut := c.ctxOut, drops := c.drops, lastDrop := c.lastDrop }

/-- A launch whose domain contains a core that is retired completes with 0x0F: before its tasks run it goes no further, and tasks
that run come to their end (R398). -/
def State.retireLaunches (s : State) (l : Nat) : State :=
  ((List.range 64).map (BitVec.ofNat 6)).foldl (fun s q =>
    match (s.hw q).launch with
    | some k =>
      if k.status = 0 ∧ k.stage ≠ .ending ∧ (launchOf k.packet).type ≠ 0 ∧ (launchOf k.packet).domain.contains l then
        (s.modLaunch q (fun k => { k with status := 0x0F })).stepAgent (.hqs q)
      else s
    | none => s) s

/-- CRET (R398): the core is held in reset. -/
def execCret (lcore : Nat) (s : State) : Answer :=
  .next (
    let l := lcore % 2 ^ 13
    let s := match s.retiredCore l with
      | some p => s.modCore p Core.heldInReset
      | none => s
    let s := s.retireLaunches l
    s.modHub (fun h =>
      { h with cret := BitVec.ofNat 13 l, retired := if h.retired.contains l then h.retired else h.retired ++ [l] }))

end Sys2Proof.Machine
end

