-- ==== Sys2Proof/Machine/Slices.lean ====
section
/-! DEFINITION. Memory slices: budgets, the write buffer, tiering and moves, errors, scrub and retirement (R332, R333,
R365-R369, R393-R397). -/

namespace Sys2Proof.Machine

/-! ## Budgets and the write buffer (R332, R333, R368) -/

/-- BUDGET_REFILL (R332): what waits at the slice for its budget may be served again. -/
def execBudgetRefill (i : Nat) (s : State) : Answer :=
  .next (
    let x := s.slice i
    if x.refillAt ≠ 0 ∧ x.refillAt ≤ s.sliceCycle i then
      let s := s.setSlice i { x with readUsed := [], writeUsed := [], refillAt := 0 }
      if x.waiting.isEmpty then s else s.armSlice i
    else s)

/-- WRITE_BUFFER_FLUSH (R368): one merged sector goes to its media page. -/
def execWriteBufferFlush (i : Nat) (s : State) : Answer :=
  .next (
    let s := s.modSlice i (fun x => { x with buffer := x.buffer.tail })
    if (s.slice i).buffer.isEmpty then s else s.post (.writeBufferFlush i))

/-! ## Indirection (R365) -/

def Slice.entry (x : Slice) (f : Nat) : Indirection := Sparse.get Indirection.reset x.ind f
def Slice.setEntry (x : Slice) (f : Nat) (e : Indirection) : Slice := { x with ind := Sparse.put Indirection.reset x.ind f e }

/-- The media pages that exist: 57,344 of the slice's HBM4E, and those of the LPDDR-6 pool of 6 TiB, of which an eighth is
reserved too (00_scope.md, R364, R365, R369). -/
def pageExists (tier : Bool) (loc : BitVec 27) : Bool := decide (loc.toNat < if tier then 88080384 else 57344)

/-- The frames of a slice that have a media page, in order. -/
def Slice.validFrames (x : Slice) : List Nat := (x.ind.filter (·.2.v)).map (·.1)

/-- The cycles between two sectors of the patrol, and between two of the hot list's scrub, which is made 64 times in a period:
one slice cycle in 16 at most (R395). -/
def Slice.patrolGap (x : Slice) (frames times : Nat) : Nat :=
  max 16 (2 ^ 20 * max 1 x.period.toNat / (1024 * max 1 frames * times))

/-- The patrol and the hot list's scrub are under way where they have something to read (R395). -/
def State.armPatrol (s : State) (i : Nat) : State :=
  let x := s.slice i
  let cyc := s.sliceCycle i
  let s := match x.patrol, x.validFrames with
    | none, f :: _ => if x.scrubEn then
        (s.modSlice i (fun x => { x with patrol := some (f, 0), patrolAt := cyc + x.patrolGap x.validFrames.length 1 })).post
          (.patrolScrub i f 0 false)
      else s
    | _, _ => s
  match x.hotScrub, x.hotList with
  | none, e :: _ => if x.scrubEn then
      (s.modSlice i (fun x => { x with hotScrub := some (e.1, 0), hotAt := cyc + x.patrolGap x.hotList.length 64 })).post
        (.patrolScrub i e.1 0 false)
    else s
  | _, _ => s

/-- INDIRECTION_WRITE (R365): only while MV is clear, and with the number of a page that exists; a write of another number is
ignored. DESIGN CHOICE (log 49). -/
def execIndirectionWrite (i frame : Nat) (w : Word) (s : State) : Answer :=
  .next (
    if ((s.slice i).entry frame).mv ∨ ¬ pageExists (w.getLsbD 62) (w.setWidth 27) then s
    else
      (s.modSlice i (fun x =>
        x.setEntry frame { v := w.getLsbD 63, tier := w.getLsbD 62, mv := false, ret := w.getLsbD 60, loc := w.setWidth 27 })).armPatrol i)

/-- A memory key lies in a valid frame of a slice. -/
def State.inValidFrame (s : State) (i k : Nat) : Bool :=
  decide (k < 2 ^ 43) && sliceOf k == i && frameExists k && ((s.slice i).entry (frameOf k)).v

/-- SLICE_INIT (R161, R365): zero data and full bits in every valid frame. -/
def execSliceInit (i : Nat) (s : State) : Answer :=
  .next (State.armPatrol { s with
    mem := s.mem.filter (fun c => !s.inValidFrame i c.1)
    fe := s.fe.filter (fun e => !s.inValidFrame i (8 * e.1)) } i)

/-! ## Hot frames and moves (R366, R367) -/

/-- A list of frames with their counts, the better one first by a test (insertion sort). -/
def insertBy (lt : Nat × Nat → Nat × Nat → Bool) (a : Nat × Nat) : List (Nat × Nat) → List (Nat × Nat)
  | [] => [a]
  | b :: l => if lt a b then a :: b :: l else b :: insertBy lt a l

def sortBy (lt : Nat × Nat → Nat × Nat → Bool) : List (Nat × Nat) → List (Nat × Nat)
  | [] => []
  | a :: l => insertBy lt a (sortBy lt l)

/-- Frames of a tier that may move, with their counts. -/
def Slice.frames (x : Slice) (tier : Bool) : List (Nat × Nat) :=
  (x.ind.filter (fun e => e.2.v && e.2.tier == tier && !e.2.mv)).map (fun e => (e.1, Sparse.get 0 x.counts e.1))

/-- The hot frames of LPDDR-6, in descending count, ties to the lower frame (R366). -/
def Slice.hotFrames (x : Slice) : List (Nat × Nat) :=
  ((sortBy (fun a b => decide (b.2 < a.2) || (a.2 == b.2 && decide (a.1 < b.1))) (x.frames true)).filter
    (fun e => decide (x.hot.toNat ≤ e.2))).take x.maxmv.toNat

/-- The frames of HBM4E, in ascending count, ties to the lower frame. -/
def Slice.coldFrames (x : Slice) : List (Nat × Nat) :=
  sortBy (fun a b => decide (a.2 < b.2) || (a.2 == b.2 && decide (a.1 < b.1))) (x.frames false)

/-- A move of a frame begins (R367). -/
def Slice.startMove (x : Slice) (m : MoveRun) : Slice :=
  { (x.setEntry m.frame { x.entry m.frame with mv := true }) with moves := x.moves ++ [m] }

/-- Each hot frame and the coldest frame left change places, where the hot count is the larger: two moves (R366). -/
def Slice.swaps (x : Slice) : List (Nat × Nat) → List (Nat × Nat) → Slice
  | h :: hs, c :: cs =>
    if c.2 < h.2 then
      let a := x.entry h.1
      let b := x.entry c.1
      ((x.startMove { frame := h.1, sector := 0, tier := false, loc := b.loc, retire := false }).startMove
        { frame := c.1, sector := 0, tier := true, loc := a.loc, retire := false }).swaps hs cs
    else x
  | _, _ => x

/-- EPOCH_END (R366). -/
def execEpochEnd (i : Nat) (s : State) : Answer :=
  .next (
    let x := s.slice i
    if x.epochAt ≠ 0 ∧ x.epochAt ≤ s.sliceCycle i then
      let idle := x.moves.isEmpty
      let y := if x.tierEn then x.swaps x.hotFrames x.coldFrames else x
      let s := s.setSlice i { y with counts := [], epochAt := 0 }
      if idle && !y.moves.isEmpty then s.post (.moveSectorStep i) else s
    else s)

/-- The end of a move: LOC, TIER and MV, and RET for a retired page (R367, R397). -/
def Slice.endMove (x : Slice) (m : MoveRun) : Slice :=
  x.setEntry m.frame { x.entry m.frame with
    tier := m.tier, loc := m.loc, mv := false, ret := m.retire || (x.entry m.frame).ret }

/-- MOVE_SECTOR_STEP (R367): a move changes no value and no full/empty bit. -/
def execMoveSectorStep (i : Nat) (s : State) : Answer :=
  .next (
    let x := s.slice i
    match x.moves with
    | [] => s
    | m :: l =>
      if m.sector < 1023 then
        (s.setSlice i { x with moves := { m with sector := m.sector + 1 } :: l }).post (.moveSectorStep i)
      else
        let s := s.setSlice i ({ x with moves := l }.endMove m)
        if l.isEmpty then s else s.post (.moveSectorStep i))

/-- RETREQ (R397): the slice moves the frame to the page offered and sets RET at the end. The reserved bits read 0 (R7). -/
def execRetreq (i : Nat) (frame : Nat) (w : Word) (s : State) : Answer :=
  .next (
    let x := { (s.slice i) with retreq := BitVec.ofNat 64 (w.toNat / 2 ^ 62 * 2 ^ 62 + w.toNat % 2 ^ 27) }
    let e := x.entry frame
    if w.getLsbD 63 ∧ e.v ∧ ¬ e.mv ∧ pageExists (w.getLsbD 62) (w.setWidth 27) then
      let idle := x.moves.isEmpty
      let s := s.setSlice i (x.startMove
        { frame := frame, sector := 0, tier := w.getLsbD 62, loc := w.setWidth 27, retire := true })
      if idle then s.post (.moveSectorStep i) else s
    else s.setSlice i x)

/-! ## Errors, scores and the hot list (R393-R396) -/

/-- A score on the hot list of 64 frames (R396). -/
def addScore (l : List (Nat × Nat)) (f k : Nat) : List (Nat × Nat) :=
  if l.any (·.1 = f) then l.map (fun e => if e.1 = f then (f, e.2 + k) else e)
  else if l.length < 64 then l ++ [(f, k)]
  else
    match sortBy (fun a b => decide (a.2 < b.2) || (a.2 == b.2 && decide (b.1 < a.1))) l with
    | [] => [(f, k)]
    | low :: _ => if k < low.2 then l else l.filter (·.1 ≠ low.1) ++ [(f, k)]

def scoreOf (l : List (Nat × Nat)) (f : Nat) : Nat := ((l.find? (·.1 = f)).map (·.2)).getD 0

/-- One more, stopping at the maximum (R394). -/
def satInc {n : Nat} (x : BitVec n) : BitVec n := if x = BitVec.allOnes n then x else x + 1

/-- The end of the scrub period under way: the next multiple of PERIOD units of the slice's cycles (R395, R396). -/
def Slice.nextHalve (x : Slice) (cyc : Nat) : Nat :=
  let n := 2 ^ 20 * max 1 x.period.toNat
  (cyc / n + 1) * n

/-- The scores halve next at the end of the period under way. -/
def State.armHalve (s : State) (i : Nat) : State := s.modSlice i (fun x => { x with halveAt := x.nextHalve (s.sliceCycle i) })

/-- A counted error of a frame: its score, and the retirement notice when it reaches RTHR (R394, R396). -/
def State.score (s : State) (i f k : Nat) (count : Slice → Slice) : State :=
  let x := count (s.slice i)
  let x := { x with lastf := BitVec.ofNat 27 (i * 2 ^ 18 + f) }
  if !x.scrubEn then s.setSlice i x
  else
    let before := scoreOf x.hotList f
    let l := if k = 0 then x.hotList else addScore x.hotList f k
    let first := x.hotList.isEmpty && !l.isEmpty
    let s := s.setSlice i { x with hotList := l }
    let s := if first then ((s.armHalve i).post (.scrubPeriodEnd i)).armPatrol i else s
    if before < x.rthr.toNat ∧ x.rthr.toNat ≤ scoreOf l f then
      s.modHub (fun h => { h with notices := h.notices ++ [.retire i f] })
    else s

/-- A read that has failed its ECC or its tag and has been repeated (R369, R393, R394, R396): a lasting failure is counted and
scored, and a tag failure counts for each of the reads that failed. DESIGN CHOICE (log 49). -/
def State.readFailed (s : State) (i f : Nat) (tag again : Bool) : State :=
  let n := (if tag then 1 else 0) + (if again then 1 else 0)
  let count (x : Slice) : Slice := { x with ue := (List.range n).foldl (fun u _ => satInc u) x.ue }
  if n = 0 then s else s.score i f (if again then 64 else 0) count

/-- A corrected error (R393, R394, R396): one that comes again at the same bit is lasting. -/
def State.corrected (s : State) (i f : Nat) (again : Bool) : State :=
  if again then s.score i f 8 (fun x => { x with lce := satInc x.lce }) else s.score i f 1 (fun x => { x with ce := satInc x.ce })

/-- The number of a sector of a slice's frame, in units of 64 bytes of device-physical memory. -/
def sectorNumber (i f sector : Nat) : Nat := (i * 2 ^ 18 + f) * 2 ^ 10 + sector

/-- An access that reads its sector and could not, when its turn has come: with the repeat failed too, it is refused (R369). -/
def State.failAccess (s : State) (i : Nat) (r : Request) (tag again : Bool) : State :=
  match r.home with
  | .dev pa =>
    if opReads r.op ∧ s.due.contains (.homePerform r) ∧ sliceOf pa = i ∧ (s.requestRefused r pa).isNone ∧ s.mayServe r pa ∧ ¬ s.behindOwn r then
      let s := s.readFailed i (frameOf pa) tag again
      if again then (({ s with due := s.due.erase (.homePerform r) }.leaveSlice r pa).refuse r 0x06) else s
    else s
  | _ => s

/-- A frame is scrubbed: scrubbing is enabled, and the frame has a page and is not being moved (R395). -/
def Slice.scrubs (x : Slice) (f sector : Nat) : Bool :=
  x.scrubEn && (x.entry f).v && !(x.entry f).mv && decide (sector < 1024)

/-- The sector that the slice's moves copy next (R367). -/
def Slice.copying (x : Slice) (f sector : Nat) : Bool :=
  match x.moves with
  | m :: _ => m.frame == f && m.sector == sector
  | [] => false

/-- The sector after one, in a list of frames: the next of its frame, the first of the next frame, or the first of all. -/
def nextSectorOf (fs : List Nat) (f sector : Nat) (skip : Bool) : Option (Nat × Nat) :=
  if !skip && decide (sector + 1 < 1024) && fs.contains f then some (f, sector + 1)
  else
    match fs.find? (fun g => decide (f < g)) with
    | some g => some (g, 0)
    | none => fs.head?.map (fun g => (g, 0))

/-- The patrol has read a sector, or skipped a frame that is being moved: it goes on with the next (R395). -/
def State.patrolOn (s : State) (i frame sector : Nat) : State :=
  let x := s.slice i
  let next := if x.scrubEn then nextSectorOf x.validFrames frame sector (x.entry frame).mv else none
  let s := s.setSlice i { x with
    patrol := next, patrolAt := max x.patrolAt (s.sliceCycle i) + x.patrolGap x.validFrames.length 1 }
  match next with
  | some (f, k) => s.post (.patrolScrub i f k false)
  | none => s

/-- The same of the scrub of the hot list. -/
def State.hotOn (s : State) (i frame sector : Nat) : State :=
  let x := s.slice i
  let fs := (sortBy (fun a b => decide (a.1 < b.1)) x.hotList).map (·.1)
  let next := if x.scrubEn then nextSectorOf fs frame sector (x.entry frame).mv else none
  let s := s.setSlice i { x with hotScrub := next, hotAt := max x.hotAt (s.sliceCycle i) + x.patrolGap fs.length 64 }
  match next with
  | some (f, k) => s.post (.patrolScrub i f k false)
  | none => s

/-- PATROL_SCRUB (R395): one sector is read, and a corrected one is written back and counted. The patrol's own reads and those
of the hot list's scrub go on with the next sector; a scrubbed sector changes no value. -/
def execPatrolScrub (i frame sector : Nat) (corrected : Bool) (s : State) : Answer :=
  .next (
    if corrected then (if (s.slice i).scrubs frame sector then s.corrected i frame false else s)
    else if (s.slice i).patrol = some (frame, sector) ∧ (s.slice i).patrolAt ≤ s.sliceCycle i then s.patrolOn i frame sector
    else if (s.slice i).hotScrub = some (frame, sector) ∧ (s.slice i).hotAt ≤ s.sliceCycle i then s.hotOn i frame sector
    else s)

/-- SCRUB_PERIOD_END (R396): once at the end of each period the scores halve, and frames at 0 leave the list. -/
def execScrubPeriodEnd (i : Nat) (s : State) : Answer :=
  .next (
    let x := s.slice i
    if x.halveAt ≤ s.sliceCycle i then
      let l := (x.hotList.map (fun e => (e.1, e.2 / 2))).filter (fun e => e.2 != 0)
      let s := (s.setSlice i { x with hotList := l }).armHalve i
      if l.isEmpty then s else s.post (.scrubPeriodEnd i)
    else s.post (.scrubPeriodEnd i))

end Sys2Proof.Machine
end

