-- ==== Sys2Proof/Machine/Alarms.lean ====
section
/-! DEFINITION. Links, the Colonnade, the host port, the security alarm and power (R370, R375, R379-R382, R389-R392,
R399, R400, R403). -/

namespace Sys2Proof.Machine

/-! ## Colonnade ports and refusals (R380, R392, R403) -/

/-- The ports of both hubs (00_scope.md: 9 per hub). -/
def portCount : Nat := 18

def Hub.port (h : Hub) (n : Nat) : Port := Sparse.get Port.reset h.ports n
def Hub.setPort (h : Hub) (n : Nat) (v : Port) : Hub := { h with ports := Sparse.put Port.reset h.ports n v }

/-- The remote module a request is for. -/
def remoteOf (r : Request) : Option Nat :=
  match r.home with
  | .remote m _ => some m
  | _ => none

/-- A request that is lost when ports stop, `lost` saying for a hub and a module whether they were the way there: one of a module reached through them that has not been acknowledged, on its way
there or with its answer still to come back (R392). -/
def lostRequest (lost : Nat → Nat → Bool) (e : Instr) : Option Request :=
  match e with
  | .homePerform r | .remoteReply r _ | .relaxedLoadReply r _ | .writeAck r | .refusal r _ => match remoteOf r with
    | some m => if lost (hubOf (dieOfCore r.core)) m then some r else none
    | none => none
  | _ => none

/-- The collective commands that wait on a die for a member in a module that ports have lost (R392). -/
def State.lostColl (s : State) (lost : Nat → Nat → Bool) (d : Nat) : List EngineCmd :=
  (s.die d).coll.filter (fun c => !s.collStarted d c && (s.groupMembers d (collGrp c.block)).1.any (fun m =>
    match m with
    | .remote n => lost (hubOf d) n
    | .die _ => false))

/-- What ports have lost is refused with 0x06: unacknowledged requests, and collectives that need a remote member (R392). -/
def State.refuseLost (s : State) (lost : Nat → Nat → Bool) : State :=
  let rs := s.due.filterMap (lostRequest lost)
  let s := rs.foldl (fun s r => s.refuse r 0x06) { s with due := s.due.filter (fun e => (lostRequest lost e).isNone) }
  (List.range 8).foldl (fun s d => (s.lostColl lost d).foldl (fun s c => s.collDone d c (engineStatus 0 0 0x06)) s) s

/-- A hub reaches a module through a port: its MODRT names it (R380). -/
def State.usesPort (s : State) (n hub m : Nat) : Bool := s.hub.portFor hub m == some n

/-- A port stops: EN is cleared, and its unacknowledged requests are refused (R392, R393, R403). -/
def State.stopPort (s : State) (n : Nat) : State :=
  (s.modHub (fun h => h.setPort n { h.port n with en := false, up := false })).refuseLost (s.usesPort n)

/-- Every port stops (R391, R392). -/
def State.stopPorts (s : State) : State :=
  ((List.range portCount).foldl (fun s n =>
    s.modHub (fun h => h.setPort n { h.port n with en := false, up := false })) s).refuseLost (fun _ _ => true)

/-- A write of 1 to EN restarts a port, where that is allowed (R403). -/
def State.startPort (s : State) (n : Nat) : State :=
  if s.hub.level.toNat < 3 ∧ s.hub.keysAgreed then s.modHub (fun h => h.setPort n { h.port n with en := true, fails := 0 }) else s

/-- A write of CPORTn (R6, R403): EN takes the bit written, and with 0 the port stops. -/
def State.writePort (s : State) (n : Nat) (w : Word) : State :=
  if portCount ≤ n then s else if w.getLsbD 63 then s.startPort n else s.stopPort n

/-- CPORT_ENABLE (R403). -/
def execCportEnable (n : Nat) (s : State) : Answer := .next (s.startPort n)

/-- COLONNADE_LINK_TRAINED (R403). -/
def execColonnadeLinkTrained (port : Nat) (lat : BitVec 16) (s : State) : Answer :=
  .next (if (s.hub.port port).en then s.modHub (fun h => h.setPort port { h.port port with up := true, lat := lat }) else s)

/-- The failures in a row, with one more: the first if the one before it was repaired. -/
def inRow (again : Bool) (n : Nat) : Nat := if again then n + 1 else 1

/-- COLONNADE_CRC_REPLAY (R393): 16 failures in a row stop the port. -/
def execColonnadeCrcReplay (port : Nat) (again : Bool) (s : State) : Answer :=
  .next (
    let n := inRow again (s.hub.port port).fails
    if n < 16 then s.modHub (fun h => h.setPort port { h.port port with fails := n })
    else
      ((s.modHub (fun h => h.setPort port { h.port port with fails := 0 })).stopPort port).modHub (fun h =>
        { h with notices := h.notices ++ [.portStopped port] }))

/-- BRIDGE_CRC_FAILURE (R375): 16 failures in a row raise a machine-check notice; resending goes on. -/
def execBridgeCrcFailure (link : Nat) (again : Bool) (s : State) : Answer :=
  .next (s.modHub (fun h =>
    let n := inRow again (Sparse.get 0 h.bridgeFails link)
    { h with bridgeFails := Sparse.put 0 h.bridgeFails link n,
             notices := if n = 16 then h.notices ++ [.bridge link] else h.notices }))

/-! ## Requests of other modules (R380) -/

/-- What an operation of another module needs of IMPT. -/
def importAllows (o : AccOp) (e : Word) (pa : Nat) : Bool :=
  e.getLsbD 63 && (opNeed o).allowed (e.getLsbD 62) (e.getLsbD 61) false && decide (pa / 2 ^ 16 ≤ e.toNat / 2 ^ 16 % 2 ^ 27)

/-- The packet that answers a request of another module, with a value or with bytes. -/
def answerTo (f : ColFrame) (k : ColKind) (data : Word) (bytes : List Byte) : ColFrame :=
  { kind := k, src := f.dest, dest := f.src, seq := f.seq, op := f.op, pa := f.pa, data := data, expected := 0, bytes := bytes }

/-- The cause with which a request of another module is refused: by IMPT, or by its slice (R380, R397). -/
def State.importRefusal (s : State) (f : ColFrame) : Option (BitVec 8) :=
  if !importAllows f.op (Sparse.get 0 s.hub.impt f.src) f.pa then some 0x06
  else if opReads f.op then s.readRefuses f.pa else s.sliceRefuses f.pa

/-- A request of another module at this one (R275, R380): it performs once, at its slice, and is answered through the hub that it
came to, a read of more than a word with all its bytes. -/
def State.importPerform (s : State) (hub : Nat) (f : ColFrame) : State :=
  match s.importRefusal f with
  | some c => s.sendFrame hub (answerTo f (.refusal c) 0 [])
  | none =>
    if s.ready f.op f.pa then
      let bs := s.bytesFor f.op f.pa
      let (v, s) := (s.chargeFrame (opWrites f.op) f.pa).touchMemory f.op f.pa f.data f.expected
      s.sendFrame hub (answerTo f (.reply v) v bs)
    else s.sendFrame hub (answerTo f .failed 0 [])

/-- The hub of a Colonnade port. -/
def hubOfPort (port : Nat) : Nat := port / 9

/-- A packet that comes in by a port is a request for this module that has not been delivered yet (R380). -/
def State.importNew (s : State) (port : Nat) (f : ColFrame) : Bool :=
  s.hub.portUp port && f.dest == Config.moduleNumber && f.kind == .request && !s.hub.delivered.contains (f.src, f.seq)

/-- A request of another module is delivered: a copy of it will be discarded (R380). -/
def State.importDelivered (s : State) (f : ColFrame) : State :=
  s.modHub (fun h => { h with delivered := h.delivered ++ [(f.src, f.seq)] })

/-- COLONNADE_FRAME_RECEIVE (R275, R380): a packet for another module is forwarded by MODRT, and a request that finds no way
there is refused; a request for this module performs once, and a copy that has been delivered already is discarded. An answer
to this module's own request has come with the request's own step. -/
def execColonnadeFrameReceive (port : Nat) (f : ColFrame) (s : State) : Answer :=
  .next (
    if !s.hub.portUp port then s
    else if f.dest ≠ Config.moduleNumber then
      if s.hub.reaches (hubOfPort port) f.dest then s.sendFrame (hubOfPort port) f
      else if f.kind = .request then s.sendFrame (hubOfPort port) (answerTo f (.refusal 0x06) 0 [])
      else s
    else if s.importNew port f then (s.importDelivered f).importPerform (hubOfPort port) f
    else s)

/-! ## The host port and the system cores (R281, R381-R383) -/

/-- The device-physical word that an offset of BAR2 reaches (R381). -/
def State.windowAddress (s : State) (off : Nat) : Nat := s.hub.hwin.toNat / 2 ^ 36 * 2 ^ 36 + off % 2 ^ 36 / 8 * 8

/-- An access of the host through BAR2 (R381): it performs at its slice, and full/empty bits stand as they are. What a refused
read returns is not stated, and is free (log 1). -/
def State.windowAccess (s : State) (write : Bool) (off : Nat) (v : Word) : State :=
  let pa := s.windowAddress off
  if write then (if (s.sliceRefuses pa).isSome then s else (s.chargeFrame true pa).setWord pa v)
  else
    let (w, s) := if (s.readRefuses pa).isSome then
        let (i, s) := s.draw
        (Config.unstated i, s)
      else (s.word pa, s.chargeFrame false pa)
    s.modHub (fun h => { h with hostGot := h.hostGot ++ [(off, w)] })

/-- The key of a byte of the SRAM that the system cores of a hub share (R383). -/
def sramKey (hub off : Nat) : Nat := 2 ^ 44 + hub * 2 ^ 23 + off % 2 ^ 23

/-- Which accesses of a system core read what they find, so that a failed sector refuses them (R397). -/
def sysReads (o : SysOp) : Bool :=
  match o with
  | .load _ _ | .atomic _ | .atomicW _ | .reserve _ => true
  | .store _ | .conditional _ | .sector _ => false

/-- Which accesses of a system core write. -/
def sysWrites (o : SysOp) : Bool :=
  match o with
  | .load _ _ | .reserve _ => false
  | .store _ | .atomic _ | .atomicW _ | .conditional _ | .sector _ => true

/-- An access of a system core writes: a conditional store does where its reservation, `held`, stands. -/
def sysStores (a : SysAccess) (held : Bool) : Bool :=
  match a.op with
  | .conditional _ => held
  | o => sysWrites o

/-- The cause with which device memory refuses a system core. -/
def State.sysRefusal (s : State) (a : SysAccess) (pa : Nat) : Bool :=
  (if sysReads a.op then s.readRefuses pa else s.sliceRefuses pa).isSome

/-- A whole sector that a system core writes is no longer failed (R397). -/
def State.repairSector (s : State) (o : SysOp) (pa : Nat) : State :=
  match o with
  | .sector bs =>
    if pa % 64 = 0 ∧ bs.length = 64 then
      s.modSlice (sliceOf pa) (fun x => { x with failed := x.failed.filter (fun k => k != pa / 64) })
    else s
  | _ => s

/-- A system core has the answer of its access (R281). -/
def State.sysAnswer (s : State) (a : SysAccess) (v : Word) : State :=
  s.modHub (fun h => { h with sysGot := h.sysGot ++ [(a.core, a.id, v)] })

/-- The low 32 bits of a value, extended with their sign: what RV64 makes of a 32-bit operand. -/
def word32 (v : Word) : Word := (v.setWidth 32).signExtend 64

/-- The effect of a system core's operation at a byte of memory, and the value that it returns (R281). A conditional store returns 0
where its reservation, `held`, stands and 1 where it does not, and then writes nothing. -/
def State.sysTouch (s : State) (a : SysAccess) (k : Nat) (data : Word) (held : Bool) : Word × State :=
  match a.op with
  | .load wd u => s.touchMemory (.load wd u) k data a.expected
  | .store wd => s.touchMemory (.store wd) k data a.expected
  | .atomic f => s.touchMemory (.atomic f) k data a.expected
  | .atomicW f =>
    let old := word32 (Memory.load s.mem k 4)
    (old, { s with mem := Memory.store s.mem k 4 (atomicApply f old (word32 data) (word32 a.expected)) })
  | .reserve wd => s.touchMemory (.load wd false) k data a.expected
  | .conditional wd =>
    if held then (0, (s.touchMemory (.store wd) k data a.expected).2) else (1, s)
  | .sector bs => s.touchMemory (.sector bs) k data a.expected

/-- A system core gives up what it has reserved. -/
def State.sysRelease (s : State) (core : Nat) : State :=
  { s with
    slices := s.slices.map (fun (e : Nat × Slice) => (e.1, { e.2 with reserved := e.2.reserved.filter (fun r => r.1 != core) }))
    hub := { s.hub with sysHeld := s.hub.sysHeld.filter (fun r => r.1 != core) } }

/-- Whether an access reserves, and whether it gives up the core's reservation. -/
def sysReserves (o : SysOp) : Bool :=
  match o with
  | .reserve _ => true
  | _ => false
def sysReleases (o : SysOp) : Bool :=
  match o with
  | .reserve _ | .conditional _ => true
  | _ => false

/-- A system core's access to device memory performs there as one step (R268, R281); full/empty bits stand as they are (R161). A
reservation covers the 64 bytes around the word and ends with any write there. DESIGN CHOICE (log 1). What a refused access
answers is not stated, and is free (log 1). -/
def State.sysPerform (s : State) (a : SysAccess) (pa : Nat) (data : Word) : State :=
  if s.sysRefusal a pa then
    let (i, s) := s.draw
    s.sysAnswer a (Config.unstated i)
  else
    let held := (s.slice (sliceOf pa)).reserved.contains (a.core, pa / 64)
    let s := if sysReleases a.op then s.sysRelease a.core else s
    let s := (s.chargeFrame (sysStores a held) pa).repairSector a.op pa
    let s := if sysReserves a.op then s.modSlice (sliceOf pa) (fun x => { x with reserved := x.reserved ++ [(a.core, pa / 64)] })
      else s
    let (v, s) := s.sysTouch a pa data held
    s.sysAnswer a v

/-- A system core's access to the SRAM of its hub (R383). -/
def State.sramPerform (s : State) (a : SysAccess) (off : Nat) (data : Word) : State :=
  let k := sramKey (a.core / 16) off
  let held := s.hub.sysHeld.contains (a.core, k / 64)
  let s := if sysReleases a.op then s.sysRelease a.core else s
  let s := s.modHub (fun h => { h with
    sysHeld := if sysReserves a.op then h.sysHeld ++ [(a.core, k / 64)]
      else if sysStores a held then h.sysHeld.filter (fun e => e.2 != k / 64) else h.sysHeld })
  let (v, s) := s.sysTouch a k data held
  s.sysAnswer a v

/-- HOST_WINDOW_ACCESS (R281, R381, R383): an access that the hubs bring to its home. -/
def execHostWindowAccess (agent : PortAgent) (addr : Nat) (data : Word) (s : State) : Answer :=
  .next (
    match agent with
    | .bar2 w => s.windowAccess w addr data
    | .dev x => s.sysPerform x addr data
    | .sram x => s.sramPerform x addr data)

/-- A line of an instruction cache whose parity failed is fetched again, or its thread traps (R393). -/
def State.lineFailed (s : State) (p n : Nat) (again : Bool) : State :=
  let t := s.slot p n
  if t.st = .active ∧ t.wait = .none then
    if again then s.trapAll p [n] (fun t => (0x06, 2, t.pc))
    else s.modCore p (fun c => { c with icache := c.icache.filter (fun e => e.1 != lineKey t.hq t.pc) })
  else s

/-- The address at which an access that the hubs bring reads device memory. -/
def State.portReads (s : State) (g : PortAgent) (addr : Nat) : Option Nat :=
  match g with
  | .bar2 false => some (s.windowAddress addr)
  | .dev x => if sysReads x.op then some addr else none
  | .bar2 true | .sram _ => none

/-- The first of the accesses that an agent of the hubs has under way. -/
def State.portFirst (s : State) (g : PortAgent) : Option Instr :=
  s.due.find? (fun e =>
    match e, g with
    | .hostWindowAccess (.bar2 _) _ _, .bar2 _ => true
    | .hostWindowAccess (.dev x) _ _, .dev y => x.core == y.core
    | _, _ => false)

/-- A step is a given access that the hubs bring. -/
def isPort (g : PortAgent) (addr : Nat) (data : Word) (e : Instr) : Bool :=
  match e with
  | .hostWindowAccess g' a d => g' == g && a == addr && d == data
  | _ => false

/-- A step is a given packet that comes in by a port. -/
def isFrame (port : Nat) (f : ColFrame) (e : Instr) : Bool :=
  match e with
  | .colonnadeFrameReceive n f' => n == port && f' == f
  | _ => false

/-- A read that the hubs bring and whose sector could not be read, when its turn has come: with the repeat failed too, it is
refused, and what it answers is free (R369, R381, R393; log 1). -/
def State.failPort (s : State) (i : Nat) (g : PortAgent) (addr : Nat) (data : Word) (tag again : Bool) : State :=
  match s.portReads g addr with
  | none => s
  | some pa =>
    if (s.portFirst g).any (isPort g addr data) ∧ sliceOf pa = i ∧ (s.readRefuses pa).isNone then
      let s := s.readFailed i (frameOf pa) tag again
      if !again then s
      else
        let (j, s) := { s with due := s.due.eraseP (isPort g addr data) }.draw
        match g with
        | .dev x => s.sysAnswer x (Config.unstated j)
        | _ => s.modHub (fun h => { h with hostGot := h.hostGot ++ [(addr, Config.unstated j)] })
    else s

/-- A read of another module whose sector could not be read: with the repeat failed too, it is refused with 0x06 (R369, R380). -/
def State.failImport (s : State) (i port : Nat) (f : ColFrame) (tag again : Bool) : State :=
  if s.due.any (isFrame port f) ∧ s.importNew port f ∧ opReads f.op ∧ (s.importRefusal f).isNone ∧
      sliceOf f.pa = i then
    let s := s.readFailed i (frameOf f.pa) tag again
    if again then
      ({ s with due := s.due.eraseP (isFrame port f) }.importDelivered f).sendFrame (hubOfPort port)
        (answerTo f (.refusal 0x06) 0 [])
    else s
  else s

/-- The HQS's next read of a descriptor cannot be made: with the repeat failed too, it is a refused read (R321, R369, R393). -/
def State.failDescriptor (s : State) (i u : Nat) (tag again : Bool) : State :=
  let pa := s.descAddress (u % 65536)
  if sliceOf pa = i ∧ (s.readRefuses pa).isNone then
    let s := s.readFailed i (frameOf pa) tag again
    if again ∧ ¬ s.hub.descLost.contains (u % 65536) then s.modHub (fun h => { h with descLost := h.descLost ++ [u % 65536] }) else s
  else s

/-- MEDIA_REREAD (R369, R393, R395, R397): a failed read has been repeated, and `again` says that it failed again, or that the
same bit was corrected again. A sector that fails while it is being moved is marked failed; an accumulator entry that cannot
be corrected is poisoned (R88). -/
def execMediaReread (i : Nat) (m : MediaRead) (again : Bool) (s : State) : Answer :=
  .next (
    match m with
    | .access r tag => s.failAccess i r tag again
    | .port g addr data tag => s.failPort i g addr data tag again
    | .import_ port f tag => s.failImport i port f tag again
    | .descriptor u tag => s.failDescriptor i u tag again
    | .scrub f sector tag => if (s.slice i).scrubs f sector then s.readFailed i f tag again else s
    | .move f sector tag =>
      if (s.slice i).copying f sector then
        let s := s.readFailed i f tag again
        if again then s.modSlice i (fun x => { x with failed := x.failed ++ [sectorNumber i f sector] }) else s
      else s
    | .corrected f sector => if ((s.slice i).entry f).v ∧ sector < 1024 then s.corrected i f again else s
    | .line p n => s.lineFailed p n again
    | .accumulator p t e =>
      if again ∧ e < 1024 then s.modTile p t (fun x => { x with poison := Sparse.put false x.poison e true }) else s)

/-- MSIX (R382): a vector is signalled to the host. -/
def execMsix (v : BitVec 16) (s : State) : Answer :=
  .next (s.modHub (fun h => { h with msix := v, msixSent := h.msixSent ++ [v] }))

/-! ## The alarm (R389-R391) -/

/-- The level of a source (R390). -/
def Hub.levelOf (h : Hub) (src : BitVec 3) : BitVec 2 :=
  match src.toNat with
  | 0 => h.lvl0
  | 1 => h.lvl1
  | 2 => h.lvl2
  | 3 => h.lvl3
  | 4 => 2
  | 5 => h.lvl5
  | _ => 0

/-- Level 2: the session keys are gone, the ports stop, and the key agreement starts again (R391, R392). -/
def State.levelTwo (s : State) : State :=
  (s.stopPorts.modHub (fun h => { h with keysAgreed := false })).post .keyAgreementDone

/-- Level 3: every key is erased, and the module is held in reset (R391). -/
def State.levelThree (s : State) : State :=
  let s := s.modHub (fun h => { h with keysErased := true, keysAgreed := false, heldInReset := true, running := false, running1 := false })
  { s with due := [], dies := s.dies.map (fun (e : Nat × Die) => (e.1, { e.2 with running := false })) }

/-- A level is raised by a source: LEVEL, the notice, and the actions of the level (R390, R391). -/
def State.raiseLevel (s : State) (src : BitVec 3) (l : BitVec 2) : State :=
  let s := s.modHub (fun h => { h with src := h.src ||| BitVec.twoPow 8 src.toNat })
  if l = 0 then s
  else
    let s := s.modHub (fun h =>
      { h with level := if h.level.ult l then l else h.level, notices := h.notices ++ [.alarm src.toNat l.toNat] })
    match l.toNat with
    | 1 => s
    | 2 => s.levelTwo
    | _ => s.levelThree

/-- ALARM_SOURCE_FIRE (R390): source 7 is reserved, and RAISE has its own step. -/
def execAlarmSourceFire (src : BitVec 3) (s : State) : Answer :=
  .next (if 6 ≤ src.toNat then s else s.raiseLevel src (s.hub.levelOf src))

/-- RAISE (R389, R390): 1 to 3 raise that level. -/
def execRaise (level : BitVec 2) (s : State) : Answer := .next (if level = 0 then s else s.raiseLevel 6 level)

/-- ALARM_SRC_CLEAR (R389): W1C. -/
def execAlarmSrcClear (mask : BitVec 8) (s : State) : Answer :=
  .next (s.modHub (fun h => { h with src := h.src &&& ~~~mask }))

/-- ALCFG_WRITE (R390). -/
def execAlcfgWrite (w : Word) (s : State) : Answer :=
  .next (s.modHub (fun h =>
    if h.alLock then h
    else { h with lvl0 := w.setWidth 2, lvl1 := (w >>> 2).setWidth 2, lvl2 := (w >>> 4).setWidth 2,
                  lvl3 := (w >>> 6).setWidth 2, lvl5 := (w >>> 10).setWidth 2, alLock := w.getLsbD 63 }))

/-- KEY_AGREEMENT_DONE (R391): die-link traffic goes on. -/
def execKeyAgreementDone (s : State) : Answer :=
  .next (s.modHub (fun h => if h.keysErased then h else { h with keysAgreed := true }))

/-- DIE_LINK_TAG_FAILURE (R370): 16 failures in a row raise level 2. -/
def execDieLinkTagFailure (link : Nat) (again : Bool) (s : State) : Answer :=
  .next (
    let n := inRow again (Sparse.get 0 s.hub.linkFails link)
    let s := s.modHub (fun h => { h with linkFails := Sparse.put 0 h.linkFails link n })
    if n = 16 then s.raiseLevel 4 2 else s)

/-! ## Power and temperature (R399, R400) -/

/-- The power of every die over the window, as it has been measured: free values. -/
def State.measure (s : State) : List Nat → State
  | [] => s
  | d :: ds =>
    let (i, s) := s.draw
    (s.modDie d (fun x => { x with power := (Config.outsideWord i).setWidth 16 })).measure ds

/-- The die that is best under a measure, ties to the lower number. -/
def bestDie (f : Nat → Nat) : Nat := (List.range 8).foldl (fun b d => if f b < f d then d else b) 0

/-- The step of a die's clock: 8 while it is too hot (R400). -/
def Die.clock (x : Die) : Nat := if x.clamp then 8 else x.step

/-- A window ends: THR counts it where STEP was above 0 in it, and the next window begins with the step that then holds (R400). -/
def Die.endWindow (x : Die) : Die := { x with thr := if x.slow then x.thr + 1 else x.thr }

/-- H0 raises or lowers one die's STEP (R399). Of several dies with the highest power the lowest-numbered one is slowed: R399 states
that tie only for lowering STEP. DESIGN CHOICE (log 46). -/
def State.balance (s : State) : State :=
  let total := ((List.range 8).map (fun d => (s.die d).power.toNat)).sum
  let limit := s.hub.limit.toNat
  if limit < total then
    s.modDie (bestDie (fun d => (s.die d).power.toNat)) (fun x => { x with step := min 8 (x.step + 1) })
  else if 100 * total < 95 * limit then
    s.modDie (bestDie (fun d => (s.die d).step)) (fun x => { x with step := x.step - 1 })
  else s

/-- The next control window begins (R399); its length in hub cycles is free (log 46). -/
def State.startWindow (s : State) : State :=
  (s.modHub (fun h => { h with winAt := h.cyc + max 1 (Config.windowCycles h.win.toNat) })).post .pcapWindowEnd

/-- PCAP_WINDOW_END (R399, R400). -/
def execPcapWindowEnd (s : State) : Answer :=
  .next (
    let s := (List.range 8).foldl (fun s d => s.modDie d Die.endWindow) (s.measure (List.range 8))
    let s := s.balance
    ((List.range 8).foldl (fun s d => s.modDie d (fun x => { x with slow := decide (0 < x.clock) })) s).startWindow)

/-- THERMAL_THRESHOLD (R400): 105 degrees and above clamp the clock until below 100; 115 fires the detector. -/
def execThermalThreshold (die : Nat) (temp : BitVec 12) (s : State) : Answer :=
  .next (
    let t := temp.toNat
    let s := s.modDie die (fun x =>
      { x with
        temp := temp
        clamp := if 840 ≤ t then true else if t < 800 then false else x.clamp
        slow := x.slow || decide (840 ≤ t) })
    if 920 ≤ t then s.raiseLevel 3 (s.hub.levelOf 3) else s)

end Sys2Proof.Machine
end

