-- ==== Sys2Proof/Machine/Boot.lean ====
section
/-! DEFINITION. Power-on, boot, fuses, attestation, and the writes of registers that have no behaviour of their own (R6,
R321-R332, R361, R366, R378-R381, R384-R388, R394-R399). -/

namespace Sys2Proof.Machine

/-! ## Boot (R384-R387) -/

/-- POWER_ON_RESET (R54, R387): everything but the flash devices and the fuses starts afresh, and the two hubs leave reset at
times of their own, in no promised order. DESIGN CHOICE (log 48). -/
def execPowerOnReset (s : State) : Answer :=
  .next { State.reset with
    hub := { Hub.reset with flashA := s.hub.flashA, flashB := s.hub.flashB, fuses := s.hub.fuses }
    due := [.dieLeavesReset 8, .dieLeavesReset 9]
    choices := s.choices
    rounds := s.rounds
    sweep := s.sweep }

/-- Bytes 0x000 to 0x047 of a stage header (R384). -/
def headerBytes (i : BootImage) : List Byte :=
  leList 8 i.magic.toNat ++ leList 4 i.stage.toNat ++ leList 4 i.svn.toNat ++ leList 8 i.len ++ leList 48 i.hash.toNat

def Hub.fuse (h : Hub) (stage : Nat) : Nat := Sparse.get 0 h.fuses stage

/-- A stage is accepted only when both signatures verify, the body matches its hash, and its SVN is not below the fuse
counter of its stage (R384, R385). -/
def Hub.accepts (h : Hub) (stage : Nat) (i : BootImage) : Bool :=
  i.magic == 0x51524E424F4F5431 && i.stage.toNat == stage && decide (i.svn.toNat ≤ 127) && i.len == i.body.length &&
  Config.ecdsaOk (headerBytes i) i.ecdsa && Config.lmsOk (headerBytes i) i.lms && Config.sha384 i.body == i.hash &&
  decide (h.fuse stage ≤ i.svn.toNat)

/-- The copy of a stage in a flash device. -/
def copyOf (l : List (Nat × Option BootImage)) (stage : Nat) : Option BootImage := Sparse.get none l stage

/-- The image of a stage that boots: copy A, else copy B (R385). -/
def Hub.image (h : Hub) (stage : Nat) : Option BootImage :=
  match copyOf h.flashA stage with
  | some a => if h.accepts stage a then some a else (copyOf h.flashB stage).filter (h.accepts stage)
  | none => (copyOf h.flashB stage).filter (h.accepts stage)

/-- MRn is extended (R388). -/
def Hub.measured (h : Hub) (stage : Nat) (i : BootImage) : Hub :=
  let old : BitVec 384 := Sparse.get 0 h.mr stage
  { h with
    mr := Sparse.put 0 h.mr stage
      (Config.sha384 (leList 48 old.toNat ++ leList 48 i.hash.toNat ++ leList 4 i.svn.toNat))
    svn := Sparse.put 0 h.svn stage i.svn.toNat, stage := stage, bootStopped := false }

/-- What follows an accepted stage (R387). -/
def State.afterStage (s : State) (stage : Nat) : State :=
  match stage with
  | 1 =>
    ((s.modHub (fun h => { h with keysAgreed := true, keysErased := false })).posts
      ((List.range 512).map .sliceInit)).post (.stageVerify 2)
  | 2 => s.post (.stageVerify 3)
  | 3 => (s.posts ((List.range 8).map .dieLeavesReset)).post (.stageVerify 4)
  | _ => s

def State.acceptStage (s : State) (stage : Nat) (i : BootImage) : State :=
  (s.modHub (fun h => h.measured stage i)).afterStage stage

/-- Every copy of a stage fails: H0 stops and offers the recovery mailbox (R385); after stage 1 it is an alarm source (R389). -/
def State.stageFails (s : State) (stage : Nat) : State :=
  let s := s.modHub (fun h => { h with bootStopped := true })
  if stage = 1 then s else s.raiseLevel 5 (s.hub.levelOf 5)

/-- STAGE_VERIFY (R385, R387, R388). -/
def execStageVerify (stage : Nat) (s : State) : Answer :=
  .next (
    if stage ≠ s.hub.stage + 1 ∨ 4 < stage then s
    else
      match s.hub.image stage with
      | some i => s.acceptStage stage i
      | none => s.stageFails stage)

/-- RECOVERY_IMAGE (R385): an image that the host loads passes the same checks. -/
def execRecoveryImage (img : BootImage) (s : State) : Answer :=
  .next (
    let s := s.modHub (fun h => { h with recovery := some img })
    if s.hub.bootStopped ∧ s.hub.stage < 4 ∧ s.hub.accepts (s.hub.stage + 1) img then s.acceptStage (s.hub.stage + 1) img
    else s)

/-- Slot 0 as it starts (R387): what no rule states of it is the model's choice (log 8). -/
def slot0 : Slot :=
  { Slot.reset with st := .active, pc := Config.runtimeEntry, base := 0, size := 128, hq := Config.slot0Queue }

/-- A hub leaves reset, and its counter starts at zero: H0, whose boot ROM takes stage 1 and which controls the power, or H1
(R54, R387, R399). -/
def State.hubLeavesReset (s : State) (hub : Nat) : State :=
  if hub = 1 then (if s.hub.running1 then s else s.modHub (fun h => { h with running1 := true, cyc1 := 0 }))
  else if s.hub.running then s
  else ((s.modHub (fun h => { h with running := true, cyc := 0 })).post (.stageVerify 1)).startWindow

/-- DIE_LEAVES_RESET (R54, R387): a compute die, or a hub, which the model numbers 8 and 9 (log 48). -/
def execDieLeavesReset (n : Nat) (s : State) : Answer :=
  .next (
    if 8 ≤ n then s.hubLeavesReset (n - 8)
    else if (s.die n).running then s
    else
      (((List.range 1024).map (1024 * n + ·)).filter (fun p => !(s.core p).retired)).foldl (fun s p => s.setSlot p 0 slot0)
        (s.modDie n (fun d => { d with running := true, cyc := 0 })))

/-! ## Fuses and attestation (R386, R388) -/

/-- The boot has completed: every stage is accepted, and the compute dies have left reset (R386, R387). -/
def State.booted (s : State) : Bool :=
  s.hub.stage == 4 && !s.hub.bootStopped && (List.range 8).all (fun d => (s.die d).running)

/-- FUSE_BURN_REQUEST (R386): one position, on a signed request after a completed boot; a counter never exceeds the SVN of an
image that has booted. -/
def execFuseBurnRequest (stage : Nat) (signed : Bool) (s : State) : Answer :=
  .next (
    let n := s.hub.fuse stage
    if signed ∧ s.booted ∧ n < 127 ∧ n < Sparse.get 0 s.hub.svn stage then
      s.modHub (fun h => { h with fuses := Sparse.put 0 h.fuses stage (n + 1) })
    else s)

/-- The bytes of a measurement register (log 9). -/
def Hub.mrBytes (h : Hub) (n : Nat) : List Byte := leList 48 (Sparse.get (0 : BitVec 384) h.mr n).toNat

/-- The device identity key: derived from the fused secret and MR1 (R388). -/
def Hub.identityKey (h : Hub) : List Byte := Config.hkdf Config.fusedSecret (h.mrBytes 1)

/-- What an attestation report says, as the bytes that are signed (R388; log 9). -/
def Hub.report (h : Hub) (nonce : List Byte) : List Byte :=
  nonce.take 48 ++ ([1, 2, 3, 4] : List Nat).flatMap h.mrBytes ++
    ([1, 2, 3, 4] : List Nat).flatMap (fun n => leList 4 (Sparse.get 0 h.svn n)) ++
    ([1, 2, 3, 4] : List Nat).flatMap (fun n => leList 4 (h.fuse n)) ++ Config.certificate h.identityKey

/-- ATTESTATION_REQUEST (R388): the report with the nonce, MR1-MR4, the SVNs, the fuse counters and the identity key's
certificate, signed by the identity key, which level 3 of the alarm erases (R391). -/
def execAttestationRequest (nonce : List Byte) (s : State) : Answer :=
  .next (
    if s.hub.keysErased then s
    else
      s.modHub (fun h => { h with notices := h.notices ++ [.attestation (nonce.take 48)
        ([1, 2, 3, 4].map (fun n => Sparse.get 0 h.mr n)) ([1, 2, 3, 4].map (fun n => Sparse.get 0 h.svn n))
        ([1, 2, 3, 4].map h.fuse) (Config.certificate h.identityKey) (Config.sign h.identityKey (h.report nonce))] }))

/-! ## Register writes (R6) -/

/-- Bits [47:lo] of a word, in their places. -/
def above (w : Word) (lo : Nat) : BitVec 48 := BitVec.ofNat 48 (w.toNat % 2 ^ 48 / 2 ^ lo * 2 ^ lo)

/-- PCAP (R399): a LIMIT above 15,000 and a WIN outside 1 to 1,000 leave their fields. -/
def Hub.writePcap (h : Hub) (w : Word) : Hub :=
  let l := field w 63 48
  let n := field w 47 32
  { h with limit := if l ≤ 15000 then BitVec.ofNat 16 l else h.limit
           win := if 1 ≤ n ∧ n ≤ 1000 then BitVec.ofNat 16 n else h.win }

/-- WDOG: a limit that is set applies to the launches that run, from their last progress on (R325, R334). -/
def State.writeWdog (s : State) (w : Word) : State :=
  let s := s.modHub (fun h => { h with wdog := w.setWidth 32 })
  (((List.range 64).map (BitVec.ofNat 6)).filter (fun q => (s.hw q).launch.isSome)).foldl (fun s q =>
    s.postOnce (.watchdogExpiry q)) s

/-- The bits of an IMPT entry that are not reserved (R7, R380). -/
def imptMask : Word := 0xE00007FFFFFF0000

/-- The bits of HCMD and of TLBI that are not reserved (R6, R325, R362). -/
def hcmdMask : Word := 0xFFFFFFFFF0000000
def tlbiMask : Word := 0xFFFFFE007FFFFFFF

/-- A write of HCMD sets its fields, and starts the command that OP names; OP 0 and a reserved OP name none (R6, R325). -/
def State.writeHcmd (s : State) (w : Word) : State :=
  let s := s.modHub (fun h => { h with hcmd := w })
  let q := BitVec.ofNat 6 (field w 59 54)
  match field w 63 60 with
  | 1 => s.post (.freeze q 4)
  | 2 => s.post (.unfreeze q)
  | 3 => s.post (.saveCore (field w 53 41))
  | 4 => s.post (.moveCore (field w 53 41) (field w 40 28))
  | 5 => s.post (.restoreCore (field w 53 41) (field w 40 28))
  | _ => s

/-- HUB_REGISTER_WRITE (R6): the register's fields take the written bits. -/
def execHubRegisterWrite (r : HubReg) (w : Word) (s : State) : Answer :=
  .next (
    match r with
    | .qtb => s.modHub (fun h => { h with qtb := above w 6 })
    | .hctx => s.modHub (fun h => { h with hctx := above w 12 })
    | .wdog => s.writeWdog w
    | .stkt => s.modHub (fun h => { h with stkt := above w 7 })
    | .fwtb => s.modHub (fun h => { h with fwtb := above w 17 })
    | .hwin => s.modHub (fun h => { h with hwin := above w 36 })
    | .pcap => s.modHub (fun h => h.writePcap w)
    | .hcmd => s.writeHcmd (w &&& hcmdMask)
    | .tlbi => s.tlbiWrite (w &&& tlbiMask)
    | .modrt b m => s.modHub (fun h => { h with modrt := Sparse.put 0 h.modrt (256 * (b % 2) + m % 256) w })
    | .impt m => s.modHub (fun h => { h with impt := Sparse.put 0 h.impt (m % 256) (w &&& imptMask) })
    | .gtb d => s.modDie d (fun x => { x with gtb := above w 14 })
    | .cls i c =>
      let v : ClassReg :=
        { rb := (w >>> 48).setWidth 16, wb := (w >>> 32).setWidth 16, ql := (w >>> 24).setWidth 8, wc := w.getLsbD 23 }
      s.modSlice i (fun x => ({ x with classes := Sparse.put ClassReg.reset x.classes (c % 4) v } : Slice).signal)
    | .tierctl i => s.modSlice i (fun x => { x with
        hot := (w >>> 48).setWidth 16, epoch := (w >>> 32).setWidth 16, maxmv := (w >>> 24).setWidth 8, tierEn := w.getLsbD 0 })
    | .serr i => s.modSlice i (fun x => { x with
        ce := (w >>> 48).setWidth 16, lce := (w >>> 40).setWidth 8, ue := (w >>> 32).setWidth 8 })
    | .scrubctl i => ((s.modSlice i (fun x => { x with
        period := (w >>> 40).setWidth 24, rthr := (w >>> 32).setWidth 8, scrubEn := w.getLsbD 0 })).armHalve i).armPatrol i
    | .mcsRpc p => s.modCore p (fun c => { c with mcs := { c.mcs with rpc := w.setWidth 48 } })
    | .cport n => s.writePort n w)

end Sys2Proof.Machine
end

