-- ==== Sys2Proof/Machine/Memory.lean ====
section
/-! DEFINITION. Group C: memory, synchronisation and messages (07_isa_memory.md, R158-R184). -/

namespace Sys2Proof.Machine

/-- The class of `ld` and `st`: relaxed with `.rx`, else plain (R163). -/
def classOfRx (rx : Bool) : AccClass := if rx then .relaxed else .plain

/-- A local access of a class at once, or, if it is plain, after the thread's earlier relaxed accesses (R45, R164). -/
def State.atClass (s : State) (c : AccClass) (k : State) : State := if c = .relaxed then k else s.afterRelaxed k

/-- A loaded value reaches its destination: a relaxed load leaves z0 and z1 (R33). -/
def State.loaded (s : State) (c : AccClass) (d : Reg) (v : Word) : State :=
  if c = .relaxed then (s.writeDst s.cur.core s.cur.slot (regDst s.thr d) v).advance else s.complete d v

/-- The banks that an access through a view uses: those of its element, and of the element's scale (R40, R207, R266). -/
def State.useView (s : State) (w : View) (o : Nat) : State :=
  let s := s.useBanks s.cur.core s.rank o (fmtBytes w.sf)
  if w.scaled then s.useBanks s.cur.core s.rank (w.scaleAt o) 2 else s

/-- A load through a view of the issuing core's store (R42, R160, R163). -/
def State.loadView (s : State) (c : AccClass) (wd : Width) (u : Bool) (d : Reg) (w : View) (o : Nat) : State :=
  s.atClass c (
    let q := s.loadElement s.cur.core w o s.rs
    ((s.useView w o).commitRs q.2).loaded c d (extendLoad wd u (BitVec.ofNat 64 q.1)))

/-- A store through a view of the issuing core's store (R42, R76, R160, R163). -/
def State.storeView (s : State) (c : AccClass) (v : Word) (w : View) (o : Nat) : State :=
  s.atClass c (
    let q := s.storeElement s.cur.core w o v.toNat s.rs
    ((q.1.useView w o).commitRs q.2).advance)

/-- `ld` and `ld.rx` (R163, R164, R165). -/
def execLd (wd : Width) (u rx : Bool) (d : Reg) (m : MemOp) (s : State) : Answer :=
  .next (s.withRegs (d :: memRegs m) (
    let va := s.ea m
    let c := classOfRx rx
    s.accessView .read (widthBytes wd) va
      (fun h s => s.perform c (.load wd u) h va 0 0 (regDst s.thr d) true)
      (fun w o s => s.loadView c wd u d w o)))

/-- `st` and `st.rx` (R163, R164). -/
def execSt (wd : Width) (rx : Bool) (m : MemOp) (c : Reg) (s : State) : Answer :=
  .next (s.withRegs (memRegs m ++ [c]) (
    let va := s.ea m
    s.accessView .write (widthBytes wd) va
      (fun h s => s.perform (classOfRx rx) (.store wd) h va (s.rd c) 0 .nul false)
      (fun w o s => s.storeView (classOfRx rx) (s.rd c) w o)))

/-! ## Accesses to whole words (R166, R169, R170, R172) -/

/-- An access to an aligned word by a class and an operation. `d` is read with it where `dread` names it (R169). -/
def State.wordAccess (s : State) (cls : AccClass) (o : AccOp) (m : MemOp) (data expected : Word) (d : Reg) (writes : Bool) :
    State :=
  let va := s.ea m
  s.access (opNeed o) 8 va (fun h s => s.perform cls o h va data expected (regDst s.thr d) writes)

/-- `ldf` (R166). -/
def execLdf (d : Reg) (m : MemOp) (s : State) : Answer :=
  .next (s.withRegs (d :: memRegs m) (s.wordAccess .sync .ldf m 0 0 d true))

/-- `lde` (R166). -/
def execLde (d : Reg) (m : MemOp) (s : State) : Answer :=
  .next (s.withRegs (d :: memRegs m) (s.wordAccess .sync .lde m 0 0 d true))

/-- `stf` (R166). -/
def execStf (m : MemOp) (c : Reg) (s : State) : Answer :=
  .next (s.withRegs (memRegs m ++ [c]) (s.wordAccess .sync .stf m (s.rd c) 0 .nul false))

/-- `stn` (R166). -/
def execStn (m : MemOp) (c : Reg) (s : State) : Answer :=
  .next (s.withRegs (memRegs m ++ [c]) (s.wordAccess .sync .stn m (s.rd c) 0 .nul false))

/-- `clre`: synchronising, but it never waits (R166). -/
def execClre (m : MemOp) (s : State) : Answer :=
  .next (s.withRegs (memRegs m) (s.wordAccess .sync .clre m 0 0 .nul false))

/-- `fes`: plain (R166). -/
def execFes (d : Reg) (m : MemOp) (s : State) : Answer :=
  .next (s.withRegs (d :: memRegs m) (s.wordAccess .plain .fes m 0 0 d true))

/-- An atomic; D is the value of gd before it (R169). -/
def State.atomic (s : State) (f : AtomicFn) (d : Reg) (m : MemOp) (c : Reg) : State :=
  s.withRegs (d :: (memRegs m ++ [c])) (s.wordAccess .sync (.atomic f) m (s.rd c) (s.rd d) d true)

/-- `amadd` (R169). -/
def execAmadd (d : Reg) (m : MemOp) (c : Reg) (s : State) : Answer := .next (s.atomic .add d m c)

/-- `amand` (R169). -/
def execAmand (d : Reg) (m : MemOp) (c : Reg) (s : State) : Answer := .next (s.atomic .and d m c)

/-- `amor` (R169). -/
def execAmor (d : Reg) (m : MemOp) (c : Reg) (s : State) : Answer := .next (s.atomic .or d m c)

/-- `amxor` (R169). -/
def execAmxor (d : Reg) (m : MemOp) (c : Reg) (s : State) : Answer := .next (s.atomic .xor d m c)

/-- `ammin` (R169). -/
def execAmmin (d : Reg) (m : MemOp) (c : Reg) (s : State) : Answer := .next (s.atomic .min d m c)

/-- `ammax` (R169). -/
def execAmmax (d : Reg) (m : MemOp) (c : Reg) (s : State) : Answer := .next (s.atomic .max d m c)

/-- `amminu` (R169). -/
def execAmminu (d : Reg) (m : MemOp) (c : Reg) (s : State) : Answer := .next (s.atomic .minu d m c)

/-- `ammaxu` (R169). -/
def execAmmaxu (d : Reg) (m : MemOp) (c : Reg) (s : State) : Answer := .next (s.atomic .maxu d m c)

/-- `amswp` (R169). -/
def execAmswp (d : Reg) (m : MemOp) (c : Reg) (s : State) : Answer := .next (s.atomic .swp d m c)

/-- `amcas` (R169). -/
def execAmcas (d : Reg) (m : MemOp) (c : Reg) (s : State) : Answer := .next (s.atomic .cas d m c)

/-- A reduction: relaxed, without a return (R170). -/
def State.reduction (s : State) (f : RedFn) (m : MemOp) (c : Reg) : State :=
  s.withRegs (memRegs m ++ [c]) (s.wordAccess .relaxed (.red f) m (s.rd c) 0 .nul false)

/-- `redadd` (R170). -/
def execRedadd (m : MemOp) (c : Reg) (s : State) : Answer := .next (s.reduction .add m c)

/-- `redand` (R170). -/
def execRedand (m : MemOp) (c : Reg) (s : State) : Answer := .next (s.reduction .and m c)

/-- `redor` (R170). -/
def execRedor (m : MemOp) (c : Reg) (s : State) : Answer := .next (s.reduction .or m c)

/-- `redmax` (R170). -/
def execRedmax (m : MemOp) (c : Reg) (s : State) : Answer := .next (s.reduction .max m c)

/-- `redmin` (R170). -/
def execRedmin (m : MemOp) (c : Reg) (s : State) : Answer := .next (s.reduction .min m c)

/-- `redfadd` (R170). -/
def execRedfadd (m : MemOp) (c : Reg) (s : State) : Answer := .next (s.reduction .fadd m c)

/-- `stg` (R172). -/
def execStg (m : MemOp) (c : Reg) (s : State) : Answer :=
  .next (s.withRegs (memRegs m ++ [c]) (s.wordAccess .plain .stg m (s.rd c) 0 .nul false))

/-! ## fence and send (R173-R177) -/

/-- `fence` (R173). -/
def execFence (scope : BitVec 2) (s : State) : Answer :=
  .next (if s.fenceOver s.cur.core s.cur.slot scope then s.advance else s.park (.fence scope s.cur.next))

/-- An address in a near or far window. -/
def inWindow (va : Word) : Bool :=
  match regionOf va with
  | .near _ _ _ | .far _ _ => true
  | _ => false

/-- The message-build registers. -/
def mbPlaces : List Dst := [.mb 0, .mb 1, .mb 2, .mb 3, .mb 4, .mb 5, .mb 6, .mb 7]

/-- The message of a `send` to a mailbox (R174, R175). -/
def State.message (s : State) (core off : Nat) : Message :=
  { core := s.cur.core, slot := s.cur.slot, lcore := s.logical s.cur.core, hq := s.thr.hq, toCore := core, toOff := off, seq := s.thr.seq,
    issued := s.now,
    data := mbPlaces.map (readDst (s.core s.cur.core) s.thr) }

/-- `send` with its mailbox found: a refusal with 1, or a launch with 0 (R63, R174). The message is a remote request: it
takes a sequence number, counts in s.oac and is outstanding until it is acknowledged (R50, R340, R342). -/
def State.launchMessage (s : State) (d : Reg) (core off : Nat) : State :=
  let p := s.cur.core
  if 4096 ≤ s.thr.out.length then s.hold .seqFree
  else if (s.core p).sendsOut < 16 then
    (((s.modCore p (fun c => { c with sendsOut := c.sendsOut + 1, oac := c.oac + 1 })).modThr
      (fun t => { t with seq := t.seq + 1, out := t.out ++
        [{ seq := t.seq, relaxed := false, home := .ls core off, kind := .message s.now }] })).post (.mailboxWrite (s.message core off))).complete d 0
  else s.complete d 1

/-- `send` (R174). -/
def execSend (d : Reg) (m : MemOp) (s : State) : Answer :=
  .next (s.withRegs (d :: memRegs m) (
    if mbPlaces.any s.thr.isPending then s.park (.regs mbPlaces)
    else
      let va := s.ea m
      if !aligned va 8 then s.raise 0x04 0 va
      else if !inWindow va || decide (2 ^ 17 < va.toNat % 2 ^ 17 + 72) then s.raise 0x0C 0 va
      else
        s.access .write 8 va (fun h s =>
          match h with
          | .ls q off => s.launchMessage d q off
          | _ => s.raise 0x0C 0 va)))

/-! ## Travelling (R178) -/

/-- A migration form with its address checked: at its own core it goes on, elsewhere it waits to depart for the logical
core its far-window address names. -/
def State.travel (s : State) (h : Home) (va pc : Word) (here : State) : State :=
  if homeOwn h s.cur.core then here
  else
    match regionOf va with
    | .far l _ => (s.park (.migrate pc l)).post (.migrationDepart s.cur.core s.cur.slot)
    | _ => here

/-- Rows 2, 6 and 7 of R127 for a migration form (R178). -/
def State.migration (s : State) (rs : List Reg) (bytes : Nat) (va : Word) (k : State) : State :=
  if !s.thr.traveller then s.raise 0x01 0 0
  else s.withRegs rs (if inWindow va then k else if aligned va bytes then s.raise 0x0C 0 va else s.raise 0x04 0 va)

/-- `ld.mig` (R178). -/
def execLdMig (wd : Width) (u : Bool) (d : Reg) (m : MemOp) (s : State) : Answer :=
  let va := s.ea m
  .next (s.migration (d :: memRegs m) (widthBytes wd) va (
    s.accessView .read (widthBytes wd) va
      (fun h s => s.travel h va s.cur.pc (s.perform .plain (.load wd u) h va 0 0 (regDst s.thr d) true))
      (fun w o s => s.loadView .plain wd u d w o)))

/-- `st.mig` (R178). -/
def execStMig (wd : Width) (m : MemOp) (c : Reg) (s : State) : Answer :=
  let va := s.ea m
  .next (s.migration (memRegs m ++ [c]) (widthBytes wd) va (
    s.accessView .write (widthBytes wd) va
      (fun h s => s.travel h va s.cur.pc (s.perform .plain (.store wd) h va (s.rd c) 0 .nul false))
      (fun w o s => s.storeView .plain (s.rd c) w o)))

/-- `go` (R178). -/
def execGo (m : MemOp) (s : State) : Answer :=
  let va := s.ea m
  .next (s.migration (memRegs m) 8 va (s.access .valid 8 va (fun h s => s.travel h va s.cur.next s.advance)))

/-! ## The copy engine (R180, R181) -/

/-- Two byte ranges of a length intersect. -/
def rangesMeet (d a n : Nat) : Bool := decide (d < a + n) && decide (a < d + n)

/-- An address that lies in a row of R37, with a near window's bits [23:17] clear. -/
def inRegion (va : Word) : Bool :=
  match regionOf va with
  | .near _ _ inStore => inStore
  | .none => false
  | _ => true

/-- The first check of R180 that fails, by its number. -/
def copyCheck (d a b c : Word) : Option (BitVec 8) :=
  if !(aligned d 8 && aligned a 8 && aligned b 8 && aligned c 8) then some 1
  else if 2 ^ 32 ≤ b.toNat then some 2
  else if b ≠ 0 ∧ rangesMeet d.toNat a.toNat b.toNat then some 3
  else if !(inRegion d && inRegion a && inRegion c) then some 4
  else none

/-- A command enters the copy engine's queue (R181). -/
def State.queueCopy (s : State) (cmd : CopyCmd) : State :=
  let p := s.cur.core
  let idle := (s.core p).copyQueue.isEmpty
  let s := s.modCore p (fun c => { c with copyQueue := c.copyQueue ++ [cmd] })
  if idle then s.post (.copyCommandStart p) else s

/-- `cpy` with its operands read (R180, R181). -/
def State.copyTo (s : State) (d a b c : Word) : State :=
  match copyCheck d a b c with
  | some n => s.raise 0x0F n 0
  | none =>
    match s.translate s.cur.core s.thr.hq .write c with
    | .fault _ => s.raise 0x0F 5 0
    | .miss key => s.parkWalk key 0x0F 5 0
    | .home h =>
      (s.touch s.cur.core s.thr.hq c).afterRelaxed (
        if (s.core s.cur.core).copyRoom then
          ((s.touch s.cur.core s.thr.hq c).queueCopy
            { slot := s.cur.slot, hq := s.thr.hq, dst := d, src := a, len := b.toNat, comp := h, issued := s.now, cancelled := false }).advance
        else s.hold .copyFree)

/-- `cpy` (R180). -/
def execCpy (d a b c : Reg) (s : State) : Answer :=
  .next (s.withRegs [d, a, b, c] (s.copyTo (s.rd d) (s.rd a) (s.rd b) (s.rd c)))

end Sys2Proof.Machine
end

