-- ==== Sys2Proof/Machine/Trellis.lean ====
section
/-! DEFINITION. The Trellis unit (09_isa_engines.md, R216-R223; R318). -/

namespace Sys2Proof.Machine

/-- The leaves a topology uses (R218). -/
def topoLeaves (t : Nat) : Nat :=
  if t < 8 then t + 1
  else match t with
    | 8 => 4
    | 9 => 5
    | 10 => 6
    | 11 => 7
    | 15 => 6
    | _ => 8

/-- The internal nodes of a topology, each with its left and right operand: operand k below 8 is leaf k, operand 8 + j is
node j (R218). -/
def topoNodes (t : Nat) : List (Nat × Nat) :=
  if t < 8 then (List.range t).map (fun j => (if j = 0 then 0 else 7 + j, j + 1))
  else match t with
    | 8 => [(0, 1), (2, 3), (8, 9)]
    | 9 => [(0, 1), (2, 3), (8, 9), (10, 4)]
    | 10 => [(0, 1), (2, 3), (4, 5), (8, 9), (11, 10)]
    | 11 => [(0, 1), (2, 3), (4, 5), (8, 9), (10, 6), (11, 12)]
    | 12 => [(0, 1), (2, 3), (4, 5), (6, 7), (8, 9), (10, 11), (12, 13)]
    | 13 => [(0, 1), (2, 3), (4, 5), (6, 7), (8, 9), (12, 10), (13, 11)]
    | 14 => [(0, 1), (8, 2), (9, 3), (4, 5), (11, 6), (12, 7), (10, 13)]
    | _ => [(0, 1), (8, 2), (3, 4), (10, 5), (9, 11)]

/-- The root operand of a topology. -/
def topoRoot (t : Nat) : Nat := if t = 0 then 0 else 7 + (topoNodes t).length

/-! ## Evaluation (R219, R220) -/

/-- A node value as it is read: a reserved PR32 word reads as zero with PRV (R77). -/
def nodeRead (f : Fmt) (v : Nat) (r : Rs) : Nat × Rs :=
  if f = 8 && (pr32Decode v).2 then (0xFFF00000, r.raise flagPRV) else (v, r)

/-- Sum or product of two node values, rounded once (R219). -/
def nodeOp (f : Fmt) (product : Bool) (x y : Nat) (r : Rs) : Nat × Rs :=
  let u := (fmtDecode f x).1
  let w := (fmtDecode f y).1
  laneEncode f true r (if product then laneMul r.mode u w else laneAdd r.mode u w)

/-- Leaf values in ascending order of their slots. -/
def leafValues (f : Fmt) (vals : List (Nat × Nat)) : List Nat → Rs → List Nat × Rs
  | [], r => ([], r)
  | o :: os, r =>
    let q := nodeRead f (Sparse.get 0 vals o) r
    let rest := leafValues f vals os q.2
    (q.1 :: rest.1, rest.2)

/-- The operand values with the internal nodes added, ascending; `v` holds leaves 0 to 7 and the nodes before j. -/
def nodeValues (f : Fmt) (ops : Nat) : Nat → List (Nat × Nat) → List Nat → Rs → List Nat × Rs
  | _, [], v, r => (v, r)
  | j, n :: ns, v, r =>
    let q := nodeOp f (decide (ops / 2 ^ j % 2 = 1)) (v.getD n.1 0) (v.getD n.2 0) r
    nodeValues f ops (j + 1) ns (v ++ [q.1]) q.2

/-- The operand derivatives, from node j - 1 down: `ad` by operand, `v` the operand values (R220). -/
def nodeDerivs (f : Fmt) (ops : Nat) (v : List Nat) : Nat → List (Nat × Nat) → List (Nat × Nat) → Rs → List (Nat × Nat) × Rs
  | 0, _, ad, r => (ad, r)
  | j + 1, nodes, ad, r =>
    let n := nodes.getD j (0, 0)
    let a := Sparse.get 0 ad (8 + j)
    if ops / 2 ^ j % 2 = 1 then
      let q := nodeOp f true a (v.getD n.2 0) r
      let u := nodeOp f true a (v.getD n.1 0) q.2
      nodeDerivs f ops v j nodes ((n.2, u.1) :: (n.1, q.1) :: ad) u.2
    else nodeDerivs f ops v j nodes ((n.2, a) :: (n.1, a) :: ad) r

/-- The leaf derivatives with their additions, ascending: `ds` is what each derivative offset holds so far (R220). -/
def leafDerivs (f : Fmt) (doff : Nat) (ad : List (Nat × Nat)) : Nat → List Nat → List (Nat × Nat) → Rs →
    List (Nat × Nat) × Rs
  | _, [], ds, r => (ds, r)
  | k, o :: os, ds, r =>
    let cur := nodeRead f (Sparse.get 0 ds (o + doff)) r
    let q := nodeOp f false cur.1 (Sparse.get 0 ad k) cur.2
    leafDerivs f doff ad (k + 1) os (Sparse.insert (o + doff) q.1 (Sparse.drop (o + doff) ds)) q.2

/-- The values a tree instruction writes, by offset, and the rounding state after it (R219, R220). -/
def treeResult (j : TreeJob) (r : Rs) : List (Nat × Nat) × Rs :=
  let leaves := leafValues j.fmt j.vals j.leafOffs r
  let nodes := topoNodes j.topo
  let v := nodeValues j.fmt j.ops 0 nodes (leaves.1 ++ List.replicate (8 - leaves.1.length) 0) leaves.2
  if j.down then
    let root := nodeRead j.fmt (Sparse.get 0 j.vals (j.outOff + j.doff)) v.2
    let ad := nodeDerivs j.fmt j.ops v.1 nodes.length nodes [(topoRoot j.topo, root.1)] root.2
    let held := j.leafOffs.foldl (fun m o =>
      Sparse.insert (o + j.doff) (Sparse.get 0 j.vals (o + j.doff)) (Sparse.drop (o + j.doff) m)) []
    leafDerivs j.fmt j.doff ad.1 0 j.leafOffs held ad.2
  else ([(j.outOff, v.1.getD (topoRoot j.topo) 0)], v.2)

/-! ## Banks and cycles (R221, R222) -/

/-- The distinct words of a list of 4-byte offsets. -/
def wordsOf (l : List Nat) : List Nat := (l.map (fun o => o / 8 * 8)).eraseDups

/-- The words of each bank beyond a limit, summed over the 16 banks (R221). -/
def bankExtra (words : List Nat) (limit : Nat) : Nat :=
  ((List.range 16).map (fun b => (words.filter (fun o => o / 8 % 16 == b)).length - limit)).sum

/-- The offsets an instruction reads and writes (R221). -/
def treeReads (j : TreeJob) : List Nat :=
  if j.down then j.leafOffs ++ j.leafOffs.map (· + j.doff) ++ [j.outOff + j.doff] else j.leafOffs
def treeWrites (j : TreeJob) : List Nat := if j.down then j.leafOffs.map (· + j.doff) else [j.outOff]

/-- Reads one word: the values of the offsets that lie in it. -/
def State.treeRead (s : State) (p : Nat) (j : TreeJob) (word : Nat) : TreeJob :=
  let here := (treeReads j).filter (fun o => o / 8 * 8 == word)
  { j with
    toRead := j.toRead.filter (· ≠ word)
    vals := here.foldl (fun m o => Sparse.insert o (s.localNat p o 4) (Sparse.drop o m)) j.vals }

/-- Writes the values that lie in one word, as one bank step (R266). -/
def State.treeWrite (s : State) (p : Nat) (word : Nat) (l : List (Nat × Nat)) : State :=
  (l.filter (fun e => e.1 / 8 * 8 == word)).foldl (fun s e => s.setBytes (localKey p e.1) (leList 4 e.2)) s

/-- A tree instruction reads or writes words at their banks, before what ranks after the pipeline (R210, R266, R272). -/
def State.useWords (s : State) (p rank : Nat) (l : List Nat) : State := l.foldl (fun s o => s.useBanks p rank o 8) s

/-- The job with its results computed once every word has been read. -/
def treeEvaluate (j : TreeJob) (mode : BitVec 3) : TreeJob :=
  if j.toRead.isEmpty && !j.evaluated then
    let q := treeResult j { mode := mode, srs := j.srs, fl := j.flags }
    { j with evaluated := true, toWrite := q.1, srs := q.2.srs, flags := q.2.fl }
  else j

/-- The checks of R217 in their order: cause and view, or the job before its first read. -/
def State.treeJob (s : State) (down : Bool) (va : Word) : Except (BitVec 8) TreeJob :=
  match regionOf va with
  | .near v o true =>
    let p := s.cur.core
    let w := s.seen.view v s.now
    if va.toNat % 16 ≠ 0 then .error 0x04
    else if v = 0 || w.bad || w.sf != w.df || !(w.sf == 7 || w.sf == 8) then .error 0x01
    else
      let lo := s.localNat p o 8
      let hi := s.localNat p (o + 8) 8
      let rec' := lo + 2 ^ 64 * hi
      let node (x : Nat) : Nat := s.thr.tb.toNat + 4 * x
      let topo := rec' / 2 ^ 108 % 16
      let leaves := (List.range (topoLeaves topo)).map (fun k => node (rec' / 2 ^ (12 * k) % 2 ^ 12))
      let j : TreeJob :=
        { down := down, fmt := w.sf, topo := topo, ops := rec' / 2 ^ 112 % 2 ^ 7, leafOffs := leaves,
          outOff := node (rec' / 2 ^ 96 % 2 ^ 12), doff := w.doff, toRead := [], vals := [], evaluated := false,
          toWrite := [], xr := 0, xw := 0, at_ := s.now, wrAt := 0, wrBanks := [], srs := s.thr.srs, flags := 0 }
      let used := j.outOff :: (leaves ++ (if down then (j.outOff :: leaves).map (· + w.doff) else []))
      if used.any (fun o => decide (2 ^ 17 ≤ o)) then .error 0x0C
      else
        .ok { j with
          toRead := wordsOf (treeReads j), xr := bankExtra (wordsOf (treeReads j)) 2,
          xw := bankExtra (wordsOf (treeWrites j)) 1 }
  | _ => .error 0x0C

/-- `tup` and `tdn` (R217-R222): the record is read and checked once, in stage 4; the rest waits for the thread's earlier
relaxed accesses. With no extra read cycle every word is read in stage 5. -/
def State.tree (s : State) (down : Bool) (m : MemOp) : State :=
  s.withRegs (memRegs m) (
    let va := s.ea m
    let p := s.cur.core
    match s.treeJob down va with
    | .error c => s.raise c 0 va
    | .ok j =>
      if s.thr.relaxedOut.isEmpty then
        (if j.xr = 0 then s.useWords p 0 j.toRead else s).startTree p s.cur.slot s.cur.next
          (if j.xr = 0 then treeEvaluate (j.toRead.foldl (fun j o => s.treeRead p j o) j) s.thr.round else j)
      else s.park (.treeOrder s.cur.next j))

/-- `tup` (R219). -/
def execTup (m : MemOp) (s : State) : Answer := .next (s.tree false m)

/-- `tdn` (R220). -/
def execTdn (m : MemOp) (s : State) : Answer := .next (s.tree true m)

/-- `tcfg` (R223). -/
def execTcfg (b : OpB) (s : State) : Answer :=
  .next (s.withRegs (bRegs b) (
    (s.modThr (fun t => { t with tb := BitVec.ofNat 17 ((s.opB b).toNat / 4 % 2 ^ 15 * 4) })).advance))

/-- The cycle of an instruction's last write (R222). -/
def TreeJob.lastWrite (j : TreeJob) : Nat := j.at_ + j.xr + 1 + j.xw

/-- The words that may be written in a cycle (R222): one of each bank, and the last of all in the last cycle. -/
def TreeJob.writable (j : TreeJob) (cyc : Nat) : List Nat :=
  let words := wordsOf (j.toWrite.map (·.1))
  if cyc < j.lastWrite ∧ words.length ≤ 1 then []
  else words.filter (fun o => j.wrAt != cyc || !j.wrBanks.contains (o / 8 % 16))

/-- A bank has as many words left to write as there are cycles left (R222). -/
def TreeJob.writeDue (j : TreeJob) (cyc : Nat) : Bool :=
  let words := wordsOf (j.toWrite.map (·.1))
  (j.writable cyc).any (fun o =>
    decide (j.lastWrite + 1 ≤ cyc + (words.filter (fun w => w / 8 % 16 == o / 8 % 16)).length))

/-- A tree instruction must go on in the current cycle: its last read cycle has come, or a bank's words would not all be written
in time (R222). -/
def TreeJob.pressing (j : TreeJob) (cyc : Nat) : Bool :=
  if !j.toRead.isEmpty then decide (j.at_ + j.xr ≤ cyc)
  else if j.xw = 0 || j.toWrite.isEmpty then decide (j.lastWrite ≤ cyc)
  else j.writeDue cyc || (decide (j.lastWrite ≤ cyc) && !(j.writable cyc).isEmpty)

/-- A tree instruction may go on in a cycle (R222). -/
def TreeJob.open_ (j : TreeJob) (cyc : Nat) : Bool :=
  !j.toRead.isEmpty || (decide (j.at_ + j.xr + 1 ≤ cyc) && (j.xw = 0 || j.toWrite.isEmpty || !(j.writable cyc).isEmpty))

/-- The words of a step of writes: every word where no bank has two, else one, of a choice that is not promised (R222). -/
def State.treeChoice (s : State) (p : Nat) (j : TreeJob) : List Nat × State :=
  if j.xw = 0 then (wordsOf (j.toWrite.map (·.1)), s)
  else
    let l := j.writable (s.cycle p)
    let (i, s) := s.draw
    ((l[Config.pick i % l.length]?).toList, s)

/-- The next step of a tree instruction: one read, the evaluation and one write, or the last of it. Which word comes next
is not promised (R222). -/
def State.treeStep (s : State) (p n : Nat) (j : TreeJob) : State :=
  let t := s.slot p n
  match j.toRead with
  | o :: l =>
    let (i, s) := s.draw
    let word := (o :: l).getD (Config.pick i % (l.length + 1)) o
    let j := treeEvaluate (s.treeRead p j word) t.round
    ((s.useWords p 1 [word]).modSlot p n (fun t => { t with wait := .tree j })).post (.treeComplete p n)
  | [] =>
    let (now, s) := s.treeChoice p j
    let later := j.toWrite.filter (fun e => !now.contains (e.1 / 8 * 8))
    let s := now.foldl (fun s w => s.treeWrite p w j.toWrite) (s.useWords p 1 now)
    if later.isEmpty then
      (s.modSlot p n (fun t => { (t.commit { mode := t.round, srs := j.srs, fl := j.flags }) with
        wait := .none })).settle p n
    else
      let cyc := s.cycle p
      (s.modSlot p n (fun t => { t with wait := .tree { j with
        toWrite := later, wrAt := cyc,
        wrBanks := (if j.wrAt = cyc then j.wrBanks else []) ++ now.map (fun o => o / 8 % 16) } })).post (.treeComplete p n)

/-- TREE_COMPLETE (R221, R222). -/
def execTreeComplete (p n : Nat) (s : State) : Answer :=
  .next (
    match (s.slot p n).wait with
    | .tree j => s.treeStep p n j
    | _ => s)

end Sys2Proof.Machine
end

