-- ==== Sys2Proof/Machine/Agenda.lean ====
section
/-! DEFINITION. Which of the steps under way may come next: when each may take place, when a die's clock waits for it, and
which of two must come first. -/

namespace Sys2Proof.Machine

/-! ## When a step may take place -/

/-- Vacated cores whose forwarding leads to a core, in one move or in several (R276, R337). `fuel` bounds the moves. -/
def State.leadsTo (s : State) (q : Nat) : Nat → Nat → Bool
  | 0, _ => false
  | fuel + 1, p => match (s.core p).gone with
    | some (some d) => d == q || s.leadsTo q fuel d
    | _ => false

/-- The core that sent what a step brings to a local store, and the core whose store that is. -/
def storeWay (e : Instr) : Option (Nat × Nat) :=
  match e with
  | .homePerform r => match r.home with
    | .ls q _ => some (r.core, q)
    | _ => none
  | .mailboxWrite m => some (m.core, m.toCore)
  | .arrival src dest _ => some (src, dest)
  | _ => none

/-- What a core has sent earlier to a store that has since moved to a core is still held on the way there (R276). -/
def State.behindForward (s : State) (src q : Nat) : Bool :=
  s.cores.any (fun e => s.leadsTo q s.cores.length e.1 &&
    (e.2.forwards ++ s.due).any (fun f => (storeWay f).any (fun w => w.1 == src && w.2 == e.1)))

/-- A step that needs a die link: it reaches a memory slice without being a request of its own, or the slice reaches its medium
(R370, R391; log 44). -/
def usesLinks (e : Instr) : Bool :=
  match e with
  | .doorbell _ | .queueMap _ | .launchPacket _ | .nopPacket _ | .launchDone _ | .restoreCore _ _ | .contextCopy _
  | .hostWindowAccess (.bar2 _) _ _ | .hostWindowAccess (.dev _) _ _ | .colonnadeFrameReceive _ _
  | .writeBufferFlush _ | .moveSectorStep _ | .patrolScrub _ _ _ _ | .sliceInit _ | .stealRequest _ _ _ | .freeze _ _
  | .unfreeze _ | .slotDrainComplete _ | .watchdogExpiry _ | .collExecute _ _ _ => true
  | _ => false

/-- A tree instruction of a core must still go on in the current cycle (R222). -/
def State.treeDue (s : State) (p : Nat) : Bool :=
  (s.core p).slots.any (fun e =>
    match e.2.wait with
    | .tree j => j.pressing (s.cycle p)
    | _ => false)

/-- A core's banks are open to an access of a rank in the current cycle: after the core's own pipeline, its tree instructions,
and what has a lower rank (R266, R272, R283). -/
def State.bankFree (s : State) (q rank : Nat) : Bool :=
  !s.hasTurn q && (s.core q).bankOpen (s.cycle q) rank && !s.treeDue q

/-- The network interface may reach a core's banks in the current cycle: after the core's own pipeline and its walks, and before
the contraction path and the vector unit (R272, R283). -/
def State.netOpen (s : State) (q : Nat) : Bool := s.bankFree q 2

/-- The contraction path may read a sector of its own core's store: one in a cycle, whose banks no other access has taken in it
(R283). -/
def State.sectorOpen (s : State) (r : Request) (q off : Nat) : Bool :=
  !ownSector r || (decide ((s.core q).sectorAt ≤ s.cycle q) && !s.bankTaken q (banksOf off 64))

/-- A request may reach its home: not held back at its core (R333), the links open (R391), the orders kept, the banks open to
it or the slice ready to serve it. -/
def State.requestRipe (s : State) (r : Request) : Bool :=
  !s.behindOwn r &&
  (match r.home with
    | .ls q off => !s.behindForward r.core q && s.bankFree q (bankRankOf r) && s.sectorOpen r q off
    | .dev pa => !s.hub.linksWait && (if s.atSlice r then s.mayServe r pa || (s.requestRefused r pa).isSome else !s.pressed r.home r.hq)
    | _ => true)

/-- The condition of a step that ends a wait of a slot: the wait is over, or it is no longer that wait. -/
def State.waitRipe (s : State) (p n : Nat) : Bool :=
  let cyc := s.cycle p
  match (s.slot p n).wait with
  | .longOp _ _ _ _ till => decide (till ≤ cyc)
  | .sleep till => decide (till ≤ cyc)
  | .exit till => s.mayExit p n till
  | .tree j => j.open_ cyc && !s.hasTurn p && (s.core p).bankOpen cyc 1
  | .migrate _ _ => (s.slot p n).st != .active || s.mayDepart p n
  | .engineQueue _ c => s.engineRoom c
  | _ => true

/-- The cycle from which the unit may perform the next group (R210). -/
def VecJob.nextCycle (j : VecJob) : Nat :=
  if vecCount j.c = 0 then j.taken + 7 else j.taken + 8 + j.next / vecPerGroup j

/-- The sender's cycle from which an offer may be made (R176). -/
def State.offerRipe (s : State) (o : Offer) : Bool :=
  match o with
  | .mail m c => decide (c ≤ s.cycle m.core)
  | .ctx src _ _ c => decide (c ≤ s.cycle src)
  | .sysc _ m c => decide (c ≤ s.cycle m.core)

/-- A packet may be taken, or the packet under way may go on (R326, R328). -/
def State.launchRipe (s : State) (q : BitVec 6) : Bool :=
  match (s.hw q).launch with
  | none => (s.hw q).st != .mapped || s.work q == 0
  | some l => match l.stage with
    | .cores (c :: _) false => !s.coreBusy c || l.over
    | .tasks (e :: _) => !s.hasTurn (s.physical e.core)
    | _ => true

/-- The end of a packet may go on: its work is done, or its store to DONE has been answered (R328). -/
def State.endRipe (s : State) (q : BitVec 6) : Bool :=
  match (s.hw q).launch with
  | none => true
  | some l => match l.stage with
    | .running => s.work q == 0
    | .ending => !(s.run (.hqs q)).got.isEmpty
    | _ => true

/-- A trapped thread of a core has drained, and its record is about to enter its latch (R344, R356). -/
def State.drainPending (s : State) (p : Nat) : Bool :=
  (List.range 16).any (fun n => (s.slot p n).st == .trapped false && (s.core p).drained n && s.due.contains (.trapDrainEnd p n))

/-- A waiting push of a core can be made, and comes before what others do to the deque (R146). -/
def State.pushPending (s : State) (p : Nat) : Bool := !(s.core p).pushes.isEmpty && s.pushReady p

/-- A `dec` or `cancel` waits at a core's deque, and those that come later are received after it (R150). -/
def State.recordsWait (s : State) (p : Nat) : Bool := (s.core p).pushes.any (·.cause.isSome)

/-- A cancel on its way may go on: its page has been translated, and it performs after what the core that sends it onward has sent
earlier and after the records that wait at its home; or its translation may be asked for (R150, R151, R276). -/
def State.cancelRipe (s : State) (l o : Nat) (hq : BitVec 6) (parent : Option Request) : Bool :=
  match s.cancelFound l o hq parent with
  | some (some q) => s.netOpen q && !s.recordsWait q && !(s.cancelFrom parent).any (fun p => s.behindForward p q)
  | some none => true
  | none => match s.cancelFrom parent with
    | some p => !(s.core p).walks.any (fun w => w.key == recordPage l o && w.for_.contains (.agent (.onward p)))
    | none => true

/-- A hardware slot's quantum has expired in this cycle, and its choice is still to be made (R324). -/
def State.expiryPending (s : State) (q : BitVec 6) : Bool :=
  s.due.contains (.quantumExpiry q) && (s.hw q).left == 0 && ((s.hw q).st == .mapped || (s.hw q).st == .draining)

/-- The head of a core's walks may take its next step; the last one comes after the core's own turn (R260, R272). -/
def State.walkRipe (s : State) (p : Nat) (k : PageKey) : Bool :=
  match (s.core p).walks with
  | [] => true
  | w :: _ => w.key != k || (w.entry.isNone && w.level != 3) || (!s.hasTurn p && (s.core p).bankOpen (s.cycle p) 1)

/-- A system core's access comes after those of the same core that RVWMO orders before it (R281). -/
def State.sysRipe (s : State) (a : SysAccess) : Bool :=
  !s.due.any (fun e =>
    match e with
    | .hostWindowAccess (.dev x) _ _ | .hostWindowAccess (.sram x) _ _ => x.core == a.core && a.after.contains x.id
    | _ => false)

/-- A slice's write buffer takes a write, or the access is none (R368). -/
def State.bufferOpen (s : State) (write : Bool) (pa : Nat) : Bool := !(write && (s.slice (sliceOf pa)).bufferFull)

/-- The HQS may write a user queue's descriptor (R368). -/
def State.descOpen (s : State) (u : Nat) : Bool := s.bufferOpen true (s.descAddress u)

/-- A step that ends, freezes or advances a mapped slot may take place: after the choice of its expiry, and once its descriptor may
be written (R324, R368). -/
def State.slotRipe (s : State) (q : BitVec 6) : Bool := !s.expiryPending q && s.descOpen (s.hw q).uq

/-- An access that the hubs bring may perform. -/
def State.portRipe (s : State) (g : PortAgent) (addr : Nat) : Bool :=
  match g with
  | .bar2 w => s.bufferOpen w (s.windowAddress addr)
  | .dev x => s.sysRipe x && s.bufferOpen (sysWrites x.op) addr
  | .sram x => s.sysRipe x

/-- A rotation boundary of a core (R182, R336, R363). -/
def State.boundary (s : State) (p : Nat) : Bool := s.cycle p % 16 == 0

/-- Whether a step under way may take place now, apart from the links. What no longer has an occasion may, and does nothing. -/
def State.ripeHere (s : State) (e : Instr) : Bool :=
  match e with
  | .homePerform r => s.requestRipe r
  | .feRetry r => (s.slot r.core r.slot).wait != .retry r || decide (r.sent + 64 ≤ s.cycle r.core)
  | .allowanceGrant p => !(s.core p).allowanceParked || (s.boundary p && (s.core p).saHeld != 0)
  | .storeWaitLimit p n => match s.storeDeadline p n with
    | none => true
    | some c => decide (c ≤ s.cycle p)
  | .longOpComplete p n | .sleepExpiry p n | .exitComplete p n | .treeComplete p n | .migrationDepart p n => s.waitRipe p n
  | .engineQueueAccept p (.leaves n) => s.waitRipe p n
  | .vsuTake p => (s.core p).vecRun.isNone && (s.core p).vecQueue.all (fun j => decide (j.taken ≤ s.cycle p))
  | .vsuComplete p => match (s.core p).vecRun with
    | some j => decide (j.nextCycle ≤ s.cycle p) && s.bankFree p 4
    | none => true
  | .translationWalk p k => s.walkRipe p k
  | .trapDrainEnd p n => (s.slot p n).st != .trapped false || (s.core p).drained n
  | .trapRecordEnqueue p => (List.range 16).all (fun n => (s.slot p n).latch.isNone) ||
      ((s.core p).ringRoom && (List.range 16).any (fun n => ((s.slot p n).latched (s.cycle p)).isSome))
  | .mcsClear p => !(s.core p).mcs.valid || !(s.slot p 0).wait.ends
  | .messageReoffer o => s.offerRipe o
  | .mailboxWrite m => !s.behindForward m.core m.toCore && s.netOpen m.toCore
  | .arrival src dest _ => !s.behindForward src dest
  | .forwardReinject p _ => match (s.core p).gone with
    | some (some d) => s.netOpen d
    | _ => true
  | .cancelPropagation l o q r => s.cancelRipe l o q r
  | .engineCompletion c => match c.comp with
    | .ls q _ => s.netOpen q
    | _ => true
  | .copyCompletion p => s.netOpen p
  | .continuationPush p => (s.core p).pushes.isEmpty || (s.pushReady p && !s.hasTurn p)
  | .stealRequest _ v _ => !s.hasTurn (s.storeAt (s.physical v)) && !s.pushPending (s.storeAt (s.physical v))
  | .reapComplete p => match (s.slot p 0).wait with
    | .reap n _ => (s.slot p n).out.isEmpty && !(s.slot p n).inTree
    | _ => true
  | .replyMailboxWrite p _ => !s.full (localKey p replyOffset) && s.netOpen p
  | .queueMap u => (s.freeHw.isSome && s.descOpen u) || !s.hub.active.contains u
  | .quantumExpiry n => ((s.hw n).st != .mapped && (s.hw n).st != .draining) || (s.hw n).left == 0
  | .slotDrainComplete n => (s.hw n).st != .draining || (s.idle n && s.slotRipe n)
  | .unfreeze n => (s.hw n).st != .frozen || (s.idle n && s.slotRipe n)
  | .freeze n _ => s.slotRipe n
  | .launchPacket n => s.launchRipe n && s.slotRipe n
  | .nopPacket n | .launchDone n => s.endRipe n && s.slotRipe n
  | .saveCore l | .moveCore l _ => match (s.slot (s.physical l) 0).wait with
    | .reap _ _ => false
    | _ => true
  | .contextCopy p => (s.contextRun p).isSome || (s.core p).saving.isNone ||
      (s.boundary p && s.copyReady p && !s.drainPending p)
  | .restoreCore l d => s.destReady l d
  | .watchdogExpiry n => s.hub.wdog == 0 || (s.hw n).launch.isNone ||
      (decide ((s.hw n).progress + 1024 * s.hub.wdog.toNat ≤ s.hub.cyc) && s.slotRipe n)
  | .freezeCancel p n => !(s.slot p n).owedDue || (s.slot p n).owed.isNone || (match (s.slot p n).st with
    | .trapped _ => (s.slot p n).out.isEmpty
    | _ => false)
  | .forwardingRelease p => s.releaseReady p
  | .tlbEntryDrop p => (s.core p).drops.isEmpty || s.boundary p
  | .tlbiComplete => s.tlbiOver
  | .budgetRefill i => decide ((s.slice i).refillAt ≤ s.sliceCycle i)
  | .epochEnd i => decide ((s.slice i).epochAt ≤ s.sliceCycle i)
  | .scrubPeriodEnd i => decide ((s.slice i).halveAt ≤ s.sliceCycle i)
  | .patrolScrub i f k corrected => corrected || decide ((s.slice i).patrol = some (f, k) ∧ (s.slice i).patrolAt ≤ s.sliceCycle i) ||
      decide ((s.slice i).hotScrub = some (f, k) ∧ (s.slice i).hotAt ≤ s.sliceCycle i) ||
      ((s.slice i).patrol != some (f, k) && (s.slice i).hotScrub != some (f, k))
  | .hostWindowAccess g a _ => s.portRipe g a
  | .colonnadeFrameReceive _ f => s.bufferOpen (opWrites f.op) f.pa
  | .stageVerify n => n != 1 || s.hub.running1
  | .pcapWindowEnd => decide (s.hub.winAt ≤ s.hub.cyc)
  | _ => true

def State.ripe (s : State) (e : Instr) : Bool := s.ripeHere e && !(s.hub.linksWait && usesLinks e)

/-! ## When a clock waits (R18, R157, R182, R210, R222, R332, R336, R344, R363) -/

/-- Whether a step that may take place must do so before its die's clock goes on. -/
def State.urgent (s : State) (e : Instr) (d : Nat) : Bool :=
  match e with
  | .allowanceGrant p | .storeWaitLimit p _ | .longOpComplete p _ | .exitComplete p _ | .vsuTake p | .vsuComplete p
  | .trapDrainEnd p _ | .trapRecordEnqueue p | .tlbEntryDrop p | .reapComplete p | .contractionFault p _
  | .continuationPush p | .engineQueueAccept p (.leaves _) => dieOfCore p == d
  | .contextCopy p => dieOfCore p == d && (s.contextRun p).isNone
  | .feRetry r => dieOfCore r.core == d
  | .homePerform r => s.atSlice r && homeDie r.home == some d
  | .sleepExpiry p n => dieOfCore p == d && (match (s.slot p n).wait with
    | .sleep till => decide (till + 15 ≤ s.cycle p)
    | _ => true)
  | .treeComplete p n => dieOfCore p == d && (match (s.slot p n).wait with
    | .tree j => j.pressing (s.cycle p)
    | _ => true)
  | .budgetRefill i | .epochEnd i | .scrubPeriodEnd i | .patrolScrub i _ _ false => dieOfSlice i == d
  | _ => false

/-- Whether H0's clock waits for a step (R324, R334, R399). -/
def hubUrgent (e : Instr) : Bool :=
  match e with
  | .quantumExpiry _ | .watchdogExpiry _ | .pcapWindowEnd => true
  | _ => false

/-! ## Which of two comes first -/

/-- The network that carries a request to its home: the one of writes, or the one of reads and atomics (R373). -/
def requestWrites (r : Request) : Bool :=
  match r.op with
  | .store _ | .red _ | .stg | .dec | .cancel | .sector _ | .copyWrite _ | .agentWrite _ _ _ | .complete _ _ => true
  | _ => false

/-- A request is sent by its core's network interface, and not by a unit elsewhere that works for the core. -/
def fromCore (r : Request) : Bool :=
  match r.op with
  | .agentRead (.stack _) _ _ | .agentRead (.coll _ _ _) _ _ | .agentRead (.hqs _) _ _ | .agentWrite (.stack _) _ _
  | .agentWrite (.coll _ _ _) _ _ | .agentWrite (.hqs _) _ _ | .complete (.stack _) _ | .complete (.hqs _) _ => false
  | _ => true

/-- Two requests of one core on one network to one slice or one store on its die arrive in the order they were sent,
unless their classes are held back apart (R333, R375). -/
def State.sameWay (s : State) (a b : Request) : Bool :=
  a.core == b.core && fromCore a && fromCore b && requestWrites a == requestWrites b &&
  homeDie a.home == some (dieOfCore a.core) && s.classOf a.hq == s.classOf b.hq &&
  (match a.home, b.home with
    | .ls p _, .ls q _ => p == q
    | .dev p, .dev q => sliceOf p == sliceOf q
    | _, _ => false)

/-- Where a message or packet on its way comes from and goes (R375). -/
def msgWay (e : Instr) : Option (Nat × Nat) :=
  match e with
  | .mailboxWrite m => some (m.core, m.toCore)
  | .arrival src dest _ => some (src, dest)
  | _ => none

/-- The core whose message goes to a mailbox on its own die (R177). -/
def mailWay (e : Instr) : Option Nat :=
  match e with
  | .mailboxWrite m => if dieOfCore m.core = dieOfCore m.toCore then some m.core else none
  | _ => none

/-- Two messages of one core to mailboxes of its die, or two messages or packets of one core to another of its die, arrive in the
order they were sent (R177, R375). -/
def sameMessages (a b : Instr) : Bool :=
  ((mailWay a).isSome && mailWay a == mailWay b) || (msgWay a == msgWay b && (msgWay a).any (fun v => dieOfCore v.1 == dieOfCore v.2))

/-- The end point on a core's die that answers it: a core or a slice. -/
def answerFrom (r : Request) : Option (Bool × Nat × Nat) :=
  if homeDie r.home = some (dieOfCore r.core) then
    match r.home with
    | .ls q _ => some (true, q, r.core)
    | .dev pa => some (false, sliceOf pa, r.core)
    | _ => none
  else none

/-- The way of an answer within a die: the core or slice that it comes from, and the core that it goes to (R375). -/
def State.answerWay (s : State) (e : Instr) : Option (Bool × Nat × Nat) :=
  match e with
  | .remoteReply r _ | .relaxedLoadReply r _ | .writeAck r | .refusal r _ => answerFrom r
  | .messageAck m => if dieOfCore m.core = dieOfCore m.toCore then some (true, m.toCore, m.core) else none
  | .stealReply p _ => match (s.slot p 0).wait with
    | .steal v _ _ =>
      let q := s.storeAt (s.physical v)
      if dieOfCore q = dieOfCore p then some (true, q, p) else none
    | _ => none
  | _ => none

/-- Two answers from one end point to one core of its die arrive in the order they were sent (R375). -/
def State.sameAnswers (s : State) (a b : Instr) : Bool := (s.answerWay a).isSome && s.answerWay a == s.answerWay b

/-- A steal, and a request of the same core on the network of reads to the same store of its die (R373, R375). -/
def State.withSteal (s : State) (p v : Nat) (r : Request) : Bool :=
  r.core == p && fromCore r && !requestWrites r && homeDie r.home == some (dieOfCore p) &&
  (match r.home with
    | .ls q _ => q == s.physical v
    | _ => false)

/-- The die on which a command's engine stands: its stack's, or the core's own (R224). -/
def engineDie (c : EngineCmd) : Nat :=
  match c.op with
  | .coll _ => dieOfCore c.core
  | _ => blkStack c.block / 4

/-- A command that a system core gives to a core through the HQS, or to the HQS (R282, R322). -/
def hqsCommand (e : Instr) : Bool :=
  match e with
  | .freeze _ _ | .unfreeze _ | .saveCore _ | .moveCore _ _ | .restoreCore _ _ | .replyMailboxWrite _ _ | .mcsClear _
  | .doorbell _ | .cret _ | .hubRegisterWrite .hcmd _ => true
  | _ => false

/-- Whether the step `a`, posted first, must come before the step `b`. -/
def State.blocks (s : State) (a b : Instr) : Bool :=
  match a, b with
  | .homePerform x, .homePerform y => s.sameWay x y && !s.atSlice x && !s.atSlice y && decide (x.sent ≤ y.sent)
  | .sliceInit _, .stageVerify _ => true
  | .sliceInit _, .dieLeavesReset _ => true
  | .sliceInit _, .doorbell _ => true
  | .sliceInit _, .queueMap _ => true
  | .sliceInit _, .launchPacket _ => true
  | .forwardReinject p _, .forwardReinject q _ => p == q
  | .engineQueueAccept p (.reaches c), .engineQueueAccept q (.reaches d) =>
    p == q && sameQueue c d && engineDie c == dieOfCore p
  | .stealRequest p v _, .homePerform r => s.withSteal p v r
  | .homePerform r, .stealRequest p v _ => s.withSteal p v r && !s.atSlice r
  | .hostWindowAccess (.bar2 _) _ _, .hostWindowAccess (.bar2 _) _ _ => true
  | .hostWindowAccess (.bar2 _) _ _, .doorbell _ => true
  | .doorbell _, .hostWindowAccess (.bar2 _) _ _ => true
  | .doorbell _, .doorbell _ => true
  | .hostWindowAccess (.dev _) _ _, y => hqsCommand y
  | x, y => sameMessages x y || s.sameAnswers x y

/-! ## The moves -/

/-- What may happen next: an instruction whose walk has completed goes on, a core takes its turn, a clock counts, or a step
under way takes place. -/
inductive Move
  | resume
  | turn (p : Nat)
  | tick (d : Nat)
  | hubTick (hub : Nat)
  | due (i : Nat)
  deriving DecidableEq, Repr

/-- The core of a die that takes its turn next in the current cycle. -/
def State.turnCore (s : State) (d : Nat) : Option Nat :=
  (s.cores.find? (fun e => dieOfCore e.1 == d && s.hasTurn e.1)).map (·.1)

/-- The moves of a die: the next core's turn, or its clock. -/
def State.dieMoves (s : State) (d : Nat) : List Move :=
  if (s.die d).running then
    match s.turnCore d with
    | some p => [.turn p]
    | none => if s.due.any (fun e => s.urgent e d && s.ripe e) then [] else [.tick d]
  else []

/-- The moves of the steps under way, from position `i` of the list. -/
def State.dueMoves (s : State) : Nat → List Instr → List Instr → List Move
  | _, _, [] => []
  | i, before, e :: es =>
    let rest := s.dueMoves (i + 1) (before ++ [e]) es
    if s.ripe e && !before.any (fun a => s.blocks a e) then .due i :: rest else rest

/-- The hubs' clocks. -/
def State.hubMoves (s : State) : List Move :=
  (if s.hub.running && !s.due.any (fun e => hubUrgent e && s.ripe e) then [.hubTick 0] else []) ++
  (if s.hub.running1 then [.hubTick 1] else [])

/-- Everything that may happen next (R55, R268, R271: no order is promised). An instruction whose walk has completed, or whose
wait is over, goes on at once, in that cycle and after the core's own turn (R18, R260, R263, R272). -/
def State.moves (s : State) : List Move :=
  match s.walked with
  | [] => (List.range 8).flatMap s.dieMoves ++ s.hubMoves ++ s.dueMoves 0 [] s.due
  | c :: _ => if s.hasTurn c.core then [.turn c.core] else [.resume]

/-- The first move of a list that is a core's turn. -/
def firstTurn (l : List Move) : Option Move :=
  l.find? (fun m =>
    match m with
    | .turn _ => true
    | _ => false)

/-- The step under way that has waited longest of those that may take place. -/
def oldestDue (l : List Move) : Option Move :=
  l.find? (fun m =>
    match m with
    | .due _ => true
    | _ => false)

/-- The clock that a move advances: a die's, or a hub's. -/
def clockOf (m : Move) : Option Nat :=
  match m with
  | .tick d => some d
  | .hubTick h => some (8 + h)
  | _ => none

/-- The first clock that has counted fewer than three cycles in a sweep. -/
def clockLeft (w : Sweep) (l : List Move) : Option (Move × Nat) :=
  l.findSome? (fun m =>
    match clockOf m with
    | some c => if w.ticks.count c < 3 then some (m, c) else none
    | none => none)

/-- The next move of a sweep: the turns of the cycle, the steps under way from the oldest on, as many as there are and some, and
then the clocks, each for three cycles; `none` when it is over (R273; log 3). -/
def State.forced (s : State) (l : List Move) : Option (Move × Sweep) :=
  match firstTurn l with
  | some m => some (m, s.sweep)
  | none =>
    match (if s.sweep.steps ≤ s.due.length + 64 then oldestDue l else none) with
    | some m => some (m, { s.sweep with steps := s.sweep.steps + 1 })
    | none => (clockLeft s.sweep l).map (fun e => (e.1, { steps := 0, ticks := e.2 :: s.sweep.ticks }))

/-- A free choice among moves. -/
def State.freeChoice (s : State) (l : List Move) (rounds : Nat) : Option Move × State :=
  (l[Config.pick s.choices % l.length]?, { s with choices := s.choices + 1, rounds := rounds, sweep := Sweep.start })

/-- One of the moves; a choice is drawn only where there is one. After `Config.patience` of them a sweep goes over everything that
may happen, so that what is under way takes place in finite time (R273; log 3). -/
def State.choose (s : State) : Option Move × State :=
  match s.moves with
  | [] => (none, s)
  | [m] => (some m, s)
  | l =>
    if s.rounds < Config.patience then s.freeChoice l (s.rounds + 1)
    else
      match s.forced l with
      | some (m, w) => (some m, { s with sweep := w })
      | none => s.freeChoice l 0

end Sys2Proof.Machine
end

