-- ==== Sys2Proof/Machine/Views.lean ====
section
/-! DEFINITION. The instructions on view descriptors (08_isa_arith.md, R206, R208). -/

namespace Sys2Proof.Machine

/-- `setvd`: the descriptor is written in stage 5 (R44, R208). -/
def execSetvd (v : BitVec 3) (a : Reg) (s : State) : Answer :=
  .next (s.withRegs [a] ((s.modCore s.cur.core (fun c => c.setView v.toNat (s.rd a) s.now)).advance))

/-- `getvd`: the descriptor as it stands in stage 5; its reserved bits read as zero (R7, R206, R208). -/
def execGetvd (v : BitVec 3) (d : Reg) (s : State) : Answer :=
  .next (s.withRegs [d] (s.complete d ((s.core s.cur.core).descriptor v.toNat >>> 5 <<< 5)))

end Sys2Proof.Machine
end

