-- ==== Sys2Proof/Machine/Dispatch.lean ====
section
/-! DEFINITION. One arm per constructor: the meaning of every step. -/

namespace Sys2Proof.Machine

def exec (i : Instr) (s : State) : Host.Outcome State Fault Refusal :=
  match i with
  | .nop => Sys2Proof.Machine.execNop s
  | .add d a b => Sys2Proof.Machine.execAdd d a b s
  | .sub d a b => Sys2Proof.Machine.execSub d a b s
  | .mul d a b => Sys2Proof.Machine.execMul d a b s
  | .mulh d a b => Sys2Proof.Machine.execMulh d a b s
  | .mulhu d a b => Sys2Proof.Machine.execMulhu d a b s
  | .div d a b => Sys2Proof.Machine.execDiv d a b s
  | .divu d a b => Sys2Proof.Machine.execDivu d a b s
  | .rem d a b => Sys2Proof.Machine.execRem d a b s
  | .remu d a b => Sys2Proof.Machine.execRemu d a b s
  | .and d a b => Sys2Proof.Machine.execAnd d a b s
  | .or d a b => Sys2Proof.Machine.execOr d a b s
  | .xor d a b => Sys2Proof.Machine.execXor d a b s
  | .andn d a b => Sys2Proof.Machine.execAndn d a b s
  | .orn d a b => Sys2Proof.Machine.execOrn d a b s
  | .shl d a b => Sys2Proof.Machine.execShl d a b s
  | .shr d a b => Sys2Proof.Machine.execShr d a b s
  | .sar d a b => Sys2Proof.Machine.execSar d a b s
  | .rol d a b => Sys2Proof.Machine.execRol d a b s
  | .ror d a b => Sys2Proof.Machine.execRor d a b s
  | .min d a b => Sys2Proof.Machine.execMin d a b s
  | .max d a b => Sys2Proof.Machine.execMax d a b s
  | .minu d a b => Sys2Proof.Machine.execMinu d a b s
  | .maxu d a b => Sys2Proof.Machine.execMaxu d a b s
  | .slt d a b => Sys2Proof.Machine.execSlt d a b s
  | .sltu d a b => Sys2Proof.Machine.execSltu d a b s
  | .seq d a b => Sys2Proof.Machine.execSeq d a b s
  | .sne d a b => Sys2Proof.Machine.execSne d a b s
  | .sel d a b c => Sys2Proof.Machine.execSel d a b c s
  | .clz d a => Sys2Proof.Machine.execClz d a s
  | .ctz d a => Sys2Proof.Machine.execCtz d a s
  | .popc d a => Sys2Proof.Machine.execPopc d a s
  | .bext d a b => Sys2Proof.Machine.execBext d a b s
  | .bextu d a b => Sys2Proof.Machine.execBextu d a b s
  | .bins d a b c => Sys2Proof.Machine.execBins d a b c s
  | .fsh d a b c => Sys2Proof.Machine.execFsh d a b c s
  | .bswap d a => Sys2Proof.Machine.execBswap d a s
  | .sext d a b => Sys2Proof.Machine.execSext d a b s
  | .zext d a b => Sys2Proof.Machine.execZext d a b s
  | .lea d m => Sys2Proof.Machine.execLea d m s
  | .mov d b => Sys2Proof.Machine.execMov d b s
  | .addix b => Sys2Proof.Machine.execAddix b s
  | .b disp => Sys2Proof.Machine.execB disp s
  | .beq a b disp => Sys2Proof.Machine.execBeq a b disp s
  | .bne a b disp => Sys2Proof.Machine.execBne a b disp s
  | .blt a b disp => Sys2Proof.Machine.execBlt a b disp s
  | .bge a b disp => Sys2Proof.Machine.execBge a b disp s
  | .bltu a b disp => Sys2Proof.Machine.execBltu a b disp s
  | .bgeu a b disp => Sys2Proof.Machine.execBgeu a b disp s
  | .bbs n a disp => Sys2Proof.Machine.execBbs n a disp s
  | .bbc n a disp => Sys2Proof.Machine.execBbc n a disp s
  | .call disp => Sys2Proof.Machine.execCall disp s
  | .callr a => Sys2Proof.Machine.execCallr a s
  | .jmp a => Sys2Proof.Machine.execJmp a s
  | .ret => Sys2Proof.Machine.execRet s
  | .fork d t a c => Sys2Proof.Machine.execFork d t a c s
  | .dec m => Sys2Proof.Machine.execDec m s
  | .cancel m => Sys2Proof.Machine.execCancel m s
  | .take d => Sys2Proof.Machine.execTake d s
  | .start a b c => Sys2Proof.Machine.execStart a b c s
  | .reap d a => Sys2Proof.Machine.execReap d a s
  | .exit => Sys2Proof.Machine.execExit s
  | .sleep b => Sys2Proof.Machine.execSleep b s
  | .ld wd u rx d m => Sys2Proof.Machine.execLd wd u rx d m s
  | .st wd rx m c => Sys2Proof.Machine.execSt wd rx m c s
  | .ldMig wd u d m => Sys2Proof.Machine.execLdMig wd u d m s
  | .stMig wd m c => Sys2Proof.Machine.execStMig wd m c s
  | .ldf d m => Sys2Proof.Machine.execLdf d m s
  | .lde d m => Sys2Proof.Machine.execLde d m s
  | .stf m c => Sys2Proof.Machine.execStf m c s
  | .stn m c => Sys2Proof.Machine.execStn m c s
  | .clre m => Sys2Proof.Machine.execClre m s
  | .fes d m => Sys2Proof.Machine.execFes d m s
  | .amadd d m c => Sys2Proof.Machine.execAmadd d m c s
  | .amand d m c => Sys2Proof.Machine.execAmand d m c s
  | .amor d m c => Sys2Proof.Machine.execAmor d m c s
  | .amxor d m c => Sys2Proof.Machine.execAmxor d m c s
  | .ammin d m c => Sys2Proof.Machine.execAmmin d m c s
  | .ammax d m c => Sys2Proof.Machine.execAmmax d m c s
  | .amminu d m c => Sys2Proof.Machine.execAmminu d m c s
  | .ammaxu d m c => Sys2Proof.Machine.execAmmaxu d m c s
  | .amswp d m c => Sys2Proof.Machine.execAmswp d m c s
  | .amcas d m c => Sys2Proof.Machine.execAmcas d m c s
  | .redadd m c => Sys2Proof.Machine.execRedadd m c s
  | .redand m c => Sys2Proof.Machine.execRedand m c s
  | .redor m c => Sys2Proof.Machine.execRedor m c s
  | .redmax m c => Sys2Proof.Machine.execRedmax m c s
  | .redmin m c => Sys2Proof.Machine.execRedmin m c s
  | .redfadd m c => Sys2Proof.Machine.execRedfadd m c s
  | .stg m c => Sys2Proof.Machine.execStg m c s
  | .fence scope => Sys2Proof.Machine.execFence scope s
  | .send d m => Sys2Proof.Machine.execSend d m s
  | .go m => Sys2Proof.Machine.execGo m s
  | .cpy d a b c => Sys2Proof.Machine.execCpy d a b c s
  | .cld mm inOrder t a b c => Sys2Proof.Machine.execCld mm inOrder t a b c s
  | .cldw t => Sys2Proof.Machine.execCldw t s
  | .acz t b => Sys2Proof.Machine.execAcz t b s
  | .acrd f d t b => Sys2Proof.Machine.execAcrd f d t b s
  | .acwr t a b => Sys2Proof.Machine.execAcwr t a b s
  | .acst f m t => Sys2Proof.Machine.execAcst f m t s
  | .cmprog t a => Sys2Proof.Machine.execCmprog t a s
  | .cmst d t => Sys2Proof.Machine.execCmst d t s
  | .fadd f d a b => Sys2Proof.Machine.execFadd f d a b s
  | .fsub f d a b => Sys2Proof.Machine.execFsub f d a b s
  | .fmul f d a b => Sys2Proof.Machine.execFmul f d a b s
  | .fma f d a b c => Sys2Proof.Machine.execFma f d a b c s
  | .fdiv f d a b => Sys2Proof.Machine.execFdiv f d a b s
  | .fsqrt f d a => Sys2Proof.Machine.execFsqrt f d a s
  | .fmin f d a b => Sys2Proof.Machine.execFmin f d a b s
  | .fmax f d a b => Sys2Proof.Machine.execFmax f d a b s
  | .flt f d a b => Sys2Proof.Machine.execFlt f d a b s
  | .fle f d a b => Sys2Proof.Machine.execFle f d a b s
  | .feq f d a b => Sys2Proof.Machine.execFeq f d a b s
  | .fcvt dstFmt srcFmt d a => Sys2Proof.Machine.execFcvt dstFmt srcFmt d a s
  | .fexp2 f d a => Sys2Proof.Machine.execFexp2 f d a s
  | .flog2 f d a => Sys2Proof.Machine.execFlog2 f d a s
  | .padd f d a b => Sys2Proof.Machine.execPadd f d a b s
  | .psub f d a b => Sys2Proof.Machine.execPsub f d a b s
  | .pmul f d a b => Sys2Proof.Machine.execPmul f d a b s
  | .pmax f d a b => Sys2Proof.Machine.execPmax f d a b s
  | .pmin f d a b => Sys2Proof.Machine.execPmin f d a b s
  | .pdot f d a b => Sys2Proof.Machine.execPdot f d a b s
  | .vadd d a b c => Sys2Proof.Machine.execVadd d a b c s
  | .vsub d a b c => Sys2Proof.Machine.execVsub d a b c s
  | .vmul d a b c => Sys2Proof.Machine.execVmul d a b c s
  | .vmax d a b c => Sys2Proof.Machine.execVmax d a b c s
  | .vmin d a b c => Sys2Proof.Machine.execVmin d a b c s
  | .vfma d a b c => Sys2Proof.Machine.execVfma d a b c s
  | .vmap d a b c => Sys2Proof.Machine.execVmap d a b c s
  | .vsum d a b c => Sys2Proof.Machine.execVsum d a b c s
  | .vtopk k d a b c => Sys2Proof.Machine.execVtopk k d a b c s
  | .vbcast d a b c => Sys2Proof.Machine.execVbcast d a b c s
  | .setvd v a => Sys2Proof.Machine.execSetvd v a s
  | .getvd v d => Sys2Proof.Machine.execGetvd v d s
  | .rnd d a b => Sys2Proof.Machine.execRnd d a b s
  | .tup m => Sys2Proof.Machine.execTup m s
  | .tdn m => Sys2Proof.Machine.execTdn m s
  | .tcfg b => Sys2Proof.Machine.execTcfg b s
  | .klu a c => Sys2Proof.Machine.execKlu a c s
  | .kbwd a c => Sys2Proof.Machine.execKbwd a c s
  | .gat a c => Sys2Proof.Machine.execGat a c s
  | .collSum a c => Sys2Proof.Machine.execCollSum a c s
  | .collTopk a c => Sys2Proof.Machine.execCollTopk a c s
  | .collBcast a c => Sys2Proof.Machine.execCollBcast a c s
  | .collGather a c => Sys2Proof.Machine.execCollGather a c s
  | .trap n => Sys2Proof.Machine.execTrap n s
  | .brk => Sys2Proof.Machine.execBrk s
  | .rdst d sr => Sys2Proof.Machine.execRdst d sr s
  | .wrst sr b => Sys2Proof.Machine.execWrst sr b s
  | .resume replay a => Sys2Proof.Machine.execResume replay a s
  | .stop a => Sys2Proof.Machine.execStop a s
  | .rdcyc d => Sys2Proof.Machine.execRdcyc d s
  | .sysc a => Sys2Proof.Machine.execSysc a s
  | .icacheLineFill core hq line => Sys2Proof.Machine.execIcacheLineFill core hq line s
  | .translationWalk core key => Sys2Proof.Machine.execTranslationWalk core key s
  | .homePerform r => Sys2Proof.Machine.execHomePerform r s
  | .remoteReply r v => Sys2Proof.Machine.execRemoteReply r v s
  | .relaxedLoadReply r v => Sys2Proof.Machine.execRelaxedLoadReply r v s
  | .writeAck r => Sys2Proof.Machine.execWriteAck r s
  | .refusal r cause => Sys2Proof.Machine.execRefusal r cause s
  | .feRetry r => Sys2Proof.Machine.execFeRetry r s
  | .feRetryLimit r => Sys2Proof.Machine.execFeRetryLimit r s
  | .allowanceGrant core => Sys2Proof.Machine.execAllowanceGrant core s
  | .storeWaitLimit core slot => Sys2Proof.Machine.execStoreWaitLimit core slot s
  | .longOpComplete core slot => Sys2Proof.Machine.execLongOpComplete core slot s
  | .sleepExpiry core slot => Sys2Proof.Machine.execSleepExpiry core slot s
  | .treeComplete core slot => Sys2Proof.Machine.execTreeComplete core slot s
  | .vsuTake core => Sys2Proof.Machine.execVsuTake core s
  | .vsuComplete core => Sys2Proof.Machine.execVsuComplete core s
  | .cldSectorRequest core t => Sys2Proof.Machine.execCldSectorRequest core t s
  | .cldSectorArrival core t sector => Sys2Proof.Machine.execCldSectorArrival core t sector s
  | .cldRequestFail core t sector cause => Sys2Proof.Machine.execCldRequestFail core t sector cause s
  | .contractionFault core t => Sys2Proof.Machine.execContractionFault core t s
  | .deferredTrap core slot => Sys2Proof.Machine.execDeferredTrap core slot s
  | .trapDrainEnd core slot => Sys2Proof.Machine.execTrapDrainEnd core slot s
  | .trapRecordEnqueue core => Sys2Proof.Machine.execTrapRecordEnqueue core s
  | .mcsClear core => Sys2Proof.Machine.execMcsClear core s
  | .migrationDepart core slot => Sys2Proof.Machine.execMigrationDepart core slot s
  | .arrival src dest p => Sys2Proof.Machine.execArrival src dest p s
  | .arrivalStart core => Sys2Proof.Machine.execArrivalStart core s
  | .mailboxWrite m => Sys2Proof.Machine.execMailboxWrite m s
  | .messageReoffer o => Sys2Proof.Machine.execMessageReoffer o s
  | .messageAck m => Sys2Proof.Machine.execMessageAck m s
  | .cancelPropagation lcore off hq parent => Sys2Proof.Machine.execCancelPropagation lcore off hq parent s
  | .continuationPush core => Sys2Proof.Machine.execContinuationPush core s
  | .dequeReadback core => Sys2Proof.Machine.execDequeReadback core s
  | .stealRequest core victim hq => Sys2Proof.Machine.execStealRequest core victim hq s
  | .stealReply core e => Sys2Proof.Machine.execStealReply core e s
  | .reapComplete core => Sys2Proof.Machine.execReapComplete core s
  | .exitComplete core slot => Sys2Proof.Machine.execExitComplete core slot s
  | .copyCommandStart core => Sys2Proof.Machine.execCopyCommandStart core s
  | .copyCompletion core => Sys2Proof.Machine.execCopyCompletion core s
  | .engineQueueAccept core q => Sys2Proof.Machine.execEngineQueueAccept core q s
  | .kluExecute stack => Sys2Proof.Machine.execKluExecute stack s
  | .kbwdExecute stack => Sys2Proof.Machine.execKbwdExecute stack s
  | .gatExecute stack => Sys2Proof.Machine.execGatExecute stack s
  | .collExecute grp tag die => Sys2Proof.Machine.execCollExecute grp tag die s
  | .engineCompletion c => Sys2Proof.Machine.execEngineCompletion c s
  | .hubRequest hub m => Sys2Proof.Machine.execHubRequest hub m s
  | .replyMailboxWrite core words => Sys2Proof.Machine.execReplyMailboxWrite core words s
  | .arrivalSpill core => Sys2Proof.Machine.execArrivalSpill core s
  | .arrivalReturn core => Sys2Proof.Machine.execArrivalReturn core s
  | .arrivalCommandInvalid core => Sys2Proof.Machine.execArrivalCommandInvalid core s
  | .arrivalCommandComplete core => Sys2Proof.Machine.execArrivalCommandComplete core s
  | .doorbell u => Sys2Proof.Machine.execDoorbell u s
  | .queueMap u => Sys2Proof.Machine.execQueueMap u s
  | .quantumExpiry n => Sys2Proof.Machine.execQuantumExpiry n s
  | .slotDrainComplete n => Sys2Proof.Machine.execSlotDrainComplete n s
  | .launchPacket n => Sys2Proof.Machine.execLaunchPacket n s
  | .nopPacket n => Sys2Proof.Machine.execNopPacket n s
  | .launchDone n => Sys2Proof.Machine.execLaunchDone n s
  | .freeze n fcause => Sys2Proof.Machine.execFreeze n fcause s
  | .unfreeze n => Sys2Proof.Machine.execUnfreeze n s
  | .saveCore lcore => Sys2Proof.Machine.execSaveCore lcore s
  | .moveCore lcore dest => Sys2Proof.Machine.execMoveCore lcore dest s
  | .restoreCore lcore dest => Sys2Proof.Machine.execRestoreCore lcore dest s
  | .contextCopy core => Sys2Proof.Machine.execContextCopy core s
  | .watchdogExpiry n => Sys2Proof.Machine.execWatchdogExpiry n s
  | .freezeCancel core slot => Sys2Proof.Machine.execFreezeCancel core slot s
  | .forwardReinject core inner => Sys2Proof.Machine.execForwardReinject core inner s
  | .savedStoreRefusal r => Sys2Proof.Machine.execSavedStoreRefusal r s
  | .forwardingRelease core => Sys2Proof.Machine.execForwardingRelease core s
  | .tlbiDropAll => Sys2Proof.Machine.execTlbiDropAll s
  | .tlbiDropHq hq => Sys2Proof.Machine.execTlbiDropHq hq s
  | .tlbiDropPage hq vpn => Sys2Proof.Machine.execTlbiDropPage hq vpn s
  | .tlbiDropFar lcore => Sys2Proof.Machine.execTlbiDropFar lcore s
  | .tlbEntryDrop core => Sys2Proof.Machine.execTlbEntryDrop core s
  | .tlbiComplete => Sys2Proof.Machine.execTlbiComplete s
  | .budgetRefill slice => Sys2Proof.Machine.execBudgetRefill slice s
  | .writeBufferFlush slice => Sys2Proof.Machine.execWriteBufferFlush slice s
  | .epochEnd slice => Sys2Proof.Machine.execEpochEnd slice s
  | .moveSectorStep slice => Sys2Proof.Machine.execMoveSectorStep slice s
  | .mediaReread slice m again => Sys2Proof.Machine.execMediaReread slice m again s
  | .scrubPeriodEnd slice => Sys2Proof.Machine.execScrubPeriodEnd slice s
  | .sliceInit slice => Sys2Proof.Machine.execSliceInit slice s
  | .hostPageAccess r => Sys2Proof.Machine.execHostPageAccess r s
  | .powerOnReset => Sys2Proof.Machine.execPowerOnReset s
  | .stageVerify stage => Sys2Proof.Machine.execStageVerify stage s
  | .dieLeavesReset n => Sys2Proof.Machine.execDieLeavesReset n s
  | .illegalEncoding => Sys2Proof.Machine.execIllegalEncoding s
  | .fetchFault cause detail => Sys2Proof.Machine.execFetchFault cause detail s
  | .patrolScrub slice frame sector corrected => Sys2Proof.Machine.execPatrolScrub slice frame sector corrected s
  | .retreq slice frame w => Sys2Proof.Machine.execRetreq slice frame w s
  | .indirectionWrite slice frame w => Sys2Proof.Machine.execIndirectionWrite slice frame w s
  | .dieLinkTagFailure link again => Sys2Proof.Machine.execDieLinkTagFailure link again s
  | .bridgeCrcFailure link again => Sys2Proof.Machine.execBridgeCrcFailure link again s
  | .colonnadeFrameReceive port f => Sys2Proof.Machine.execColonnadeFrameReceive port f s
  | .colonnadeCrcReplay port again => Sys2Proof.Machine.execColonnadeCrcReplay port again s
  | .cportEnable n => Sys2Proof.Machine.execCportEnable n s
  | .hostWindowAccess agent addr data => Sys2Proof.Machine.execHostWindowAccess agent addr data s
  | .msix v => Sys2Proof.Machine.execMsix v s
  | .recoveryImage img => Sys2Proof.Machine.execRecoveryImage img s
  | .fuseBurnRequest stage signed => Sys2Proof.Machine.execFuseBurnRequest stage signed s
  | .attestationRequest nonce => Sys2Proof.Machine.execAttestationRequest nonce s
  | .alarmSourceFire src => Sys2Proof.Machine.execAlarmSourceFire src s
  | .raise level => Sys2Proof.Machine.execRaise level s
  | .alarmSrcClear mask => Sys2Proof.Machine.execAlarmSrcClear mask s
  | .alcfgWrite w => Sys2Proof.Machine.execAlcfgWrite w s
  | .keyAgreementDone => Sys2Proof.Machine.execKeyAgreementDone s
  | .pcapWindowEnd => Sys2Proof.Machine.execPcapWindowEnd s
  | .thermalThreshold die temp => Sys2Proof.Machine.execThermalThreshold die temp s
  | .cret lcore => Sys2Proof.Machine.execCret lcore s
  | .gabort die grp => Sys2Proof.Machine.execGabort die grp s
  | .hubRegisterWrite r w => Sys2Proof.Machine.execHubRegisterWrite r w s
  | .colonnadeLinkTrained port lat => Sys2Proof.Machine.execColonnadeLinkTrained port lat s

end Sys2Proof.Machine
end

