-- ==== Sys2Proof/Machine/Step.lean ====
section
/-! DEFINITION. One step of the module, and the state in which the next step runs a given instruction. -/

namespace Sys2Proof.Machine

/-- A core has taken its turn in the current cycle. -/
def State.turned (s : State) (p : Nat) : State := s.modCore p (fun c => { c with turn := s.cycle p + 1 })

/-- A thread of a queue issues; slot 0's is no thread of a queue (R334). -/
def State.noteIssue (s : State) (n : Nat) (q : BitVec 6) : State := if n = 0 then s else s.noteProgress q

/-- The turn of a core goes to a slot: it takes its late events (R340), or its PC is fetched and the instruction there
issues (R14, R97, R104). -/
def State.issue (s : State) (p n : Nat) : Host.Outcome State Fault Refusal :=
  let t := s.slot p n
  if t.lateReady then exec (.deferredTrap p n) (s.turned p)
  else
    let s1 := ((s.noteIssue n t.hq).setSlot p n { t with wait := .none }).turned p
    let at_ (next : Word) (i : Option Instr) : State :=
      { s1 with cur := { core := p, slot := n, pc := t.pc, next := next, instr := i, again := none } }
    match s.fetch p n with
    | .instr i next => exec i ((at_ next (some i)).touch p t.hq t.pc)
    | .lineEnd next => .next (s.setSlot p n { t with wait := .none, pc := next })
    | .illegal next => exec .illegalEncoding (at_ next none)
    | .fault cause detail => exec (.fetchFault cause detail) (at_ t.pc none)
    | .walk k => .next ((at_ t.pc none).parkFetch k)
    | .fill => .next ((at_ t.pc none).parkFill (lineBase t.pc))

/-- An instruction whose walk has completed, or whose wait is over, goes on in that cycle, after the core's own turn; after a walk
its thread issues next as after any instruction, after a wait from the next cycle on (R16, R18, R260, R263, R272). -/
def State.goOnWalked (s : State) : Host.Outcome State Fault Refusal :=
  match s.walked with
  | [] => .next s
  | c :: l =>
    let s : State := { s with walked := l, cur := c }
    let d := if (c.again.bind (·.since)).isSome then 1 else 5
    let s := (s.useBanks c.core 1 0 0).modThr (fun t => { t with wakeAt := max t.wakeAt (s.cycle c.core + d) })
    match c.instr with
    | some i => exec i s
    | none => .next s

/-- What a step has ended goes on: a slot whose wait is over may issue `d` cycles after it, the next cycle, or the one after the
stage 5 of an instruction that has issued (R16). -/
def settleStep (a : State) (d : Nat) (o : Host.Outcome State Fault Refusal) : Host.Outcome State Fault Refusal :=
  match o with
  | .next s => .next (a.awake s d)
  | o => o

/-- One step: one of the moves that are possible. Nothing moves in a module whose dies and hubs are in reset and for which
nothing is under way; one that an alarm holds in reset stands still for good (R391). -/
def step (s : State) : Host.Outcome State Fault Refusal :=
  match s.choose with
  | (none, s) => if s.hub.heldInReset then .fault .heldInReset else .next s
  | (some .resume, s) => settleStep s 1 s.goOnWalked
  | (some (.turn p), s) =>
    match s.pickSlot p with
    | (s, some n) => settleStep s 5 (s.issue p n)
    | (s, none) => .next (s.turned p)
  | (some (.tick d), s) => .next (s.tick d)
  | (some (.hubTick h), s) => .next (s.hubTick h)
  | (some (.due i), s) =>
    match s.due[i]? with
    | some e => settleStep s 1 (exec e { s with due := s.due.eraseIdx i })
    | none => .next s

/-- Where `withFetchWord` places its line: a device-physical frame mapped at the same virtual address. -/
def placeAddr : Nat := 0x200000

/-- The state whose very next step fetches and runs an instruction: die 0 runs, its core 0 has a thread in slot 1 with the
PC at a line that holds the instruction, whose page is in the translation buffer and whose line is in the instruction
cache; nothing else is under way. Log 13 says how a program comes to run from reset. -/
def State.withFetchWord (s : State) (nbits w : Nat) : State :=
  let line := lineOfTableWord nbits w
  let c := s.core 0
  let t : Slot := { (c.slot 1) with
    st := .active, wait := .none, pc := BitVec.ofNat 64 placeAddr, size := 16, late := [], skip := 0, wakeAt := 0,
    stopAt := none }
  let c : Core := { (c.setSlot 1 t) with
    slots := (Sparse.put Slot.reset [] 1 t)
    turn := 0
    tlb := [{ key := .dev t.hq (placeAddr / 2 ^ 16), big := false, map := .dev placeAddr, r := true, w := true, x := true }]
    icache := [(lineKey t.hq t.pc, line)] }
  { s with
    mem := Memory.setBytes s.mem placeAddr line
    cores := Sparse.put Core.reset [] 0 c
    dies := Sparse.put Die.reset [] 0 { (s.die 0) with running := true, cyc := 1 }
    hub := { s.hub with running := false, running1 := false, heldInReset := false }
    walked := []
    due := [] }

end Sys2Proof.Machine
end

