-- ==== Sys2Proof/Safety.lean ====
section
/-! DEFINITION. The terms in which claims speak of a step: that it completes, what its thread's registers hold, and what it
leaves alone. -/

namespace Sys2Proof.Machine

/-- Memory and the full/empty bits are in canonical form: equal contents are equal data. -/
def State.canonical (s : State) : Bool := Memory.wf s.mem && Sparse.wf true s.fe

/-- `i` completes from `s`: `exec` answers a next state, and that state has a property. -/
def Answers (i : Instr) (s : State) (P : State → Prop) : Prop := ∃ t, exec i s = .next t ∧ P t

/-- The value of a place of the thread in slot `n` of core `p`. -/
def State.valAt (s : State) (p n : Nat) (d : Dst) : Word := readDst (s.core p) (s.slot p n) d

/-- The issuing core. -/
def State.own (s : State) : Core := s.core s.cur.core

/-- Stage 2 of R127 lets the instruction go on: every register named lies in the thread's window (R31), and none waits for
a relaxed load (R34). -/
def State.regsReady (s : State) (rs : List Reg) : Prop :=
  ∀ r ∈ rs, regOk s.thr r = true ∧ s.thr.isPending (regDst s.thr r) = false

/-- Apart from the registers of core `p` and its slot `n`, `t` is `s`. -/
structure OnlySlot (s t : State) (p n : Nat) : Prop where
  rest : t = { s with cores := t.cores }
  cores : ∀ q, q ≠ p → t.core q = s.core q
  core : t.core p = { s.core p with regs := (t.core p).regs, slots := (t.core p).slots }
  slots : ∀ m, m ≠ n → t.slot p m = s.slot p m

/-- Only slot `n` of core `p` changes, to `u`; no register does. -/
structure SlotIs (s t : State) (p n : Nat) (u : Slot) : Prop where
  only : OnlySlot s t p n
  regs : (t.core p).regs = (s.core p).regs
  thread : t.slot p n = u

/-- One place of the thread in slot `n` of core `p` takes a value, every other place keeps its own, and the slot is `u` but
for its operand and message-build registers. -/
structure WroteAt (s t : State) (p n : Nat) (d : Dst) (v : Word) (u : Slot) : Prop where
  only : OnlySlot s t p n
  value : d ≠ .nul → t.valAt p n d = v
  others : ∀ e, e ≠ d → t.valAt p n e = s.valAt p n e
  thread : t.slot p n = { u with h := (t.slot p n).h, mb := (t.slot p n).mb }

/-- Only the issuing thread's slot changes, to `u`; no register does. -/
def ThreadIs (s t : State) (u : Slot) : Prop := SlotIs s t s.cur.core s.cur.slot u

/-- `WroteAt` for the issuing thread. -/
def Wrote (s t : State) (d : Dst) (v : Word) (u : Slot) : Prop := WroteAt s t s.cur.core s.cur.slot d v u

/-- A register-writing instruction completes (R33, R84, R85, R97): its destination and z0 take the result, z1 takes the old
z0, the rounding state and the flags it raised are kept, and the thread goes on at the next instruction. -/
def Result (s t : State) (d : Dst) (v : Word) (r : Rs) : Prop :=
  Wrote s t d v { s.thr with
    z0 := v, z1 := s.thr.z0, srs := r.srs, nflag := s.thr.nflag ||| r.fl, pc := s.cur.next, wait := .none }

/-- An instruction that writes one register in stage 8 answers with that result (R33, R97, R129). -/
def Gives (i : Instr) (s : State) (d : Reg) (v : Word) : Prop := Answers i s (fun t => Result s t (regDst s.thr d) v s.rs)

/-- An instruction that completes `n` cycles after its issue parks its thread with its result until cycle c + n - 1, and
changes nothing else (R18, R131). -/
def GivesLater (i : Instr) (s : State) (n : Nat) (d : Reg) (v : Word) (r : Rs) : Prop :=
  Answers i s (fun t => t.due = s.due ++ [.longOpComplete s.cur.core s.cur.slot] ∧
    ThreadIs { s with due := t.due } t
      { s.thr with pc := s.cur.next, wait := .longOp (regDst s.thr d) v r.srs r.fl (s.now + n - 1) })

/-- The bytes from `a` on are `l`; every other byte of memory is as it was. -/
def StoredAt (s t : State) (a : Nat) (l : List Byte) : Prop :=
  ∀ k, Memory.byte t.mem k = if a ≤ k ∧ k < a + l.length then l.getD (k - a) 0 else Memory.byte s.mem k

/-- The eight bytes of a word as memory holds them, the lowest first (R4). -/
def wordBytes (v : Word) : List Byte := leList 8 v.toNat

/-- A full/empty bit takes a value; every other one is as it was. -/
def BitAt (s t : State) (a : Nat) (v : Bool) : Prop := ∀ k, t.full k = if k / 8 = a / 8 then v else s.full k

/-- `s` with the memory and the bits of `t`: what a statement compares `t` with where memory may change. -/
def State.withMemory (s t : State) : State := { s with mem := t.mem, fe := t.fe }

/-- The core's translation buffer after a use of an address; nothing else (R362). -/
def State.used (s : State) (va : Word) : State := s.touch s.cur.core s.thr.hq va

/-- The same for an operation that performs at an offset of the core's own store: its banks are taken in this cycle as
well, in the pipeline's rank or in that of an access that goes on after a walk or a wait (R40, R272). -/
def State.reached (s : State) (va : Word) (o : AccOp) (off : Nat) : State :=
  (s.used va).useBanks s.cur.core (if s.cur.again.isSome then 1 else 0) off (opBytes o)

/-- The cycle in which what the issuing instruction has changed in its stage 5 may first be acted on (R16, R17): five after its issue,
or the next where it goes on after a walk or a wait. -/
def State.effectAt (s : State) : Nat := s.now + if s.cur.again.isSome then 1 else 5

/-- Thread `n` of core `p` has taken a trap (R240, R242, R340): it issues no more, its saved PC is set, the record holds the
trap's fields, late events that were due have joined it, and the rest of the machine is as it was. -/
structure Trapped (s t : State) (p n : Nat) (cause detail : BitVec 8) (spc fpc addr : Word) : Prop where
  rest : t = { s with cores := t.cores, due := t.due }
  due : t.due = s.due ++ [.trapDrainEnd p n]
  cores : ∀ q, q ≠ p → t.core q = s.core q
  core : t.core p = { s.core p with slots := (t.core p).slots }
  slots : ∀ m, m ≠ n → t.slot p m = s.slot p m
  thread : ∃ r : Record,
    t.slot p n = { s.slot p n with
      st := .trapped false, wait := .none, pc := spc, late := [], record := some r, latch := none,
      double := (s.slot p n).latch.isSome, stopAt := none } ∧
    r.cause = cause ∧ r.detail = detail ∧ r.spc = spc ∧ r.fpc = fpc ∧ r.addr = addr ∧ r.hq = (s.slot p n).hq ∧
    r.slot = BitVec.ofNat 4 n ∧ ((s.slot p n).late = [] → r.late = false ∧ r.joined = 0 ∧ r.held = false)

/-- The issuing thread traps with its own instruction as the saved PC (R242). -/
def Raised (s t : State) (cause detail : BitVec 8) (addr : Word) : Prop :=
  Trapped s t s.cur.core s.cur.slot cause detail s.cur.pc s.cur.pc addr

/-- A request of the issuing thread leaves its core (R45, R46, R49, R50): it is under way to its home, counts in s.oac and
among the thread's outstanding requests, has taken the thread's sequence number and, on the write lane, a unit. The
thread's slot is `u` but for these. -/
structure Sent (s t : State) (r : Request) (u : Slot) : Prop where
  rest : t = { s with cores := t.cores, due := t.due }
  due : t.due = s.due ++ [arrivalOf r]
  cores : ∀ p, p ≠ s.cur.core → t.core p = s.core p
  core : t.own = { s.own with slots := t.own.slots, oac := s.own.oac + 1, sa := if r.unit then s.own.sa - 1 else s.own.sa }
  slots : ∀ n, n ≠ s.cur.slot → t.slot s.cur.core n = s.slot s.cur.core n
  thread : t.thr = { u with
    seq := s.thr.seq + 1, out := s.thr.out ++ [{ seq := s.thr.seq, relaxed := r.cls == .relaxed, home := r.home, kind := .access }] }

/-- The request that the issuing thread sends for an operation at a home. -/
def State.outgoing (s : State) (cls : AccClass) (o : AccOp) (h : Home) (va data expected : Word) (d : Dst) : Request :=
  { core := s.cur.core, slot := s.cur.slot, hq := s.thr.hq, seq := s.thr.seq, cls := cls, op := o, home := h, va := va,
    pc := s.cur.pc, data := data, expected := expected, dst := d, unit := opWriteLane o, attempts := 0, sent := s.now, issued := s.now }

/-- A request of a class for a home elsewhere can leave at once: a sequence number is free, no earlier relaxed access
holds back a plain one, its slice takes requests, and a unit is there for the write lane (R45, R49, R182, R333, R342). -/
def State.canSend (s : State) (cls : AccClass) (o : AccOp) (h : Home) : Prop :=
  s.thr.out.length < 4096 ∧ (cls ≠ .relaxed → s.thr.relaxedOut = []) ∧ s.pressed h s.thr.hq = false ∧
  (opWriteLane o = true → s.own.unitFree = true)

/-- A home that the issuing core does not hold itself. -/
def State.elsewhere (s : State) (h : Home) : Prop := homeOwn h s.cur.core = false

/-- An operation of the issuing thread on its core's own store performs at once (R45, R47, R164): no earlier relaxed access
holds it back, the bit is as it needs, no access of the core waits at the bank, and it does not fill the arrival command
word, which has a meaning of its own (R354). -/
def State.performsHere (s : State) (cls : AccClass) (o : AccOp) (off : Nat) : Prop :=
  (cls ≠ .relaxed → s.thr.relaxedOut = []) ∧ s.ready o (localKey s.cur.core off) = true ∧ s.own.bank = [] ∧
  ¬ (o = .stf ∧ off = acwOffset)

/-- An address checks and translates to a byte of the issuing core's own store (R127 rows 6 to 9). -/
def State.ownByte (s : State) (n : Need) (bytes : Nat) (va : Word) (off : Nat) : Prop :=
  aligned va bytes = true ∧ s.translate s.cur.core s.thr.hq n va = .home (.ls s.cur.core off)

/-- An address checks and translates to a home elsewhere. -/
def State.farHome (s : State) (n : Need) (bytes : Nat) (va : Word) (h : Home) : Prop :=
  aligned va bytes = true ∧ s.translate s.cur.core s.thr.hq n va = .home h ∧ s.elsewhere h

/-- Slot `n` of core `p` is empty: its thread is gone, the core's owner fields may have been given anew, a waiting arrival may
start, slot 0 may wake, and the rest of the machine is as it was (R21, R27, R157, R331). `extra` are steps asked for before. -/
structure Emptied (s t : State) (p n : Nat) (extra : List Instr) : Prop where
  rest : t = { s with cores := t.cores, due := t.due }
  due : t.due = s.due ++ extra ++ (if (s.core p).arrivals = [] then [] else [.arrivalStart p])
  cores : ∀ q, q ≠ p → t.core q = s.core q
  core : t.core p =
    { s.core p with regs := (t.core p).regs, slots := (t.core p).slots, owners := (t.core p).owners }
  slots : ∀ m, m ≠ n → m ≠ 0 → t.slot p m = s.slot p m
  thread : t.slot p n = { s.slot p n with
    st := .empty, wait := .none, out := [], pending := [], late := [], record := none, double := false, owed := none,
    owedDue := false, skip := 0, stopAt := none }

/-- The thread in slot `n` of core `p` may issue again from the core's next cycle (R16). -/
def State.awakeAt (s : State) (p n : Nat) : Slot :=
  { s.slot p n with wait := .none, wakeAt := Max.max (s.slot p n).wakeAt (s.cycle p + 1) }

/-- A step answers one next state. -/
def Does (i : Instr) (s t : State) : Prop := exec i s = .next t

/-- No view converts at an address: it lies in no near window but window 0 (R42, R160). -/
def rawAddress (va : Word) : Prop := ∀ v o inStore, regionOf va = .near v o inStore → v = 0

/-- The number that `n` bytes of memory hold, the lowest first (R4). -/
def State.number (s : State) (k n : Nat) : Nat := leNat (Memory.bytes s.mem k n)

/-- A word access of the issuing thread performs at once at offset `off` of its core's own store, where the word is full or
empty as the instruction wants it, and answers with what `P` says of the state after it. -/
def PerformsAt (i : Instr) (s : State) (m : MemOp) (rs : List Reg) (n : Need) (cls : AccClass) (o : AccOp)
    (P : State → Nat → State → Prop) : Prop :=
  ∀ off, s.regsReady rs → s.ownByte n 8 (s.ea m) off → s.performsHere cls o off →
    Answers i s (fun t => P ((s.reached (s.ea m) o off).withMemory t) (localKey s.cur.core off) t)

/-- A core after an answer to one of its requests: s.oac, and the unit of the store allowance, kept back while a slot is parked
on the allowance (R49, R50, R182). -/
def Core.repaid (c : Core) (unit : Bool) : Core :=
  { c with
    oac := c.oac - 1
    sa := if unit && !c.allowanceParked then c.sa + 1 else c.sa
    saHeld := if unit && c.allowanceParked then c.saHeld + 1 else c.saHeld }

/-- The module after an answer to a request: the core's accounts, and the request no longer outstanding. -/
def State.repaid (s : State) (r : Request) : State :=
  (s.setCore r.core ((s.core r.core).repaid r.unit)).setSlot r.core r.slot
    { s.slot r.core r.slot with out := (s.slot r.core r.slot).out.filter (fun o => decide (o.seq ≠ r.seq)) }

/-- The registers an instruction names, in the order of its fields: `none` for the steps that no thread issues (R31, R117). -/
def regsNamed (i : Instr) : Option (List Reg) :=
  match i with
  | .add d a b | .sub d a b | .mul d a b | .mulh d a b | .mulhu d a b | .div d a b | .divu d a b | .rem d a b | .remu d a b
  | .and d a b | .or d a b | .xor d a b | .andn d a b | .orn d a b | .shl d a b | .shr d a b | .sar d a b | .rol d a b
  | .ror d a b | .min d a b | .max d a b | .minu d a b | .maxu d a b | .slt d a b | .sltu d a b | .seq d a b | .sne d a b
  | .bext d a b | .bextu d a b | .sext d a b | .zext d a b | .rnd d a b => some (d :: a :: bRegs b)
  | .fadd _ d a b | .fsub _ d a b | .fmul _ d a b | .fdiv _ d a b | .fmin _ d a b | .fmax _ d a b | .flt _ d a b
  | .fle _ d a b | .feq _ d a b | .padd _ d a b | .psub _ d a b | .pmul _ d a b | .pmax _ d a b | .pmin _ d a b
  | .pdot _ d a b => some (d :: a :: bRegs b)
  | .sel d a b c | .bins d a b c | .fsh d a b c | .fma _ d a b c => some (d :: a :: (bRegs b ++ [c]))
  | .clz d a | .ctz d a | .popc d a | .bswap d a | .reap d a | .fcvt _ _ d a | .fsqrt _ d a | .fexp2 _ d a
  | .flog2 _ d a => some [d, a]
  | .lea d m | .ld _ _ _ d m | .ldMig _ _ d m | .ldf d m | .lde d m | .fes d m | .send d m => some (d :: memRegs m)
  | .mov d b | .acrd _ d _ b => some (d :: bRegs b)
  | .addix b | .sleep b | .acz _ b | .tcfg b | .wrst _ b => some (bRegs b)
  | .beq a b _ | .bne a b _ | .blt a b _ | .bge a b _ | .bltu a b _ | .bgeu a b _ => some [a, b]
  | .bbs _ a _ | .bbc _ a _ => some [a, .nul]
  | .call _ | .ret => some [.h 7]
  | .callr a => some [a, .h 7]
  | .jmp a | .cmprog _ a | .setvd _ a | .resume _ a | .stop a | .sysc a => some [a]
  | .fork d (.reg x) a c => some [d, a, x, c]
  | .fork d (.disp _) a c => some [d, a, c]
  | .dec m | .cancel m | .clre m | .go m | .acst _ m _ | .tup m | .tdn m => some (memRegs m)
  | .take d | .cmst d _ | .getvd _ d | .rdst d _ | .rdcyc d => some [d]
  | .start a b c | .cld _ _ _ a b c => some [a, b, c]
  | .st _ _ m c | .stMig _ m c | .stf m c | .stn m c | .redadd m c | .redand m c | .redor m c | .redmax m c | .redmin m c
  | .redfadd m c | .stg m c => some (memRegs m ++ [c])
  | .amadd d m c | .amand d m c | .amor d m c | .amxor d m c | .ammin d m c | .ammax d m c | .amminu d m c
  | .ammaxu d m c | .amswp d m c | .amcas d m c => some (d :: (memRegs m ++ [c]))
  | .cpy d a b c | .vadd d a b c | .vsub d a b c | .vmul d a b c | .vmax d a b c | .vmin d a b c | .vfma d a b c
  | .vmap d a b c | .vsum d a b c | .vtopk _ d a b c | .vbcast d a b c => some [d, a, b, c]
  | .acwr _ a b => some (a :: bRegs b)
  | .klu a c | .kbwd a c | .gat a c | .collSum a c | .collTopk a c | .collBcast a c | .collGather a c => some [a, c]
  | .nop | .b _ | .exit | .fence _ | .cldw _ | .trap _ | .brk => some []
  | _ => none

/-- A slot-0 instruction, or a `wrst` of a register with S0 fields (R23, R234, R345). -/
def slotZeroOnly (i : Instr) : Bool :=
  match i with
  | .take _ | .start _ _ _ | .reap _ _ | .resume _ _ | .stop _ => true
  | .wrst sr _ => [0x11, 0x14, 0x15, 0x16, 0x17, 0x1A].contains sr.toNat
  | _ => false

/-- An instruction that only a traveller may issue (R26). -/
def travellerOnly (i : Instr) : Bool :=
  match i with
  | .ldMig _ _ _ _ | .stMig _ _ _ | .go _ => true
  | _ => false

/-- The state in which the instruction at a thread's PC issues (R14, R17, R97): the core's turn of this cycle is used, the
thread waits for nothing, the page of the PC has been used, and the issue's own PC and next address are known. -/
def State.issuing (s : State) (p n : Nat) (next : Word) (i : Instr) : State :=
  let t := s.slot p n
  let u := (if n = 0 then s else s.noteProgress t.hq).setSlot p n { t with wait := .none }
  let v := u.setCore p { u.core p with turn := s.cycle p + 1 }
  { v with cur := { core := p, slot := n, pc := t.pc, next := next, instr := some i, again := none } }.touch p t.hq t.pc

/-- Nothing of another module is under way, and no collective waits for a member there (R392). -/
def State.portsIdle (s : State) : Prop :=
  (∀ e ∈ s.due, lostRequest (fun _ _ => true) e = none) ∧ ∀ d < 8, s.lostColl (fun _ _ => true) d = []

/-- A security-alarm source has raised a level, 1 to 3 (R390 to R392): LEVEL and SRC, the notice, and the actions of the
level: at 2 the session keys are gone and every port stops, with what was on its way to other modules refused; at 3 every
key is erased and the module stands in reset. -/
structure Alarmed (s t : State) (src : Nat) (l : BitVec 2) : Prop where
  level : t.hub.level = if s.hub.level.toNat < l.toNat then l else s.hub.level
  source : t.hub.src = s.hub.src ||| BitVec.ofNat 8 (2 ^ src)
  one : l = 1 → t = { s with hub := { s.hub with
    level := t.hub.level, src := t.hub.src, notices := s.hub.notices ++ [.alarm src 1] } }
  two : l = 2 → t.hub.keysAgreed = false ∧ t.hub.keysErased = s.hub.keysErased ∧ .keyAgreementDone ∈ t.due ∧
    (∀ n < 18, (t.hub.port n).en = false ∧ (t.hub.port n).up = false) ∧
    (s.portsIdle → t = { s with due := s.due ++ [.keyAgreementDone], hub := { s.hub with
      level := t.hub.level, src := t.hub.src, notices := s.hub.notices ++ [.alarm src 2], keysAgreed := false,
      ports := t.hub.ports } }) ∧
    (∀ e r, e ∈ s.due → lostRequest (fun _ _ => true) e = some r → r.cls = .plain → r.op = .load .d false →
      e ≠ .refusal r 0x06 → .refusal r 0x06 ∈ t.due ∧ e ∉ t.due)
  three : l = 3 → t = { s with hub := t.hub, dies := t.dies, due := [] } ∧ (∀ d, (t.die d).running = false) ∧
    t.hub = { s.hub with
      level := t.hub.level, src := t.hub.src, notices := s.hub.notices ++ [.alarm src 3], keysErased := true,
      keysAgreed := false, heldInReset := true, running := false,
      running1 := false }

/-! ## The work of the agents (R82, R92, R225 to R231, R278) -/

/-- The exact sum of products of two lists of values, from the first on. -/
def exactDot : List (Num × Num) → Num
  | [] => .zero false
  | q :: l => l.foldl (fun acc p => (acc.add 0 (p.1.mul p.2).1).1) (q.1.mul q.2).1

/-- A list holds the first `k` of the candidates, in rank order (R92); equal candidates all count. -/
structure Ranked (k : Nat) (candidates l : List (BitVec 32 × BitVec 32)) : Prop where
  length : l.length = Min.min k candidates.length
  order : l.Pairwise (fun a b => rankBefore b.1 b.2.toNat a.1 a.2.toNat = false)
  rest : ∃ others, (l ++ others).Perm candidates ∧
    ∀ e ∈ others, ∀ g ∈ l, rankBefore e.1 e.2.toNat g.1 g.2.toNat = false

/-- The `n` bytes from an offset of a run of bytes, as a number. -/
def numberAt (l : List Byte) (o n : Nat) : Nat := leNat ((l.drop o).take n)

/-- Element `c` of a value row in the formats of R226 and R229, with the scales of its blocks. -/
def rowElement (vf : Nat) (row scales : List Byte) (c : Nat) : Num :=
  if vf = 3 then scaledValue 3 (numberAt row c 1) (numberAt scales (2 * (c / 64)) 2)
  else if vf = 6 then bf16.decode (numberAt row (2 * c) 2) else fp32.decode (numberAt row (4 * c) 4)

/-- The activation of R226 on FP32 bits: the functions 1 to 5 of R212. -/
def activated (act x : Nat) : Nat :=
  match act with
  | 1 => toFp32 (fp32.decode x).exp2.1
  | 2 => toFp32 (fp32.decode x).log2.1
  | 3 => toFp32 ((Num.fin false 1 1).div (fp32.decode x)).1
  | 4 => toFp32 (fp32.decode x).rsqrt.1
  | 5 => toFp32 (Num.pick true (fp32.decode x) (.zero false)).1
  | _ => x

/-- The answers to the reads of a range, as part `tag` and range `idx` of an agent's work, are these bytes. -/
def Run.holds (r : Run) (tag idx va : Nat) (bs : List Byte) : Prop :=
  ∀ q ∈ pieces va bs.length, ∃ e, r.got.find? (fun e => e.1 == { tag := tag, idx := idx, off := q.1 }) = some e ∧
    e.2 = (bs.drop q.1).take q.2

/-- The writes of a range have been answered. -/
def Run.wrote (r : Run) (tag idx va n : Nat) : Prop :=
  ∀ q ∈ pieces va n, r.got.any (fun e => e.1 == { tag := tag, idx := idx, off := q.1 }) = true

/-- None of the accesses of a range has been answered. -/
def Run.lacks (r : Run) (tag idx : Nat) : Prop := ∀ e ∈ r.got, ¬ (e.1.tag = tag ∧ e.1.idx = idx)

/-- The accesses that write bytes from byte `o` of a range on, each within one word (R278). -/
def writesAt (c : EngineCmd) (tag idx va o : Nat) (bs : List Byte) : List Ask :=
  (pieces (va + o) bs.length).map (fun q =>
    { key := { tag := tag, idx := idx, off := o + q.1 }, core := c.core, hq := c.hq, va := (va + o + q.1) % 2 ^ 64, n := q.2,
      write := some ((bs.drop q.1).take q.2), remote := none, home := none })

/-- The accesses that write a range of bytes. -/
def writesOf (c : EngineCmd) (tag idx va : Nat) (bs : List Byte) : List Ask := writesAt c tag idx va 0 bs

/-! ## What an access does at its word (R159, R163, R166, R169, R170, R172) -/

/-- The value that a load of a width finds at a byte (R163). -/
def State.valueAt (s : State) (k : Nat) (wd : Width) (u : Bool) : Word :=
  let x := s.number k (widthBytes wd)
  if u then BitVec.ofNat 64 x else BitVec.ofInt 64 (Int.bmod x (2 ^ (8 * widthBytes wd)))

/-- The word that a tag-guarded store leaves (R172). -/
def guarded (old new : Word) : Word := if (new.toNat / 2 ^ 48 + 2 ^ 16 - old.toNat / 2 ^ 48) % 2 ^ 16 < 2 ^ 15 then new else old

/-- `P` holds of every access of a thread that reads and does not write, with its reply. -/
def State.readsAt (s : State) (r : Request) (k : Nat) (P : AccOp → Instr → Prop) : Prop :=
  (r.cls = .relaxed → ∀ wd u, P (.load wd u) (.relaxedLoadReply r (s.valueAt k wd u))) ∧
  (r.cls = .plain ∨ r.cls = .sync →
    (∀ wd u, P (.load wd u) (.remoteReply r (s.valueAt k wd u))) ∧ P .fes (.remoteReply r (if s.full k then 1 else 0)) ∧
    (s.full k = true → P .ldf (.remoteReply r (s.word k))))

/-- `P` holds of every access of a thread that writes a word or its bit, with its reply, the bit and the bytes that it leaves. -/
def State.writesTo (s : State) (r : Request) (k : Nat) (P : AccOp → Instr → Bool → List Byte → Prop) : Prop :=
  let same := s.full k
  let old := s.word k
  (r.cls = .relaxed →
    (∀ wd, P (.store wd) (.writeAck r) same (leList (widthBytes wd) r.data.toNat)) ∧
    ∀ f, P (.red f) (.writeAck r) same (wordBytes (redApply f old r.data))) ∧
  (r.cls = .plain ∨ r.cls = .sync →
    (∀ wd, P (.store wd) (.remoteReply r 0) same (leList (widthBytes wd) r.data.toNat)) ∧
    P .clre (.remoteReply r 0) false [] ∧ P .stg (.remoteReply r 0) same (wordBytes (guarded old r.data)) ∧
    (same = true → P .lde (.remoteReply r old) false [] ∧ P .stn (.remoteReply r 0) true (wordBytes r.data) ∧
      ∀ f, P (.atomic f) (.remoteReply r old) same (wordBytes (atomicApply f old r.data r.expected))) ∧
    (same = false → P .stf (.remoteReply r 0) true (wordBytes r.data)))

/-- A synchronising access that finds its word in the other state (R166). -/
def State.wrongState (s : State) (r : Request) (k : Nat) : Prop :=
  (r.op = .ldf ∨ r.op = .lde ∨ r.op = .stn ∨ ∃ f, r.op = .atomic f) ∧ s.full k = false ∨ r.op = .stf ∧ s.full k = true

/-- The operations of a thread's own accesses to data. -/
def accessOp (o : AccOp) : Bool :=
  match o with
  | .load _ _ | .store _ | .ldf | .lde | .stf | .stn | .clre | .fes | .atomic _ | .red _ | .stg => true
  | _ => false

/-- A step that a memory slice asks for when it counts an access that reached it (R332, R366, R368). -/
def sliceStep (e : Instr) : Bool :=
  match e with
  | .budgetRefill _ | .epochEnd _ | .writeBufferFlush _ => true
  | _ => false

/-- Steps have been put under way in this order, and otherwise only those of the slices that count an access. -/
def Posted (s t : State) (l : List Instr) : Prop :=
  ∃ more, t.due = s.due ++ more ∧ more.filter (fun e => !sliceStep e) = l

/-- The step of an engine's completion store (R225). -/
def completionOf (c : EngineCmd) (st : Word) : Instr :=
  .engineCompletion { core := c.core, slot := c.slot, hq := c.hq, comp := c.comp, status := st, issued := c.issued }

end Sys2Proof.Machine
end

