-- ==== Sys2Proof/Certificates/Slice0/Obligations.lean ====
section
/-! DEFINITION. The statements for the provers, one definition each; OBLIGATIONS.json lists them. A statement about an
instruction says what `exec` answers for every state and operands that meet its hypotheses. -/

open Sys2Proof Sys2Proof.Machine

/-! ## Group A -/

/-- R130: the result of each of the opcodes 0x01 to 0x1B, on integers: numbers modulo 2^64, two's complement where the row
says signed. The seven long ones give it later (R131). -/
def Obligations.IntegerResults : Prop :=
  ∀ (s : State) (d a : Reg) (b : OpB), s.regsReady (d :: a :: bRegs b) →
    let x := s.rd a
    let y := s.opB b
    let n := y.toNat % 64
    Gives (.add d a b) s d (BitVec.ofNat 64 (x.toNat + y.toNat)) ∧
    Gives (.sub d a b) s d (BitVec.ofInt 64 (x.toInt - y.toInt)) ∧
    GivesLater (.mul d a b) s 16 d (BitVec.ofInt 64 (x.toInt * y.toInt)) s.rs ∧
    GivesLater (.mulh d a b) s 16 d (BitVec.ofInt 64 (x.toInt * y.toInt / 2 ^ 64)) s.rs ∧
    GivesLater (.mulhu d a b) s 16 d (BitVec.ofNat 64 (x.toNat * y.toNat / 2 ^ 64)) s.rs ∧
    (y ≠ 0 →
      GivesLater (.div d a b) s 72 d (BitVec.ofInt 64 (x.toInt.tdiv y.toInt)) s.rs ∧
      GivesLater (.divu d a b) s 72 d (BitVec.ofNat 64 (x.toNat / y.toNat)) s.rs ∧
      GivesLater (.rem d a b) s 72 d (BitVec.ofInt 64 (x.toInt.tmod y.toInt)) s.rs ∧
      GivesLater (.remu d a b) s 72 d (BitVec.ofNat 64 (x.toNat % y.toNat)) s.rs) ∧
    Gives (.and d a b) s d (BitVec.ofNat 64 (x.toNat &&& y.toNat)) ∧
    Gives (.or d a b) s d (BitVec.ofNat 64 (x.toNat ||| y.toNat)) ∧
    Gives (.xor d a b) s d (BitVec.ofNat 64 (x.toNat ^^^ y.toNat)) ∧
    Gives (.andn d a b) s d (x &&& ~~~y) ∧
    Gives (.orn d a b) s d (x ||| ~~~y) ∧
    Gives (.shl d a b) s d (BitVec.ofNat 64 (x.toNat * 2 ^ n)) ∧
    Gives (.shr d a b) s d (BitVec.ofNat 64 (x.toNat / 2 ^ n)) ∧
    Gives (.sar d a b) s d (BitVec.ofInt 64 (x.toInt / 2 ^ n)) ∧
    Gives (.rol d a b) s d (BitVec.ofNat 64 (x.toNat * 2 ^ n + x.toNat * 2 ^ n / 2 ^ 64)) ∧
    Gives (.ror d a b) s d (BitVec.ofNat 64 (x.toNat / 2 ^ n + x.toNat * 2 ^ (64 - n))) ∧
    Gives (.min d a b) s d (BitVec.ofInt 64 (Min.min x.toInt y.toInt)) ∧
    Gives (.max d a b) s d (BitVec.ofInt 64 (Max.max x.toInt y.toInt)) ∧
    Gives (.minu d a b) s d (BitVec.ofNat 64 (Min.min x.toNat y.toNat)) ∧
    Gives (.maxu d a b) s d (BitVec.ofNat 64 (Max.max x.toNat y.toNat)) ∧
    Gives (.slt d a b) s d (if x.toInt < y.toInt then 1 else 0) ∧
    Gives (.sltu d a b) s d (if x.toNat < y.toNat then 1 else 0) ∧
    Gives (.seq d a b) s d (if x = y then 1 else 0) ∧
    Gives (.sne d a b) s d (if x = y then 0 else 1)

/-- R131: the corners of division, and that a long instruction writes its result when its time has come, its thread then
being runnable. -/
def Obligations.DivisionCornersAndLongCompletion : Prop :=
  (∀ (s : State) (d a : Reg) (b : OpB), s.regsReady (d :: a :: bRegs b) →
    (s.opB b = 0 →
      GivesLater (.div d a b) s 72 d (BitVec.allOnes 64) s.rs ∧ GivesLater (.divu d a b) s 72 d (BitVec.allOnes 64) s.rs ∧
      GivesLater (.rem d a b) s 72 d (s.rd a) s.rs ∧ GivesLater (.remu d a b) s 72 d (s.rd a) s.rs) ∧
    (s.rd a = BitVec.ofInt 64 (-2 ^ 63) → s.opB b = BitVec.allOnes 64 →
      GivesLater (.div d a b) s 72 d (BitVec.ofInt 64 (-2 ^ 63)) s.rs ∧ GivesLater (.rem d a b) s 72 d 0 s.rs)) ∧
  (∀ (s : State) (p n : Nat) (d : Dst) (v : Word) (srs : BitVec 32) (fl : BitVec 8) (till : Nat),
    (s.slot p n).wait = .longOp d v srs fl till → till ≤ s.cycle p → (s.slot p n).st = .active →
    Answers (.longOpComplete p n) s (fun t => WroteAt s t p n d v { s.slot p n with
      z0 := v, z1 := (s.slot p n).z0, srs := srs, nflag := (s.slot p n).nflag ||| fl, wait := .none,
      wakeAt := Max.max (s.slot p n).wakeAt (s.cycle p + 1) }))

/-- R132, R133, R135, R136 and R215: selection, the counts, the byte reversal, moves, addresses and the random word. -/
def Obligations.SelectionAndCounts : Prop :=
  ∀ (s : State) (d a c : Reg) (b : OpB) (m : MemOp),
    (s.regsReady (d :: a :: (bRegs b ++ [c])) → Gives (.sel d a b c) s d (if s.rd c = 0 then s.opB b else s.rd a)) ∧
    (s.regsReady [d, a] →
      let x := s.rd a
      (∃ k ≤ 64, Gives (.clz d a) s d (BitVec.ofNat 64 k) ∧ (∀ j < k, x.getLsbD (63 - j) = false) ∧
        (k < 64 → x.getLsbD (63 - k) = true)) ∧
      (∃ k ≤ 64, Gives (.ctz d a) s d (BitVec.ofNat 64 k) ∧ (∀ j < k, x.getLsbD j = false) ∧
        (k < 64 → x.getLsbD k = true)) ∧
      Gives (.popc d a) s d (BitVec.ofNat 64 ((List.range 64).filter (fun k => x.getLsbD k)).length) ∧
      ∃ v, Gives (.bswap d a) s d v ∧ ∀ k < 8, v.extractLsb' (8 * k) 8 = x.extractLsb' (8 * (7 - k)) 8) ∧
    (s.regsReady (d :: memRegs m) → Gives (.lea d m) s d (match m with
      | .idx i j => BitVec.ofNat 64 ((s.rd i).toNat + (s.rd j).toNat)
      | .disp i x => BitVec.ofInt 64 ((s.rd i).toInt + x.toInt))) ∧
    (s.regsReady (d :: bRegs b) → Gives (.mov d b) s d (s.opB b)) ∧
    (s.regsReady (d :: a :: bRegs b) →
      ∃ x y : Word, ∃ z : Word, z = s.rd a + s.opB b * 0x9E3779B97F4A7C15#64 ∧
        x = (z ^^^ (z >>> 30)) * 0xBF58476D1CE4E5B9#64 ∧ y = (x ^^^ (x >>> 27)) * 0x94D049BB133111EB#64 ∧
        Gives (.rnd d a b) s d (y ^^^ (y >>> 31)))

/-- R134: the bit fields, the funnel shift and the extensions, on numbers, and the encoding that the rule writes out. -/
def Obligations.BitFields : Prop :=
  ∀ (s : State) (d a c : Reg) (b : OpB),
    let x := s.rd a
    let y := s.opB b
    let lo := y.toNat % 64
    let w := y.toNat / 256 % 64 + 1
    let n := if y.toNat % 64 = 0 then 64 else y.toNat % 64
    (s.regsReady (d :: a :: bRegs b) →
      Gives (.bext d a b) s d (BitVec.ofInt 64 (Int.bmod (x.toNat / 2 ^ lo : Nat) (2 ^ w))) ∧
      Gives (.bextu d a b) s d (BitVec.ofNat 64 (x.toNat / 2 ^ lo % 2 ^ w)) ∧
      Gives (.sext d a b) s d (BitVec.ofInt 64 (Int.bmod x.toNat (2 ^ n))) ∧
      Gives (.zext d a b) s d (BitVec.ofNat 64 (x.toNat % 2 ^ n))) ∧
    (s.regsReady (d :: a :: (bRegs b ++ [c])) →
      (∃ v, Gives (.bins d a b c) s d v ∧
        ∀ k < 64, v.getLsbD k = if lo ≤ k ∧ k < lo + w then (s.rd c).getLsbD (k - lo) else x.getLsbD k) ∧
      Gives (.fsh d a b c) s d (BitVec.ofNat 64 ((x.toNat * 2 ^ 64 + (s.rd c).toNat) / 2 ^ (y.toNat % 128)))) ∧
    decodeHead 0x8800 0x0405FF8A00000708 = .ok (.bext (.g 4) (.g 5) (.lit32 0x708))

/-- R31, R32, R137: a relative specifier names index s.ix + n, `addix` moves s.ix by B modulo 2^16 and writes no
register, z0 and z1 neither; any value may stand in s.ix. R98, R138, R139: `nop`, the branches, the jumps and the calls:
the next address, and h7 and z0 of a call; nothing else changes. -/
def Obligations.ControlTransfers : Prop :=
  (∀ (s : State) (b : OpB), s.regsReady (bRegs b) →
    Answers (.addix b) s (fun t => ThreadIs s t { s.thr with
      ix := BitVec.ofInt 16 (s.thr.ix.toInt + (s.opB b).toInt), pc := s.cur.next, wait := .none })) ∧
  (∀ (s : State) (n : BitVec 4), 0 ≤ s.thr.ix.toInt + n.toNat → s.thr.ix.toInt + n.toNat < s.thr.size →
    regOk s.thr (.rel n) = true ∧ s.rd (.rel n) = s.own.reg (s.thr.base + (s.thr.ix.toInt + n.toNat).toNat)) ∧
  (∀ (s : State) (n : BitVec 4), (s.thr.ix.toInt + n.toNat < 0 ∨ s.thr.size ≤ s.thr.ix.toInt + n.toNat) →
    regOk s.thr (.rel n) = false) ∧
  (∀ (s : State) (a b : Reg) (n : BitVec 6) (disp : BitVec 32),
    let target := BitVec.ofInt 64 (s.cur.pc.toInt + disp.toInt)
    let goes (i : Instr) (pc : Word) : Prop := Answers i s (fun t => ThreadIs s t { s.thr with pc := pc, wait := .none })
    let either (i : Instr) (taken : Bool) : Prop := goes i (if taken then target else s.cur.next)
    let calls (i : Instr) (pc : Word) : Prop := Answers i s (fun t =>
      Wrote s t (.h 7) s.cur.next { s.thr with z0 := s.cur.next, z1 := s.thr.z0, pc := pc, wait := .none })
    goes .nop s.cur.next ∧ goes (.b disp) target ∧
    (s.regsReady [a, b] →
      either (.beq a b disp) (s.rd a = s.rd b) ∧ either (.bne a b disp) (s.rd a ≠ s.rd b) ∧
      either (.blt a b disp) ((s.rd a).toInt < (s.rd b).toInt) ∧ either (.bge a b disp) ((s.rd b).toInt ≤ (s.rd a).toInt) ∧
      either (.bltu a b disp) ((s.rd a).toNat < (s.rd b).toNat) ∧
      either (.bgeu a b disp) ((s.rd b).toNat ≤ (s.rd a).toNat)) ∧
    (s.regsReady [a] →
      either (.bbs n a disp) ((s.rd a).toNat / 2 ^ n.toNat % 2 = 1) ∧
      either (.bbc n a disp) ((s.rd a).toNat / 2 ^ n.toNat % 2 = 0) ∧ goes (.jmp a) (s.rd a)) ∧
    (s.regsReady [.h 7] → goes .ret (s.rd (.h 7)) ∧ calls (.call disp) target) ∧
    (s.regsReady [a, .h 7] → calls (.callr a) (s.rd a)))

/-! ## Group B -/

/-- R147, R148 (log 8 on slot 0's queue aside): `fork` writes 1 and pushes its entry, or writes 0 and pushes nothing; the
push wakes a sleeping slot 0 five cycles after the issue, in which stage 5 falls (R16, R157). -/
def Obligations.Fork : Prop :=
  ∀ (s : State) (d a c : Reg) (f : ForkTarget),
    let regs := match f with
      | .reg r => [d, a, r, c]
      | .disp _ => [d, a, c]
    let target := match f with
      | .reg r => s.rd r
      | .disp x => BitVec.ofInt 64 (s.cur.pc.toInt + x.toInt)
    let args : List Dst := match regIndex s.thr a with
      | some i => [.g (s.thr.base + i.toNat), .g (s.thr.base + i.toNat + 1), .g (s.thr.base + i.toNat + 2)]
      | none => []
    let arg (k : Nat) : Word := readDst s.own s.thr (args.getD k .nul)
    let valid := c = .nul ∨ ((s.rd c).toNat % 8 = 0 ∧ ∃ l o, regionOf (s.rd c) = .far l o ∨ regionOf (s.rd c) = .near l o true)
    let record : BitVec 13 × BitVec 14 := if c = .nul then (0, 0) else match regionOf (s.rd c) with
      | .far l o => (BitVec.ofNat 13 l, BitVec.ofNat 14 (o / 8))
      | .near _ o _ => (BitVec.ofNat 13 (s.logical s.cur.core), BitVec.ofNat 14 (o / 8))
      | _ => (0, 0)
    let room := s.own.deque.length < 48 + s.own.dsn.toNat ∧ s.own.mcs.valid = false
    let entry : TaskEntry := { hasRec := decide (c ≠ .nul), rw := record.2, pc := target.setWidth 48, a0 := arg 0, a1 := arg 1,
                               a2 := arg 2, rc := record.1, hq := s.thr.hq }
    s.regsReady regs → (∀ i, regIndex s.thr a = some i → i + 2 < s.thr.size) → (∀ x ∈ args, s.thr.isPending x = false) →
    (¬ (valid ∧ room) → Gives (.fork d f a c) s d 0) ∧
    (valid → room → (s.hw s.thr.hq).st ≠ .frozen → s.own.deque.length < s.own.spilled + 64 →
      Answers (.fork d f a c) s (fun t => ∃ u, Result s u (regDst s.thr d) 1 s.rs ∧
        let v := u.setCore s.cur.core { u.own with deque := s.own.deque ++ [entry] }
        t = if s.own.eligibleSlot.isSome then v.wake0 s.cur.core 5 else v))

/-- R152, R154, R155: what `take` answers from the own deque and with no eligible slot, the request it sends for a
steal, counted in s.oac, numbered and outstanding (the numbering is the model's reading: logs 30 and 33), and that `start` and `reap`
without effect leave the machine as it is but for the result; a `reap` waits for the thread's answers and for the accesses
of its tree instruction (R318). R154: a successful
`start` empties the latch and gives the thread its window, arguments, record address and initial state; nothing else on
the core changes but slot 0's position. -/
def Obligations.TasksBecomeThreads : Prop :=
  (∀ (s : State) (d a b c : Reg), s.cur.slot = 0 →
    let word (st slot pc : Nat) : Word := BitVec.ofNat 64 (st * 2 ^ 56 + slot * 2 ^ 48 + pc)
    (s.regsReady [d] → s.own.latchTask = none →
      (s.own.eligibleSlot = none → Gives (.take d) s d (word 3 0 0)) ∧
      (∀ n q, s.own.eligibleSlot = some n → s.own.owner n = some q →
        (∀ i e, bottomMost s.own.deque q = some i → s.own.deque[i]? = some e → s.own.spilled = 0 → s.own.spilling = none →
          s.own.pushes = [] →
          Answers (.take d) s (fun t => Result (s.setCore s.cur.core
            { s.own with deque := s.own.deque.eraseIdx i, latchTask := some e }) t
            (regDst s.thr d) (word 0 n e.pc.toNat) s.rs)) ∧
        ((∀ e ∈ s.own.deque, e.hq ≠ q) → (s.hw q).stl = 0 → Gives (.take d) s d (word 2 n 0)) ∧
        ((∀ e ∈ s.own.deque, e.hq ≠ q) → (s.hw q).stl ≠ 0 → s.thr.out.length < 4096 → Answers (.take d) s (fun t => ∃ v c,
          s.own.victim s.hub.retired (s.logical s.cur.core) (s.hw q).stl = (v, c) ∧
          t.due = s.due ++ [.stealRequest s.cur.core v q] ∧
          ThreadIs { s.setCore s.cur.core { c with oac := s.own.oac + 1 } with due := t.due } t
            { s.thr with
              seq := s.thr.seq + 1
              out := s.thr.out ++ [{ seq := s.thr.seq, relaxed := false, home := .ls (s.physical v) 0, kind := .steal }]
              pc := s.cur.next, wait := .steal n q (regDst s.thr d) })))) ∧
    (s.regsReady [a, b, c] →
      (s.own.latchTask = none → Answers (.start a b c) s (fun t =>
        ThreadIs s t { s.thr with pc := s.cur.next, wait := .none })) ∧
      (∀ e, s.own.latchTask = some e → s.own.startOk e (s.rd a) (s.rd b) (s.rd c) = false →
        Answers (.start a b c) s (fun t => ThreadIs s t { s.thr with pc := s.cur.next, wait := .none }))) ∧
    (s.regsReady [d, a] →
      let n := (s.rd a).toNat
      (n = 0 ∨ 15 < n → Gives (.reap d a) s d (word 3 0 0)) ∧
      (1 ≤ n → n ≤ 15 →
        ((s.slot s.cur.core n).st = .empty → Gives (.reap d a) s d (word 1 0 0)) ∧
        ((s.slot s.cur.core n).st = .active → Gives (.reap d a) s d (word 2 0 0)) ∧
        ((s.slot s.cur.core n).st ≠ .empty → (s.slot s.cur.core n).st ≠ .active →
            ((s.slot s.cur.core n).out ≠ [] ∨ ∃ j, (s.slot s.cur.core n).wait = .tree j) →
          Answers (.reap d a) s (fun t => t.due = s.due ++ [.reapComplete s.cur.core] ∧
            ThreadIs { s with due := t.due } t { s.thr with pc := s.cur.next, wait := .reap n (regDst s.thr d) }))))) ∧
  (∀ (s : State) (a b c : Reg) (e : TaskEntry),
    let n := (s.rd a).toNat
    let base := (s.rd b).toNat
    let size := (s.rd c).toNat
    s.cur.slot = 0 → s.regsReady [a, b, c] → s.own.latchTask = some e →
    1 ≤ n → n ≤ 15 → (s.slot s.cur.core n).st = .empty → s.own.tsm.getLsbD n = false → s.own.owner n = some e.hq →
    8 ≤ size → size ≤ 128 → size % 8 = 0 → base % 8 = 0 → base + size ≤ 2048 →
    (∀ m < 16, (s.slot s.cur.core m).st ≠ .empty →
      base + size ≤ (s.slot s.cur.core m).base ∨ (s.slot s.cur.core m).base + (s.slot s.cur.core m).size ≤ base) →
    (∀ m < 16, s.own.tsm.getLsbD m = true → base + size ≤ 1920 + 8 * m ∨ 1920 + 8 * m + 8 ≤ base) →
    Answers (.start a b c) s (fun t =>
      t = { s with cores := t.cores } ∧ (∀ q, q ≠ s.cur.core → t.core q = s.core q) ∧
      t.own = { s.own with latchTask := none, regs := t.own.regs, slots := t.own.slots } ∧
      (∀ m, m ≠ n → m ≠ 0 → t.slot s.cur.core m = s.slot s.cur.core m) ∧
      t.thr = { s.thr with pc := s.cur.next, wait := .none } ∧
      (∀ i, t.own.reg i = if i = base then e.a0 else if i = base + 1 then e.a1 else if i = base + 2 then e.a2
        else if i = base + 3 then
          (if e.hasRec then BitVec.ofNat 64 (0xFE00000000000000 + e.rc.toNat * 2 ^ 17 + e.rw.toNat * 8) else 0)
        else if base ≤ i ∧ i < base + size then 0 else s.own.reg i) ∧
      t.slot s.cur.core n = { Slot.reset with
        st := .active, pc := e.pc.setWidth 64, base := base, size := size, hq := e.hq,
        latch := (s.slot s.cur.core n).latch, owed := if e.hasRec then some (e.rc, e.rw) else none, wakeAt := s.now + 5 }))

/-- R156, R157: a slot other than 0 that exits waits for its relaxed accesses; slot 0's exit stops it with a machine
check; `sleep` parks for n cycles, n read unsigned and no more than 2^32 - 1. R104, R116, R232: software traps,
breakpoints, illegal encodings and faulting fetches take their traps: the saved PC, the faulting PC, the cause and the
detail. -/
def Obligations.ExitSleepAndTraps : Prop :=
  (∀ s : State, s.cur.slot ≠ 0 → Answers .exit s (fun t => t.due = s.due ++ [.exitComplete s.cur.core s.cur.slot] ∧
    ThreadIs { s with due := t.due } t { s.thr with pc := s.cur.pc, wait := .exit (s.now + 7) })) ∧
  (∀ s : State, s.cur.slot = 0 → s.thr.st = .active → Answers .exit s (fun t =>
    t.thr.st = .stopped ∧ t.own.mcs = { valid := true, src := 2, cause := 0, rpc := s.cur.pc.setWidth 48 } ∧
    t.hub = { s.hub with notices := t.hub.notices } ∧ t.hub.notices.length = s.hub.notices.length + 1)) ∧
  (∀ (s : State) (b : OpB), s.regsReady (bRegs b) →
    let n := Min.min (s.opB b).toNat (2 ^ 32 - 1)
    (n = 0 → Answers (.sleep b) s (fun t => ThreadIs s t { s.thr with pc := s.cur.next, wait := .none })) ∧
    (n ≠ 0 → Answers (.sleep b) s (fun t => t.due = s.due ++ [.sleepExpiry s.cur.core s.cur.slot] ∧
      ThreadIs { s with due := t.due } t { s.thr with pc := s.cur.next, wait := .sleep (s.now + n) }))) ∧
  (∀ (s : State) (n : BitVec 6) (cause detail : BitVec 8),
    Answers (.trap n) s (fun t =>
      Trapped s t s.cur.core s.cur.slot 0x0D (BitVec.ofNat 8 n.toNat) s.cur.next s.cur.pc 0) ∧
    Answers .brk s (fun t => Trapped s t s.cur.core s.cur.slot 0x0E 0 s.cur.next s.cur.pc 0) ∧
    Answers .illegalEncoding s (fun t => Raised s t 0x01 0 0) ∧
    Answers (.fetchFault cause detail) s (fun t => Raised s t cause detail s.cur.pc))

/-- R155, R156, R157, R318: a reap with every request answered and no tree instruction of the thread under way, at once or
later, and an exit whose waits are over empty their slots; the reap's result is the saved PC; a `dec` or `cancel` of the
reaped thread that waits at its own core for a deque entry answers no thread any more; a sleep whose time has passed ends. -/
def Obligations.SlotsEmptied : Prop :=
  (∀ (s : State) (d a : Reg), s.cur.slot = 0 → s.regsReady [d, a] →
    let p := s.cur.core
    let n := (s.rd a).toNat
    let v := BitVec.ofNat 64 ((s.slot p n).pc.toNat % 2 ^ 48)
    1 ≤ n → n ≤ 15 → (s.slot p n).st ≠ .empty → (s.slot p n).st ≠ .active → (s.slot p n).out = [] →
    (∀ j, (s.slot p n).wait ≠ .tree j) → s.own.tileOf n = none → (s.slot p n).owedDue = false →
    Answers (.reap d a) s (fun t => Emptied (s.setCore p (s.own.disown p n)) t p n [] ∧ t.thr.z0 = v ∧ t.thr.z1 = s.thr.z0 ∧ t.thr.pc = s.cur.next ∧
      t.thr.wait = .none ∧ (regDst s.thr d ≠ .nul → t.valAt p 0 (regDst s.thr d) = v) ∧
      ∀ e, e ≠ regDst s.thr d → t.valAt p 0 e = s.valAt p 0 e)) ∧
  (∀ (s : State) (p n : Nat) (d : Dst),
    let v := BitVec.ofNat 64 ((s.slot p n).pc.toNat % 2 ^ 48)
    (s.slot p 0).wait = .reap n d → (s.slot p 0).st = .active → n ≠ 0 → (s.core p).tileOf n = none →
    ((s.slot p n).out ≠ [] ∨ (∃ j, (s.slot p n).wait = .tree j) → Does (.reapComplete p) s s) ∧
    ((s.slot p n).out = [] → (∀ j, (s.slot p n).wait ≠ .tree j) → Answers (.reapComplete p) s (fun t =>
      Emptied (s.setCore p ((s.core p).disown p n)) t p n (match (s.slot p n).owedDue, (s.slot p n).owed with
        | true, some (rc, rw) => [.cancelPropagation rc.toNat (rw.toNat * 8) (s.slot p n).hq .none]
        | _, _ => []) ∧
      (t.slot p 0).z0 = v ∧ (t.slot p 0).z1 = (s.slot p 0).z0 ∧ (t.slot p 0).wait = .none ∧
      (d ≠ .nul → t.valAt p 0 d = v) ∧ ∀ e, e ≠ d → t.valAt p 0 e = s.valAt p 0 e))) ∧
  (∀ (s : State) (p n till : Nat), (s.slot p n).wait = .exit till → (s.slot p n).st = .active → n ≠ 0 →
    (s.cycle p < till ∨ (s.slot p n).relaxedOut ≠ [] → Does (.exitComplete p n) s s) ∧
    (till ≤ s.cycle p → (s.slot p n).relaxedOut = [] → (s.core p).tileOf n = none → (s.slot p n).late = [] →
      Answers (.exitComplete p n) s (fun t => Emptied s t p n []))) ∧
  (∀ (s : State) (p n till : Nat), (s.slot p n).wait = .sleep till → (s.slot p n).st = .active →
    (s.cycle p < till → Does (.sleepExpiry p n) s s) ∧
    (till ≤ s.cycle p → Answers (.sleepExpiry p n) s (fun t => SlotIs s t p n (s.awakeAt p n))))

/-- R142, R150, R151: `dec` and `cancel` of a record in the core's own store: the count, the error bit, and at a count
of 1 the completion word set full with 0, with the continuation pushed if there is one, or with 0x10. R150, R151, R335:
a cancel that a core sends onward sets the error bit and takes a count at its own record, and completes it with 0x10 at
zero, before the completion store of the record that caused it. It reaches the store that the record's far-window page
names, where that page lets it read and write (R361; that it performs nowhere otherwise is the model's choice: log 34); the
HQS reads the page's entry for a cancel of its own first. R145, R150: one that finds no deque entry for its continuation waits
at the record's home with nothing changed, and what comes after it waits behind it. -/
def Obligations.RecordsAtHome : Prop :=
  (∀ (s : State) (m : MemOp) (c : Bool) (off : Nat),
    let va := s.ea m
    let i : Instr := if c then .cancel m else .dec m
    let p := s.cur.core
    let w (k : Nat) : Word := s.word (recordKey p off k)
    let e := c || (w 0).getLsbD 38
    let new : Word := BitVec.ofNat 64 ((w 0).toNat / 2 ^ 32 * 2 ^ 32 + ((w 0).toNat + 2 ^ 32 - 1) % 2 ^ 32) ||| (if e then BitVec.ofNat 64 (2 ^ 38) else 0)
    s.regsReady (memRegs m) → s.ownByte .both 8 va off → off % 8 = 0 → off < 2 ^ 17 → s.thr.relaxedOut = [] → s.own.bank = [] →
    inWindow va = true → s.thr.owed = none →
    (s.own.pushes.any (·.cause.isSome) = true ∨ ((w 0).toNat % 2 ^ 32 = 1 ∧ (w 0).getLsbD 39 = true ∧ e = false ∧
        64 + s.own.dsn.toNat ≤ s.own.deque.length) →
      Answers i s (fun t => ∃ r : Request, r.op = (if c then .cancel else .dec) ∧ r.home = .ls p off ∧ t.mem = s.mem ∧
        t.fe = s.fe ∧ t.due = s.due ∧
        t.own.pushes = s.own.pushes ++ [{ entry := entryOf 0 0 0 0 0 s.thr.hq, cause := some r }] ∧
        t.thr = { s.thr with pc := s.cur.next, wait := .reply r })) ∧
    (s.own.pushes.any (·.cause.isSome) = false →
    ((w 0).toNat % 2 ^ 32 ≠ 1 → Answers i s (fun t =>
      ThreadIs ((s.reached va .dec off).withMemory t) t { s.thr with pc := s.cur.next, wait := .none } ∧ t.fe = s.fe ∧
      StoredAt s t (recordKey p off 0) (wordBytes new))) ∧
    ((w 0).toNat % 2 ^ 32 = 1 → (w 0).getLsbD 39 = false → Answers i s (fun t =>
      ThreadIs ((s.reached va .dec off).withMemory t) t { s.thr with pc := s.cur.next, wait := .none } ∧
      BitAt s t (recordKey p off 6) true ∧
      ∀ k, Memory.byte t.mem k =
        if recordKey p off 0 ≤ k ∧ k < recordKey p off 0 + 8 then (wordBytes new).getD (k - recordKey p off 0) 0
        else if recordKey p off 6 ≤ k ∧ k < recordKey p off 6 + 8 then
          (wordBytes (if e then 0x10 else 0)).getD (k - recordKey p off 6) 0
        else Memory.byte s.mem k)) ∧
    ((w 0).toNat % 2 ^ 32 = 1 → (w 0).getLsbD 39 = true → e = false →
      s.own.deque.length < 64 + s.own.dsn.toNat → s.own.deque.length < s.own.spilled + 64 → (s.hw s.thr.hq).st ≠ .frozen →
      Answers i s (fun t => t.own.deque = s.own.deque ++ [
          { hasRec := (w 1).getLsbD 63, rw := BitVec.ofNat 14 ((w 1).toNat / 2 ^ 48), pc := BitVec.ofNat 48 (w 1).toNat,
            a0 := w 2, a1 := w 3, a2 := w 4, rc := BitVec.ofNat 13 (w 5).toNat, hq := s.thr.hq }] ∧
        t.word (recordKey p off 6) = 0 ∧ t.full (recordKey p off 6) = true ∧ t.thr.pc = s.cur.next ∧
        t.own.regs = s.own.regs)) ∧
    ((w 0).toNat % 2 ^ 32 = 1 → (w 0).getLsbD 39 = true → e = true → (w 1).getLsbD 63 = true →
      Answers i s (fun t => t.due = s.due ++ [.cancelPropagation ((w 5).toNat % 2 ^ 13) ((w 1).toNat / 2 ^ 48 % 2 ^ 14 * 8)
          s.thr.hq (match t.thr.wait with
            | .reply r => some r
            | _ => none)] ∧
        t.thr.pc = s.cur.next ∧ (∃ r, t.thr.wait = .reply r ∧ r.home = .ls p off) ∧ t.fe = s.fe ∧
        StoredAt s t (recordKey p off 0) (wordBytes new))))) ∧
  (∀ (s : State) (lcore off : Nat) (hq : BitVec 6),
    let a : Agent := .cancel lcore off hq
    let k : AccKey := { tag := 0, idx := 0, off := 0 }
    let entry := s.hub.fwtb.toNat / 2 ^ 17 * 2 ^ 17 + 8 * (2 * lcore + off / 2 ^ 16)
    (s.run a = Run.start → Answers (.cancelPropagation lcore off hq .none) s (fun t => t.mem = s.mem ∧ t.fe = s.fe ∧
      t.cores = s.cores ∧ t.due = s.due ++ [.homePerform { agentRequest 0 hq (.agentRead a k 8) (.dev entry) 0 with
        sent := s.cycle 0, issued := s.cycle 0 }])) ∧
    ((s.run a).got = [] → (s.run a).fails ≠ [] →
      Does (.cancelPropagation lcore off hq .none) s (s.endRun a)) ∧
    (∀ (x : AccKey × List Byte), (s.run a).got.find? (fun e => e.1 == k) = some x →
      walkStep (.far lcore (off / 2 ^ 16)) 0 (BitVec.ofNat 64 (leNat x.2)) = .fault →
      Does (.cancelPropagation lcore off hq .none) s (s.endRun a))) ∧
  (∀ (s : State) (lcore off q half : Nat) (hq : BitVec 6) (e : TlbEntry) (x : AccKey × List Byte),
    let a : Agent := .cancel lcore off hq
    let u := (s.endRun a).useBanks q 2 off 8
    let w (k : Nat) : Word := s.word (recordKey q off k)
    let new : Word := BitVec.ofNat 64 ((w 0).toNat / 2 ^ 32 * 2 ^ 32 + ((w 0).toNat + 2 ^ 32 - 1) % 2 ^ 32) |||
      BitVec.ofNat 64 (2 ^ 38)
    (s.run a).got.find? (fun e => e.1 == { tag := 0, idx := 0, off := 0 }) = some x →
    walkStep (.far lcore (off / 2 ^ 16)) 0 (BitVec.ofNat 64 (leNat x.2)) = .leaf e → e.map = .store q half →
    (e.r = false ∨ e.w = false → Does (.cancelPropagation lcore off hq .none) s (s.endRun a)) ∧
    (off % 8 = 0 → off < 2 ^ 17 → e.r = true → e.w = true → (s.core q).gone = none → (s.core q).bank = [] →
    ((w 0).toNat % 2 ^ 32 ≠ 1 → Answers (.cancelPropagation lcore off hq .none) s (fun t =>
      t = u.withMemory t ∧ t.fe = s.fe ∧ StoredAt s t (recordKey q off 0) (wordBytes new))) ∧
    ((w 0).toNat % 2 ^ 32 = 1 → ((w 0).getLsbD 39 = false ∨ (w 1).getLsbD 63 = false) →
      Answers (.cancelPropagation lcore off hq .none) s (fun t => t = u.withMemory t ∧
        BitAt s t (recordKey q off 6) true ∧ t.word (recordKey q off 0) = new ∧ t.word (recordKey q off 6) = 0x10)) ∧
    ((w 0).toNat % 2 ^ 32 = 1 → (w 0).getLsbD 39 = true → (w 1).getLsbD 63 = true →
      Answers (.cancelPropagation lcore off hq .none) s (fun t => ∃ r : Request,
        t = { u.withMemory t with due := s.due ++ [.cancelPropagation ((w 5).toNat % 2 ^ 13)
          ((w 1).toNat / 2 ^ 48 % 2 ^ 14 * 8) hq (some r)] } ∧ r.home = .ls q off ∧ r.op = .cancel ∧ t.fe = s.fe ∧
        StoredAt s t (recordKey q off 0) (wordBytes new)))))

/-! ## Group C -/

/-- R33, R159, R161, R163, R164: loads and stores of every width on the core's own store, with no view: the value loaded and
extended, the bytes stored, z0 and z1 left by a relaxed load, and nothing else. -/
def Obligations.LoadsAndStores : Prop :=
  ∀ (s : State) (wd : Width) (u rx : Bool) (d c : Reg) (m : MemOp) (off : Nat),
    let va := s.ea m
    let n := match wd with
      | .d => 8
      | .b => 1
      | .h => 2
      | .w => 4
    let cls : AccClass := if rx then .relaxed else .plain
    let x := s.number (localKey s.cur.core off) n
    let v := if u then BitVec.ofNat 64 x else BitVec.ofInt 64 (Int.bmod x (2 ^ (8 * n)))
    rawAddress va →
    (s.regsReady (d :: memRegs m) → s.ownByte .read n va off → s.performsHere cls (.load wd u) off →
      Answers (.ld wd u rx d m) s (fun t =>
        let u := s.reached va (.load wd u) off
        if rx then Wrote u t (regDst s.thr d) v { s.thr with pc := s.cur.next, wait := .none }
        else Result u t (regDst s.thr d) v s.rs)) ∧
    (s.regsReady (memRegs m ++ [c]) → s.ownByte .write n va off → s.performsHere cls (.store wd) off →
      Answers (.st wd rx m c) s (fun t =>
        ThreadIs ((s.reached va (.store wd) off).withMemory t) t { s.thr with pc := s.cur.next, wait := .none } ∧
        t.fe = s.fe ∧ StoredAt s t (localKey s.cur.core off) (leList n (s.rd c).toNat)))

/-- R161, R166: the full/empty accesses of the core's own store that find the word as they need it. R47, R164, R167: a
synchronising access of the core's own store that finds the word in the other state joins the end of the bank's queue,
and its thread waits there with nothing else changed. -/
def Obligations.FullEmptyAndTheBank : Prop :=
  (∀ (s : State) (d c : Reg) (m : MemOp),
    let next : Slot := { s.thr with pc := s.cur.next, wait := .none }
    let dst := regDst s.thr d
    PerformsAt (.ldf d m) s m (d :: memRegs m) .read .sync .ldf (fun u k t =>
      Result u t dst (s.word k) s.rs ∧ t.mem = s.mem ∧ t.fe = s.fe) ∧
    PerformsAt (.lde d m) s m (d :: memRegs m) .both .sync .lde (fun u k t =>
      Result u t dst (s.word k) s.rs ∧ t.mem = s.mem ∧ BitAt s t k false) ∧
    PerformsAt (.stf m c) s m (memRegs m ++ [c]) .both .sync .stf (fun u k t =>
      ThreadIs u t next ∧ StoredAt s t k (wordBytes (s.rd c)) ∧ BitAt s t k true) ∧
    PerformsAt (.stn m c) s m (memRegs m ++ [c]) .both .sync .stn (fun u k t =>
      ThreadIs u t next ∧ StoredAt s t k (wordBytes (s.rd c)) ∧ BitAt s t k true) ∧
    PerformsAt (.clre m) s m (memRegs m) .write .sync .clre (fun u k t =>
      ThreadIs u t next ∧ t.mem = s.mem ∧ BitAt s t k false) ∧
    PerformsAt (.fes d m) s m (d :: memRegs m) .read .plain .fes (fun u k t =>
      Result u t dst (if s.full k then 1 else 0) s.rs ∧ t.mem = s.mem ∧ t.fe = s.fe)) ∧
  (∀ (s : State) (d c : Reg) (m : MemOp) (off : Nat),
    let va := s.ea m
    let u := s.used va
    let full := s.full (localKey s.cur.core off)
    let waits (i : Instr) (rs : List Reg) (n : Need) (o : AccOp) (data expected : Word) (dst : Dst) (wants : Bool) : Prop :=
      s.regsReady rs → s.ownByte n 8 va off → s.thr.relaxedOut = [] → full ≠ wants →
      Answers i s (fun t =>
        let r : Request :=
          { s.outgoing .sync o (.ls s.cur.core off) va data expected dst with seq := 0, unit := false, sent := 0 }
        ThreadIs (u.setCore s.cur.core { u.own with bank := s.own.bank ++ [r] }) t
          { s.thr with pc := s.cur.pc, wait := .bank s.cur.next r })
    let atomic (i : Instr) (o : AtomicFn) : Prop :=
      waits i (d :: (memRegs m ++ [c])) .both (.atomic o) (s.rd c) (s.rd d) (regDst s.thr d) true
    waits (.ldf d m) (d :: memRegs m) .read .ldf 0 0 (regDst s.thr d) true ∧
    waits (.lde d m) (d :: memRegs m) .both .lde 0 0 (regDst s.thr d) true ∧
    waits (.stf m c) (memRegs m ++ [c]) .both .stf (s.rd c) 0 .nul false ∧
    waits (.stn m c) (memRegs m ++ [c]) .both .stn (s.rd c) 0 .nul true ∧
    atomic (.amadd d m c) .add ∧ atomic (.amand d m c) .and ∧ atomic (.amor d m c) .or ∧ atomic (.amxor d m c) .xor ∧
    atomic (.ammin d m c) .min ∧ atomic (.ammax d m c) .max ∧ atomic (.amminu d m c) .minu ∧
    atomic (.ammaxu d m c) .maxu ∧ atomic (.amswp d m c) .swp ∧ atomic (.amcas d m c) .cas)

/-- R169: each atomic of a full word of the core's own store returns the old word and stores f(old, C, D); the bits stand. -/
def Obligations.Atomics : Prop :=
  ∀ (s : State) (d c : Reg) (m : MemOp),
    let x := s.rd c
    let atomic (i : Instr) (o : AtomicFn) (f : Word → Word) : Prop :=
      PerformsAt i s m (d :: (memRegs m ++ [c])) .both .sync (.atomic o) (fun u k t =>
        Result u t (regDst s.thr d) (s.word k) s.rs ∧ t.fe = s.fe ∧ StoredAt s t k (wordBytes (f (s.word k))))
    atomic (.amadd d m c) .add (fun w => BitVec.ofNat 64 (w.toNat + x.toNat)) ∧
    atomic (.amand d m c) .and (fun w => BitVec.ofNat 64 (w.toNat &&& x.toNat)) ∧
    atomic (.amor d m c) .or (fun w => BitVec.ofNat 64 (w.toNat ||| x.toNat)) ∧
    atomic (.amxor d m c) .xor (fun w => BitVec.ofNat 64 (w.toNat ^^^ x.toNat)) ∧
    atomic (.ammin d m c) .min (fun w => BitVec.ofInt 64 (Min.min w.toInt x.toInt)) ∧
    atomic (.ammax d m c) .max (fun w => BitVec.ofInt 64 (Max.max w.toInt x.toInt)) ∧
    atomic (.amminu d m c) .minu (fun w => BitVec.ofNat 64 (Min.min w.toNat x.toNat)) ∧
    atomic (.ammaxu d m c) .maxu (fun w => BitVec.ofNat 64 (Max.max w.toNat x.toNat)) ∧
    atomic (.amswp d m c) .swp (fun _ => x) ∧
    atomic (.amcas d m c) .cas (fun w => if w = s.rd d then x else w)

/-- R170, R172: the reductions and the tag-guarded store on the core's own store. -/
def Obligations.ReductionsAndGuardedStore : Prop :=
  ∀ (s : State) (c : Reg) (m : MemOp),
    let x := s.rd c
    let stores (i : Instr) (cls : AccClass) (o : AccOp) (f : Word → Word) : Prop :=
      PerformsAt i s m (memRegs m ++ [c]) .write cls o (fun u k t =>
        ThreadIs u t { s.thr with pc := s.cur.next, wait := .none } ∧ t.fe = s.fe ∧ StoredAt s t k (wordBytes (f (s.word k))))
    let fp (w : Word) : Machine.Num := fp32.decode (w.toNat % 2 ^ 32)
    stores (.redadd m c) .relaxed (.red .add) (fun w => BitVec.ofNat 64 (w.toNat + x.toNat)) ∧
    stores (.redand m c) .relaxed (.red .and) (fun w => BitVec.ofNat 64 (w.toNat &&& x.toNat)) ∧
    stores (.redor m c) .relaxed (.red .or) (fun w => BitVec.ofNat 64 (w.toNat ||| x.toNat)) ∧
    stores (.redmax m c) .relaxed (.red .max) (fun w => BitVec.ofInt 64 (Max.max w.toInt x.toInt)) ∧
    stores (.redmin m c) .relaxed (.red .min) (fun w => BitVec.ofInt 64 (Min.min w.toInt x.toInt)) ∧
    stores (.redfadd m c) .relaxed (.red .fadd) (fun w =>
      BitVec.ofNat 64 (fp32.encode { mode := 0, srs := 0, fl := 0 } (Machine.Num.add 0 (fp w) (fp x)).1).1) ∧
    stores (.stg m c) .plain .stg (fun w =>
      if (x.toNat / 2 ^ 48 + 2 ^ 16 - w.toNat / 2 ^ 48) % 2 ^ 16 < 2 ^ 15 then x else w)

/-- R45, R46, R47, R49, R50, R164, R170: an access whose home is elsewhere leaves as one request: counted in s.oac, numbered,
with a unit of s.sa if it travels the write lane; a relaxed one lets its thread go on, any other parks it for the reply. -/
def Obligations.AccessesElsewhere : Prop :=
  ∀ (s : State) (wd : Width) (x rx : Bool) (d c : Reg) (m : MemOp) (h : Home),
    let va := s.ea m
    let dst := regDst s.thr d
    let sends (i : Instr) (rs : List Reg) (n : Need) (bytes : Nat) (cls : AccClass) (o : AccOp) (data expected : Word)
        (dst : Dst) (marks : List (BitVec 16 × Dst)) : Prop :=
      s.regsReady rs → s.farHome n bytes va h → s.canSend cls o h → Answers i s (fun t =>
        let r := s.outgoing cls o h va data expected dst
        Sent (s.used va) t r (if cls = .relaxed
          then { s.thr with pc := s.cur.next, wait := .none, pending := s.thr.pending ++ marks }
          else { s.thr with pc := s.cur.next, wait := .reply r }))
    let marks : List (BitVec 16 × Dst) := if rx ∧ dst ≠ .nul then [(s.thr.seq, dst)] else []
    let cls : AccClass := if rx then .relaxed else .plain
    let loads (i : Instr) (n : Need) (cls : AccClass) (o : AccOp) : Prop := sends i (d :: memRegs m) n 8 cls o 0 0 dst []
    let stores (i : Instr) (n : Need) (cls : AccClass) (o : AccOp) : Prop :=
      sends i (memRegs m ++ [c]) n 8 cls o (s.rd c) 0 .nul []
    let atomic (i : Instr) (o : AtomicFn) : Prop :=
      sends i (d :: (memRegs m ++ [c])) .both 8 .sync (.atomic o) (s.rd c) (s.rd d) dst []
    (rawAddress va → sends (.ld wd x rx d m) (d :: memRegs m) .read (widthBytes wd) cls (.load wd x) 0 0 dst marks ∧
      sends (.st wd rx m c) (memRegs m ++ [c]) .write (widthBytes wd) cls (.store wd) (s.rd c) 0 .nul []) ∧
    loads (.ldf d m) .read .sync .ldf ∧ loads (.lde d m) .both .sync .lde ∧ loads (.fes d m) .read .plain .fes ∧
    stores (.stf m c) .both .sync .stf ∧ stores (.stn m c) .both .sync .stn ∧ stores (.stg m c) .write .plain .stg ∧
    sends (.clre m) (memRegs m) .write 8 .sync .clre 0 0 .nul [] ∧
    atomic (.amadd d m c) .add ∧ atomic (.amand d m c) .and ∧ atomic (.amor d m c) .or ∧ atomic (.amxor d m c) .xor ∧
    atomic (.ammin d m c) .min ∧ atomic (.ammax d m c) .max ∧ atomic (.amminu d m c) .minu ∧
    atomic (.ammaxu d m c) .maxu ∧ atomic (.amswp d m c) .swp ∧ atomic (.amcas d m c) .cas ∧
    stores (.redadd m c) .write .relaxed (.red .add) ∧ stores (.redand m c) .write .relaxed (.red .and) ∧
    stores (.redor m c) .write .relaxed (.red .or) ∧ stores (.redmax m c) .write .relaxed (.red .max) ∧
    stores (.redmin m c) .write .relaxed (.red .min) ∧ stores (.redfadd m c) .write .relaxed (.red .fadd) ∧
    (inWindow va = true →
      sends (.dec m) (memRegs m) .both 8 .plain .dec 0 0 .nul [] ∧
      sends (.cancel m) (memRegs m) .both 8 .plain .cancel 0 0 .nul [])

/-- R41, R127 rows 6 to 9, R360, R362: a misaligned address traps 0x04 before anything else is looked at; an aligned one
that the translation refuses traps its cause, and one whose page is not in the buffer waits for the walk, asked for
once. R37, R38, R39, R360, R361: what the translation of an address is: a near window's offset is the core's own byte,
or 0x0C with a bit of [23:17] set; an address of no region is 0x05; a page in the buffer gives its home, or 0x06 where
it lacks the permission asked for. -/
def Obligations.AddressChecksAndTranslation : Prop :=
  (∀ (s : State) (wd : Width) (x rx : Bool) (d c : Reg) (m : MemOp),
    let va := s.ea m
    let checks (i : Instr) (rs : List Reg) (n : Need) (bytes : Nat) : Prop := s.regsReady rs →
      (va.toNat % bytes ≠ 0 → Answers i s (fun t => Raised s t 0x04 0 va)) ∧
      (∀ cause, va.toNat % bytes = 0 → s.translate s.cur.core s.thr.hq n va = .fault cause →
        Answers i s (fun t => Raised s t cause 0 va)) ∧
      (∀ key, va.toNat % bytes = 0 → s.translate s.cur.core s.thr.hq n va = .miss key →
        Answers i s (fun t => ThreadIs
          (let me : WalkFor := .thread s.cur.slot
            if s.own.walks.any (fun w => w.key == key) then
              s.setCore s.cur.core { s.own with walks := s.own.walks.map (fun w =>
                if w.key = key ∧ me ∉ w.for_ then { w with for_ := w.for_ ++ [me] } else w) }
            else
              { s.setCore s.cur.core { s.own with walks := s.own.walks ++ [{
                  key := key, again := false, hq := s.thr.hq, level := 3, at_ := 0, entry := none, for_ := [me] }] } with
                due := s.due ++ [.translationWalk s.cur.core key] })
          t { s.thr with pc := s.cur.pc, wait := .pageWalk key 0x05 0 va s.cur.instr s.cur.next }))
    let loads (i : Instr) (n : Need) : Prop := checks i (d :: memRegs m) n 8
    let stores (i : Instr) (n : Need) : Prop := checks i (memRegs m ++ [c]) n 8
    let atomic (i : Instr) : Prop := checks i (d :: (memRegs m ++ [c])) .both 8
    (rawAddress va → checks (.ld wd x rx d m) (d :: memRegs m) .read (widthBytes wd) ∧
      checks (.st wd rx m c) (memRegs m ++ [c]) .write (widthBytes wd)) ∧
    loads (.ldf d m) .read ∧ loads (.lde d m) .both ∧ loads (.fes d m) .read ∧
    stores (.stf m c) .both ∧ stores (.stn m c) .both ∧ stores (.stg m c) .write ∧ checks (.clre m) (memRegs m) .write 8 ∧
    atomic (.amadd d m c) ∧ atomic (.amand d m c) ∧ atomic (.amor d m c) ∧ atomic (.amxor d m c) ∧
    atomic (.ammin d m c) ∧ atomic (.ammax d m c) ∧ atomic (.amminu d m c) ∧ atomic (.ammaxu d m c) ∧
    atomic (.amswp d m c) ∧ atomic (.amcas d m c) ∧
    stores (.redadd m c) .write ∧ stores (.redand m c) .write ∧ stores (.redor m c) .write ∧
    stores (.redmax m c) .write ∧ stores (.redmin m c) .write ∧ stores (.redfadd m c) .write) ∧
  (∀ (s : State) (p : Nat) (hq : BitVec 6) (n : Need) (va : Word),
    let a := va.toNat
    (a / 2 ^ 27 = 0xFF00000000000000 / 2 ^ 27 →
      s.translate p hq n va = if a / 2 ^ 17 % 2 ^ 7 = 0 then .home (.ls p (a % 2 ^ 17)) else .fault 0x0C) ∧
    (2 ^ 47 ≤ a → a / 2 ^ 30 ≠ 0xFE00000000000000 / 2 ^ 30 → a / 2 ^ 27 ≠ 0xFF00000000000000 / 2 ^ 27 →
      s.translate p hq n va = .fault 0x05) ∧
    (∀ key, (a < 2 ^ 47 ∧ key = .dev hq (a / 2 ^ 16) ∨
        a / 2 ^ 30 = 0xFE00000000000000 / 2 ^ 30 ∧ key = .far (a / 2 ^ 17 % 2 ^ 13) (a % 2 ^ 17 / 2 ^ 16)) →
      ((∀ e ∈ (s.core p).tlb, tlbServes e key = false) → s.translate p hq n va = .miss key) ∧
      (∀ e, (s.core p).tlb.find? (fun e => tlbServes e key) = some e →
        let off := if e.big then a % 2 ^ 25 else a % 2 ^ 16
        let ok : Bool := match n with
          | .read => e.r
          | .write => e.w
          | .both => e.r && e.w
          | .fetch => e.x
          | .valid => true
        (∀ pa, e.map = .dev pa → s.translate p hq n va = if ok then .home (.dev (pa + off)) else .fault 0x06) ∧
        (∀ k pa, e.map = .remote k pa → s.translate p hq n va = if ok then .home (.remote k (pa + off)) else .fault 0x06) ∧
        (∀ ha, e.map = .host ha → s.translate p hq n va = if ok then .home (.host (ha + off)) else .fault 0x06) ∧
        (∀ q half, e.map = .store q half →
          s.translate p hq n va = if ok then .home (.ls q (half * 2 ^ 16 + off)) else .fault 0x06) ∧
        (∀ l f, e.map = .frame l f → s.translate p hq n va =
          if 4096 ≤ off then .fault 0x05 else if l = s.logical p ∧ ok then .home (.ls p (4096 * f + off)) else .fault 0x06))))

/-- R42, R43, R127, R160, R206, R207: a load or store through a view: the checks in their order, the element unchanged where
the two formats agree, and else decoded and rounded once, with the flags kept; the banks of the element and of its scale are
used (R40, R266), and an access that goes on after a wait uses the descriptor it has sampled (R44). Which conversions step s.srs (logs 12 and
57) and that the stored element's width is the one checked (log 57) are the model's readings. -/
def Obligations.ViewAccesses : Prop :=
  ∀ (s : State) (wd : Width) (x rx : Bool) (d c : Reg) (m : MemOp) (v off : Nat) (inStore : Bool),
    let va := s.ea m
    let w := s.seen.view v s.now
    let n := widthBytes wd
    let k := localKey s.cur.core off
    let load := s.regsReady (d :: memRegs m)
    let store := s.regsReady (memRegs m ++ [c])
    let u := s.useView w off
    let named := w.df.toNat < 12 ∧ w.df ≠ 3 ∧ w.df ≠ 4
    let bad := va.toNat % fmtBytes w.sf ≠ 0 ∨ (named ∧ n ≠ fmtBytes w.df)
    let within := inStore = true ∧ w.inRange off = true
    let both (P : Prop) (cause : BitVec 8) : Prop := P →
      (load → Answers (.ld wd x rx d m) s (fun t => Raised s t cause 0 va)) ∧
      (store → Answers (.st wd rx m c) s (fun t => Raised s t cause 0 va))
    let next (r : Rs) : Slot :=
      { s.thr with srs := r.srs, nflag := s.thr.nflag ||| r.fl, pc := s.cur.next, wait := .none }
    regionOf va = .near v off inStore → v ≠ 0 →
    both bad 0x04 ∧ both (¬ bad ∧ ¬ within) 0x0C ∧ both (¬ bad ∧ within ∧ w.bad = true) 0x01 ∧
    (¬ bad → within → w.bad = false → (rx = false → s.thr.relaxedOut = []) →
      (load → ∃ q : Nat × Rs,
        (w.sf = w.df → q = (s.number k n, s.rs)) ∧
        (w.sf ≠ w.df → q = fmtEncode w.df (if fmtIsInt w.sf then flagOF else flagNV) (loadSteps w.sf w.df)
          (s.rs.raiseIf (s.element s.cur.core w off).2 flagPRV) (s.element s.cur.core w off).1) ∧
        Answers (.ld wd x rx d m) s (fun t =>
          let value := extendLoad wd x (BitVec.ofNat 64 q.1)
          if rx then Wrote u t (regDst s.thr d) value (next q.2) else Result u t (regDst s.thr d) value q.2)) ∧
      (store → ∃ q : Nat × Rs,
        (w.sf = w.df → q = ((s.rd c).toNat % 2 ^ (8 * n), s.rs)) ∧
        (w.sf ≠ w.df → q = encodeStored w (if w.scaled then s.number (localKey s.cur.core (w.scaleAt off)) 2 else 0)
          (s.rd c).toNat s.rs) ∧
        Answers (.st wd rx m c) s (fun t => ThreadIs (u.withMemory t) t (next q.2) ∧ t.fe = s.fe ∧
          StoredAt s t k (leList (fmtBytes w.sf) q.1))))

/-- R50, R173, R174: `fence` goes on exactly when no relaxed access in its scope is outstanding, and `fence.system` only
with s.oac at 0; `send` copies mb0 to mb7 into a message and takes an allowance, or answers 1, and waits where the thread has
4,096 requests outstanding (R342); a mailbox outside a
window, or one that passes the end of a store, traps 0x0C. R174, R175, R176, R239, R349: what becomes of a message, a
hub request and a reply of the system cores: written whole with its header when the mailbox is empty, else offered again
64 cycles later; an acknowledgement gives the allowance back, and the message is no longer outstanding. -/
def Obligations.FencesAndMessages : Prop :=
  (∀ (s : State) (scope : BitVec 2),
    let free := (∀ o ∈ s.thr.relaxedOut, inScope scope s.cur.core o.home = false) ∧ (scope = 3 → s.own.oac = 0)
    (free → Answers (.fence scope) s (fun t => ThreadIs s t { s.thr with pc := s.cur.next, wait := .none })) ∧
    (¬ free → Answers (.fence scope) s (fun t => ThreadIs s t { s.thr with pc := s.cur.pc, wait := .fence scope s.cur.next }))) ∧
  (∀ (s : State) (d : Reg) (m : MemOp),
    let va := s.ea m
    let u := s.used va
    s.regsReady (d :: memRegs m) → (∀ k : BitVec 3, s.thr.isPending (.mb k) = false) →
    (va.toNat % 8 ≠ 0 → Answers (.send d m) s (fun t => Raised s t 0x04 0 va)) ∧
    (va.toNat % 8 = 0 → (inWindow va = false ∨ 2 ^ 17 < va.toNat % 2 ^ 17 + 72) →
      Answers (.send d m) s (fun t => Raised s t 0x0C 0 va)) ∧
    (∀ q off, va.toNat % 8 = 0 → inWindow va = true → va.toNat % 2 ^ 17 + 72 ≤ 2 ^ 17 →
      s.translate s.cur.core s.thr.hq .write va = .home (.ls q off) →
      (4096 ≤ s.thr.out.length → Answers (.send d m) s (fun t => ∃ since views, ThreadIs u t
        { s.thr with pc := s.cur.pc, wait := .held .seqFree since s.cur.instr s.cur.next views })) ∧
      (s.thr.out.length < 4096 → 16 ≤ s.own.sendsOut →
        Answers (.send d m) s (fun t => Result u t (regDst s.thr d) 1 s.rs)) ∧
      (s.thr.out.length < 4096 → s.own.sendsOut < 16 → Answers (.send d m) s (fun t =>
        t.due = s.due ++ [.mailboxWrite
          { core := s.cur.core, slot := s.cur.slot, lcore := s.logical s.cur.core, hq := s.thr.hq, toCore := q, toOff := off,
            seq := s.thr.seq, data := ([0, 1, 2, 3, 4, 5, 6, 7] : List (BitVec 3)).map (fun k => s.rd (.mb k)), issued := s.now }] ∧
        Result { (u.setCore s.cur.core { u.own with sendsOut := s.own.sendsOut + 1, oac := s.own.oac + 1 }).setSlot s.cur.core
            s.cur.slot { s.thr with
              seq := s.thr.seq + 1
              out := s.thr.out ++ [{ seq := s.thr.seq, relaxed := false, home := .ls q off, kind := .message s.now }] } with due := t.due }
          t (regDst s.thr d) 0 s.rs)))) ∧
  (∀ (s : State) (m : Message), (s.core m.toCore).gone = none →
    let k := localKey m.toCore m.toOff
    let header := BitVec.ofNat 64 (m.slot % 16 * 2 ^ 19 + m.lcore % 2 ^ 13 * 2 ^ 6 + m.hq.toNat)
    let u := s.useBanks m.toCore 2 m.toOff 72
    (s.full k = true → Does (.mailboxWrite m) s
      { u with due := s.due ++ [.messageReoffer (.mail m (s.cycle m.core + 64))] }) ∧
    (s.full k = false → (s.core m.toCore).bank = [] → Answers (.mailboxWrite m) s (fun t =>
      t = { u.withMemory t with due := s.due ++ [.messageAck m] } ∧ BitAt s t k true ∧
      StoredAt s t k ((header :: m.data).flatMap wordBytes)))) ∧
  (∀ (s : State) (m : Message), Does (.messageAck m) s ((s.setCore m.core
    { s.core m.core with sendsOut := (s.core m.core).sendsOut - 1, oac := (s.core m.core).oac - 1 }).setSlot m.core m.slot
      { s.slot m.core m.slot with
        out := (s.slot m.core m.slot).out.filter (fun o => !(o.seq == m.seq && o.kind == .message m.issued)) })) ∧
  (∀ (s : State) (m : Message) (src dest hub n : Nat) (a : Packet) (q : SyscMsg),
    Does (.messageReoffer (.mail m n)) s { s with due := s.due ++ [.mailboxWrite m] } ∧
    Does (.messageReoffer (.ctx src dest a n)) s { s with due := s.due ++ [.arrival src dest a] } ∧
    Does (.messageReoffer (.sysc hub q n)) s { s with due := s.due ++ [.hubRequest hub q] }) ∧
  (∀ (s : State) (hub : Nat) (m : SyscMsg), (s.slot m.core m.slot).wait = .sysc m → (s.slot m.core m.slot).st = .active →
    Answers (.hubRequest hub m) s (fun t =>
      if Config.hubHasRoom s.choices then
        t.hub = (if hub = 0 then { s.hub with sysc0 := s.hub.sysc0 ++ [m] } else { s.hub with sysc1 := s.hub.sysc1 ++ [m] }) ∧
        t.slot m.core m.slot = { s.awakeAt m.core m.slot with
          out := (s.slot m.core m.slot).out.filter (fun o => o.kind != .sysc) } ∧
        t.core m.core = { s.core m.core with slots := (t.core m.core).slots, oac := (s.core m.core).oac - 1 } ∧
        t = { s with cores := t.cores, hub := t.hub, choices := s.choices + 1 }
      else t = { s with
        choices := s.choices + 1, due := s.due ++ [.messageReoffer (.sysc hub m (s.cycle m.core + 64))] })) ∧
  (∀ (s : State) (p : Nat) (words : List Word),
    let k := localKey p 0x1FE00
    (s.full k = true → Does (.replyMailboxWrite p words) s { s with due := s.due ++ [.replyMailboxWrite p words] }) ∧
    (s.full k = false → (s.core p).bank = [] → words.length = 8 → Answers (.replyMailboxWrite p words) s (fun t =>
      t = (s.withMemory t).wake0 p 1 ∧ BitAt s t k true ∧ StoredAt s t k ((0 :: words).flatMap wordBytes))))

/-- R26, R62, R178: only a traveller runs `ld.mig`, `st.mig` and `go`; at the core that owns the address they do what
the plain access does, or nothing; elsewhere the traveller waits to depart, to come back to the instruction or go on
after it. R26, R27, R28, R178, R179, R335, R376: a traveller departs with its context and leaves its slot empty; a
packet enters the arrival queue, or is offered again when the queue holds 32 (an arrival that is being spilled among them,
R354), or is dropped with its queue frozen; the
oldest arrival starts in the lowest free traveller slot with what the packet carries and zero elsewhere. -/
def Obligations.MigrationAndArrival : Prop :=
  (∀ (s : State) (wd : Width) (x : Bool) (d c : Reg) (m : MemOp),
    let va := s.ea m
    let n := widthBytes wd
    let away (i : Instr) (rs : List Reg) (need : Need) (bytes : Nat) (pc : Word) : Prop :=
      s.regsReady rs → ∀ l o q off, regionOf va = .far l o →
        s.translate s.cur.core s.thr.hq need va = .home (.ls q off) → va.toNat % bytes = 0 → q ≠ s.cur.core →
        Answers i s (fun t => t.due = s.due ++ [.migrationDepart s.cur.core s.cur.slot] ∧
          ThreadIs { s.used va with due := t.due } t { s.thr with pc := s.cur.pc, wait := .migrate pc l })
    (s.thr.size ≠ 8 → Answers (.ldMig wd x d m) s (fun t => Raised s t 0x01 0 0) ∧
      Answers (.stMig wd m c) s (fun t => Raised s t 0x01 0 0) ∧ Answers (.go m) s (fun t => Raised s t 0x01 0 0)) ∧
    (s.thr.size = 8 →
      (inWindow va = false → va.toNat % n = 0 → s.regsReady (d :: memRegs m) →
        Answers (.ldMig wd x d m) s (fun t => Raised s t 0x0C 0 va)) ∧
      (inWindow va = false → va.toNat % n = 0 → s.regsReady (memRegs m ++ [c]) →
        Answers (.stMig wd m c) s (fun t => Raised s t 0x0C 0 va)) ∧
      (inWindow va = false → va.toNat % 8 = 0 → s.regsReady (memRegs m) →
        Answers (.go m) s (fun t => Raised s t 0x0C 0 va)) ∧
      away (.ldMig wd x d m) (d :: memRegs m) .read n s.cur.pc ∧ away (.stMig wd m c) (memRegs m ++ [c]) .write n s.cur.pc ∧
      away (.go m) (memRegs m) .valid 8 s.cur.next ∧
      (inWindow va = true → ∀ off,
        (s.ownByte .read n va off → s.regsReady (d :: memRegs m) → exec (.ldMig wd x d m) s = exec (.ld wd x false d m) s) ∧
        (s.ownByte .write n va off → s.regsReady (memRegs m ++ [c]) →
          exec (.stMig wd m c) s = exec (.st wd false m c) s) ∧
        (s.ownByte .valid 8 va off → s.regsReady (memRegs m) →
          Answers (.go m) s (fun t => ThreadIs (s.used va) t { s.thr with pc := s.cur.next, wait := .none }))))) ∧
  (∀ (s : State) (p n dest : Nat) (pc : Word), (s.slot p n).wait = .migrate pc dest → (s.slot p n).st = .active → n ≠ 0 →
    (s.slot p n).relaxedOut = [] → (s.slot p n).pending = [] → (s.core p).tileOf n = none → (s.slot p n).late = [] →
    (s.core p).ctxOut < 16 →
    Answers (.migrationDepart p n) s (fun t => Emptied (s.setCore p { s.core p with ctxOut := (s.core p).ctxOut + 1 }) t p n
      [.arrival p (s.physical dest)
        { pc := pc, hq := (s.slot p n).hq, round := (s.slot p n).round, srs := (s.slot p n).srs,
          g := (List.range 8).map (fun i => (s.core p).reg ((s.slot p n).base + i)),
          fel := BitVec.ofNat 64 (s.slot p n).fel.toNat, left := s.logical p }])) ∧
  (∀ (s : State) (src dest : Nat) (a : Packet), (s.core dest).gone = none →
    let free := s.setCore src { s.core src with ctxOut := (s.core src).ctxOut - 1 }
    let held := (s.core dest).arrivals.length + (match (s.core dest).arrivalRun with
      | some r => r.held.length
      | none => 0)
    ((s.hw a.hq).st = .frozen → Does (.arrival src dest a) s free) ∧
    ((s.hw a.hq).st ≠ .frozen → 32 ≤ held →
      Does (.arrival src dest a) s { s with due := s.due ++ [.messageReoffer (.ctx src dest a (s.cycle src + 64))] }) ∧
    ((s.hw a.hq).st ≠ .frozen → held < 32 →
      let u := free.setCore dest { free.core dest with arrivals := (s.core dest).arrivals ++ [a] }
      let v := if (s.core dest).aqhw.toNat ≤ (s.core dest).arrivals.length + 1 then u.wake0 dest 1 else u
      Does (.arrival src dest a) s { v with due := s.due ++ [.arrivalStart dest] })) ∧
  (∀ (s : State) (p n : Nat) (a : Packet) (l : List Packet), (s.core p).arrivals = a :: l →
    (s.core p).travellerSlot = some n → (s.core p).saving = none → a.g.length = 8 →
    Answers (.arrivalStart p) s (fun t =>
      t = { s with cores := t.cores, due := s.due ++ (if l = [] then [] else [.arrivalStart p]) } ∧
      (∀ q, q ≠ p → t.core q = s.core q) ∧
      t.core p = { s.core p with arrivals := l, regs := (t.core p).regs, slots := (t.core p).slots } ∧
      (∀ m, m ≠ n → t.slot p m = s.slot p m) ∧
      (∀ i, (t.core p).reg i = if 1920 + 8 * n ≤ i ∧ i < 1920 + 8 * n + 8 then a.g.getD (i - (1920 + 8 * n)) 0
        else (s.core p).reg i) ∧
      t.slot p n = { Slot.reset with
        st := .active, pc := a.pc, base := 1920 + 8 * n, size := 8, hq := a.hq, round := a.round, srs := a.srs,
        fel := BitVec.ofNat 32 a.fel.toNat, latch := (s.slot p n).latch, wakeAt := s.cycle p + 1 }))

/-- R317, R332, R352, R354: the arrival commands: a `stf` of the command word empties it and gives its command to the network
interface, which takes the N oldest arrivals of a spill at once, so that none of them is started; each is then spilled to its
area, or read back from it, with two sector requests, which count in s.oac (R50); the command ends when it has moved all, when
nothing or no place is left, or with a machine check where a sector is refused, and the arrivals that a spill still holds are
then the oldest again and may start; an invalid command moves nothing; the result word. -/
def Obligations.ArrivalCommands : Prop :=
  (∀ (s : State) (m : MemOp) (c : Reg),
    let p := s.cur.core
    let k := localKey p 0x1FEE0
    let w := s.rd c
    let op := w.toNat / 2 ^ 62
    let n := w.toNat % 64
    s.regsReady (memRegs m ++ [c]) → s.ownByte .both 8 (s.ea m) 0x1FEE0 → s.thr.relaxedOut = [] → s.full k = false →
    s.own.bank = [] →
    (s.own.arrivalRun = none → Answers (.stf m c) s (fun t =>
      t.word k = w ∧ t.full k = false ∧ t.thr = { s.thr with pc := s.cur.next, wait := .none } ∧
      t.own.arrivals = s.own.arrivals.drop (if op = 1 then n else 0) ∧
      t.own.arrivalRun = some { op := BitVec.ofNat 2 op, n := n, addr := s.word (k + 8), moved := 0, st := 0, cause := 0,
                                held := if op = 1 then s.own.arrivals.take n else [] } ∧
      t.due = s.due ++ [if op = 1 ∧ n ≠ 0 then .arrivalSpill p else if op = 2 ∧ n ≠ 0 then .arrivalReturn p
        else .arrivalCommandInvalid p])) ∧
    (s.own.arrivalRun ≠ none → Answers (.stf m c) s (fun t =>
      t.word k = w ∧ t.full k = true ∧ t.own.acw = true ∧ t.own.arrivals = s.own.arrivals ∧
      t.own.arrivalRun = s.own.arrivalRun ∧ t.due = s.due))) ∧
  ∀ (s : State) (p : Nat) (r : ArrivalRun), (s.core p).arrivalRun = some r →
    let c := s.core p
    let a : Agent := .arrivals p
    let run := s.run a
    let area := r.addr.toNat / 128 * 128 + 128 * r.moved
    let others (t : State) : Prop := ∀ q, q ≠ p → t.core q = s.core q
    let ends (t : State) (c : Core) (q : ArrivalRun) (st : BitVec 2) : Prop :=
      others t ∧ t.core p = { c with arrivalRun := some { q with st := st, held := [] } } ∧
      t = { s with runs := s.runs.filter (fun e => e.1 != a), cores := t.cores, due := t.due }
    let asks (t : State) (hq : BitVec 6) (op : Nat → Nat → AccOp) : Prop :=
      let request (o n : Nat) : Instr := .homePerform { agentRequest p hq (op o n) (.dev (area + o)) 0 with
        sent := s.cycle p, issued := s.cycle p }
      let key (o : Nat) : AccKey := { tag := r.moved, idx := 0, off := o }
      others t ∧ t.core p = { c with oac := c.oac + 2 } ∧ t.due = s.due ++ [request 0 64, request 64 32] ∧
      t.run a = { got := [], sent := [key 0, key 64], out := [key 0, key 64], fails := [] } ∧
      t = { s with runs := t.runs, cores := t.cores, due := t.due }
    let finish : List Instr := s.due ++ [.arrivalCommandComplete p]
    let room := c.arrivals.length + r.held.length < 32
    (r.op = 1 → r.held = [] → Answers (.arrivalSpill p) s (fun t =>
      ends t c r (if r.moved = r.n then 0 else 1) ∧ t.due = finish)) ∧
    (∀ x l, r.op = 1 → r.held = x :: l → (∀ e ∈ s.runs, e.1 ≠ a) → Answers (.arrivalSpill p) s (fun t =>
        asks t x.hq (fun o n =>
          .agentWrite a { tag := r.moved, idx := 0, off := o } ((((
            [x.pc, BitVec.ofNat 64 (x.hq.toNat * 2 ^ 48 + x.round.toNat * 2 ^ 40 + x.srs.toNat)] ++ x.g ++
            [x.fel, BitVec.ofNat 64 (x.left % 2 ^ 13)]).flatMap wordBytes).drop o).take n)))) ∧
    (∀ x l, r.op = 1 → r.held = x :: l → (∃ e ∈ s.runs, e.1 = a) → run.out = [] →
      (run.fails = [] → .arrivalSpill p ∉ s.due → Answers (.arrivalSpill p) s (fun t => others t ∧
        t.core p = { c with
          spilledArrivals := c.spilledArrivals ++ [x.hq], arrivalRun := some { r with moved := r.moved + 1, held := l } } ∧
        t = { s with
          runs := s.runs.filter (fun e => e.1 != a), cores := t.cores, due := s.due ++ [.arrivalSpill p] })) ∧
      (∀ cause k f, run.fails = (cause, k) :: f → Answers (.arrivalSpill p) s (fun t =>
        ends t { c with arrivals := x :: (l ++ c.arrivals) } { r with cause := cause } 2 ∧ t.due = finish ++ [.arrivalStart p]))) ∧
    (r.op = 2 → (∀ e ∈ s.runs, e.1 ≠ a) →
      (r.moved = r.n → Answers (.arrivalReturn p) s (fun t => ends t c r 0 ∧ t.due = finish)) ∧
      (r.moved ≠ r.n → ¬ room → Answers (.arrivalReturn p) s (fun t => ends t c r 1 ∧ t.due = finish)) ∧
      (r.moved ≠ r.n → room → Answers (.arrivalReturn p) s (fun t =>
        asks t Config.slot0Queue (fun o n => .agentRead a { tag := r.moved, idx := 0, off := o } n)))) ∧
    (∀ cause k f, r.op = 2 → (∃ e ∈ s.runs, e.1 = a) → run.out = [] → run.fails = (cause, k) :: f →
      Answers (.arrivalReturn p) s (fun t => ends t c { r with cause := cause } 2 ∧ t.due = finish)) ∧
    (∀ (k0 k1 : AccKey) (b0 b1 : List Byte), r.op = 2 → (∃ e ∈ s.runs, e.1 = a) → run.out = [] → run.fails = [] →
      run.got = [(k0, b0), (k1, b1)] → k0.off = 0 → k1.off = 64 → b0.length = 64 → b1.length = 32 → room →
      let w (k : Nat) : Word := BitVec.ofNat 64 (leNat (((b0 ++ b1).drop (8 * k)).take 8))
      ∃ x : Packet, x.pc = w 0 ∧ x.hq = BitVec.ofNat 6 ((w 1).toNat / 2 ^ 48) ∧
        x.g = (List.range 8).map (fun i => w (2 + i)) ∧ x.fel = w 10 ∧
        Answers (.arrivalReturn p) s (fun t => t.mem = s.mem ∧
          (t.core p).arrivals = (if (s.hw x.hq).st = .frozen then c.arrivals else c.arrivals ++ [x]) ∧
          (t.core p).spilledArrivals = c.spilledArrivals.erase x.hq ∧
          (t.core p).arrivalRun = some { r with moved := r.moved + 1, held := r.held.tail })) ∧
    Answers (.arrivalCommandInvalid p) s (fun t => ends t c r 1 ∧ t.due = finish) ∧
    (c.acw = false → c.bank = [] →
      let k := localKey p 0x1FEF0
      let v := BitVec.ofNat 64 (r.st.toNat * 64 + r.moved % 64)
      (r.st ≠ 2 → Answers (.arrivalCommandComplete p) s (fun t =>
        t = (s.withMemory t).setCore p { c with arrivalRun := none } ∧ BitAt s t k true ∧ StoredAt s t k (wordBytes v))) ∧
      (r.st = 2 → Answers (.arrivalCommandComplete p) s (fun t =>
        t.word k = v ∧ t.full k = true ∧ (t.core p).arrivalRun = none ∧
        (t.core p).mcs = { valid := true, src := 4, cause := r.cause, rpc := BitVec.ofNat 48 (s.slot p 0).pc.toNat })))

/-- R48, R66, R180, R181, R335: the checks of `cpy` in their order, its queue of two, the start of a command, which ends with
0x10 where a freeze has met it before it started, and its completion. -/
def Obligations.CopyEngine : Prop :=
  (∀ (s : State) (d a b c : Reg), s.regsReady [d, a, b, c] →
    let dst := s.rd d
    let src := s.rd a
    let len := s.rd b
    let va := s.rd c
    let u := s.used va
    let c1 := dst.toNat % 8 = 0 ∧ src.toNat % 8 = 0 ∧ len.toNat % 8 = 0 ∧ va.toNat % 8 = 0
    let c2 := len.toNat < 2 ^ 32
    let c3 := len.toNat = 0 ∨ dst.toNat + len.toNat ≤ src.toNat ∨ src.toNat + len.toNat ≤ dst.toNat
    let c4 := inRegion dst = true ∧ inRegion src = true ∧ inRegion va = true
    let traps (detail : BitVec 8) : Prop := Answers (.cpy d a b c) s (fun t => Raised s t 0x0F detail 0)
    (¬ c1 → traps 1) ∧ (c1 → ¬ c2 → traps 2) ∧ (c1 → c2 → ¬ c3 → traps 3) ∧ (c1 → c2 → c3 → ¬ c4 → traps 4) ∧
    (∀ cause, c1 → c2 → c3 → c4 → s.translate s.cur.core s.thr.hq .write va = .fault cause → traps 5) ∧
    (∀ h, c1 → c2 → c3 → c4 → s.translate s.cur.core s.thr.hq .write va = .home h → s.thr.relaxedOut = [] →
      (2 ≤ s.own.copyQueue.length → Answers (.cpy d a b c) s (fun t =>
        ∃ since views, ThreadIs s t { s.thr with pc := s.cur.pc, wait := .held .copyFree since s.cur.instr s.cur.next views })) ∧
      (s.own.copyQueue.length < 2 → Answers (.cpy d a b c) s (fun t =>
        t.due = s.due ++ (if s.own.copyQueue = [] then [.copyCommandStart s.cur.core] else []) ∧
        ThreadIs { u.setCore s.cur.core { u.own with copyQueue := s.own.copyQueue ++
            [{ slot := s.cur.slot, hq := s.thr.hq, dst := dst, src := src, len := len.toNat, comp := h, issued := s.now,
               cancelled := false }] } with
          due := t.due } t { s.thr with pc := s.cur.next, wait := .none })))) ∧
  (∀ (s : State) (p : Nat) (cmd : CopyCmd) (l : List CopyCmd), (s.core p).copyQueue = cmd :: l → (s.core p).copyRun = none →
    let frozen : Prop := cmd.cancelled = true ∨ (s.hw cmd.hq).st = .frozen
    let starts (t : State) (next flight : Nat) (f : Option (Nat × BitVec 8)) : Prop :=
      (t.core p).copyRun = some { cmd := cmd, next := next, ahead := [], flight := flight, words := [], fail := f }
    (cmd.len < 8 ∨ frozen → .copyCompletion p ∉ s.due → Answers (.copyCommandStart p) s (fun t => ∃ f,
      (frozen → f = some (0, 0x10)) ∧ (¬ frozen → f = none) ∧ starts t 0 0 f ∧
      t = { s.setCore p { s.core p with
          copyRun := (t.core p).copyRun, noPage := (s.core p).noPage.filter (fun e => e.1 != .copy p) } with
        due := s.due ++ [.copyCompletion p] })) ∧
    (∀ h, cmd.len = 8 → ¬ frozen → s.translate p cmd.hq .read cmd.src = .home h → (∀ k, h ≠ .host k) →
      Answers (.copyCommandStart p) s (fun t => ∃ r : Request,
        t.due = s.due ++ [.homePerform r] ∧ r.op = .copyRead 0 ∧ r.home = h ∧ r.core = p ∧ r.cls = .engine ∧ r.unit = false ∧
        (t.core p).oac = (s.core p).oac + 1 ∧ starts t 1 1 none))) ∧
  (∀ (s : State) (p q off : Nat) (r : CopyRun), (s.core p).copyRun = some r → r.cmd.comp = .ls q off →
    let done := r.fail ≠ none ∨ r.cmd.len / 8 ≤ r.next
    let v := match r.fail with
      | some (j, cause) => BitVec.ofNat 64 (8 * j % 2 ^ 32 * 2 ^ 32 + cause.toNat)
      | none => 0
    (r.flight ≠ 0 ∨ ¬ done → Does (.copyCompletion p) s s) ∧
    (r.flight = 0 → done → q ≠ p → Answers (.copyCompletion p) s (fun t => ∃ m : Request,
      m.op = .complete (.copy p) v ∧ m.home = .ls q off ∧ m.core = p ∧
      t = { s.setCore p { s.core p with oac := (s.core p).oac + 1 } with due := s.due ++ [.homePerform m] })) ∧
    (r.flight = 0 → done → q = p → (s.core p).gone = none → (s.core p).bank = [] →
      let u := s.useBanks p 2 off 8
      Answers (.copyCompletion p) s (fun t =>
        t = { (u.withMemory t).setCore p { u.core p with copyRun := none, copyQueue := (s.core p).copyQueue.tail } with
          hub := (s.noteProgress r.cmd.hq).hub,
          due := s.due ++ (if (s.core p).copyQueue.tail = [] then [] else [.copyCommandStart p]) } ∧
        BitAt s t (localKey p off) true ∧ StoredAt s t (localKey p off) (wordBytes v))))

/-! ## Group D -/

/-- R71, R81 to R85, R201 to R203: each scalar real instruction rounds its exact result once into its format, steps the
stochastic state where it rounds, and keeps the flags; selections and comparisons round nothing. -/
def Obligations.RealResults : Prop :=
  ∀ (s : State) (f g : Fmt) (d a c : Reg) (b : OpB),
    let x := (fmtDecode f (s.rd a).toNat).1
    let y := (fmtDecode f (s.opB b).toNat).1
    let z := (fmtDecode f (s.rd c).toNat).1
    let nv (b : Bool) : BitVec 8 := if b then flagNV else 0
    let encoded (v : Machine.Num) (fl : BitVec 8) : Nat × Rs := fmtEncode f flagOF true (s.rs.raise fl) v
    let gives (i : Instr) (q : Nat × Rs) : Prop :=
      Answers i s (fun t => Result s t (regDst s.thr d) (BitVec.ofNat 64 q.1) q.2)
    let later (i : Instr) (n : Nat) (q : Nat × Rs) : Prop := GivesLater i s n d (BitVec.ofNat 64 q.1) q.2
    let sum (u v : Machine.Num) := Machine.Num.add s.thr.round u v
    (s.regsReady (d :: a :: bRegs b) →
      gives (.fadd f d a b) (encoded (sum x y).1 (nv (sum x y).2)) ∧
      gives (.fsub f d a b) (encoded (sum x y.neg).1 (nv (sum x y.neg).2)) ∧
      gives (.fmul f d a b) (encoded (x.mul y).1 (nv (x.mul y).2)) ∧
      later (.fdiv f d a b) 32 (encoded (x.div y).1 (x.div y).2) ∧
      gives (.fmin f d a b) (fmtEncode f flagOF false (s.rs.raise (nv (Machine.Num.pick false x y).2)) (Machine.Num.pick false x y).1) ∧
      gives (.fmax f d a b) (fmtEncode f flagOF false (s.rs.raise (nv (Machine.Num.pick true x y).2)) (Machine.Num.pick true x y).1) ∧
      gives (.flt f d a b) (if x.lt y then 1 else 0, s.rs.raise (nv (x.isNan || y.isNan))) ∧
      gives (.fle f d a b) (if x.lt y || x.eq y then 1 else 0, s.rs.raise (nv (x.isNan || y.isNan))) ∧
      gives (.feq f d a b) (if x.eq y then 1 else 0, s.rs.raise (nv (x.isSig || y.isSig)))) ∧
    (s.regsReady (d :: a :: (bRegs b ++ [c])) → ∃ v : Bool, gives (.fma f d a b c) (encoded (sum (x.mul y).1 z).1 (nv v)) ∧
      ((∀ k, z ≠ .nan k) → v = ((x.mul y).2 || (sum (x.mul y).1 z).2))) ∧
    (s.regsReady [d, a] →
      later (.fsqrt f d a) 32 (encoded x.sqrt.1 x.sqrt.2) ∧ later (.fexp2 f d a) 24 (encoded x.exp2.1 x.exp2.2) ∧
      later (.flog2 f d a) 24 (encoded x.log2.1 x.log2.2) ∧
      (let u := fmtDecode g (s.rd a).toNat
        let q := fmtEncode f (if fmtIsInt g then flagOF else flagNV) (!(fmtIsInt g && fmtIsInt f)) (s.rs.raiseIf u.2 flagPRV) u.1
        let v : Int := if f = 0 ∨ f = 4 ∨ f = 9 ∨ f = 10 ∨ f = 11 then Int.bmod q.1 (2 ^ (8 * fmtBytes f)) else q.1
        Answers (.fcvt f g d a) s (fun t => Result s t (regDst s.thr d) (BitVec.ofInt 64 v) q.2)))

/-- R71, R201, R202: the exact values behind the real instructions: sums, products and quotients of finite values are exact
as rationals; a square root is exact where it is a multiple of 2^-400, and lies with its root between two neighbours 2^-400
apart else; and the invalid cases and the division by zero raise their flags. -/
def Obligations.ExactReal : Prop :=
  (∀ (mode : BitVec 3) (x y : Bool) (n d m e : Nat), 0 < n → 0 < d → 0 < m → 0 < e →
    let u := Machine.Num.fin x n d
    let v := Machine.Num.fin y m e
    let is (r : Machine.Num) (num : Int) (den : Nat) : Prop := r.numer * den = num * r.denom
    let i (neg : Bool) (k : Nat) : Int := if neg then -(k : Int) else k
    is (u.add mode v).1 (i x n * e + i y m * d) (d * e) ∧ (u.add mode v).2 = false ∧
    ((i x n * e + i y m * d = 0) → (u.add mode v).1 = .zero (mode = 3)) ∧
    is (u.mul v).1 (i x n * i y m) (d * e) ∧ (u.mul v).2 = false ∧
    is (u.div v).1 (i x n * i y e) (d * m) ∧ (u.div v).2 = 0 ∧
    (x = false → ∃ k : Nat, let r := (u.sqrt).1
      u.sqrt.2 = 0 ∧ r.numer = k ∧ (k - 1) * (k - 1) * d ≤ n * (r.denom * r.denom) ∧
        n * (r.denom * r.denom) < (k + 1) * (k + 1) * d ∧ 2 ^ 400 ≤ r.denom ∧
        ((∃ m : Nat, m * m * d = n * 2 ^ 800) → k * k * d = n * (r.denom * r.denom)))) ∧
  (∀ (mode : BitVec 3) (x y : Bool) (n d : Nat), 0 < n → 0 < d →
    (Machine.Num.inf x).add mode (.inf !x) = (.nan false, true) ∧ (Machine.Num.zero x).mul (.inf y) = (.nan false, true) ∧
    (Machine.Num.inf x).mul (.zero y) = (.nan false, true) ∧
    (Machine.Num.zero x).div (.zero y) = (.nan false, flagNV) ∧ (Machine.Num.inf x).div (.inf y) = (.nan false, flagNV) ∧
    (Machine.Num.fin x n d).div (.zero y) = (.inf (x != y), flagDZ) ∧ (Machine.Num.fin true n d).sqrt = (.nan false, flagNV) ∧
    (Machine.Num.zero x).sqrt = (.zero x, 0) ∧ (Machine.Num.zero x).log2 = (.inf true, flagDZ) ∧
    (Machine.Num.fin true n d).log2 = (.nan false, flagNV) ∧ (Machine.Num.zero x).exp2 = (.fin false 1 1, 0))

/-- R69 to R79, R84: a value that a format holds exactly encodes to its own bits in every rounding mode, raising no flag; a
NaN encodes to the format's canonical one. -/
def Obligations.ExactValuesKeepTheirBits : Prop :=
  ∀ (f : Fmt) (v : Nat) (r : Rs) (sat : BitVec 8), f.toNat < 12 → v < 2 ^ (8 * fmtBytes f) →
    ((fmtDecode f v).1.isNan = false → (fmtDecode f v).2 = false → (f = 2 ∨ f = 3 → v ≠ 0x80) →
      fmtEncodeRaw f sat r (fmtDecode f v).1 = (v, r)) ∧
    (fmtEncodeRaw 5 sat r (.nan false)).1 = 0x7E00 ∧ (fmtEncodeRaw 6 sat r (.nan false)).1 = 0x7FC0 ∧
    (fmtEncodeRaw 7 sat r (.nan false)).1 = 0x7FC00000 ∧ (fmtEncodeRaw 2 sat r (.nan false)).1 = 0x80 ∧
    (fmtEncodeRaw 8 sat r (.nan false)).1 = 0xFFF00000

/-- R84, R204, R205: a packed instruction works on its lanes in ascending order, each rounded for itself with the state the
lane before left; the dot product of integers is their exact sum,
which saturates to 64 bits. -/
def Obligations.PackedResults : Prop :=
  ∀ (s : State) (f : Fmt) (d a : Reg) (b : OpB), s.regsReady (d :: a :: bRegs b) →
    let n := 8 / fmtBytes f
    let x (k : Nat) := fmtDecode f (lane f (s.rd a) k)
    let y (k : Nat) := fmtDecode f (lane f (s.opB b) k)
    let packed (i : Instr) (steps : Bool) (op : Machine.Num → Machine.Num → Machine.Num × BitVec 8) : Prop :=
      ∃ (v : Word) (r : Nat → Rs), Answers i s (fun t => Result s t (regDst s.thr d) v (r n)) ∧ r 0 = s.rs ∧
        ∀ k < n, (lane f v k, r (k + 1)) = fmtEncode f flagOF (steps && !fmtIsInt f)
          (((r k).raiseIf ((x k).2 || (y k).2) flagPRV).raise (op (x k).1 (y k).1).2) (op (x k).1 (y k).1).1
    let marked (q : Machine.Num × Bool) : Machine.Num × BitVec 8 := (q.1, if q.2 then flagNV else 0)
    let pick (larger : Bool) (u v : Machine.Num) : Machine.Num × BitVec 8 :=
      if f = 2 ∧ (u.isNan || v.isNan) = true then (.nan false, 0) else marked (Machine.Num.pick larger u v)
    packed (.padd f d a b) true (fun u v => marked (u.add s.thr.round v)) ∧
    packed (.psub f d a b) true (fun u v => marked (u.add s.thr.round v.neg)) ∧
    packed (.pmul f d a b) true (fun u v => marked (u.mul v)) ∧
    packed (.pmax f d a b) false (pick true) ∧ packed (.pmin f d a b) false (pick false) ∧
    (∃ q : Nat × Rs, Answers (.pdot f d a b) s (fun t => Result s t (regDst s.thr d) (BitVec.ofNat 64 q.1) q.2)) ∧
    (f = 0 ∨ f = 1 ∨ f = 9 ∨ f = 10 →
      let e (w : Word) (k : Nat) : Int :=
        if f = 1 then lane f w k else Int.bmod (lane f w k) (2 ^ (8 * fmtBytes f))
      let total := ((List.range n).map (fun k => e (s.rd a) k * e (s.opB b) k)).sum
      let v := Max.max (-2 ^ 63) (Min.min (2 ^ 63 - 1) total)
      Answers (.pdot f d a b) s (fun t => Result s t (regDst s.thr d) (BitVec.ofInt 64 v)
        (s.rs.raise (if v = total then 0 else flagOF))))

/-- R7, R44, R186, R192, R197 to R199, R206, R208: the view descriptors, whose reserved bits read as zero, and the
instructions on an accumulator tile: what they leave in the tile, an entry read in each format, and that a locked tile makes
them wait. Each of them completes wherever its registers are ready and its tile is not locked. -/
def Obligations.TilesAndViews : Prop :=
  ∀ (s : State) (f : Fmt) (t : Tile) (v : BitVec 3) (d a : Reg) (b : OpB),
    let x := s.tile s.cur.core t
    let next : Slot := { s.thr with pc := s.cur.next, wait := .none }
    let k := (s.opB b).toNat % 1024
    let leaves (i : Instr) (P : TileState → Prop) : Prop :=
      Answers i s (fun u => ThreadIs (s.setTile s.cur.core t (u.tile s.cur.core t)) u next ∧ P (u.tile s.cur.core t))
    let waits (i : Instr) : Prop := Answers i s (fun u => ThreadIs s u { s.thr with pc := s.cur.pc, wait := .tile t })
    (s.regsReady [a] → Answers (.setvd v a) s (fun u => ThreadIs (s.setCore s.cur.core { s.own with
      vd := u.own.vd, vdOld := some (v.toNat, s.own.descriptor v.toNat, s.now + 4) }) u next ∧
      ∀ n, u.own.descriptor n = if n = v.toNat then s.rd a else s.own.descriptor n)) ∧
    (s.regsReady [d] → Gives (.getvd v d) s d (BitVec.ofNat 64 ((s.own.descriptor v.toNat).toNat / 32 * 32))) ∧
    (x.lock = none →
      (s.regsReady (bRegs b) → leaves (.acz t b) (fun w => (∀ j, tileEntry w j = 0 ∧ tilePoisoned w j = false) ∧
        w.anchor = BitVec.ofNat 11 (s.opB b).toNat ∧ w.recurrence = false ∧ w.prog = 0 ∧ w.cpm = 0 ∧ w.lock = none)) ∧
      (s.regsReady (a :: bRegs b) → leaves (.acwr t a b) (fun w =>
        (∀ j, tileEntry w j = if j = k then s.rd a else tileEntry x j) ∧
        (∀ j, tilePoisoned w j = if j = k then false else tilePoisoned x j) ∧
        w = { x with entries := w.entries, poison := w.poison })) ∧
      (s.regsReady (d :: bRegs b) →
        (tilePoisoned x k = true → Answers (.acrd f d t b) s (fun u => Raised s u 0x0B 0 0)) ∧
        (tilePoisoned x k = false → f = 11 → Gives (.acrd f d t b) s d (tileEntry x k)) ∧
        (tilePoisoned x k = false → f = 7 → x.recurrence = true →
          Gives (.acrd f d t b) s d (BitVec.ofNat 64 ((tileEntry x k).toNat % 2 ^ 32))) ∧
        (tilePoisoned x k = false → (f = 5 ∨ f = 6 ∨ f = 8 ∨ f = 10 ∨ (f = 7 ∧ x.recurrence = false)) →
          let value := if x.recurrence then fp32.decode (tileEntry x k).toNat
            else Machine.Num.ofGrid (tileEntry x k).toInt x.anchor.toInt
          let q := fmtEncode f flagNV true s.rs value
          Answers (.acrd f d t b) s (fun u => Result s u (regDst s.thr d)
            (if f = 10 then BitVec.ofInt 64 (Int.bmod q.1 (2 ^ 32)) else BitVec.ofNat 64 q.1) q.2))) ∧
      (s.regsReady [a] → leaves (.cmprog t a) (fun w => w.prog = s.rd a ∧ w.recurrence = true ∧ w.cpm = 0 ∧ w.lock = none ∧
        w.anchor = x.anchor ∧
        ∀ j, tileEntry w j = BitVec.ofNat 64 ((s.rd a).toNat / 2 ^ 32) ∧ tilePoisoned w j = false)) ∧
      (s.regsReady [d] → Gives (.cmst d t) s d (if x.recurrence then x.prog else 0)) ∧
      Answers (.cldw t) s (fun u => ThreadIs s u next)) ∧
    (x.lock ≠ none →
      (s.regsReady (bRegs b) → waits (.acz t b)) ∧ (s.regsReady (a :: bRegs b) → waits (.acwr t a b)) ∧
      (s.regsReady (d :: bRegs b) → waits (.acrd f d t b)) ∧ (s.regsReady [a] → waits (.cmprog t a)) ∧
      (s.regsReady [d] → waits (.cmst d t)) ∧ waits (.cldw t))

/-- R53, R187, R188: the stage-4 checks of `cld` in the order of their table, each with its cause, detail and address; one whose
thread has a `cld` already waits for it. R86,
R87, R190 to R193, R315: the stream of a `cld`: the next sector whose mask bit is clear is requested, a sector of
integers adds its dot products to its column and sets its mask bit, the lock clears after the last, and the lowest
failing sector holds the tile and brings 0x0A. R75, R86 to R88, R191, R197: what any sector contributes, with and without
scales, of 8-bit and of 16-bit elements, on the grid of any anchor, where an invalid contribution poisons the entry, and in
recurrence mode, where the program runs on each element pair. -/
def Obligations.Contraction : Prop :=
  (∀ (v : Machine.Num) (a : Int), (v.isNan = false ∧ ∀ b, v ≠ .inf b) →
    let num := v.numer * 2 ^ (-a).toNat
    let den : Int := v.denom * 2 ^ a.toNat
    0 < v.denom → ∃ n : Int, (2 * (num - n * den)).natAbs ≤ den ∧ ((2 * (num - n * den)).natAbs = den → n % 2 = 0) ∧
      gridPart v a = if -(2 ^ 63) ≤ n ∧ n < 2 ^ 63 then some n else none) ∧
  (∀ (s : State) (mm ord : Bool) (tl : Tile) (a b c : Reg) (v o : Nat),
    let va := s.rd a
    let n := (s.rd c).toNat
    let format : Fmt := BitVec.ofNat 4 (n / 2 ^ 8)
    let rows := n / 4 % 64 + 1
    let columns := n / 2 ^ 22 % 16 + 1
    let sectors := n / 2 ^ 26 % 64 + 1
    let lastBlock := n / 2 ^ 12 % 64 + (sectors + columns - 1) / columns - 1
    let scaled : Bool := format = 3 ∨ format = 4
    let scale := readDst s.own s.thr (nextReg s.thr c)
    let w := s.seen.view v s.now
    let x := s.tile s.cur.core tl
    let p1 := o % 64 = 0
    let p2 := o + lastBlock * 4096 + rows * 64 ≤ 2 ^ 17
    let p3 := w.bad = false ∧ w.sf.toNat ≤ 6 ∧ format.toNat ≤ 6 ∧ fmtBytes w.sf = fmtBytes format
    let p4 := w.scaled = true → w.db ≤ o ∧ w.scaleAt (o + lastBlock * 4096 + (rows - 1) * 64) < 2 ^ 17
    let p5 := (s.rd b).toNat % 64 = 0 ∧ n / 2 ^ 32 % 64 = 0
    let p6 := scaled → scale.toNat % 2 = 0
    let p7 := n % 4 = 0 ∧ n / 2 ^ 18 % 16 + columns ≤ 16
    let p8 := x.recurrence = mm ∧ (mm = true → ∀ k < 4, x.prog.getLsbD (8 * k + 7) = false)
    let traps (cause detail : BitVec 8) (addr : Word) : Prop :=
      Answers (.cld mm ord tl a b c) s (fun t => Raised s t cause detail addr)
    s.regsReady [a, b, c] →
    (scaled → nextRegOk s.thr c = false → traps 0x02 0 0) ∧
    ((scaled → nextRegOk s.thr c = true ∧ s.thr.isPending (nextReg s.thr c) = false) →
      ((∀ v o, regionOf va = .near v o true → v = 0) → traps 0x0C 0 va) ∧
      (regionOf va = .near v o true → v ≠ 0 →
        (¬ p1 → traps 0x04 0 va) ∧ (p1 → ¬ p2 → traps 0x0C 0 va) ∧ (p1 → p2 → ¬ p3 → traps 0x01 0 va) ∧
        (p1 → p2 → p3 → ¬ p4 → traps 0x0C 0 va) ∧ (p1 → p2 → p3 → p4 → ¬ p5 → traps 0x04 0 (s.rd b)) ∧
        (p1 → p2 → p3 → p4 → p5 → ¬ p6 → traps 0x04 0 scale) ∧
        (p1 → p2 → p3 → p4 → p5 → p6 → ¬ p7 → traps 0x0F 6 0) ∧
        (p1 → p2 → p3 → p4 → p5 → p6 → p7 → ¬ p8 → traps 0x0F 7 0) ∧
        (p1 → p2 → p3 → p4 → p5 → p6 → p7 → p8 → s.own.tileOf s.cur.slot ≠ none → Answers (.cld mm ord tl a b c) s (fun t =>
          ∃ since views, ThreadIs s t
            { s.thr with pc := s.cur.pc, wait := .held .cldFree since s.cur.instr s.cur.next views })) ∧
        (p1 → p2 → p3 → p4 → p5 → p6 → p7 → p8 → s.own.tileOf s.cur.slot = none → s.thr.relaxedOut = [] → x.lock = none →
          Answers (.cld mm ord tl a b c) s (fun t => t.due = s.due ++ [.cldSectorRequest s.cur.core tl] ∧
            ThreadIs { (s.forget s.cur.core (.cld s.cur.core tl)).setTile s.cur.core tl { x with cpm := 0, lock := some {
                slot := s.cur.slot, hq := s.thr.hq, pc := s.cur.pc, recur := mm, inOrder := ord, a := va, b := s.rd b,
                d := s.rd c, s := if scaled then scale else 0, vd := s.seen.sampled v s.now, next := 0, scaleNext := false,
                sent := [], data := [], scale := [], fail := none, held := false, reaped := false } } with due := t.due } t
              { s.thr with pc := s.cur.next, wait := .none }))))) ∧
  (∀ (s : State) (p i : Nat) (tl : Tile) (j : CldJob),
    let x := s.tile p tl
    let n := j.d.toNat
    let format : Fmt := BitVec.ofNat 4 (n / 2 ^ 8)
    let rows := n / 4 % 64 + 1
    let columns := n / 2 ^ 22 % 16 + 1
    let sectors := n / 2 ^ 26 % 64 + 1
    let address := j.b + BitVec.ofNat 64 (i % columns * (n / 2 ^ 32) + i / columns * 64)
    let scaled : Bool := format = 3 ∨ format = 4
    let fewer : State := s.setCore p { s.core p with oac := (s.core p).oac - 1 }
    x.lock = some j →
    (j.held = false → j.fail = none → j.scaleNext = false → (j.inOrder = true → j.sent = []) → j.next ≤ i → i < sectors →
      x.cpm.getLsbD i = false → (∀ k, j.next ≤ k → k < i → x.cpm.getLsbD k = true) →
      (∀ h, s.translate p j.hq .read address = .home h → (∀ k, h ≠ .host k) →
        Answers (.cldSectorRequest p tl) s (fun t => ∃ r : Request,
          t.due = s.due ++ [.homePerform r, .cldSectorRequest p tl] ∧ r.op = .cldData tl i ∧ r.home = h ∧ r.va = address ∧
          r.core = p ∧ r.cls = .engine ∧ (t.core p).oac = (s.core p).oac + 1 ∧ t.mem = s.mem ∧
          t.tile p tl = { x with lock := some { j with
            sent := j.sent ++ [i], scaleNext := scaled, next := if scaled then i else i + 1 } })) ∧
      (∀ cause, s.translate p j.hq .read address = .fault cause → j.sent = [] → j.reaped = false →
        Does (.cldSectorRequest p tl) s
          { s.setTile p tl { x with lock := some { j with fail := some (i, cause, address) } } with
            due := s.due ++ [.contractionFault p tl] })) ∧
    (j.held = false → j.fail = none → j.scaleNext = true → j.next = i →
      ∀ h, s.translate p j.hq .read (j.s + BitVec.ofNat 64 (2 * i)) = .home h → (∀ k, h ≠ .host k) →
        Answers (.cldSectorRequest p tl) s (fun t => ∃ r : Request,
          t.due = s.due ++ [.homePerform r, .cldSectorRequest p tl] ∧ r.op = .cldScale tl i ∧ r.home = h ∧
          r.va = j.s + BitVec.ofNat 64 (2 * i) ∧ r.core = p ∧ r.cls = .engine ∧ (t.core p).oac = (s.core p).oac + 1 ∧
          t.mem = s.mem ∧ t.tile p tl = { x with lock := some { j with
            sent := j.sent ++ [i], scaleNext := false, next := i + 1 } })) ∧
    ((∀ k, j.next ≤ k → k < sectors → x.cpm.getLsbD k = true) → j.scaleNext = false → Does (.cldSectorRequest p tl) s s) ∧
    (∀ bytes : List Byte, j.data = [(i, bytes)] → bytes.length = 64 → j.scale = [] → j.sent = [i] → j.fail = none →
      j.scaleNext = false → n / 2 ^ 18 % 16 + columns ≤ 16 → (viewOf j.vd).sf.toNat ≤ 1 → format.toNat ≤ 1 → x.recurrence = false → x.anchor = 0 → i < sectors →
      Answers (.cldSectorArrival p tl i) s (fun t =>
        let y := t.tile p tl
        let element (f : Fmt) (e : Byte) : Int := if f = 0 then e.toInt else e.toNat
        let row (m k : Nat) : Byte := Memory.byte s.mem
          (localKey p (j.a.toNat % 2 ^ 17 + (n / 2 ^ 12 % 64 + i / columns) * 4096 + m * 64) + k)
        (∀ m c, m < 64 → c < 16 → tileEntry y (16 * m + c) =
          if c = n / 2 ^ 18 % 16 + i % columns ∧ m < rows then
            tileEntry x (16 * m + c) + BitVec.ofInt 64 (((List.range 64).map (fun k =>
              element (viewOf j.vd).sf (row m k) * element format (bytes.getD k 0))).sum)
          else tileEntry x (16 * m + c)) ∧
        (∀ k, y.cpm.getLsbD k = (x.cpm.getLsbD k || k = i)) ∧ t.mem = s.mem ∧ (t.core p).oac = (s.core p).oac - 1 ∧
        (if ∀ k, j.next ≤ k → k < sectors → (x.cpm.getLsbD k = true ∨ k = i) then y.lock = none
          else y.lock = some { j with sent := [], data := [] } ∧ t.due = s.due ++ [.cldSectorRequest p tl]))) ∧
    (∀ (bytes : List Byte) (sb : Option (BitVec 16)), j.data = [(i, bytes)] → bytes.length = 64 →
      j.scale = (match sb with
        | some b => [(i, b)]
        | none => []) → sb.isSome = scaled → j.sent = [i] → j.fail = none → j.scaleNext = false →
      n / 2 ^ 18 % 16 + columns ≤ 16 → (viewOf j.vd).sf.toNat ≤ 6 → format.toNat ≤ 6 →
      fmtBytes (viewOf j.vd).sf = fmtBytes format → i < sectors →
      Answers (.cldSectorArrival p tl i) s (fun t =>
        let y := t.tile p tl
        let w := viewOf j.vd
        let size := fmtBytes format
        let count := 64 / size
        let at_ (m : Nat) : Nat := j.a.toNat % 2 ^ 17 + (n / 2 ^ 12 % 64 + i / columns) * 4096 + m * 64
        let rowBits (m k : Nat) : Nat := s.number (localKey p (at_ m) + k * size) size
        let bits (k : Nat) : Nat := leNat ((bytes.drop (k * size)).take size)
        let u (m k : Nat) : Machine.Num := (fmtDecode w.sf (rowBits m k)).1
        let v (k : Nat) : Machine.Num := (fmtDecode format (bits k)).1
        let sa (m : Nat) : Option Nat := if w.scaled then some (s.number (localKey p (w.scaleAt (at_ m))) 2) else none
        let sc : Option Nat := sb.map (·.toNat)
        let factor (x : Option Nat) : Machine.Num := match x with
          | some b => bf16.decode b
          | none => .fin false 1 1
        let finite (z : Machine.Num) : Prop := z.isNan = false ∧ ∀ b, z ≠ .inf b
        let real (f : Fmt) : Nat := if f = 2 ∨ f = 3 then 19 else 0
        let units (f : Fmt) (z : Machine.Num) : Int := z.numer * 2 ^ real f / z.denom
        let dot (m : Nat) : Machine.Num := Machine.Num.ofGrid
          ((List.range 64).map (fun k => units w.sf (u m k) * units format (v k))).sum (-(real w.sf + real format : Int))
        let valid (m : Nat) : Prop :=
          (∀ k < 64, finite (u m k) ∧ finite (v k)) ∧ finite (factor (sa m)) ∧ finite (factor sc)
        let block (m : Nat) : Option Int := gridPart (((dot m).mul (factor (sa m))).1.mul (factor sc)).1 x.anchor.toInt
        let part (m k : Nat) : Option Int := gridPart ((u m k).mul (v k)).1 x.anchor.toInt
        let op (o : Nat) (q : Nat → Nat) (r : Nat) : Nat :=
          if r ≠ o / 4 % 4 then q r
          else
            let d := fp32.decode (q r)
            let e := fp32.decode (q (o % 4))
            match o / 16 % 16 with
            | 1 => toFp32 (d.add 0 e).1
            | 2 => toFp32 (d.add 0 e.neg).1
            | 3 => toFp32 (d.mul e).1
            | 4 => toFp32 (Machine.Num.pick true d e).1
            | 5 => toFp32 (Machine.Num.pick false d e).1
            | 6 => toFp32 (d.lse2 e).1
            | 7 => q (o % 4)
            | _ => q r
        let element (f : Fmt) (x : Option Nat) (b : Nat) : Nat := toFp32 (match x with
          | some k => scaledValue f b k
          | none => (fmtDecode f b).1)
        let pair (st a b : Nat) : Nat := [0, 8, 16, 24].foldl (fun q k => op (x.prog.toNat / 2 ^ k % 256) q)
          (fun r => if r = 0 then st else if r = 1 then 0 else if r = 2 then a else b) 0
        (∀ m c, m < 64 → c < 16 →
          let old := tileEntry x (16 * m + c)
          let new := tileEntry y (16 * m + c)
          let poisoned := tilePoisoned y (16 * m + c)
          let was := tilePoisoned x (16 * m + c)
          if c = n / 2 ^ 18 % 16 + i % columns ∧ m < rows then
            (x.recurrence = false → size = 1 → (valid m → new = (match block m with
                | some g => old + BitVec.ofInt 64 g
                | none => old) ∧ poisoned = (was || (block m).isNone)) ∧ (¬ valid m → new = old ∧ poisoned = true)) ∧
            (x.recurrence = false → size = 2 →
              new = old + BitVec.ofInt 64 ((List.range 32).map (fun k => (part m k).getD 0)).sum ∧
              poisoned = (was || (List.range 32).any (fun k => (part m k).isNone))) ∧
            (x.recurrence = true → poisoned = was ∧ new = BitVec.ofNat 64 ((List.range count).foldl (fun st k =>
              pair st (element w.sf (sa m) (rowBits m k)) (element format sc (bits k))) (old.toNat % 2 ^ 32)))
          else new = old ∧ poisoned = was) ∧
        (∀ k, y.cpm.getLsbD k = (x.cpm.getLsbD k || k = i)) ∧ t.mem = s.mem ∧ (t.core p).oac = (s.core p).oac - 1 ∧
        y.anchor = x.anchor ∧ y.recurrence = x.recurrence ∧ y.prog = x.prog ∧
        (if ∀ k, j.next ≤ k → k < sectors → (x.cpm.getLsbD k = true ∨ k = i) then y.lock = none
          else y.lock = some { j with sent := [], data := [], scale := [] } ∧
            t.due = s.due ++ [.cldSectorRequest p tl]))) ∧
    (∀ cause, j.sent = [i] → j.fail = none → j.reaped = false → Does (.cldRequestFail p tl i cause) s
      { fewer.setTile p tl { x with lock := some { j with sent := [], fail := some (i, cause, address) } } with
        due := s.due ++ [.contractionFault p tl] }) ∧
    (∀ f, j.sent = [] → j.fail = some f → j.reaped = false → j.held = false → (s.slot p j.slot).st = .active →
      (s.slot p j.slot).wait = .none → Answers (.contractionFault p tl) s (fun t =>
        SlotIs (s.setTile p tl { x with lock := some { j with held := true } }) t p j.slot { s.slot p j.slot with
          late := (s.slot p j.slot).late ++ [{ cause := 0x0A, seq := 0, addr := 0, pc := j.pc, tile := tl }] })))

/-- R127, R182, R199, R200: `acst` checks its alignment, its range in each of the three regions, the translation of every page
of it and then the permission of each, before anything is written, stops at a poisoned entry, and then copies the tile, converted entry by entry in ascending order, and
writes it sector by sector: to the own store at once, elsewhere with a unit of the allowance for each. -/
def Obligations.TileStores : Prop :=
  ∀ (s : State) (f : Fmt) (m : MemOp) (tl : Tile),
    let va := s.ea m
    let x := s.tile s.cur.core tl
    let bytes := 1024 * fmtBytes f
    let sectors := 16 * fmtBytes f
    let at_ (i : Nat) : Word := va + BitVec.ofNat 64 (64 * i)
    let after (s : State) (i : Nat) : State := (List.range i).foldl (fun u k => u.touch s.cur.core s.thr.hq (at_ k)) s
    let page (n : Need) (s : State) (i : Nat) : Xlate := (after s i).translate s.cur.core s.thr.hq n (at_ i)
    let all := after s sectors
    let u := after all sectors
    let raised (s : State) (cause : BitVec 8) (addr : Word) : Prop :=
      Answers (.acst f m tl) s (fun t => Raised s t cause 0 addr)
    let within : Prop := (∃ a, regionOf va = .dev a ∧ a + bytes ≤ 2 ^ 47) ∨ (∃ l o, regionOf va = .far l o ∧ o + bytes ≤ 2 ^ 17) ∨
      (∃ v o, regionOf va = .near v o true ∧ o + bytes ≤ 2 ^ 17)
    let found (n : Need) (s : State) (i : Nat) : Prop := ∃ h, page n s i = .home h
    let value (k : Nat) : Machine.Num := if x.recurrence then fp32.decode (tileEntry x k).toNat
      else Machine.Num.ofGrid (tileEntry x k).toInt x.anchor.toInt
    s.regsReady (memRegs m) →
    (va.toNat % 64 ≠ 0 → raised s 0x04 va) ∧
    (va.toNat % 64 = 0 →
      (regionOf va = .none → raised s 0x05 va) ∧ (∀ a, regionOf va = .dev a → 2 ^ 47 < a + bytes → raised s 0x05 va) ∧
      (∀ l o, regionOf va = .far l o → 2 ^ 17 < o + bytes → raised s 0x0C va) ∧
      (∀ v o inStore, regionOf va = .near v o inStore → inStore = false ∨ 2 ^ 17 < o + bytes → raised s 0x0C va) ∧
      (within → ∀ i < sectors, (∀ k < i, found .valid s k) →
        (∀ cause, page .valid s i = .fault cause → raised s cause (at_ i)) ∧
        (∀ key, page .valid s i = .miss key → Answers (.acst f m tl) s (fun t =>
          t.thr = { s.thr with pc := s.cur.pc, wait := .pageWalk key 0x05 0 (at_ i) s.cur.instr s.cur.next } ∧
          t.mem = s.mem ∧ t.fe = s.fe ∧ t.own.walks.any (fun w => w.key == key) = true))) ∧
      (within → (∀ i < sectors, found .valid s i) → ∀ i < sectors, (∀ k < i, found .write all k) →
        ∀ cause, page .write all i = .fault cause → raised s cause (at_ i)) ∧
      (within → (∀ i < sectors, found .valid s i ∧ found .write all i) →
        (s.thr.relaxedOut ≠ [] → Answers (.acst f m tl) s (fun t => ∃ since views, ThreadIs s t
          { s.thr with pc := s.cur.pc, wait := .held .relaxedDone since s.cur.instr s.cur.next views })) ∧
        (s.thr.relaxedOut = [] → x.lock ≠ none →
          Answers (.acst f m tl) s (fun t => ThreadIs u t { s.thr with pc := s.cur.pc, wait := .tile tl })) ∧
        (s.thr.relaxedOut = [] → x.lock = none → x.poison ≠ [] →
          Answers (.acst f m tl) s (fun t => Raised u t 0x0B 0 0)) ∧
        (s.thr.relaxedOut = [] → x.lock = none → x.poison = [] → 0 < sectors →
          ∃ (j : TileStore) (v : Nat → Nat) (r : Nat → Rs),
          j.sectors.length = sectors ∧ (∀ q ∈ j.sectors, q.2.length = 64) ∧ j.va = va ∧ j.since = none ∧ j.out = none ∧
          (∀ i < sectors, ∀ h, u.translate s.cur.core s.thr.hq .write (at_ i) = .home h →
            (j.sectors.map (·.1))[i]? = some h) ∧
          r 0 = s.rs ∧ (∀ k < 1024, (v k, r (k + 1)) =
            if f = 11 then ((tileEntry x k).toNat, r k)
            else if f = 7 ∧ x.recurrence = true then ((tileEntry x k).toNat % 2 ^ 32, r k)
            else fmtEncode f flagNV true (r k) (value k)) ∧
          j.sectors.flatMap (·.2) = (List.range 1024).flatMap (fun k => leList (fmtBytes f) (v k)) ∧
          j.srs = (r 1024).srs ∧ j.flags = (r 1024).fl ∧
          (let h := (j.sectors.headD (.dev 0, [])).1
           let waits (since : Option Nat) (out : Option Request) : Slot :=
             { s.thr with pc := s.cur.pc, wait := .tileStore s.cur.next { j with since := since, out := out } }
           (homeOwn h s.cur.core = true → Answers (.acst f m tl) s (fun t => ∃ q : Request,
             t.due = s.due ++ [.homePerform q] ∧ q.op = .sector (j.sectors.headD (.dev 0, [])).2 ∧ q.home = h ∧ q.unit = false ∧
             ThreadIs { u with due := t.due } t (waits none none))) ∧
           (homeOwn h s.cur.core = false → s.own.unitFree = true → u.pressed h s.thr.hq = false →
             Answers (.acst f m tl) s (fun t => ∃ q : Request, q.op = .sector (j.sectors.headD (.dev 0, [])).2 ∧ q.home = h ∧
               q.va = va ∧ q.cls = .plain ∧ q.unit = true ∧ Sent u t q (waits none (some q)))) ∧
           (homeOwn h s.cur.core = false → s.own.unitFree = false → s.thr.st = .active → Answers (.acst f m tl) s (fun t =>
             t.due = s.due ++ [.allowanceGrant s.cur.core, .storeWaitLimit s.cur.core s.cur.slot] ∧
             ThreadIs { u with due := t.due } t (waits (some (s.now + 3)) none)))))))

/-- R127, R209, R210: a vector stream instruction that passes its checks joins the unit's queue with its operands and
descriptors, and its thread waits; one that fails a check traps it; operands outside the near windows trap 0x0C. R210,
R211 to R214: the vector stream unit takes the instruction that waits longest and performs it group by group, the elements
of a group in ascending order: each is read through its view, computed, rounded and stored through the destination's, with the
rounding state that the one before left; a bank that is taken delays the group by a cycle. `vsum` adds the elements on the
grid and counts the invalid ones, `vtopk` keeps the first k in rank order and pads them, and with no element nothing else is
written; a single element of raw words is computed as an integer that saturates. After the last group the thread is runnable
five cycles later. -/
def Obligations.VectorStreams : Prop :=
  (∀ (s : State) (d a b c : Reg) (n : BitVec 5), s.regsReady [d, a, b, c] →
    let copied (va : Word) : Word := match regionOf va with
      | .near v _ _ => if v = 0 then 0 else s.seen.sampled v s.now
      | _ => 0
    let issues (i : Instr) (o : VecOp) (k : Nat) : Prop :=
      (∀ cause detail addr, vecCheck o k s.seen s.now (s.rd d) (s.rd a) (s.rd b) (s.rd c) = some (cause, detail, addr) →
        Answers i s (fun t => Raised s t cause detail addr)) ∧
      ((∀ v x y, regionOf (s.rd d) ≠ .near v x y) → (∀ v x y, regionOf (s.rd a) ≠ .near v x y) →
        (∀ v x y, regionOf (s.rd b) ≠ .near v x y) → Answers i s (fun t => Raised s t 0x0C 0 (s.rd d))) ∧
      (vecCheck o k s.seen s.now (s.rd d) (s.rd a) (s.rd b) (s.rd c) = none → s.thr.relaxedOut = [] →
        Answers i s (fun t => t.due = s.due ++ [.vsuTake s.cur.core] ∧
          ThreadIs { s.setCore s.cur.core { s.own with vecQueue := s.own.vecQueue ++ [{
              slot := s.cur.slot, op := o, d := s.rd d, a := s.rd a, b := s.rd b, c := s.rd c, vdD := copied (s.rd d),
              vdA := copied (s.rd a), vdB := copied (s.rd b), k := k, next := 0, sum := 0, bad := 0, pairs := [],
              taken := s.now }] } with due := t.due } t
            { s.thr with pc := s.cur.next, wait := .vector }))
    issues (.vadd d a b c) .add 0 ∧ issues (.vsub d a b c) .sub 0 ∧ issues (.vmul d a b c) .mul 0 ∧
    issues (.vmax d a b c) .max 0 ∧ issues (.vmin d a b c) .min 0 ∧ issues (.vfma d a b c) .fma 0 ∧
    issues (.vmap d a b c) .map 0 ∧ issues (.vsum d a b c) .sum 0 ∧ issues (.vtopk n d a b c) .topk (n.toNat + 1) ∧
    issues (.vbcast d a b c) .bcast 0) ∧
  (∀ (s : State) (p : Nat) (j : VecJob) (l : List VecJob), (s.core p).vecRun = none → (s.core p).vecQueue = j :: l →
    Does (.vsuTake p) s { s.setCore p { s.core p with
      vecRun := some { j with taken := Max.max j.taken (s.cycle p) }, vecQueue := l } with
      due := s.due ++ [.vsuComplete p] }) ∧
  (∀ (s : State) (p : Nat) (j : VecJob), (s.core p).vecRun = some j →
    let n := j.c.toNat % 2 ^ 18
    let at_ (va : Word) : Nat := localKey p (va.toNat % 2 ^ 17)
    let x := s.word (at_ j.a)
    let y := s.word (at_ j.b)
    let raw (va : Word) : Prop := ∃ o, regionOf va = .near 0 o true
    let wa := jobView j.a j.vdA
    let wb := jobView j.b j.vdB
    let wd := jobView j.d j.vdD
    let f := wa.df
    let left := n - j.next
    let k := Min.min left (64 / fmtBytes f)
    let c : Core := { s.core p with
      bankAt := s.cycle p, bankRank := 4, bankUsed := if (s.core p).bankAt = s.cycle p then (s.core p).bankUsed else [] }
    let taken : Prop := s.bankTaken p (j.banks k) = true
    let slot (r : Rs) : Slot :=
      { s.slot p j.slot with srs := r.srs, nflag := (s.slot p j.slot).nflag ||| r.fl }
    let awake (r : Rs) : Slot :=
      { slot r with wait := .none, wakeAt := Max.max (s.slot p j.slot).wakeAt (s.cycle p + 5) }
    let goesOn (t : State) (r : Rs) (i : VecJob) : Prop := t.due = s.due ++ [.vsuComplete p] ∧ t.fe = s.fe ∧
      SlotIs { (s.withMemory t).setCore p { c with vecRun := some { i with next := j.next + k } } with due := t.due } t p j.slot
        (slot r)
    let ends (t : State) (r : Rs) : Prop := t.fe = s.fe ∧
      SlotIs ((s.withMemory t).setCore p { c with vecRun := none }) t p j.slot (awake r)
    let comes (t : State) (r : Rs) (i : VecJob) : Prop :=
      (k < left → goesOn t r i) ∧ (k = left → (s.core p).vecQueue = [] → ends t r)
    let clamp (i : Int) : Int := Max.max (-2 ^ 63) (Min.min (2 ^ 63 - 1) i)
    let r0 := (s.slot p j.slot).rs
    let gives (i : Int) : Prop := Answers (.vsuComplete p) s (fun t =>
      ends t { r0 with fl := if clamp i = i then 0 else flagOF } ∧
        StoredAt s t (at_ j.d) (wordBytes (BitVec.ofInt 64 (clamp i))))
    let read (u : State) (w : View) (va : Word) (i : Nat) (r : Rs) : Machine.Num × Rs :=
      let q := u.loadElement p w (va.toNat % 2 ^ 17 + i * fmtBytes w.sf) r
      ((fmtDecode f q.1).1, q.2.raiseIf (fmtDecode f q.1).2 flagPRV)
    let marked (q : Machine.Num × Bool) : Machine.Num × BitVec 8 := (q.1, if q.2 then flagNV else 0)
    let pick (larger : Bool) (u v : Machine.Num) : Machine.Num × BitVec 8 :=
      if f = 2 ∧ (u.isNan || v.isNan) = true then (.nan false, 0) else marked (Machine.Num.pick larger u v)
    let elements (value : State → Nat → Rs → (Machine.Num × BitVec 8 × Bool) × Rs) : Prop :=
      ∃ (S : Nat → State) (R : Nat → Rs), S 0 = s.setCore p c ∧ R 0 = r0 ∧
        (∀ i < k, let v := value (S i) (j.next + i) (R i)
          let q := fmtEncode f flagOF (v.1.2.2 && !fmtIsInt f) (v.2.raise v.1.2.1) v.1.1
          (S (i + 1), R (i + 1)) = (S i).storeElement p wd (j.d.toNat % 2 ^ 17 + (j.next + i) * fmtBytes wd.sf) q.1 q.2) ∧
        Answers (.vsuComplete p) s (fun t => t.mem = (S k).mem ∧ comes t (R k) j)
    let two (op : Machine.Num → Machine.Num → Machine.Num × BitVec 8) (steps : Bool) : Prop := elements (fun u i r =>
      let a := read u wa j.a i r
      let b := read u wb j.b i a.2
      ((op a.1 b.1).1, (op a.1 b.1).2, steps) |> fun e => (e, b.2))
    let mapped (fn : Machine.Num → Word → Word → Machine.Num × BitVec 8 × Bool) : Prop := elements (fun u i r =>
      let a := read u wa j.a i r
      let p0 := u.word (at_ j.b)
      let p1 := u.word (localKey p (j.b.toNat % 2 ^ 17 + 8))
      let uses : Bool := j.c.toNat / 2 ^ 32 % 256 = 6 ∨ j.c.toNat / 2 ^ 32 % 256 = 7
      (fn a.1 p0 p1, a.2.raiseIf (uses && ((fmtDecode f p0.toNat).2 || (fmtDecode f p1.toNat).2)) flagPRV))
    let num (v : Word) : Machine.Num := (fmtDecode f v.toNat).1
    let fn (m : Nat) : Prop := j.op = .map ∧ j.c.toNat / 2 ^ 32 % 256 = m
    let exact (i : Nat) : Machine.Num × Bool := s.element p wa (j.a.toNat % 2 ^ 17 + (j.next + i) * fmtBytes wa.sf)
    (taken → Does (.vsuComplete p) s { s.setCore p { s.core p with vecRun := some { j with taken := j.taken + 1 } } with
      due := s.due ++ [.vsuComplete p] }) ∧
    (¬ taken →
      (n = 0 → j.next = 0 → j.op ≠ .topk → (s.core p).vecQueue = [] →
        Answers (.vsuComplete p) s (fun t => ends t r0 ∧ t.mem = s.mem)) ∧
      (n = 1 → j.next = 0 → (s.core p).vecQueue = [] → raw j.d → raw j.a → raw j.b →
        (j.op = .add → gives (x.toInt + y.toInt)) ∧ (j.op = .sub → gives (x.toInt - y.toInt)) ∧
        (j.op = .mul → gives (x.toInt * y.toInt)) ∧ (j.op = .max → gives (Max.max x.toInt y.toInt)) ∧
        (j.op = .min → gives (Min.min x.toInt y.toInt))) ∧
      (j.op = .add → two (fun a b => marked (a.add r0.mode b)) true) ∧
      (j.op = .sub → two (fun a b => marked (a.add r0.mode b.neg)) true) ∧
      (j.op = .mul → two (fun a b => marked (a.mul b)) true) ∧
      (j.op = .max → two (pick true) false) ∧ (j.op = .min → two (pick false) false) ∧
      (j.op = .fma → elements (fun u i r =>
        let a := read u wa j.a i r
        let b := read u wb j.b i a.2
        let d := read u wd j.d i b.2
        let q := marked (Machine.Num.fma r0.mode a.1 b.1 d.1)
        ((q.1, q.2, true), d.2))) ∧
      (j.op = .bcast → elements (fun u i r =>
        let a := read u wa j.a (i % j.b.toNat) r
        ((a.1, 0, false), a.2))) ∧
      (fn 0 → mapped (fun a _ _ => (a, 0, false))) ∧ (fn 1 → mapped (fun a _ _ => (a.exp2.1, a.exp2.2, true))) ∧
      (fn 2 → mapped (fun a _ _ => (a.log2.1, a.log2.2, true))) ∧
      (fn 3 → mapped (fun a _ _ =>
        let q := (Machine.Num.fin false 1 1).div a
        (q.1, q.2, true))) ∧
      (fn 4 → mapped (fun a _ _ => (a.rsqrt.1, a.rsqrt.2, true))) ∧
      (fn 5 → mapped (fun a _ _ =>
        let q := marked (Machine.Num.pick true a (.zero false))
        (q.1, q.2, false))) ∧
      (fn 6 → mapped (fun a p0 p1 =>
        let q := marked (Machine.Num.fma r0.mode a (num p0) (num p1))
        (q.1, q.2, true))) ∧
      (fn 7 → mapped (fun a p0 p1 =>
        let q := pick true a (num p0)
        let z := pick false q.1 (num p1)
        (z.1, q.2 ||| z.2, false))) ∧
      (j.op = .sum →
        let part (i : Nat) : Option Int := gridPart (exact i).1 (BitVec.ofNat 11 (j.c.toNat / 2 ^ 53)).toInt
        let total := j.sum + BitVec.ofInt 64 ((List.range k).map (fun i => (part i).getD 0)).sum
        let bad := j.bad + ((List.range k).filter (fun i => (part i).isNone)).length
        let fl : BitVec 8 := (if (List.range k).any (fun i => (exact i).2) then flagPRV else 0) |||
          (if (List.range k).any (fun i => (part i).isNone && (exact i).1.isSig) then flagNV else 0)
        let first : State := s.setWord (at_ j.d) (s.word (at_ j.d) + total)
        Answers (.vsuComplete p) s (fun t => comes t { r0 with fl := fl } { j with sum := total, bad := bad } ∧
          (k < left → t.mem = s.mem) ∧ (k = left → t.mem = (if n = 0 then s else if j.b = 0 then first
            else first.setWord (at_ j.b) (first.word (at_ j.b) + BitVec.ofNat 64 bad)).mem))) ∧
      (j.op = .topk →
        let new := (List.range k).map (fun i =>
          (BitVec.ofNat 32 (fp32.encode Rs.rne (exact i).1).1, BitVec.ofNat 32 (j.b.toNat + (j.next + i))))
        Ranked j.k j.pairs j.pairs → ∃ (l : List (BitVec 32 × BitVec 32)) (fl : BitVec 8), Ranked j.k (j.pairs ++ new) l ∧
          Answers (.vsuComplete p) s (fun t => comes t { r0 with fl := fl } { j with pairs := l } ∧
            (k < left → t.mem = s.mem) ∧ (k = left → StoredAt s t (at_ j.d) ((List.range j.k).flatMap (fun i => wordBytes
              (match l[i]? with
                | some e => BitVec.ofNat 64 (e.2.toNat * 2 ^ 32 + e.1.toNat)
                | none => 0xFFFFFFFF7FC00000))))))))

/-- R217 to R223, R266: the checks of `tup` and `tdn`, the base of the node table, one internal node upward and one leaf
downward, and the write of the value with its flags; the words read and written take their banks (R210, R272). -/
def Obligations.Trellis : Prop :=
  ∀ (s : State) (m : MemOp) (b : OpB) (v o : Nat),
    let va := s.ea m
    let w := s.seen.view v s.now
    let lo := s.number (localKey s.cur.core o) 8
    let hi := s.number (localKey s.cur.core (o + 8)) 8
    let node (x : Nat) : Nat := s.thr.tb.toNat + 4 * (x % 2 ^ 12)
    let value (o : Nat) : Machine.Num := fp32.decode (s.number (localKey s.cur.core o) 4)
    let a0 := node lo
    let a1 := node (lo / 2 ^ 12)
    let out := node (hi / 2 ^ 32)
    let sum (x y : Machine.Num) := Machine.Num.add s.thr.round x y
    let q := if hi / 2 ^ 48 % 2 = 1 then (value a0).mul (value a1) else sum (value a0) (value a1)
    let up := fmtEncode 7 flagOF true (s.rs.raise (if q.2 then flagNV else 0)) q.1
    let d := sum (value (a0 + w.doff)) (value (out + w.doff))
    let down := fmtEncode 7 flagOF true (s.rs.raise (if d.2 then flagNV else 0)) d.1
    let ready := s.regsReady (memRegs m)
    let both (P : Prop) (cause : BitVec 8) : Prop := ready → P →
      Answers (.tup m) s (fun t => Raised s t cause 0 va) ∧ Answers (.tdn m) s (fun t => Raised s t cause 0 va)
    let starts (i : Instr) (reads : List Nat) (offset : Nat) (e : Nat × Rs) : Prop := Answers i s (fun t => ∃ j : TreeJob,
      j.toRead = [] ∧ j.toWrite = [(offset, e.1)] ∧ j.srs = e.2.srs ∧ j.flags = e.2.fl ∧ j.xw = 0 ∧ j.evaluated = true ∧
      t.due = s.due ++ [.treeComplete s.cur.core s.cur.slot] ∧
      ThreadIs { s.useWords s.cur.core 0 (wordsOf reads) with due := t.due } t
        { s.thr with pc := s.cur.next, wait := .tree j, wakeAt := Max.max s.thr.wakeAt (s.now + 8) })
    let readable := regionOf va = .near v o true ∧ va.toNat % 16 = 0 ∧ v ≠ 0 ∧ w.bad = false ∧ w.sf = 7 ∧ w.df = 7
    (s.regsReady (bRegs b) → Answers (.tcfg b) s (fun t => ThreadIs s t
      { s.thr with tb := BitVec.ofNat 17 ((s.opB b).toNat / 4 * 4), pc := s.cur.next, wait := .none })) ∧
    both (∀ v o, regionOf va ≠ .near v o true) 0x0C ∧
    both (regionOf va = .near v o true ∧ va.toNat % 16 ≠ 0) 0x04 ∧
    both (regionOf va = .near v o true ∧ va.toNat % 16 = 0 ∧
      (v = 0 ∨ w.bad = true ∨ w.sf ≠ w.df ∨ (w.sf ≠ 7 ∧ w.sf ≠ 8))) 0x01 ∧
    both (readable ∧ 2 ^ 17 ≤ out) 0x0C ∧
    (ready → readable → s.thr.relaxedOut = [] → hi / 2 ^ 44 % 16 = 1 → a0 < 2 ^ 17 → a1 < 2 ^ 17 → out < 2 ^ 17 →
      starts (.tup m) [a0, a1] out up) ∧
    (ready → readable → s.thr.relaxedOut = [] → hi / 2 ^ 44 % 16 = 0 → a0 + w.doff < 2 ^ 17 → out + w.doff < 2 ^ 17 →
      (a0 + w.doff) / 8 = (out + w.doff) / 8 → starts (.tdn m) [a0, a0 + w.doff, out + w.doff] (a0 + w.doff) down) ∧
    (∀ (p n offset value : Nat) (j : TreeJob), (s.slot p n).wait = .tree j → j.toRead = [] → j.xw = 0 →
      j.toWrite = [(offset, value)] → (s.slot p n).late = [] → Answers (.treeComplete p n) s (fun t =>
        SlotIs ((s.useWords p 1 [offset / 8 * 8]).withMemory t) t p n { s.slot p n with
          srs := j.srs, nflag := (s.slot p n).nflag ||| j.flags, wait := .none } ∧ t.fe = s.fe ∧
        StoredAt s t (localKey p offset) (leList 4 value)))

/-! ## Group E -/

/-- R50, R127, R224: the engine commands: the checks of the block's address and of the completion word, the block's own
fields, the queue, and the wait for a place in it; a `coll` waits while the die links carry no traffic (R391), and its read of
the group table is counted for its frame (R366); a command that leaves reaches its queue by a step of its own (R295). R226,
R228 to R230: which word of a block fails. R225, R278, R335: an engine's step sends one of the accesses that its command wants,
or ends the command with its result or with the cause and INFO of its failure, in one completion store, and goes on with the
next; a frozen queue's command ends with 0x10. R227 to R229: what `klu`, `kbwd` and `gat` compute from the bytes they have
read, and which bytes they write where, every rounding RNE; the FLAGS of the status aside. A record of a `kbwd` and a row of a
`gat` with BR are written once their own data have come, in no order with the other accesses (R278). -/
def Obligations.EngineCommands : Prop :=
  (∀ (s : State) (a c : Reg) (off : Nat), s.regsReady [a, c] →
    let va := s.rd a
    let vc := s.rd c
    let b := s.words (localKey s.cur.core off) 8
    let die := s.cur.core / 1024
    let entry := (s.die die).gtb.toNat / 2 ^ 14 * 2 ^ 14 + 64 * ((b.getD 0 0).toNat / 2 ^ 56)
    let configured : Bool := (s.readRefuses entry).isNone && (s.word entry).getLsbD 63
    let stack := (b.getD 0 0).toNat / 2 ^ 59
    let issues (i : Instr) (o : EngineOp) : Prop :=
      let raises (cause detail : BitVec 8) (addr : Word) : Prop := Answers i s (fun t => Raised s t cause detail addr)
      let coll : Bool := o ≠ .klu ∧ o ≠ .kbwd ∧ o ≠ .gat
      let u := (s.used vc).useBanks s.cur.core s.rank off 64
      let u := if coll then u.chargeTable entry else u
      ((∀ v x, regionOf va ≠ .near v x true) → raises 0x0C 0 va) ∧
      (∀ v, regionOf va = .near v off true →
        (va.toNat % 64 ≠ 0 → raises 0x04 0 va) ∧ (va.toNat % 64 = 0 → vc.toNat % 8 ≠ 0 → raises 0x04 0 vc) ∧
        (∀ cause, va.toNat % 64 = 0 → vc.toNat % 8 = 0 → s.translate s.cur.core s.thr.hq .write vc = .fault cause →
          raises cause 0 vc) ∧
        (∀ h, va.toNat % 64 = 0 → vc.toNat % 8 = 0 → s.translate s.cur.core s.thr.hq .write vc = .home h →
          s.thr.relaxedOut = [] →
          (coll = true → s.hub.linksWait = true → Answers i s (fun t => ∃ since views, ThreadIs (s.used vc) t
            { s.thr with pc := s.cur.pc, wait := .held .links since s.cur.instr s.cur.next views })) ∧
          ((coll = true → s.hub.linksWait = false) →
          let cmd : EngineCmd := { op := o, core := s.cur.core, slot := s.cur.slot, hq := s.thr.hq, block := b, comp := h,
                                   issued := s.now }
          let onWay := (s.due.filter (fun e =>
            match e with
            | .engineQueueAccept _ (.reaches d) => sameQueue cmd d
            | _ => false)).length
          let room := if coll then (s.die die).coll.length + onWay < 16 else (s.klu stack).length + onWay < 64
          (∀ k, blockBad o configured b = some k → Answers i s (fun t => Raised u t 0x0F (BitVec.ofNat 8 (0x10 + k)) 0)) ∧
          (blockBad o configured b = none → ¬ room → Answers i s (fun t =>
            t.due = u.due ++ [.engineQueueAccept s.cur.core (.leaves s.cur.slot)] ∧ ThreadIs { u with due := t.due } t
              { s.thr with pc := s.cur.pc, wait := .engineQueue s.cur.next cmd })) ∧
          (blockBad o configured b = none → room → Answers i s (fun t =>
            t.due = u.due ++ [.engineQueueAccept s.cur.core (.reaches cmd)] ∧
            ThreadIs { u with due := t.due } t { s.thr with pc := s.cur.next, wait := .none })))))
    issues (.klu a c) .klu ∧ issues (.kbwd a c) .kbwd ∧ issues (.gat a c) .gat ∧ issues (.collSum a c) (.coll .sum) ∧
    issues (.collTopk a c) (.coll .topk) ∧ issues (.collBcast a c) (.coll .bcast) ∧ issues (.collGather a c) (.coll .gather)) ∧
  (∀ (configured : Bool) (b : List Word),
    let w (k : Nat) : Word := b.getD k 0
    let n (k : Nat) : Nat := (w k).toNat
    let f (hi lo : Nat) : Nat := n 0 / 2 ^ lo % 2 ^ (hi - lo + 1)
    let near (k bytes : Nat) : Prop := ∃ v o, regionOf (w k) = .near v o true ∧ o + bytes ≤ 2 ^ 17
    let dv := f 58 49 + 1
    let first (o : EngineOp) (bad : Nat → Prop) : Prop :=
      (∀ k < 8, blockBad o configured b = some k ↔ bad k ∧ ∀ i < k, ¬ bad i) ∧
      (blockBad o configured b = none ↔ ∀ k < 8, ¬ bad k)
    let fmt := f 31 28
    let coll (o : CollOp) (bad : Nat → Prop) : Prop := first (.coll o) (fun k => match k with
      | 0 => configured = false ∨ f 11 0 ≠ 0 ∨ bad 0
      | 1 => n 1 / 2 ^ 32 % 2 ^ 16 ≠ 0 ∨ bad 1
      | 6 => n 6 ≠ 0
      | 7 => n 7 ≠ 0
      | k => bad k)
    first .klu (fun k => match k with
      | 0 => (f 48 45 ≠ 3 ∧ f 48 45 ≠ 6) ∨ (f 21 17 + 1) * (f 26 22 + 1) < f 31 27 + 1 ∨ f 43 32 < f 26 22 ∨
          f 43 32 < f 21 17 ∨ 128 < f 16 9 + 1 ∨ 5 < f 8 4 ∨ f 3 0 ≠ 0
      | 1 => ¬ near 1 (4 * (f 16 9 + 1)) ∨ n 1 % 8 ≠ 0
      | 5 => f 48 45 = 3 ∧ n 5 % 2 ≠ 0
      | 6 => ¬ near 6 (64 * ((4 * dv + 63) / 64) + 8 * (f 31 27 + 1)) ∨ n 6 % 64 ≠ 0
      | 7 => n 7 ≠ 0
      | k => n k % 64 ≠ 0) ∧
    first .kbwd (fun k => match k with
      | 0 => (f 48 45 ≠ 3 ∧ f 48 45 ≠ 6) ∨ f 26 0 ≠ 0
      | 1 => ¬ near 1 (8 * (f 31 27 + 1)) ∨ n 1 % 8 ≠ 0
      | 2 => ¬ near 2 (4 * dv) ∨ n 2 % 4 ≠ 0
      | 3 => n 3 % 64 ≠ 0
      | 4 => f 48 45 = 3 ∧ n 4 % 2 ≠ 0
      | 5 => n 5 % 64 ≠ 0 ∨ 2 ^ 47 ≤ n 5
      | 6 => ¬ near 6 (4 * (f 31 27 + 1)) ∨ n 6 % 4 ≠ 0
      | _ => n 7 ≠ 0) ∧
    first .gat (fun k => match k with
      | 0 => (f 48 45 ≠ 3 ∧ f 48 45 ≠ 6 ∧ f 48 45 ≠ 7) ∨ 5 < f 42 38 ∨ f 37 17 ≠ 0
      | 1 => n 1 % 4 ≠ 0
      | 2 => f 44 44 = 0 ∧ n 2 % 4 ≠ 0
      | 3 => n 3 % 64 ≠ 0
      | 4 => f 48 45 = 3 ∧ n 4 % 2 ≠ 0
      | 5 => n 5 % 64 ≠ 0
      | 6 => False
      | _ => n 7 ≠ 0) ∧
    coll .sum (fun k => match k with
      | 0 => fmt = 8 ∨ 11 < fmt ∨ f 16 12 ≠ 0
      | 1 => n 1 / 2 ^ 48 ≠ 0
      | 2 => n 2 % fmtBytes (BitVec.ofNat 4 fmt) ≠ 0
      | 5 => if fmt = 3 ∨ fmt = 4 then n 5 = 0 ∨ n 5 % 2 ≠ 0 else n 5 ≠ 0
      | k => n k % 8 ≠ 0) ∧
    coll .topk (fun k => match k with
      | 0 => fmt ≠ 0 ∨ f 27 17 ≠ 0
      | 1 => n 1 / 2 ^ 48 ≠ 0 ∨ 32 < n 1 % 2 ^ 32
      | 4 => n 4 ≠ 0
      | 5 => n 5 ≠ 0
      | k => n k % 8 ≠ 0) ∧
    (∀ o : CollOp, o = .bcast ∨ o = .gather → coll o (fun k => match k with
      | 0 => fmt ≠ 0 ∨ f 27 17 ≠ 0 ∨ f 16 12 ≠ 0
      | 1 => n 1 % 2 ^ 32 % 8 ≠ 0
      | 4 => n 4 ≠ 0
      | 5 => n 5 ≠ 0
      | _ => False))) ∧
  (∀ (s : State) (p n : Nat) (next : Word) (c : EngineCmd), (s.slot p n).wait = .engineQueue next c →
    (s.engineRoom c = false →
      Does (.engineQueueAccept p (.leaves n)) s { s with due := s.due ++ [.engineQueueAccept p (.leaves n)] }) ∧
    (s.engineRoom c = true → Answers (.engineQueueAccept p (.leaves n)) s (fun t =>
      t.due = s.due ++ [.engineQueueAccept c.core (.reaches c)] ∧
      SlotIs { s with due := t.due } t p n { s.awakeAt p n with pc := next }))) ∧
  (∀ (s : State) (p : Nat) (c : EngineCmd),
    let stack := (c.block.getD 0 0).toNat / 2 ^ 59
    let die := c.core / 1024
    (∀ o, c.op = .coll o → Does (.engineQueueAccept p (.reaches c)) s
      { s.setDie die { s.die die with coll := (s.die die).coll ++ [c] } with
        due := s.due ++ [.collExecute ((c.block.getD 0 0).toNat / 2 ^ 56) ((c.block.getD 0 0).toNat / 2 ^ 32 % 2 ^ 24) die] }) ∧
    ((∀ o, c.op ≠ .coll o) → Does (.engineQueueAccept p (.reaches c)) s
      { s.setKlu stack (s.klu stack ++ [c]) with
        due := s.due ++ (if s.klu stack = [] then [engineStep c stack] else []) })) ∧
  (∀ (s : State) (stack : Nat) (c : EngineCmd) (l : List EngineCmd),
    let r := s.run (.stack stack)
    let started : Bool := s.runs.any (fun e => e.1 == .stack stack)
    let executes (i : Instr) (o : EngineOp) (work : EngineCmd → Work Word) : Prop :=
      let q := (work c).result r
      let wanted := q.2.filter (fun x => !r.sent.contains x.key)
      let ends (st : Word) : Prop := Answers i s (fun t =>
        t.due = s.due ++ [completionOf c st] ++ (match l with
          | d :: _ => [engineStep d stack]
          | [] => []) ∧
        (∀ k, t.klu k = if k = stack then l else s.klu k) ∧ t.run (.stack stack) = Run.start ∧
        (∀ p, t.core p = if p = c.core then { s.core p with oac := (s.core p).oac + 1 } else s.core p) ∧
        t = { s with cores := t.cores, klus := t.klus, runs := t.runs, due := t.due, choices := t.choices,
                     hub := { s.hub with hw := t.hub.hw } })
      (s.klu stack = [] → Does i s s) ∧ (s.klu stack = c :: l → c.op ≠ o → Does i s s) ∧
      (s.klu stack = c :: l → c.op = o →
        ((s.hw c.hq).st = .frozen → started = false → ends 0x10) ∧
        ((s.hw c.hq).st ≠ .frozen ∨ started = true →
          (∀ st, r.fails = [] → q.1 = .ok st → ends st) ∧
          (∀ cause info, r.fails = [] → r.out = [] → q.1 = .error (.fail cause info) →
            ∃ fl, ends (engineStatus info fl cause.toNat)) ∧
          (∀ e fs, r.fails = e :: fs → r.out = [] → ∃ fl, ends (engineStatus e.2 fl e.1.toNat)) ∧
          (r.fails ≠ [] → r.out ≠ [] → Answers i s (fun t => t = { s with runs := t.runs } ∧ t.run (.stack stack) = r)) ∧
          (r.fails = [] → q.1 = .error .wait → wanted = [] →
            Answers i s (fun t => t = { s with runs := t.runs } ∧ t.run (.stack stack) = r)) ∧
          (r.fails = [] → q.1 = .error .wait → wanted ≠ [] → (∀ x ∈ wanted, x.remote = none ∧ x.home = none) →
            ∃ x ∈ wanted, ∀ h, s.translate x.core x.hq (if x.write.isSome then .write else .read) (BitVec.ofNat 64 x.va) = .home h →
              (∀ k, h ≠ .host k) → Answers i s (fun t => ∃ g : Request, .homePerform g ∈ t.due ∧ g.core = x.core ∧ g.hq = x.hq ∧
                g.cls = .engine ∧ g.home = h ∧ g.op = (match x.write with
                  | some bs => .agentWrite (.stack stack) x.key bs
                  | none => .agentRead (.stack stack) x.key x.n) ∧
                t.run (.stack stack) = { r with sent := r.sent ++ [x.key], out := r.out ++ [x.key] } ∧
                (t.core x.core).oac = (s.core x.core).oac + 1 ∧ t.mem = s.mem ∧ t.klus = s.klus ∧
                (1 < wanted.length → i ∈ t.due)))))
    executes (.kluExecute stack) .klu kluWork ∧ executes (.kbwdExecute stack) .kbwd kbwdWork ∧
    executes (.gatExecute stack) .gat gatWork) ∧
  (∀ (c : EngineCmd) (r : Run),
    let n (k : Nat) : Nat := (c.block.getD k 0).toNat
    let f (hi lo : Nat) : Nat := n 0 / 2 ^ lo % 2 ^ (hi - lo + 1)
    let vf := f 48 45
    let dv := f 58 49 + 1
    let blocks := (dv + 63) / 64
    let long := 64 * ((4 * dv + 63) / 64)
    let rowSize := if vf = 3 then 64 * blocks else if vf = 6 then 64 * ((2 * dv + 63) / 64) else 256 * blocks
    let real (v : Nat) : Machine.Num := fp32.decode v
    let has (tag idx va size : Nat) (bs : List Byte) : Prop := bs.length = size ∧ r.holds tag idx va bs
    let hasRow (vw sw j i : Nat) (row scales : List Byte) : Prop := has vw (1 + j) (n vw + i * rowSize) rowSize row ∧
      (vf = 3 → has sw (1 + j) (n sw + 2 * (i * blocks)) (2 * blocks) scales)
    let wants (w : Work Word) (l : List Ask) : Prop := w.result r = (.error .wait, l)
    let ends (w : Work Word) (info : Nat) : Prop := ∃ fl, w.result r = (.ok (engineStatus info fl 0), [])
    let floats (k : Nat) (v : Nat → Nat) : List Byte := (List.range k).flatMap (fun i => leList 4 (v i))
    (∀ query t1 t2 : List Byte,
      let h := f 16 9 + 1
      let keys := f 43 32 + 1
      f 8 4 ≤ 5 → has 1 0 (n 1) (4 * h) query → has 2 0 (n 2) (2 * keys * h) t1 → has 3 0 (n 3) (2 * keys * h) t2 →
      let half (l : List Byte) (i : Nat) : Machine.Num := bf16.decode (numberAt l (2 * i) 2)
      let scores (t : List Byte) (o : Nat) : List (BitVec 32 × BitVec 32) := (List.range keys).map (fun i =>
        (BitVec.ofNat 32 (toFp32 (exactDot ((List.range h).map (fun j => (half query (o + j), half t (i * h + j)))))),
          BitVec.ofNat 32 i))
      ∃ a b best : List (BitVec 32 × BitVec 32), Ranked (f 21 17 + 1) (scores t1 0) a ∧ Ranked (f 26 22 + 1) (scores t2 h) b ∧
        Ranked (f 31 27 + 1) (a.flatMap (fun x => b.map (fun y =>
          (BitVec.ofNat 32 (toFp32 ((real x.1.toNat).add 0 (real y.1.toNat)).1),
            BitVec.ofNat 32 (x.2.toNat * keys + y.2.toNat))))) best ∧
        (let score (j : Nat) : Nat := (best.getD j (0, 0)).1.toNat
         let idx (j : Nat) : Nat := (best.getD j (0, 0)).2.toNat
         let e (j : Nat) : Nat := toFp32 (real (toFp32 ((real (score j)).add 0 (real (score 0)).neg).1)).exp2.1
         let z := (List.range best.length).foldl (fun x j => toFp32 ((real x).add 0 (real (e j))).1) 0
         let weight (j : Nat) : Nat := if f 44 44 = 1 then toFp32 ((real (e j)).div (real z)).1 else score j
         ∀ rows scales : Nat → List Byte, (∀ j < best.length, hasRow 4 5 j (idx j) (rows j) (scales j)) →
           let out := floats dv (fun k => activated (f 8 4) ((List.range best.length).foldl (fun x j =>
             toFp32 (Machine.Num.fma 0 (real (weight j)) (rowElement vf (rows j) (scales j) k) (real x)).1) 0))
           let pairs := (List.range best.length).flatMap (fun j => leList 8 (idx j * 2 ^ 32 + weight j))
           (r.lacks 6 0 → r.lacks 6 1 →
             wants (kluWork c) (writesOf c 6 0 (n 6) out ++ writesOf c 6 1 (n 6 + long) pairs)) ∧
           (r.wrote 6 0 (n 6) out.length → r.wrote 6 1 (n 6 + long) pairs.length →
             ends (kluWork c) ((List.range best.length).filter (fun j => (real (score j)).isNan)).length))) ∧
    (∀ (words grad : List Byte),
      let k := f 31 27 + 1
      let idx (j : Nat) : Nat := numberAt words (8 * j + 4) 4
      let weight (j : Nat) : Machine.Num := real (numberAt words (8 * j) 4)
      let g (i : Nat) : Machine.Num := real (numberAt grad (4 * i) 4)
      let limit := (f 43 32 + 1) * (f 43 32 + 1)
      has 1 0 (n 1) (8 * k) words → has 2 0 (n 2) (4 * dv) grad →
      let record (j : Nat) : List Byte := leList 64 (idx j) ++ floats dv (fun i => toFp32 ((weight j).mul (g i)).1)
      let at_ (j : Nat) : Nat := n 5 + j * (64 + long)
      (∀ m < k, (∀ j < m, idx j < limit) → limit ≤ idx m → ((kbwdWork c).result r).1 = .error (.fail 0x0F m)) ∧
      (∀ j < k, idx j < limit → r.lacks 5 (1 + j) →
        ∀ a ∈ writesOf c 5 (1 + j) (at_ j) (record j), a ∈ ((kbwdWork c).result r).2) ∧
      ∀ rows scales : Nat → List Byte, (∀ j < k, idx j < limit) → (∀ j < k, hasRow 3 4 j (idx j) (rows j) (scales j)) →
      let score (j : Nat) : Nat :=
        toFp32 (exactDot ((List.range dv).map (fun i => (g i, rowElement vf (rows j) (scales j) i))))
      let mean := toFp32 (exactDot ((List.range k).map (fun j => (weight j, real (score j)))))
      let out := floats k (fun j => if f 44 44 = 1 then
          toFp32 ((real 0x3F317218).mul (real (toFp32 ((weight j).mul
            (real (toFp32 ((real (score j)).add 0 (real mean).neg).1))).1))).1
        else score j)
      n 6 % 4 = 0 →
      ((∀ j < k, r.lacks 5 (1 + j)) → r.lacks 6 0 → wants (kbwdWork c)
        ((List.range k).flatMap (fun j => writesOf c 5 (1 + j) (at_ j) (record j)) ++ writesOf c 6 0 (n 6) out)) ∧
      ((∀ j < k, r.wrote 5 (1 + j) (at_ j) (record j).length) → r.wrote 6 0 (n 6) out.length → ends (kbwdWork c) 0)) ∧
    (∀ (indices weights : List Byte) (rows scales : Nat → List Byte),
      let k := f 16 0 + 1
      let idx (i : Nat) : Nat := numberAt indices (4 * i) 4
      let weight (i : Nat) : Machine.Num := real (if f 44 44 = 1 then 0x3F800000 else numberAt weights (4 * i) 4)
      let items := (List.range k).filter (fun i => idx i < n 6)
      let element (i x : Nat) : Machine.Num := rowElement vf (rows i) (scales i) x
      let sum := floats dv (fun x => activated (f 42 38) (items.foldl (fun y i =>
        toFp32 (Machine.Num.fma 0 (weight i) (element i x) (real y)).1) 0))
      let row (i : Nat) : List Byte := floats dv (fun x => activated (f 42 38) (toFp32 ((weight i).mul (element i x)).1))
      f 42 38 ≤ 5 → has 1 0 (n 1) (4 * k) indices → (f 44 44 = 0 → has 2 0 (n 2) (4 * k) weights) →
      (f 43 43 = 1 → ∀ i ∈ items, hasRow 3 4 i (idx i) (rows i) (scales i) → r.lacks 5 (1 + i) →
        ∀ a ∈ writesOf c 5 (1 + i) (n 5 + i * long) (row i), a ∈ ((gatWork c).result r).2) ∧
      ((∀ i ∈ items, hasRow 3 4 i (idx i) (rows i) (scales i)) →
      (f 43 43 = 0 → (r.lacks 5 0 → wants (gatWork c) (writesOf c 5 0 (n 5) sum)) ∧
        (r.wrote 5 0 (n 5) sum.length → ends (gatWork c) (k - items.length))) ∧
      (f 43 43 = 1 →
        (items ≠ [] → (∀ i ∈ items, r.lacks 5 (1 + i)) →
          wants (gatWork c) (items.flatMap (fun i => writesOf c 5 (1 + i) (n 5 + i * long) (row i)))) ∧
        ((∀ i ∈ items, r.wrote 5 (1 + i) (n 5 + i * long) (row i).length) → ends (gatWork c) (k - items.length))))))

/-- R225, R230, R231, R365, R366, R378, R392: a collective whose group is reserved wrongly, whose root lies beyond it or whose
queue is frozen ends with its status, and one with a member that cannot be reached with 0x06; one whose members are not all
there waits; members that disagree all end with INFO 1; whether the commands of members in other modules have come and agree
is a free value (log 28); otherwise the work goes on to its end, each word written once its own data have come, and every member's command completes with its result or with the failure of the lowest rank. What
the four operations write at the members of this module, from the bytes they have read. GABORT ends the waiting commands of
a group; a completion store fills its word and ends the command's count in s.oac. -/
def Obligations.CollectivesAndCompletion : Prop :=
  (∀ (s : State) (grp tag die : Nat) (c : EngineCmd) (o : CollOp), c.op = .coll o →
    s.collAt die grp tag = some c →
    let members := s.groupMembers die grp
    let lead := collLead die members.1
    let started : Bool := s.runs.any (fun e => e.1 == .coll lead grp tag)
    let done (l : List EngineCmd) (st : Word) (t : State) : Prop :=
      Posted s t (l.map (fun d => completionOf d st)) ∧
      (∀ d, (t.die d).coll = (match (if .die d ∈ members.1 then s.collAt d grp tag else none) with
        | some e => (s.die d).coll.erase e
        | none => (s.die d).coll)) ∧
      (∀ p, t.core p = { s.core p with
        oac := (s.core p).oac + BitVec.ofNat 20 (l.filter (fun d => d.core = p)).length }) ∧
      t.mem = s.mem ∧ t.fe = s.fe
    let ends (st : Word) : Prop := Answers (.collExecute grp tag die) s (fun t =>
      Posted s t [completionOf c st] ∧ (∀ d, t.die d = if d = die then
        { s.die d with coll := (s.die d).coll.erase c } else s.die d) ∧
      (∀ p, t.core p = if p = c.core then { s.core p with oac := (s.core p).oac + 1 } else s.core p) ∧
      t.mem = s.mem ∧ t.fe = s.fe)
    let live := started = false ∧ (s.hw c.hq).st ≠ .frozen
    let rooted := o = .sum ∨ o = .topk ∨ (c.block.getD 1 0).toNat / 2 ^ 48 < members.1.length
    let there := s.collReady grp tag members.1
    let commands := members.1.filterMap (s.memberCmd grp tag)
    let agree := ∀ d ∈ commands, d.op = c.op ∧ d.block.getD 0 0 = c.block.getD 0 0 ∧ d.block.getD 1 0 = c.block.getD 1 0
    let r := s.run (.coll lead grp tag)
    let q := (collWork o c (s.collParts grp tag members.1)).result r
    let all (st : Word) : Prop := Answers (.collExecute grp tag die) s (done commands st)
    let remote := remoteMembers members.1
    let reached := ∀ k ∈ remote, s.hub.reaches (hubOf die) k = true
    let meets := live ∧ members.2 = true ∧ rooted ∧ reached ∧ there = true
    let come := Config.outsideOk s.choices = true
    let alike := Config.outsideOk (s.choices + 1) = true
    (started = false → (s.hw c.hq).st = .frozen → ends 0x10) ∧ (live → members.2 = false → ends 0x30000000F) ∧
    (live → members.2 = true → ¬ rooted → ends 0x40000000F) ∧
    (live → members.2 = true → rooted → ¬ reached → ends 0x06) ∧
    (live → members.2 = true → rooted → reached → there = false →
      Does (.collExecute grp tag die) s (s.chargeGroup die grp)) ∧
    (meets → ¬ agree → members.1.Nodup → all 0x10000000F) ∧
    (meets → agree → remote ≠ [] → ¬ come → .collExecute grp tag die ∉ s.due →
      Answers (.collExecute grp tag die) s (fun t => Posted s t [.collExecute grp tag die] ∧ t.cores = s.cores ∧
        t.dies = s.dies ∧ t.mem = s.mem ∧ t.fe = s.fe)) ∧
    (meets → agree → remote ≠ [] → come → ¬ alike → members.1.Nodup → all 0x10000000F) ∧
    (started = true ∨ (meets ∧ agree ∧ (remote = [] ∨ come ∧ alike)) → members.1.Nodup →
      (∀ st, r.fails = [] → q.1 = .ok st → all st) ∧
      (r.fails ≠ [] → r.out = [] → ∃ e ∈ r.fails, (∀ x ∈ r.fails, e.2 / 256 ≤ x.2 / 256) ∧
        ∃ fl, all (engineStatus e.2 fl e.1.toNat)) ∧
      (r.fails ≠ [] → r.out ≠ [] → Answers (.collExecute grp tag die) s (fun t =>
        t = { s with runs := t.runs } ∧ t.run (.coll lead grp tag) = r)))) ∧
  (∀ (c : EngineCmd) (r : Run) (ms : List Part) (cmd : Part → EngineCmd), (∀ m ∈ ms, m.cmd = some (cmd m)) →
    let w (m : Part) (k : Nat) : Nat := ((cmd m).block.getD k 0).toNat
    let n := (c.block.getD 1 0).toNat % 2 ^ 32
    let f (hi lo : Nat) : Nat := (c.block.getD 0 0).toNat / 2 ^ lo % 2 ^ (hi - lo + 1)
    let fmt : Fmt := BitVec.ofNat 4 (f 31 28)
    let has (m : Part) (k size : Nat) (bs : List Byte) : Prop :=
      bs.length = size ∧ r.holds (m.rank * 256 + k) (2 * m.place) (w m k) bs
    let writes (m : Part) (k idx va o : Nat) (bs : List Byte) : List Ask := writesAt (cmd m) (m.rank * 256 + k) idx va o bs
    let lacks (k i : Nat) : Prop := ∀ m ∈ ms, r.lacks (m.rank * 256 + k) (2 * m.place + i)
    let wants (o : CollOp) (l : List Ask) : Prop := (collWork o c ms).result r = (if l = [] then .ok 0 else .error .wait, l)
    let ends (o : CollOp) (l : List Ask) : Prop := (∀ a ∈ l, r.got.any (fun e => e.1 == a.key) = true) →
      (collWork o c ms).result r = (.ok 0, [])
    let each (f : Nat → List Ask) : List Ask := (List.range (n / 8)).flatMap f
    let words (l : List Word) : List Byte := l.flatMap wordBytes
    (∀ src scales count : Part → List Byte, (∀ m ∈ ms, has m 2 (n * fmtBytes fmt) (src m)) →
      (fmt = 3 ∨ fmt = 4 → ∀ m ∈ ms, has m 5 (2 * ((n + 63) / 64)) (scales m)) →
      (∀ m ∈ ms, w m 4 ≠ 0 → has m 4 8 (count m)) →
      let part (m : Part) (i : Nat) : Option Int :=
        let v := numberAt (src m) (fmtBytes fmt * i) (fmtBytes fmt)
        gridPart (if fmt = 3 ∨ fmt = 4 then scaledValue fmt v (numberAt (scales m) (2 * (i / 64)) 2) else (fmtDecode fmt v).1)
          (BitVec.ofNat 11 (f 27 17)).toInt
      let bad := (ms.map (fun m => ((List.range n).filter (fun i => (part m i).isNone)).length)).sum
      let counted := ms.filter (fun m => decide (w m 4 ≠ 0))
      let l := (List.range n).flatMap (fun i => ms.flatMap (fun m => writes m 3 (2 * m.place) (w m 3) (8 * i)
          (wordBytes (BitVec.ofInt 64 ((ms.map (fun m => (part m i).getD 0)).sum))))) ++
        counted.flatMap (fun m => writes m 4 (2 * m.place + 1) (w m 4) 0 (leList 8 (leNat (count m) + bad)))
      (lacks 3 0 → lacks 4 1 → wants .sum l) ∧ ends .sum l) ∧
    (∀ src : Part → List Byte, (∀ m ∈ ms, has m 2 (8 * n) (src m)) →
      ∃ best, Ranked (f 16 12 + 1) (ms.flatMap (fun m => (List.range n).map (fun i =>
          (BitVec.ofNat 32 (numberAt (src m) (8 * i) 4), BitVec.ofNat 32 (numberAt (src m) (8 * i + 4) 4))))) best ∧
        (let out := words ((List.range (f 16 12 + 1)).map (fun i => match best[i]? with
           | some e => BitVec.ofNat 64 (e.2.toNat * 2 ^ 32 + e.1.toNat)
           | none => 0xFFFFFFFF7FC00000))
         let l := ms.flatMap (fun m => writes m 3 (2 * m.place) (w m 3) 0 out)
         (lacks 3 0 → wants .topk l) ∧ ends .topk l)) ∧
    (∀ (root : Part) (src : List Byte), ms.find? (fun m => m.rank == (c.block.getD 1 0).toNat / 2 ^ 48) = some root →
      has root 2 n src →
      let l := each (fun i => ms.flatMap (fun m => writes m 3 (2 * m.place) (w m 3) (8 * i) ((src.drop (8 * i)).take 8)))
      (lacks 3 0 → wants .bcast l) ∧ ends .bcast l) ∧
    (∀ (root : Part) (src : Part → List Byte),
      ms.find? (fun m => m.rank == (c.block.getD 1 0).toNat / 2 ^ 48) = some root → (∀ m ∈ ms, has m 2 n (src m)) →
      let l := ms.flatMap (fun m => each (fun i =>
        writes root 3 (2 * root.place) (w root 3) (m.rank * n + 8 * i) (((src m).drop (8 * i)).take 8)))
      (lacks 3 0 → wants .gather l) ∧ ends .gather l)) ∧
  (∀ (s : State) (grp tag die : Nat), s.collAt die grp tag = none → Does (.collExecute grp tag die) s s) ∧
  (∀ (s : State) (die : Nat) (grp : BitVec 8) (c : EngineCmd),
    let d := { s.die die with gabort := grp }
    ((∀ e ∈ (s.die die).coll, collGrp e.block ≠ grp.toNat) → Does (.gabort die grp) s (s.setDie die d)) ∧
    ((s.die die).coll = [c] → collGrp c.block = grp.toNat → s.collStarted die c = false →
      Answers (.gabort die grp) s (fun t => t.due = s.due ++ [completionOf c 0x20000000F] ∧
        t.die die = { d with coll := [] } ∧ (t.core c.core).oac = (s.core c.core).oac + 1 ∧ t.mem = s.mem))) ∧
  (∀ (s : State) (c : Completion) (q off : Nat), c.comp = .ls q off → (s.core q).gone = none → (s.core q).bank = [] →
    Answers (.engineCompletion c) s (fun t =>
      (∀ p, (t.core p).oac = if p = c.core then (s.core p).oac - 1 else (s.core p).oac) ∧
      t = { s.withMemory t with cores := t.cores } ∧
      BitAt s t (localKey q off) true ∧ StoredAt s t (localKey q off) (wordBytes c.status)))

/-! ## Requests at their homes, and their answers -/

/-- R40, R145, R150, R159, R161 to R164, R166, R169, R170, R172, R337, R338: a request performs at a word of a local store in one
step, which takes its banks, and is answered: a load or store of every width, a full/empty access, an atomic, a reduction, a
tag-guarded store, and a `dec` or `cancel` of the record there; a synchronising one that finds the wrong state fails with nothing changed; a store whose context is
saved refuses, and one whose context moved keeps the request for the new core. R225, R278: an engine's access reads or writes
its bytes, and its answer is kept with the command's work. -/
def Obligations.RequestsAtHome : Prop :=
  ∀ (s : State) (r : Request) (q off : Nat), r.home = .ls q off →
    let k := localKey q off
    let u := s.useBanks q 2 off (opBytes r.op)
    let mem (op : AccOp) (reply : Instr) (fill : Bool) (bytes : List Byte) : Prop :=
      r.op = op → Answers (.homePerform r) s (fun t => t = { u.withMemory t with due := s.due ++ [reply] } ∧
        BitAt s t k fill ∧ StoredAt s t k bytes)
    let here := (s.core q).gone = none ∧ (s.core q).bank = [] ∧ off ≠ acwOffset
    let w (i : Nat) : Word := s.word (recordKey q off i)
    let e := decide (r.op = .cancel) || (w 0).getLsbD 38
    let new : Word := BitVec.ofNat 64 ((w 0).toNat / 2 ^ 32 * 2 ^ 32 + ((w 0).toNat + 2 ^ 32 - 1) % 2 ^ 32) ||| (if e then BitVec.ofNat 64 (2 ^ 38) else 0)
    let last := (w 0).toNat % 2 ^ 32 = 1
    let goes := (w 0).getLsbD 39 = true
    (here → s.readsAt r k (fun op reply => mem op reply (s.full k) []) ∧ s.writesTo r k mem) ∧
    (here → (r.op = .dec ∨ r.op = .cancel) → r.cls = .plain → off % 8 = 0 → off < 2 ^ 17 →
      (s.slot r.core r.slot).owed = none →
      let posts (t : State) (e : Instr) : Prop := t.due = s.due ++ [e] ∧
        SlotIs { u.withMemory t with due := t.due } t r.core r.slot (s.slot r.core r.slot)
      ((s.core q).pushes.any (·.cause.isSome) = true ∨ last ∧ goes ∧ e = false ∧
          64 + (s.core q).dsn.toNat ≤ (s.core q).deque.length →
        Does (.homePerform r) s (u.setCore q { u.core q with
          pushes := (s.core q).pushes ++ [{ entry := entryOf 0 0 0 0 0 r.hq, cause := some r }] })) ∧
      ((s.core q).pushes.any (·.cause.isSome) = false →
        (¬ last → Answers (.homePerform r) s (fun t => posts t (.remoteReply r 0) ∧ t.fe = s.fe ∧
          StoredAt s t (recordKey q off 0) (wordBytes new))) ∧
        (last → ¬ goes ∨ e = true ∧ (w 1).getLsbD 63 = false → Answers (.homePerform r) s (fun t => posts t (.remoteReply r 0) ∧
          BitAt s t (recordKey q off 6) true ∧ t.word (recordKey q off 0) = new ∧
          t.word (recordKey q off 6) = if e then 0x10 else 0)) ∧
        (last → goes → e = false → (s.core q).deque.length < 64 + (s.core q).dsn.toNat →
          (s.core q).deque.length < (s.core q).spilled + 64 → (s.hw r.hq).st ≠ .frozen →
          Answers (.homePerform r) s (fun t => t.due = s.due ++ [.remoteReply r 0] ∧
            (t.core q).deque = (s.core q).deque ++ [
              { hasRec := (w 1).getLsbD 63, rw := BitVec.ofNat 14 ((w 1).toNat / 2 ^ 48), pc := BitVec.ofNat 48 (w 1).toNat,
                a0 := w 2, a1 := w 3, a2 := w 4, rc := BitVec.ofNat 13 (w 5).toNat, hq := r.hq }] ∧
            t.word (recordKey q off 6) = 0 ∧ t.full (recordKey q off 6) = true)) ∧
        (last → goes → e = true → (w 1).getLsbD 63 = true → Answers (.homePerform r) s (fun t =>
          posts t (.cancelPropagation ((w 5).toNat % 2 ^ 13) ((w 1).toNat / 2 ^ 48 % 2 ^ 14 * 8) r.hq (some r)) ∧
          t.fe = s.fe ∧ StoredAt s t (recordKey q off 0) (wordBytes new))))) ∧
    ((s.core q).gone = none → s.wrongState r k → (s.slot r.core r.slot).wait = .reply r →
      let again : Request := { r with attempts := r.attempts + 1 }
      Answers (.homePerform r) s (fun t =>
        t.due = s.due ++ [if (s.slot r.core r.slot).fel.toNat < r.attempts + 1 then .feRetryLimit again else .feRetry again] ∧
        SlotIs ({ u.setCore r.core { u.core r.core with oac := (s.core r.core).oac - 1 } with due := t.due }) t r.core r.slot
          { s.slot r.core r.slot with
            out := (s.slot r.core r.slot).out.filter (fun o => decide (o.seq ≠ r.seq)), wait := .retry again })) ∧
    (∀ g key, here → s.runs.any (fun e => e.1 == .stack g) = true → (s.klu g) = [] →
      let answered (op : AccOp) (got bytes : List Byte) : Prop := r.op = op → Answers (.homePerform r) s (fun t =>
        t.run (.stack g) = { s.run (.stack g) with
          out := (s.run (.stack g)).out.erase key, got := (s.run (.stack g)).got ++ [(key, got)] } ∧
        (∀ p, (t.core p).oac = if p = r.core then (s.core p).oac - 1 else (s.core p).oac) ∧
        t = { s.withMemory t with cores := t.cores, runs := t.runs } ∧ t.fe = s.fe ∧ StoredAt s t k bytes)
      (∀ n, answered (.agentRead (.stack g) key n) (Memory.bytes s.mem k n) []) ∧
      ∀ bytes, answered (.agentWrite (.stack g) key bytes) [] bytes) ∧
    ((s.core q).gone = some none → Does (.homePerform r) s { s with due := s.due ++ [.savedStoreRefusal r] }) ∧
    (∀ d, (s.core q).gone = some (some d) → Does (.homePerform r) s
      { s.setCore q { s.core q with forwards := (s.core q).forwards ++ [.homePerform r] } with
        due := s.due ++ [.forwardReinject q 0] })

/-- R159, R162, R163, R166, R169, R170, R172, R281, R332, R333, R365, R366, R368, R397: a slice refuses a request for a frame
that is not there; a request that it serves performs at its word in one step and is answered, as at a local store (loads and
stores of every width, relaxed ones too, full/empty accesses, atomics, reductions and tag-guarded stores), and one that finds
the wrong state fails there; it serves one request a cycle, of the lowest class that has one and budget left, else of the lowest waiting class that may borrow; it charges it to
its class, counts it for its frame and takes a written sector into its buffer, where no system core's reservation of it stands
any longer; what it does not serve waits, and a class with
as many waiting requests as its queue limit raises back-pressure. R162, R364, R365, R369, R370, R393, R397: when a slice refuses
an access: 0x05 for a frame that does not exist or is not valid, 0x06 for erased keys, and for a read of a failed sector. -/
def Obligations.RequestsAtSlices : Prop :=
  (∀ (s : State) (r : Request) (pa : Nat), r.home = .dev pa → r.cls ≠ .engine → accessOp r.op = true →
    let i := pa / 2 ^ 34
    let x := s.slice i
    let c := (s.hw r.hq).cls.toNat
    let reg (k : Nat) : ClassReg := Sparse.get ClassReg.reset x.classes k
    let frame := pa / 2 ^ 16 % 2 ^ 18
    let readLeft (k : Nat) : Prop := Sparse.get 0 x.readUsed k < (reg k).rb.toNat
    let writeLeft (k : Nat) : Prop := Sparse.get 0 x.writeUsed k < (reg k).wb.toNat
    let quiet := x.refillAt ≠ 0 ∧ s.sliceCycle i < x.refillAt ∧ x.epochAt ≠ 0
    let free := (s.die (i / 64)).running = false ∨ x.served ≤ s.sliceCycle i
    let refused := if opReads r.op then s.readRefuses pa else s.sliceRefuses pa
    let counted (y : Slice) : Prop := ∀ k, Sparse.get 0 y.counts k =
      if k = frame ∧ x.tierEn then Sparse.get 0 x.counts k + 1 else Sparse.get 0 x.counts k
    let loaded (rest : List (Nat × Request)) (reply : Instr) (t : State) : Prop :=
      t = { s.setSlice i (t.slice i) with due := s.due ++ [reply] } ∧ counted (t.slice i) ∧
      (∀ k, Sparse.get 0 (t.slice i).readUsed k = Sparse.get 0 x.readUsed k + if k = c then 1 else 0) ∧
      t.slice i = { x with readUsed := (t.slice i).readUsed, counts := (t.slice i).counts, waiting := rest,
                           pressure := (t.slice i).pressure, served := s.sliceCycle i + 1 }
    let written (t : State) : Prop := counted (t.slice i) ∧
      (∀ k, Sparse.get 0 (t.slice i).writeUsed k = Sparse.get 0 x.writeUsed k + if k = c then 1 else 0) ∧
      t.slice i = { x with
        writeUsed := (t.slice i).writeUsed, counts := (t.slice i).counts, served := s.sliceCycle i + 1,
        buffer := if pa / 64 ∈ x.buffer then x.buffer else x.buffer ++ [pa / 64]
        reserved := x.reserved.filter (fun e => e.2 != pa / 64) }
    let flush : List Instr := if x.buffer = [] then [.writeBufferFlush i] else []
    let first := r.cls = .relaxed → s.behindOwn r = false
    (∀ cause, refused = some cause → s.atSlice r = false →
      Does (.homePerform r) s { s with due := s.due ++ [.refusal r cause] }) ∧
    (refused = none → quiet → free → first → x.waiting = [] → (readLeft c ∨ (reg c).wc = true) →
      s.readsAt r pa (fun op reply => r.op = op →
        Answers (.homePerform r) s (fun t => loaded [] reply t ∧ (t.slice i).pressure = x.pressure))) ∧
    (∀ before after, refused = none → quiet → free → first → x.waiting = before ++ (c, r) :: after →
      (∀ e ∈ before, e.1 ≠ c ∧ e.2 ≠ r) → readLeft c → (∀ e ∈ x.waiting, e.1 < c → ¬ readLeft e.1 ∧ ¬ writeLeft e.1) →
      s.readsAt r pa (fun op reply => r.op = op → Answers (.homePerform r) s (loaded (before ++ after) reply))) ∧
    (refused = none → quiet → free → first → x.waiting = [] → (writeLeft c ∨ (reg c).wc = true) → x.buffer.length < 128 →
      s.writesTo r pa (fun op reply fill bytes => r.op = op → Answers (.homePerform r) s (fun t =>
        t = { (s.withMemory t).setSlice i (t.slice i) with due := s.due ++ flush ++ [reply] } ∧
        BitAt s t pa fill ∧ StoredAt s t pa bytes ∧ written t))) ∧
    (refused = none → quiet → free → first → x.waiting = [] → s.wrongState r pa →
      ((if opWrites r.op then writeLeft c ∧ x.buffer.length < 128 else readLeft c) ∨
        (reg c).wc = true ∧ (opWrites r.op = true → x.buffer.length < 128)) → Answers (.homePerform r) s (fun t =>
        let again : Request := { r with attempts := r.attempts + 1 }
        t.due = s.due ++ (if opWrites r.op then flush else []) ++
          [if (s.slot r.core r.slot).fel.toNat < r.attempts + 1 then .feRetryLimit again else .feRetry again] ∧
        t.mem = s.mem ∧ t.fe = s.fe ∧ (opWrites r.op = true → written t))) ∧
    (refused = none → quiet → s.atSlice r = false →
      (¬ free ∨ x.waiting = [] ∧ (if opWrites r.op then ¬ writeLeft c else ¬ readLeft c) ∧ (reg c).wc = false ∨
        opWrites r.op = true ∧ 128 ≤ x.buffer.length) →
      let waiting := x.waiting ++ [(c, r)]
      let held (k : Nat) : Nat := (waiting.filter (fun e => e.1 = k)).length
      Answers (.homePerform r) s (fun t =>
        t = { s.setSlice i { x with waiting := waiting, pressure := (t.slice i).pressure } with
          due := s.due ++ [.homePerform r] } ∧
        ∀ k < 4, (t.slice i).pressure.getLsbD k = decide (0 < held k ∧ (reg k).ql.toNat ≤ held k)))) ∧
  (∀ (s : State) (pa : Nat),
    let x := s.slice (pa / 2 ^ 34)
    let frame := pa / 2 ^ 16 % 2 ^ 18
    let valid := pa < 2 ^ 43 ∧ frame < 229376 ∧ (Sparse.get Indirection.reset x.ind frame).v = true
    (¬ valid → s.sliceRefuses pa = some 0x05 ∧ s.readRefuses pa = some 0x05) ∧
    (valid → s.hub.keysErased = true → s.sliceRefuses pa = some 0x06 ∧ s.readRefuses pa = some 0x06) ∧
    (valid → s.hub.keysErased = false →
      s.sliceRefuses pa = none ∧ s.readRefuses pa = if pa / 64 ∈ x.failed then some 0x06 else none))

/-- R34, R45, R49, R50, R164, R200: an answer returns: the core's accounts, the register of a load, and the thread goes
on. R47, R49, R162, R168, R240, R241, R338: a refusal traps a plain or synchronising access at its own instruction and
comes late to a relaxed one; a failed attempt is sent again with its unit, and the limit traps 0x07, or joins the record of a
thread that a freeze has trapped meanwhile (R341). -/
def Obligations.AnswersAndRefusals : Prop :=
  (∀ (s : State) (r : Request) (v : Word),
    let t0 := s.slot r.core r.slot
    let u := s.repaid r
    let out := t0.out.filter (fun o => decide (o.seq ≠ r.seq))
    let sent := (∃ o ∈ t0.out, o.seq = r.seq) ∧ t0.st = .active ∧ ∀ n d, (s.slot r.core 0).wait ≠ .reap n d
    let wake := Max.max t0.wakeAt (s.cycle r.core + 1)
    (sent → t0.wait = .reply r →
      (r.op = .ldf ∨ r.op = .lde ∨ r.op = .fes ∨ (∃ f, r.op = .atomic f) ∨ (∃ l e, r.op = .load l e) →
        Answers (.remoteReply r v) s (fun t => WroteAt u t r.core r.slot r.dst v
          { t0 with out := out, z0 := v, z1 := t0.z0, wait := .none, wakeAt := wake })) ∧
      (r.op = .stf ∨ r.op = .stn ∨ r.op = .clre ∨ r.op = .stg ∨ r.op = .dec ∨ r.op = .cancel ∨ (∃ l, r.op = .store l) →
        Answers (.remoteReply r v) s (fun t => SlotIs u t r.core r.slot
          { t0 with out := out, wait := .none, wakeAt := wake }))) ∧
    (∀ next j, t0.wait = .tileStore next j → j.sectors.length = 1 → (∀ o ∈ t0.out, o.seq ≠ r.seq) → t0.st = .active →
      Answers (.remoteReply r v) s (fun t => SlotIs s t r.core r.slot
        { t0 with srs := j.srs, nflag := t0.nflag ||| j.flags, pc := next, wait := .none, wakeAt := wake })) ∧
    (∀ next j first h bytes rest, t0.wait = .tileStore next j → j.sectors = first :: (h, bytes) :: rest →
      homeOwn h r.core = true → (∀ o ∈ t0.out, o.seq ≠ r.seq) → t0.st = .active →
      Answers (.remoteReply r v) s (fun t => ∃ q : Request, t.due = s.due ++ [.homePerform q] ∧ q.op = .sector bytes ∧
        q.home = h ∧ q.unit = false ∧ SlotIs { s with due := t.due } t r.core r.slot { t0 with
          wait := .tileStore next { j with sectors := (h, bytes) :: rest, since := none, out := none } })) ∧
    (sent → t0.wait = .none →
      ((∃ e ∈ t0.pending, e.1 = r.seq) → Answers (.relaxedLoadReply r v) s (fun t =>
        WroteAt u t r.core r.slot r.dst v
          { t0 with out := out, pending := t0.pending.filter (fun e => decide (e.1 ≠ r.seq)) })) ∧
      Does (.writeAck r) s u)) ∧
  (∀ (s : State) (r : Request) (cause : BitVec 8),
    let t0 := s.slot r.core r.slot
    let u := s.repaid r
    let sent := (∃ o ∈ t0.out, o.seq = r.seq) ∧ t0.st = .active ∧ ∀ n d, (s.slot r.core 0).wait ≠ .reap n d
    let c := s.core r.core
    let released : State := if r.unit then s.setCore r.core (if c.allowanceParked then { c with saHeld := c.saHeld + 1 }
      else { c with sa := c.sa + 1 }) else s
    (sent → r.cls ≠ .relaxed → t0.wait = .reply r →
      Answers (.refusal r cause) s (fun t => Trapped u t r.core r.slot cause 1 r.pc r.pc r.va)) ∧
    (sent → r.cls = .relaxed → t0.wait = .none → Answers (.refusal r cause) s (fun t =>
      SlotIs u t r.core r.slot { u.slot r.core r.slot with
        late := t0.late ++ [{ cause := 0x09, seq := r.seq, addr := r.va, pc := r.pc, tile := 0 }] })) ∧
    (r.cls ≠ .engine → (r.op = .ldf ∨ r.op = .stf ∨ (∃ l, r.op = .store l) ∨ (∃ l e, r.op = .load l e)) →
      Does (.savedStoreRefusal r) s { s with due := s.due ++ [.refusal r 0x05] }) ∧
    (t0.wait = .retry r → Answers (.feRetry r) s (fun t =>
      let again : Request := { r with seq := t0.seq, sent := s.cycle r.core }
      t.due = s.due ++ [arrivalOf again] ∧
      SlotIs { s.setCore r.core { c with oac := c.oac + 1 } with due := t.due } t r.core r.slot { t0 with
        seq := t0.seq + 1, out := t0.out ++ [{ seq := t0.seq, relaxed := r.cls == .relaxed, home := r.home, kind := .access }],
        wait := .reply again })) ∧
    (t0.wait ≠ .retry r → Does (.feRetry r) s released) ∧
    (t0.wait = .retry r → (∀ b, t0.st ≠ .trapped b) →
      Answers (.feRetryLimit r) s (fun t => Trapped released t r.core r.slot 0x07 0 r.pc r.pc r.va)) ∧
    (t0.wait = .retry r → t0.st = .trapped false → Answers (.feRetryLimit r) s (fun t => SlotIs released t r.core r.slot
      { t0 with wait := .none, record := t0.record.map (fun x =>
          { x with late := true, joined := if x.joined = 0 then 0x07 else x.joined }) })) ∧
    (t0.wait ≠ .retry r → Does (.feRetryLimit r) s released))

/-- R49, R182, R333: units held back are granted to the parked slots, the lowest first, and are free again with none parked; a
park that has lasted s.swl cycles traps 0x08 at the operation, with nothing sent, and so does one whose request the network
interface holds back for that long: its unit returns. -/
def Obligations.StoreAllowance : Prop :=
  (∀ (s : State) (p : Nat), (s.core p).allowanceParked = false → (∀ n < 16, (s.slot p n).onAllowance = false) →
    Does (.allowanceGrant p) s (s.setCore p { s.core p with
      sa := (s.core p).sa + BitVec.ofNat 7 (s.core p).saHeld, saHeld := 0 })) ∧
  (∀ (s : State) (p n since : Nat) (next : Word) (r : Request), (s.slot p n).wait = .allowance since next r →
    r.core = p → r.slot = n →
    (n < 16 → (∀ m < n, (s.slot p m).onAllowance = false) → (s.core p).saHeld = 1 → r.cls ≠ .relaxed →
      (s.slot p n).relaxedOut = [] → Answers (.allowanceGrant p) s (fun t =>
        let sent : Request := { r with seq := (s.slot p n).seq, sent := s.cycle p }
        t.due = s.due ++ [arrivalOf sent] ∧ (t.core p).saHeld = 0 ∧ (t.core p).sa = (s.core p).sa ∧
        (t.core p).oac = (s.core p).oac + 1 ∧ t.mem = s.mem ∧
        t.slot p n = { s.awakeAt p n with
          pc := next, wait := .reply sent, seq := (s.slot p n).seq + 1,
          out := (s.slot p n).out ++ [{ seq := (s.slot p n).seq, relaxed := false, home := r.home, kind := .access }] } ∧
        ∀ m, m ≠ n → t.slot p m = s.slot p m)) ∧
    (s.cycle p < since + (s.core p).swl.toNat → Does (.storeWaitLimit p n) s s) ∧
    (since + (s.core p).swl.toNat ≤ s.cycle p → (∀ b, (s.slot p n).st ≠ .trapped b) →
      Answers (.storeWaitLimit p n) s (fun t => Trapped s t p n 0x08 0 r.pc r.pc r.va))) ∧
  (∀ (s : State) (p n : Nat) (r : Request), (s.slot p n).wait = .reply r → r.unit = true → s.heldRequest r = true →
    r.core = p → r.slot = n →
    (s.cycle p < r.sent + 3 + (s.core p).swl.toNat → Does (.storeWaitLimit p n) s s) ∧
    (r.sent + 3 + (s.core p).swl.toNat ≤ s.cycle p → (∀ b, (s.slot p n).st ≠ .trapped b) →
      (∃ o ∈ (s.slot p n).out, o.seq = r.seq) → Answers (.storeWaitLimit p n) s (fun t =>
        Trapped ({ s with due := s.due.erase (.homePerform r) }.repaid r) t p n 0x08 0 r.pc r.pc r.va)))

/-- R104, R105, R332, R359, R362: a line is asked for in the class of its thread's queue, arrives in the cache and its threads
may issue again, or its refusal traps them. R260, R263, R359, R362: the walker at the head of a core's list reads one entry a
step, begins again after a drop of its page (R363), and ends: its entry goes first in the buffer of 64 and the instruction that
waited goes on in this cycle, or the thread that waits for the page traps. R357 to R361: what an entry of each level leads to: a
table, a leaf of 64 KiB or 32 MiB, its kind and its permissions; and the entry of a far window. R321: a walk of the HQS, which
has no buffer, makes the same reads one after another, in the class of its queue. R50: a line fill counts in s.oac. -/
def Obligations.LinesAndWalks : Prop :=
  (∀ (s : State) (p : Nat) (hq : BitVec 6) (line : Word),
    let c := s.core p
    let a : Agent := .line p hq line
    let waits (n : Nat) : Prop := (s.slot p n).wait = .line line ∧ (s.slot p n).hq = hq
    let u := s.setCore p { c with fills := c.fills.erase (hq, line) }
    let alone (n : Nat) : Prop := n < 16 ∧ waits n ∧ ∀ m < 16, m ≠ n → ¬ waits m
    ((hq, line) ∉ c.fills → Does (.icacheLineFill p hq line) s s) ∧
    (∀ h, (hq, line) ∈ c.fills → s.translate p hq .fetch line = .home h → (∀ k, h ≠ .host k) →
      Answers (.icacheLineFill p hq line) s (fun t => ∃ r : Request, t.due = s.due ++ [.homePerform r] ∧
        r.op = .agentRead a { tag := 0, idx := 0, off := 0 } 64 ∧ r.home = h ∧ r.core = p ∧ r.hq = hq ∧ r.cls = .engine ∧
        t = { (s.touch p hq line).setCore p { (s.touch p hq line).core p with oac := c.oac + 1 } with due := t.due })) ∧
    (∀ k, (hq, line) ∈ c.fills → s.translate p hq .fetch line = .miss k → (a, k) ∉ c.noPage →
      Does (.icacheLineFill p hq line) s (s.askWalk p k hq (.agent a))) ∧
    (∀ n cause, (hq, line) ∈ c.fills → alone n → s.translate p hq .fetch line = .fault cause →
      Answers (.icacheLineFill p hq line) s (fun t =>
        Trapped u t p n cause 2 (s.slot p n).pc (s.slot p n).pc (s.slot p n).pc)) ∧
    (∀ (r : Request) (pa : Nat) (key : AccKey), r.op = .agentRead a key 64 → r.home = .dev pa → r.core = p →
      (s.readRefuses pa = none → s.mayServe r pa = true → Answers (.homePerform r) s (fun t =>
        t = { s with cores := t.cores, slices := t.slices, due := t.due } ∧ (∀ q, q ≠ p → t.core q = s.core q) ∧
        t.core p = { c with
          slots := (t.core p).slots, fills := c.fills.erase (hq, line), oac := c.oac - 1,
          icache := ((lineKey hq line, Memory.bytes s.mem pa 64) ::
            c.icache.filter (fun e => decide (e.1 ≠ lineKey hq line))).take 256 } ∧
        ∀ n < 16, (waits n → t.slot p n = { s.slot p n with
            wakeAt := Max.max (s.slot p n).wakeAt (s.cycle p + 1) }) ∧ (¬ waits n → t.slot p n = s.slot p n))) ∧
      (∀ n cause, s.readRefuses pa = some cause → s.atSlice r = false → alone n → Answers (.homePerform r) s (fun t =>
        Trapped (s.setCore p { c with fills := c.fills.erase (hq, line), oac := c.oac - 1 }) t p n cause 2 (s.slot p n).pc (s.slot p n).pc (s.slot p n).pc)))) ∧
  (∀ (s : State) (p : Nat) (k : PageKey) (w : Walk) (l : List Walk),
    let c := s.core p
    let list (l : List Walk) : State := s.setCore p { c with walks := l }
    let asks (level at_ : Nat) : Prop := Answers (.translationWalk p k) s (fun t => ∃ r : Request,
      r.op = .agentRead (.walker p) { tag := level, idx := 0, off := 0 } 8 ∧ r.home = .dev at_ ∧ r.hq = w.hq ∧ r.core = p ∧
      r.cls = .engine ∧
      t = { list ({ w with level := level, at_ := at_, entry := none } :: l) with due := s.due ++ [.homePerform r] })
    let waiter (n : Nat) (wait : Wait) : Prop := l = [] ∧ w.for_ = [.thread n] ∧ (s.slot p n).wait = wait
    (c.walks = [] ∨ c.walks = w :: l ∧ w.key ≠ k → Does (.translationWalk p k) s s) ∧
    (c.walks = w :: l → w.key = k →
      (w.entry = none → w.level = 3 → (∀ e ∈ c.tlb, tlbServes e k = false) → asks (walkTop k) (s.walkRoot k)) ∧
      (w.entry = none → w.level ≠ 3 → Does (.translationWalk p k) s s) ∧
      (∀ e, w.entry = some e →
        (w.again = true → Does (.translationWalk p k) s
          { list ({ w with again := false, level := 3, entry := none } :: l) with due := s.due ++ [.translationWalk p k] }) ∧
        (w.again = false →
          (∀ a, walkStep k w.level e = .table a → asks (w.level - 1) a) ∧
          (∀ b n cause detail addr i next, walkStep k w.level e = .leaf b → tlbServes b k = true →
            (∀ x ∈ c.tlb, tlbServes x k = false) → waiter n (.pageWalk k cause detail addr (some i) next) →
            Answers (.translationWalk p k) s (fun t =>
              t.walked = s.walked ++ [{
                core := p, slot := n, pc := (s.slot p n).pc, next := next, instr := some i
                again := some { since := none, views := none } }] ∧
              SlotIs { s.setCore p { c with walks := [], tlb := (b :: c.tlb).take 64 } with walked := t.walked } t p n
                { s.slot p n with wait := .none })) ∧
          (∀ b n, walkStep k w.level e = .leaf b → tlbServes b k = true → (∀ x ∈ c.tlb, tlbServes x k = false) →
            waiter n (.fetchWalk k) → Answers (.translationWalk p k) s (fun t =>
              SlotIs (s.setCore p { c with walks := [], tlb := (b :: c.tlb).take 64 }) t p n
                { s.slot p n with wakeAt := Max.max (s.slot p n).wakeAt (s.cycle p + 1) })) ∧
          (∀ n cause detail addr i next, walkStep k w.level e = .fault → waiter n (.pageWalk k cause detail addr i next) →
            Answers (.translationWalk p k) s (fun t =>
              Trapped (list []) t p n cause detail (s.slot p n).pc (s.slot p n).pc addr)) ∧
          (∀ n, walkStep k w.level e = .fault → waiter n (.fetchWalk k) → Answers (.translationWalk p k) s (fun t =>
            Trapped (list []) t p n 0x05 2 (s.slot p n).pc (s.slot p n).pc (s.slot p n).pc)))) ∧
      (∀ (r : Request) (pa : Nat) (key : AccKey), r.op = .agentRead (.walker p) key 8 → r.home = .dev pa →
        (s.readRefuses pa = none → s.mayServe r pa = true → Answers (.homePerform r) s (fun t =>
          (t.core p).walks = { w with entry := some (s.word pa) } :: l ∧ .translationWalk p k ∈ t.due ∧ t.mem = s.mem)) ∧
        (∀ cause, s.readRefuses pa = some cause → s.atSlice r = false → Does (.homePerform r) s
          { list ({ w with entry := some 0 } :: l) with due := s.due ++ [.translationWalk p k] })))) ∧
  (∀ (s : State) (q hq : BitVec 6) (vpn tag idx : Nat) (r : Run), vpn < 2 ^ 31 →
    let bits (e : Word) (hi lo : Nat) : Nat := e.toNat / 2 ^ lo % 2 ^ (hi - lo + 1)
    let address (e : Word) : Nat := e.toNat % 2 ^ 48 / 2 ^ 12 * 2 ^ 12
    let clear (e : Word) : Prop := bits e 56 56 = 0 ∧ bits e 11 0 = 0
    let table (e : Word) (align : Nat) : Prop := bits e 63 63 = 1 ∧ bits e 62 60 = 0 ∧ bits e 55 48 = 0 ∧ clear e ∧
      address e % align = 0 ∧ address e < 2 ^ 43 ∧ address e / 2 ^ 16 % 2 ^ 18 < 229376
    let entry (e : Word) (big : Bool) (m : Mapping) : TlbEntry :=
      { key := .dev hq vpn, big := big, map := m, r := decide (bits e 59 59 = 1), w := decide (bits e 58 58 = 1),
        x := decide (bits e 57 57 = 1) }
    let leaf (e : Word) (size : Nat) (m : Mapping) : Prop := bits e 63 63 = 1 ∧ clear e ∧
      (address e % size = 0 ∧ bits e 62 60 = 1 ∧ bits e 55 48 = 0 ∧ frameExists (address e) = true ∧ m = .dev (address e) ∨
       size = 2 ^ 16 ∧ bits e 62 60 = 2 ∧ bits e 55 48 = 0 ∧ bits e 47 42 = 0 ∧ bits e 28 17 = 0 ∧
         m = .frame (bits e 41 29) (bits e 16 12) ∨
       address e % size = 0 ∧ bits e 62 60 = 3 ∧ frameExists (address e) = true ∧ m = .remote (bits e 55 48) (address e) ∨
       address e % size = 0 ∧ bits e 62 60 = 4 ∧ bits e 55 48 = 0 ∧ m = .host (address e))
    let at1 (e : Word) : Nat := address e + 8 * (vpn / 2 ^ 9 % 2 ^ 11)
    let at0 (e : Word) : Nat := address e + 8 * (vpn % 2 ^ 9)
    let k : PageKey := .dev hq vpn
    let key (l : Nat) : AccKey := { tag := tag, idx := idx, off := l }
    let has (l : Nat) (e : Word) : Prop := ∃ x, r.got.find? (fun y => y.1 == key l) = some x ∧ BitVec.ofNat 64 (leNat x.2) = e
    let lacks (l : Nat) : Prop := ∀ y ∈ r.got, y.1 ≠ key l
    let work := (walkWork q tag idx k (walkTop k) (s.walkRoot k)).result r
    let asks (l pa : Nat) : Prop := work = (.error .wait, [{ key := key l, core := 0, hq := q, va := 0, n := 8, write := none,
                                                             remote := none, home := some (.dev pa) }])
    let fails : Prop := work = (.error (.fail 0x05 tag), [])
    (walkTop k = 2 ∧ s.walkRoot k = (s.hw hq).ptb.toNat + 8 * (vpn / 2 ^ 20)) ∧
    (∀ e, (table e (2 ^ 14) → walkStep k 2 e = .table (at1 e)) ∧ (¬ table e (2 ^ 14) → walkStep k 2 e = .fault) ∧
      (∀ m, leaf e (2 ^ 25) m → walkStep k 1 e = .leaf (entry e true m)) ∧
      (table e (2 ^ 12) → walkStep k 1 e = .table (at0 e)) ∧
      ((∀ m, ¬ leaf e (2 ^ 25) m) → ¬ table e (2 ^ 12) → walkStep k 1 e = .fault) ∧
      (∀ m, leaf e (2 ^ 16) m → walkStep k 0 e = .leaf (entry e false m)) ∧
      ((∀ m, ¬ leaf e (2 ^ 16) m) → walkStep k 0 e = .fault)) ∧
    (lacks 2 → asks 2 (s.walkRoot k)) ∧
    (∀ e2, has 2 e2 → (¬ table e2 (2 ^ 14) → fails) ∧
      (table e2 (2 ^ 14) → (lacks 1 → asks 1 (at1 e2)) ∧
        (∀ e1, has 1 e1 → (∀ m, leaf e1 (2 ^ 25) m → work = (.ok (entry e1 true m), [])) ∧
          (table e1 (2 ^ 12) → (lacks 0 → asks 0 (at0 e1)) ∧
            (∀ e0, has 0 e0 → (∀ m, leaf e0 (2 ^ 16) m → work = (.ok (entry e0 false m), [])) ∧
              (bits e0 63 63 = 0 → fails))))))) ∧
  (∀ (s : State) (l half : Nat) (e : Word) (q : BitVec 6) (tag idx : Nat) (r : Run),
    let root := s.hub.fwtb.toNat / 2 ^ 17 * 2 ^ 17 + 8 * (2 * l + half)
    let key : AccKey := { tag := tag, idx := idx, off := 0 }
    let work := (walkWork q tag idx (.far l half) (walkTop (.far l half)) (s.walkRoot (.far l half))).result r
    let store : TlbEntry :=
      { key := .far l half, big := false, map := .store (e.toNat % 2 ^ 13) half, r := decide (e.toNat / 2 ^ 59 % 2 = 1),
        w := decide (e.toNat / 2 ^ 58 % 2 = 1), x := false }
    let valid := e.toNat / 2 ^ 63 = 1 ∧ e.toNat / 2 ^ 60 % 8 = 0 ∧ e.toNat / 2 ^ 13 % 2 ^ 45 = 0
    walkTop (.far l half) = 0 ∧ s.walkRoot (.far l half) = root ∧
    (¬ valid → walkStep (.far l half) 0 e = .fault) ∧ (valid → walkStep (.far l half) 0 e = .leaf store) ∧
    ((∀ y ∈ r.got, y.1 ≠ key) → work = (.error .wait, [{ key := key, core := 0, hq := q, va := 0, n := 8, write := none,
                                                         remote := none, home := some (.dev root) }])) ∧
    (∀ x, r.got.find? (fun y => y.1 == key) = some x → BitVec.ofNat 64 (leNat x.2) = e →
      work = (if valid then .ok store else .error (.fail 0x05 tag), [])))

/-! ## Deques, steals and records seen from outside the thread -/

/-- R143 to R146, R152, R153, R335, R338: a steal takes the topmost entry of its queue, a spilled one from the spill area by a
read in the class of its queue, and answers with it, or answers none; the reply latches it, and the task of a frozen queue is
cancelled on its way; a waiting push is made when an entry is free, a continuation before a launch entry; the 65th hardware
entry is written out; a spilled entry is asked for again. The places of the spill area, the one entry at a time, a refused read
of it and a reply that slot 0 no longer waits for are the model's choices (log 39). -/
def Obligations.StealsAndPushes : Prop :=
  (∀ (s : State) (p v : Nat) (hq : BitVec 6),
    let q := s.storeAt (s.physical v)
    let c := s.core q
    let answers (e : Option TaskEntry) : State := { s with due := s.due ++ [.stealReply p e] }
    let image (k : Nat) : TaskEntry :=
      let w (j : Nat) : Nat := (s.word (c.dsb.toNat / 64 * 64 + 64 * k + 8 * j)).toNat
      { hasRec := decide (w 0 / 2 ^ 63 = 1), rw := BitVec.ofNat 14 (w 0 / 2 ^ 48), pc := BitVec.ofNat 48 (w 0),
        a0 := BitVec.ofNat 64 (w 1), a1 := BitVec.ofNat 64 (w 2), a2 := BitVec.ofNat 64 (w 3),
        rc := BitVec.ofNat 13 (w 4 / 64), hq := BitVec.ofNat 6 (w 4) }
    (c.gone ≠ none → Does (.stealRequest p v hq) s (answers none)) ∧
    ((∀ e ∈ c.deque, e.hq ≠ hq) → Does (.stealRequest p v hq) s (answers none)) ∧
    (∀ e above below k, c.gone = none → c.deque = above ++ e :: below → e.hq = hq → (∀ x ∈ above, x.hq ≠ hq) →
      let i := above.length
      let pa := c.dsb.toNat / 64 * 64 + 64 * k
      (i < c.spilled → c.spillAt[i]? = some k) →
      let d : Core := { c with
        deque := above ++ below, spilled := if i < c.spilled then c.spilled - 1 else c.spilled,
        spillAt := if i < c.spilled then c.spillAt.eraseIdx i else c.spillAt,
        spilling := if i = c.spilled then c.spilling.map (fun x => (x.1, false)) else c.spilling }
      let steps : List Instr := (if c.pushes = [] then [] else [.continuationPush q]) ++
        (if d.spilled ≠ 0 ∧ d.deque.length - d.spilled < 16 ∧ c.reading = none then [.dequeReadback q] else [])
      (c.spilled ≤ i → Does (.stealRequest p v hq) s
        { s.setCore q d with due := s.due ++ steps ++ [.stealReply p (some e)] }) ∧
      (i < c.spilled → s.readRefuses pa = none → Answers (.stealRequest p v hq) s (fun t =>
        Posted s t (steps ++ [.stealReply p (some (image k))]) ∧
        t = { s.setCore q d with slices := t.slices, due := t.due } ∧
        (t.slice (pa / 2 ^ 34)).served = s.sliceCycle (pa / 2 ^ 34) + 1)) ∧
      (∀ cause, i < c.spilled → s.readRefuses pa = some cause → Answers (.stealRequest p v hq) s (fun t =>
        t.due = s.due ++ [.stealReply p none] ∧ (t.core q).deque = c.deque ∧
        (t.core q).mcs = { valid := true, src := 3, cause := cause, rpc := BitVec.ofNat 48 (s.slot q 0).pc.toNat })))) ∧
  (∀ (s : State) (p : Nat) (e : TaskEntry),
    let c := s.core p
    let answered : Slot := { s.slot p 0 with out := (s.slot p 0).out.eraseP (fun o => decide (o.kind = .steal)) }
    let u := (s.setCore p { c with oac := c.oac - 1 }).setSlot p 0 answered
    let frozen : Prop := (s.hw e.hq).st = .frozen
    let lost : List Instr := if e.hasRec then [.cancelPropagation e.rc.toNat (e.rw.toNat * 8) e.hq none] else []
    (∀ n (hq : BitVec 6) (d : Dst), (s.slot p 0).wait = .steal n hq d → (s.slot p 0).st = .active →
      let word (st pc : Nat) : Word := BitVec.ofNat 64 (st * 2 ^ 56 + n * 2 ^ 48 + pc)
      let goes (v : Word) : Slot := { s.awakeAt p 0 with z0 := v, z1 := answered.z0, out := answered.out }
      Answers (.stealReply p none) s (fun t => WroteAt u t p 0 d (word 2 0) (goes (word 2 0))) ∧
      (frozen → Answers (.stealReply p (some e)) s (fun t =>
        WroteAt { u with due := s.due ++ lost } t p 0 d (word 2 0) (goes (word 2 0)))) ∧
      (¬ frozen → Answers (.stealReply p (some e)) s (fun t => WroteAt (u.setCore p { u.core p with latchTask := some e }) t p 0 d
        (word 1 e.pc.toNat) (goes (word 1 e.pc.toNat))))) ∧
    ((∀ n hq d, (s.slot p 0).wait ≠ .steal n hq d) →
      Does (.stealReply p none) s u ∧ (frozen → Does (.stealReply p (some e)) s { u with due := s.due ++ lost }) ∧
      (¬ frozen → c.deque.length < c.spilled + 64 →
        let v := u.setCore p { u.core p with deque := c.deque ++ [e] }
        Does (.stealReply p (some e)) s (if c.eligibleSlot.isSome then v.wake0 p 1 else v)))) ∧
  (∀ (s : State) (p : Nat),
    let c := s.core p
    (c.pushes = [] → Does (.continuationPush p) s s) ∧
    ((∀ w ∈ c.pushes, w.cause = none) → 64 + c.dsn.toNat ≤ c.deque.length → Does (.continuationPush p) s s) ∧
    (∀ w, c.pushes = [w] → w.cause = none → (s.hw w.entry.hq).st ≠ .frozen → c.deque.length < 64 + c.dsn.toNat →
      (c.deque.length < c.spilled + 64 →
        let u := s.setCore p { c with pushes := [], deque := c.deque ++ [w.entry] }
        Does (.continuationPush p) s (if c.eligibleSlot.isSome then u.wake0 p 1 else u)) ∧
      (∀ e l, c.deque = e :: l → l.length = 63 → c.spilled = 0 → c.spillAt = [] → c.spilling = none → c.reading = none →
        let image : List Word := [BitVec.ofNat 64 ((if e.hasRec then 2 ^ 63 else 0) + e.rw.toNat * 2 ^ 48 + e.pc.toNat), e.a0,
          e.a1, e.a2, BitVec.ofNat 64 (e.rc.toNat * 64 + e.hq.toNat), 0, 0, 0]
        let u : State := { s.setCore p { c with
            pushes := [], deque := c.deque ++ [w.entry], spilling := some (0, true) } with
          due := s.due ++ [.homePerform { agentRequest p e.hq
            (.agentWrite (.spill p) { tag := 0, idx := 0, off := 0 } (image.flatMap wordBytes)) (.dev (c.dsb.toNat / 64 * 64)) 0
            with sent := s.cycle p, issued := s.cycle p }] }
        Does (.continuationPush p) s (if c.eligibleSlot.isSome then u.wake0 p 1 else u))) ∧
    (∀ v w r q off, c.pushes = [v, w] → v.cause = none → w.cause = some r → r.op = .dec → r.home = .ls q off → c.bank = [] →
      (s.hw r.hq).st ≠ .frozen → c.deque.length < 64 + c.dsn.toNat → c.deque.length < c.spilled + 64 →
      let word (i : Nat) : Word := s.word (localKey p ((off + 8 * i) % 2 ^ 17))
      (word 0).toNat % 2 ^ 32 = 1 → (word 0).toNat / 2 ^ 38 % 4 = 2 →
      Answers (.continuationPush p) s (fun t => (t.core p).pushes = [v] ∧ (t.core p).deque = c.deque ++ [
        { hasRec := decide ((word 1).toNat / 2 ^ 63 = 1), rw := BitVec.ofNat 14 ((word 1).toNat / 2 ^ 48),
          pc := BitVec.ofNat 48 (word 1).toNat, a0 := word 2, a1 := word 3, a2 := word 4,
          rc := BitVec.ofNat 13 (word 5).toNat, hq := r.hq }]))) ∧
  (∀ (s : State) (p : Nat),
    let c := s.core p
    let wanted := c.spilled ≠ 0 ∧ c.deque.length - c.spilled < 16 ∧ c.reading = none ∧ c.spilling = none
    (¬ wanted → Does (.dequeReadback p) s s) ∧
    (∀ i e, wanted → c.spillAt.getLast? = some i → c.deque[c.spilled - 1]? = some e →
      Does (.dequeReadback p) s { s.setCore p { c with reading := some i } with
        due := s.due ++ [.homePerform { agentRequest p e.hq (.agentRead (.back p) { tag := 0, idx := i, off := 0 } 64)
          (.dev (c.dsb.toNat / 64 * 64 + 64 * i)) 0 with sent := s.cycle p, issued := s.cycle p }] }))

/-! ## Traps (R340-R353) and the control of slots -/

/-- R340, R341, R344, R345, R351 to R353: from the trap to its record: a late event is the trap at the thread's next position;
the drained record stands in the latch, or tells of a lost one; it enters the ring from the
next cycle on (log 65), TAIL moves and slot 0 wakes; in slot 0 it is a machine check, which ends when the system cores clear it:
slot 0 runs from RPC, and the answer to what it had sent is discarded. -/
def Obligations.TrapRecords : Prop :=
  (∀ (s : State) (p n : Nat) (e : Late), (s.slot p n).st = .active → (s.slot p n).late = [e] → (s.slot p n).wait.givesWay = true →
    e.cause ≠ 0x0A →
    let u := s.setSlot p n { s.slot p n with late := [] }
    Answers (.deferredTrap p n) s (fun t =>
      if e.cause = 0x09 then Trapped u t p n 0x09 0 (s.slot p n).pc e.pc e.addr
      else Trapped u t p n e.cause 0 (s.slot p n).pc (s.slot p n).pc e.addr)) ∧
  (∀ (s : State) (p n : Nat) (r : Record), (s.slot p n).st = .trapped false → (s.slot p n).record = some r →
    let drained : Prop := (s.slot p n).out = [] ∧ (s.core p).cldInFlight n = false ∧ ∀ q, (s.slot p n).wait ≠ .retry q
    (¬ drained → Does (.trapDrainEnd p n) s s) ∧
    (drained → n ≠ 0 → Answers (.trapDrainEnd p n) s (fun t =>
      t.due = s.due ++ [.trapRecordEnqueue p] ∧ SlotIs { s with due := t.due } t p n { s.slot p n with
        st := .trapped true, record := none, pending := [], double := false, latchAt := s.cycle p + 1,
        latch := some (if (s.slot p n).double then { r with cause := 0x11, detail := r.cause } else r) })) ∧
    (drained → n = 0 → (s.slot p 0).wait = .none →
      Answers (.trapDrainEnd p n) s (fun t => (t.slot p 0).st = .stopped ∧ t.fe = s.fe ∧
        (t.core p).mcs = { valid := true, src := 1, cause := r.cause, rpc := BitVec.ofNat 48 (s.slot p 0).pc.toNat } ∧
        StoredAt s t (localKey p 0x1FE80) ((recordWords r).flatMap wordBytes) ∧
        t.hub.notices = s.hub.notices ++ [.machineCheck
          { core := p, slot := 0, lcore := s.logical p, hq := (s.slot p 0).hq, words := recordWords r }]))) ∧
  (∀ (s : State) (p : Nat), (∀ n < 16, (s.slot p n).latch ≠ none → s.cycle p < (s.slot p n).latchAt) →
    Does (.trapRecordEnqueue p) s s) ∧
  (∀ (s : State) (p n : Nat) (r : Record), n < 16 → (s.slot p n).latch = some r → (s.slot p n).latchAt ≤ s.cycle p →
    (∀ m < 16, m ≠ n → (s.slot p m).latch = none ∨ s.cycle p < (s.slot p m).latchAt) →
    (s.core p).ringBase.toNat * 64 + 64 * 2 ^ (s.core p).log.toNat ≤ 2 ^ 17 →
    let c := s.core p
    let used := (c.tail.toNat + 256 - c.head.toNat) % 256
    (used = 2 ^ c.log.toNat → Does (.trapRecordEnqueue p) s s) ∧
    (used ≠ 2 ^ c.log.toNat → (s.slot p 0).wait = .none → Answers (.trapRecordEnqueue p) s (fun t =>
      SlotIs ((s.withMemory t).setCore p { c with tail := c.tail + 1 }) t p n { s.slot p n with latch := none } ∧
      t.fe = s.fe ∧
      StoredAt s t (localKey p (64 * c.ringBase.toNat + 64 * (c.tail.toNat % 2 ^ c.log.toNat)))
        ((recordWords r).flatMap wordBytes)))) ∧
  (∀ (s : State) (p : Nat),
    ((s.core p).mcs.valid = false → Does (.mcsClear p) s s) ∧
    ((s.core p).mcs.valid = true → Answers (.mcsClear p) s (fun t =>
      SlotIs (s.setCore p { s.core p with
        mcs := { (s.core p).mcs with valid := false }, pushes := (s.core p).pushes.map (fun w => { w with
          cause := w.cause.map (fun r =>
            if r.core = p ∧ r.slot = 0 ∧ homeOwn r.home p = true then { r with cls := .engine } else r) }) }) t p 0
        (if (s.slot p 0).st = .trapped false then s.slot p 0 else { s.slot p 0 with
          st := .active, wait := .none, pc := BitVec.ofNat 64 (s.core p).mcs.rpc.toNat, record := none, double := false,
          stopAt := none, wakeAt := Max.max (s.slot p 0).wakeAt (s.cycle p + 1) }))))

/-- R234, R235, R236, R345: what each state register reads as, its reserved bits zero, and the cycle counters. R6, R23,
R28, R44, R81, R127, R234, R235, R345: what a write of each state register leaves, fields the slot may not write trap
0x03 in any slot but 0, and read-only registers stay. -/
def Obligations.StateRegisters : Prop :=
  (∀ (s : State) (d : Reg), s.regsReady [d] →
    let c := s.own
    let t := s.thr
    let reads (sr : BitVec 8) (v : Nat) : Prop := Gives (.rdst d sr) s d (BitVec.ofNat 64 v)
    let code (n : Nat) : Nat :=
      let u := s.slot s.cur.core n
      match u.st with
      | .empty => 0
      | .trapped _ => 2
      | .stopped => 3
      | .active => match u.stopAt, u.wait with
        | some k, _ => if k ≤ s.now + 4 then 3 else 1
        | none, .exit till => if till ≤ s.now + 3 ∧ u.relaxedOut = [] ∧ c.tileOf n = none ∧ u.late = [] then 0 else 1
        | none, _ => 1
    reads 0x00 t.round.toNat ∧ reads 0x01 t.srs.toNat ∧ reads 0x02 t.ix.toNat ∧ reads 0x03 t.fel.toNat ∧
    reads 0x04 t.nflag.toNat ∧ reads 0x05 t.tb.toNat ∧ reads 0x06 t.seq.toNat ∧ reads 0x10 c.sa.toNat ∧
    reads 0x11 c.swl.toNat ∧ reads 0x12 c.oac.toNat ∧ reads 0x13 (s.now + 4) ∧ reads 0x14 c.aqhw.toNat ∧
    reads 0x15 c.tsm.toNat ∧ reads 0x16 c.dsb.toNat ∧ reads 0x17 c.dsn.toNat ∧ reads 0x18 c.deque.length ∧
    reads 0x19 ((List.range 16).map (fun n => code n * 4 ^ n)).sum ∧
    reads 0x1A (c.tail.toNat * 2 ^ 32 + c.head.toNat * 2 ^ 24 + c.log.toNat * 2 ^ 17 + c.ringBase.toNat * 2 ^ 6) ∧
    reads 0x20 (c.tile 0).cpm.toNat ∧ reads 0x21 (c.tile 1).cpm.toNat ∧ reads 0x22 (c.tile 2).cpm.toNat ∧
    reads 0x23 (c.tile 3).cpm.toNat ∧
    (∀ v : BitVec 8, 1 ≤ v.toNat → v.toNat ≤ 7 → reads (0x30 + v) ((c.descriptor v.toNat).toNat / 32 * 32)) ∧
    Gives (.rdcyc d) s d (BitVec.ofNat 64 s.now)) ∧
  (∀ (s : State) (b : OpB), s.regsReady (bRegs b) →
    let w := (s.opB b).toNat
    let c := s.own
    let next : Slot := { s.thr with pc := s.cur.next, wait := .none }
    let thread (sr : BitVec 8) (u : Slot) : Prop := Answers (.wrst sr b) s (fun t => ThreadIs s t u)
    let core (sr : BitVec 8) (d : Core) : Prop := Answers (.wrst sr b) s (fun t => ThreadIs (s.setCore s.cur.core d) t next)
    let s0 (sr : BitVec 8) (d : Core) : Prop :=
      (s.cur.slot ≠ 0 → Answers (.wrst sr b) s (fun t => Raised s t 0x03 0 0)) ∧ (s.cur.slot = 0 → core sr d)
    (w % 8 < 6 → thread 0x00 { next with round := BitVec.ofNat 3 w }) ∧
    (6 ≤ w % 8 → Answers (.wrst 0x00 b) s (fun t => Raised s t 0x01 0 0)) ∧
    thread 0x01 { next with srs := BitVec.ofNat 32 w } ∧ thread 0x02 { next with ix := BitVec.ofNat 16 w } ∧
    thread 0x03 { next with fel := BitVec.ofNat 32 w } ∧ thread 0x04 { next with nflag := BitVec.ofNat 8 w } ∧
    thread 0x05 { next with tb := BitVec.ofNat 17 (w / 4 * 4) } ∧
    (∀ sr : BitVec 8, sr ∈ ([0x06, 0x10, 0x12, 0x13, 0x18, 0x19, 0x20, 0x21, 0x22, 0x23] : List (BitVec 8)) → thread sr next) ∧
    s0 0x11 { c with swl := BitVec.ofNat 32 w } ∧
    s0 0x14 { c with aqhw := if 1 ≤ w % 64 ∧ w % 64 ≤ 32 then BitVec.ofNat 6 w else c.aqhw } ∧
    s0 0x16 { c with dsb := BitVec.ofNat 48 (w / 64 * 64) } ∧ s0 0x17 { c with dsn := BitVec.ofNat 21 w } ∧
    (s.cur.slot ≠ 0 → Answers (.wrst 0x15 b) s (fun t => Raised s t 0x03 0 0)) ∧
    (s.cur.slot = 0 → c.arrivals = [] →
      (∀ n < 16, w / 2 ^ n % 2 = 1 → n ≠ 0 → c.tsm.getLsbD n = false → (c.slot n).st = .empty ∧
        ∀ m < 16, (c.slot m).st ≠ .empty →
          (c.slot m).base + (c.slot m).size ≤ 1920 + 8 * n ∨ 1920 + 8 * n + 8 ≤ (c.slot m).base) →
      core 0x15 { c with tsm := BitVec.ofNat 16 (w / 2 * 2) }) ∧
    (s.cur.slot ≠ 0 → Answers (.wrst 0x1A b) s (fun t => Raised s t 0x03 0 0)) ∧
    (s.cur.slot = 0 → Answers (.wrst 0x1A b) s (fun t => t.due = s.due ++ [.trapRecordEnqueue s.cur.core] ∧
      ThreadIs { s.setCore s.cur.core { c with
        head := BitVec.ofNat 8 (w / 2 ^ 24), ringBase := BitVec.ofNat 11 (w / 2 ^ 6),
        log := if w / 2 ^ 17 % 8 = 4 ∨ w / 2 ^ 17 % 8 = 5 then BitVec.ofNat 3 (w / 2 ^ 17) else c.log } with due := t.due } t
        next)) ∧
    (∀ v : BitVec 8, 1 ≤ v.toNat → v.toNat ≤ 7 → Answers (.wrst (0x30 + v) b) s (fun t =>
      ThreadIs (s.setCore s.cur.core { c with
        vd := t.own.vd, vdOld := some (v.toNat, c.descriptor v.toNat, s.now + 4) }) t next ∧
      ∀ n, t.own.descriptor n = if n = v.toNat then s.opB b else c.descriptor n)))

/-- R20, R23, R183, R194, R237, R238, R239: `resume` returns a trapped or stopped thread to its saved PC or to a given one,
`stop` takes effect from its stage 5 on, and `sysc` sends eight words to the nearer hub. -/
def Obligations.SlotControl : Prop :=
  (∀ (s : State) (a : Reg) (replay : Bool), s.cur.slot = 0 → s.regsReady [a] →
    let w := (s.rd a).toNat
    let n := w % 16
    let p := s.cur.core
    let c := s.slot p n
    let pc : Word := if w / 16 % 2 = 1 then BitVec.ofNat 64 (w / 2 ^ 16) else c.pc
    let next : Slot := { s.thr with pc := s.cur.next, wait := .none }
    let runs : Slot := { c with st := .active, pc := pc, wakeAt := Max.max c.wakeAt (s.now + 5), stopAt := none }
    let nothing (i : Instr) : Prop := Answers i s (fun t => ThreadIs s t next)
    (n = 0 ∨ c.st = .empty ∨ c.st = .active → nothing (.resume replay a)) ∧
    (n ≠ 0 → c.st = .stopped → Answers (.resume replay a) s (fun t => ThreadIs (s.setSlot p n runs) t next)) ∧
    (n ≠ 0 → (∃ drained, c.st = .trapped drained) → s.own.tileOf n = none →
      Answers (.resume replay a) s (fun t => ThreadIs (s.setSlot p n { runs with pending := [] }) t next)) ∧
    (∀ tl j, n ≠ 0 → c.st = .trapped true → s.own.tileOf n = some tl → (s.own.tile tl).lock = some j → j.held = true →
      Answers (.resume replay a) s (fun t => t.due = s.due ++ (if replay then [.cldSectorRequest p tl] else []) ∧
        (t.own.tile tl).lock = (if replay then some { j with
          held := false, fail := none, next := 0, scaleNext := false, sent := [], data := [], scale := [] } else none) ∧
        (t.own.tile tl).cpm = (s.own.tile tl).cpm ∧ t.slot p n = { runs with pending := [] } ∧ t.thr = next)) ∧
    (n = 0 ∨ c.st ≠ .active ∨ c.stopAt ≠ none → nothing (.stop a)) ∧
    (n ≠ 0 → c.st = .active → c.stopAt = none →
      Answers (.stop a) s (fun t => ThreadIs (s.setSlot p n { c with stopAt := some (s.now + 5) }) t next))) ∧
  (∀ (s : State) (a : Reg), s.regsReady [a] →
    let va := s.rd a
    (va.toNat % 64 ≠ 0 → Answers (.sysc a) s (fun t => Raised s t 0x04 0 va)) ∧
    (va.toNat % 64 = 0 → (∀ v o, regionOf va ≠ .near v o true) → Answers (.sysc a) s (fun t => Raised s t 0x0C 0 va)) ∧
    (∀ v o, va.toNat % 64 = 0 → regionOf va = .near v o true → s.thr.relaxedOut = [] → s.thr.out.length < 4096 →
      Answers (.sysc a) s (fun t =>
        let m : SyscMsg :=
          { core := s.cur.core, slot := s.cur.slot, lcore := s.logical s.cur.core, hq := s.thr.hq,
            words := (List.range 8).map (fun k => s.word (localKey s.cur.core (o + 8 * k))) }
        let u := s.useBanks s.cur.core (if s.cur.again.isSome then 1 else 0) o 64
        t.due = s.due ++ [.hubRequest (if s.cur.core / 1024 < 4 then 0 else 1) m] ∧
        ThreadIs { u.setCore s.cur.core { u.own with oac := s.own.oac + 1 } with due := t.due } t { s.thr with
          seq := s.thr.seq + 1
          out := s.thr.out ++ [{ seq := s.thr.seq, relaxed := false, home := .host 0, kind := .sysc }]
          pc := s.cur.next, wait := .sysc m })))

/-! ## The checks of stage 2, decoding, and the step -/

/-- R31, R32, R34, R127: an instruction that names a register outside its thread's window traps 0x02, one that names a
register a relaxed load has not written yet parks; a slot-0 instruction elsewhere traps 0x03, a traveller's in another
thread traps 0x01. -/
def Obligations.RegisterChecks : Prop :=
  ∀ (i : Instr) (s : State) (rs : List Reg), regsNamed i = some rs →
    let traps (cause : BitVec 8) : Prop := Answers i s (fun t => Raised s t cause 0 0)
    (travellerOnly i = true → s.thr.size ≠ 8 → traps 0x01) ∧
    (slotZeroOnly i = true → s.cur.slot ≠ 0 → traps 0x03) ∧
    ((travellerOnly i = true → s.thr.size = 8) → (slotZeroOnly i = true → s.cur.slot = 0) →
      (∀ r ∈ rs, ∀ n, r = .g n → s.thr.size ≤ n.toNat → traps 0x02) ∧
      (∀ r ∈ rs, ∀ n, r = .rel n → s.thr.ix.toInt + n.toNat < 0 ∨ s.thr.size ≤ s.thr.ix.toInt + n.toNat → traps 0x02) ∧
      ((∀ r ∈ rs, regOk s.thr r = true) → (∃ r ∈ rs, s.thr.isPending (regDst s.thr r) = true) →
        (∀ d x a c, i ≠ .fork d x a c) → Answers i s (fun t => ThreadIs s t { s.thr with
          pc := s.cur.pc, wait := .regs (rs.map (regDst s.thr)) })))

/-- R94 to R103, R117 to R125: instructions written out from the encoding tables, head and tail, decode to themselves. -/
def Obligations.DecodeWords : Prop :=
  decodeHead 0x0001 0 = .ok .nop ∧
  decodeHead 0x9827 0x04038A8A00000008 = .ok (.ld .w true true (.g 4) (.disp (.g 3) 8)) ∧
  decodeHead 0x9860 0x8A148A0F00000008 = .ok (.st .d true (.disp (.g 20) 8) (.g 15)) ∧
  decodeHead 0x8800 0x0405FF8A00000708 = .ok (.bext (.g 4) (.g 5) (.lit32 0x708)) ∧
  decodeHead 0x9340 0x09048A080000007C = .ok (.fork (.g 9) (.disp 0x7C) (.g 4) (.g 8)) ∧
  decodeHead 0x9C40 0x05038A0600000010 = .ok (.amcas (.g 5) (.disp (.g 3) 16) (.g 6)) ∧
  decodeHead 0x5F00 0x02030407 = .ok (.cpy (.g 2) (.g 3) (.g 4) (.g 7)) ∧
  decodeHead 0x7581 0x8A028A07 = .ok (.collTopk (.g 2) (.g 7)) ∧
  decodeHead 0x7D01 0x8A018A8A = .ok (.resume true (.g 1)) ∧
  decodeHead 0xBCC0 0x8A03FF8A00004000 = .ok (.wrst 0x03 (.lit32 16384)) ∧
  decodeHead 0x1E43 0 = .ok (.fence 3) ∧ decodeHead 0x3C05 0 = .ok (.trap 5) ∧
  decodeHead 0x7FC0 0x028A8A8A = .error .unassigned ∧ decodeHead 0x0002 0 = .error .unassigned

/-- R94 to R103, R115 to R125: an instruction that is well formed is what the decoder reads from its encoding, with every
operand at every value; the decoder reads no ill-formed one. -/
def Obligations.DecodeEncode : Prop :=
  ∀ (i : Instr) (head size tl : Nat), encode i = some (head, size, tl) →
    head < 2 ^ 16 ∧ size = tailBytes head ∧ tl < 256 ^ size ∧
    (wellFormed i = true → decodeHead head tl = .ok i) ∧ (wellFormed i = false → ∀ j, decodeHead head tl ≠ .ok j)

/-- R94 to R103, R115 to R125: every head and tail that decode are the encoding of the instruction they decode to, and it is
well formed: no bit is ignored, and each instruction has one encoding. -/
def Obligations.EncodeDecode : Prop :=
  ∀ (head tl : Nat) (i : Instr), head < 2 ^ 16 → decodeHead head tl = .ok i →
    wellFormed i = true ∧ encode i = some (head, tailBytes head, tl % 256 ^ tailBytes head)

/-- R14, R17, R93, R97, R104: when a core's turn goes to a thread whose line is at hand and holds an instruction at its PC, the
step is that instruction, with the address of the next one known; then what it has ended elsewhere may go on (R16). -/
def Obligations.StepRunsDecoded : Prop :=
  ∀ (s u v : State) (p n : Nat) (line : List Byte) (head tl : Nat) (full : Bool) (i : Instr) (home : Home),
    s.choose = (some (.turn p), u) → u.pickSlot p = (v, some n) → (v.slot p n).lateReady = false →
    let pc := (v.slot p n).pc
    let hq := (v.slot p n).hq
    pc.getLsbD 0 = false → (∃ a, regionOf pc = .dev a) → v.translate p hq .fetch pc = .home home →
    (v.core p).icache.find? (fun e => e.1 = lineKey hq pc) = some (lineKey hq pc, line) →
    lineAt line (pc.toNat % 64 / 2) = .head head tl full → decodeHead head tl = .ok i →
    ∀ t, exec i (v.issuing p n (if full then BitVec.ofNat 64 (pc.toNat / 64 * 64 + 64) else pc + 2) i) = .next t →
      step s = .next (v.awake t 5)

/-- R14 to R16, R54, R55, R104, R116, R340: what a step is: the turn of a core goes to the slot of its position or to the slot's
partner, or is used by no thread; a late event, a line end and what is no instruction have their own steps; a clock counts;
a step that is under way takes place, and so does an instruction whose walk has completed or whose wait is over. R18: a slot
whose wait a step ends may issue from the next cycle on, or from the one after the stage 5 of the instruction that ended it; an
instruction that was held goes on in that cycle. -/
def Obligations.TurnTaking : Prop :=
  (∀ (s : State) (p : Nat),
    let o := s.cycle p % 16
    let q := (o + 8) % 16
    (s.runnable p o = true → (s.slot p o).skip = 0 → s.pickSlot p = (s, some o)) ∧
    (s.runnable p o = false → s.runnable p q = true → (s.slot p q).skip = 0 → s.pickSlot p = (s, some q)) ∧
    (s.runnable p o = false → s.runnable p q = false → s.pickSlot p = (s, none))) ∧
  (∀ (s : State) (p n : Nat), (s.slot p n).wait = .none → (s.slot p n).stopAt = none →
    (s.runnable p n = true ↔ (s.slot p n).st = .active ∧ (s.slot p n).wakeAt ≤ s.cycle p)) ∧
  (∀ (s u v : State) (p : Nat), s.choose = (some (.turn p), u) →
    (u.pickSlot p = (v, none) → step s = .next (v.setCore p { v.core p with turn := v.cycle p + 1 })) ∧
    (∀ n, u.pickSlot p = (v, some n) →
      let t := v.slot p n
      let turned := v.setCore p { v.core p with turn := v.cycle p + 1 }
      let runs (i : Instr) : Prop := ∃ w x, exec i w = .next x ∧ step s = .next (v.awake x 5) ∧ w.cur.pc = t.pc ∧
        w.cur.core = p ∧ w.cur.slot = n ∧ w.mem = v.mem
      (∀ x, t.lateReady = true → exec (.deferredTrap p n) turned = .next x → step s = .next (v.awake x 5)) ∧
      (t.lateReady = false → t.pc.getLsbD 0 = true → runs (.fetchFault 0x04 0)) ∧
      (t.lateReady = false → t.pc.getLsbD 0 = false → (∀ a, regionOf t.pc ≠ .dev a) → runs (.fetchFault 0x05 2)) ∧
      (∀ next, t.lateReady = false → v.fetch p n = .lineEnd next →
        step s = .next (v.awake (v.setSlot p n { t with wait := .none, pc := next }) 5)) ∧
      (∀ next, t.lateReady = false → v.fetch p n = .illegal next → runs .illegalEncoding) ∧
      (∀ cause detail, t.lateReady = false → v.fetch p n = .fault cause detail → runs (.fetchFault cause detail)))) ∧
  (∀ (s u : State) (d : Nat), s.choose = (some (.tick d), u) → ∃ t, step s = .next t ∧ (t.die d).cyc = (u.die d).cyc + 1 ∧
    (∀ e, e ≠ d → t.die e = u.die e) ∧ t.hub = u.hub) ∧
  (∀ (s u : State), (s.choose = (some (.hubTick 1), u) → step s = .next { u with hub := { u.hub with cyc1 := u.hub.cyc1 + 1 } }) ∧
    (s.choose = (some (.hubTick 0), u) → ∃ t, step s = .next t ∧
      t = { u with hub := { u.hub with cyc := u.hub.cyc + 1, hw := t.hub.hw } })) ∧
  (∀ (s u t : State) (i : Nat) (e : Instr), s.choose = (some (.due i), u) → u.due[i]? = some e →
    exec e { u with due := u.due.eraseIdx i } = .next t → step s = .next (u.awake t 1)) ∧
  (∀ (s u t : State) (c : Issue) (l : List Issue) (i : Instr), s.choose = (some .resume, u) → u.walked = c :: l →
    c.instr = some i →
    let v : State := { u with walked := l, cur := c }
    let w := v.useBanks c.core 1 0 0
    exec i (w.setSlot c.core c.slot { w.slot c.core c.slot with
      wakeAt := Max.max (w.slot c.core c.slot).wakeAt
        (w.cycle c.core + if (c.again.bind (·.since)).isSome then 1 else 5) }) = .next t → step s = .next (u.awake t 1)) ∧
  (∀ (s t : State) (p n d : Nat), (t.slot p n).st = .active →
    ((∀ h c i next l, (t.slot p n).wait ≠ .held h c i next l) → (∀ scope next, (t.slot p n).wait ≠ .fence scope next) →
      (s.awake t d).slot p n = if t.mayGoOn p n = true ∧ s.mayGoOn p n = false then
        { t.slot p n with wakeAt := Max.max (t.slot p n).wakeAt (t.cycle p + d) } else t.slot p n) ∧
    (∀ h c i next l, (t.slot p n).wait = .held h c i next l → (t.slot p n).lateReady = false →
      (t.holdOver p n (t.slot p n) h = true → ((s.awake t d).slot p n).wait = .none ∧ ((s.awake t d).slot p n).pc = (t.slot p n).pc ∧
        { core := p, slot := n, pc := (t.slot p n).pc, next := next, instr := i,
          again := some { since := some c, views := some l } } ∈ (s.awake t d).walked) ∧
      (t.holdOver p n (t.slot p n) h = false → (s.awake t d).slot p n = t.slot p n)))

/-- Every instruction and every event has a next state: no step refuses, and the machine stands still only where an alarm
holds it in reset (R391). -/
def Obligations.StepsAnswer : Prop :=
  (∀ (i : Instr) (s : State), ∃ t, exec i s = .next t) ∧
  (∀ (s : State), (s.choose.1 ≠ none ∨ s.hub.heldInReset = false) → ∃ t, step s = .next t) ∧
  (∀ (s : State), s.choose.1 = none → s.hub.heldInReset = true → step s = .fault .heldInReset)

/-- Every step keeps memory and the full/empty bits in canonical form, so that equal memories are equal data. -/
def Obligations.MemoryStaysCanonical : Prop :=
  ∀ (s t : State), s.canonical = true → step s = .next t → t.canonical = true

/-- R161, R234, R330, R345, R353, R387: the machine after reset: memory holds nothing, every word is full, no die runs, and the
registers that have a reset value hold it in every core and slot. -/
def Obligations.ResetState : Prop :=
  State.reset.canonical = true ∧ State.reset.mem = [] ∧ State.reset.due = [.powerOnReset] ∧
  (∀ k, State.reset.full k = true) ∧ (∀ d, (State.reset.die d).running = false ∧ (State.reset.die d).cyc = 0) ∧
  (∀ p, let c := State.reset.core p
    c.sa = 64 ∧ c.swl = 65536 ∧ c.oac = 0 ∧ c.aqhw = 24 ∧ c.tsm = 0 ∧ c.log = 4 ∧ c.ringBase = 0x7C0 ∧ c.head = 0 ∧
    c.tail = 0 ∧ c.mcs.valid = false ∧ c.deque = [] ∧ ∀ t, (c.tile t).cpm = 0) ∧
  (∀ p n, let t := State.reset.slot p n
    t.st = .empty ∧ t.round = 0 ∧ t.srs = 0 ∧ t.ix = 0 ∧ t.fel = 4096 ∧ t.nflag = 0 ∧ t.seq = 0)

/-! ## The hardware queue scheduler -/

/-- R321 to R325: a doorbell, the mapping of an active queue, the end of a quantum, and how a slot becomes free. -/
def Obligations.QueueSlots : Prop :=
  ∀ (s : State) (u : Nat), u < 2 ^ 16 →
    let desc := s.hub.qtb.toNat / 64 * 64 + 64 * u
    let w (k : Nat) : Word := s.word (desc + 8 * k)
    let bits (k hi lo : Nat) : Nat := (w k).toNat / 2 ^ lo % 2 ^ (hi - lo + 1)
    (∀ k < 8, s.readRefuses (desc + 8 * k) = none) → u ∉ s.hub.descLost →
    let stored (t : State) (a : Nat) (v : Word) : Prop := ∀ k < 2 ^ 43, Memory.byte t.mem k =
      if a ≤ k ∧ k < a + 8 then (wordBytes v).getD (k - a) 0 else Memory.byte s.mem k
    let mapsTo (q : BitVec 6) : Prop := (s.hw q).st ≠ .free ∧ (s.hw q).uq = u
    let idle (q : BitVec 6) : Prop := .launchPacket q ∉ s.due ∧ .nopPacket q ∉ s.due
    let noFree : Prop := ∀ q, (s.hw q).st ≠ .free
    let rings (active : List Nat) (es : List Instr) : Prop := Answers (.doorbell u) s (fun t => Posted s t es ∧
      t = { s with slices := t.slices, due := t.due, hub := { s.hub with dbell := BitVec.ofNat 16 u, active := active } })
    (∀ q, mapsTo q → (∀ q', mapsTo q' → q' = q) →
      ((s.hw q).st = .mapped → (s.hw q).launch = none → idle q → rings s.hub.active [.launchPacket q]) ∧
      ((s.hw q).st ≠ .mapped → rings s.hub.active [])) ∧
    ((∀ q, ¬ mapsTo q) → (bits 1 31 0 = bits 2 31 0 → rings s.hub.active []) ∧
      (bits 1 31 0 ≠ bits 2 31 0 → u ∉ s.hub.active → rings (s.hub.active ++ [u]) [.queueMap u])) ∧
    (u ∉ s.hub.active → Does (.queueMap u) s s) ∧
    (noFree → u ∈ s.hub.active → Does (.queueMap u) s { s with due := s.due ++ [.queueMap u] }) ∧
    (∀ q, (s.hw q).st = .free → (∀ q', (s.hw q').st = .free → q.toNat ≤ q'.toNat) → u ∈ s.hub.active → idle q →
      let good : Prop := bits 0 11 0 = 0 ∧ 6 ≤ bits 1 63 59 ∧ bits 1 63 59 ≤ 20 ∧ bits 1 58 32 = 0 ∧ bits 2 63 32 = 0 ∧
        bits 3 63 56 ≠ 0 ∧ bits 3 51 0 = 0 ∧ bits 5 47 0 = 0 ∧ bits 6 63 32 = 0 ∧ w 7 = 0
      let quantum := if bits 6 31 0 = 0 then 3000000 else bits 6 31 0
      let fresh : HwSlot := { HwSlot.reset with
        st := .mapped, uq := u, ring := w 0, rlog := bits 1 63 59, rd := BitVec.ofNat 32 (bits 1 31 0),
        weight := bits 3 63 56, stl := BitVec.ofNat 2 (bits 3 55 54), cls := BitVec.ofNat 2 (bits 3 53 52), ptb := w 4,
        quantum := quantum, left := quantum, progress := s.hub.cyc }
      (good → Answers (.queueMap u) s (fun t => Posted s t [.launchPacket q, .quantumExpiry q] ∧
        t = { s with
          mem := t.mem, cores := t.cores, slices := t.slices, due := t.due,
          hub := { s.hub with active := s.hub.active.erase u, hw := t.hub.hw } } ∧
        StoredAt s t (desc + 40) (wordBytes (BitVec.ofNat 64 (2 ^ 56 + (w 5).toNat % 2 ^ 56))) ∧
        t.hw q = fresh ∧ (∀ q', q' ≠ q → t.hw q' = s.hw q') ∧
        ∀ p, t.core p = { s.core p with
          tlb := (s.core p).tlb.filter (fun e => match e.key with
            | .dev q' _ => decide (q' ≠ q)
            | .far _ _ => true)
          walks := (s.core p).walks.map (fun x => match x.key with
            | .dev q' _ => if q' = q ∧ x.level ≠ 3 then { x with again := true } else x
            | .far _ _ => x) })) ∧
      (¬ good → Answers (.queueMap u) s (fun t => (t.hw q).st = .frozen ∧ (t.hw q).uq = u ∧
        stored t (desc + 40) (BitVec.ofNat 64 (2 * 2 ^ 56 + 2 ^ 48 + (w 5).toNat % 2 ^ 48))))) ∧
    (∀ q,
      let mapped : Prop := (s.hw q).st = .mapped
      let expired : Prop := (mapped ∨ (s.hw q).st = .draining) ∧ (s.hw q).left = 0
      let shares (es : List Instr) (hw : BitVec 6 → HwSlot) : Prop := Answers (.quantumExpiry q) s (fun t =>
        t = { s with cores := t.cores, due := s.due ++ es, hub := { s.hub with hw := t.hub.hw } } ∧
        (∀ q', t.hw q' = hw q') ∧ ∀ p, t.core p = { s.core p with owners := (t.core p).owners })
      (¬ expired → Does (.quantumExpiry q) s s) ∧
      (expired → mapped → s.hub.active = [] ∨ ¬ noFree → shares [.quantumExpiry q]
        (fun q' => if q' = q then { s.hw q with left := (s.hw q).quantum } else s.hw q')) ∧
      (expired → ¬ mapped → s.hub.active = [] ∨ ¬ noFree → shares [] (fun q' => s.hw q')) ∧
      (∀ v, expired → s.hub.active ≠ [] → noFree → (s.hw v).st = .mapped → (s.hw v).left = 0 →
        (∀ q', (s.hw q').st = .mapped → (s.hw q').left = 0 →
          (s.hw v).weight < (s.hw q').weight ∨ (s.hw v).weight = (s.hw q').weight ∧ v.toNat ≤ q'.toNat) →
        shares [.slotDrainComplete v] (fun q' => if q' = v then { s.hw v with st := .draining } else s.hw q'))) ∧
    (∀ q, mapsTo q → (∀ q', mapsTo q' → q' = q) →
      let emptied : Prop := s.work q = 0 ∧ (s.hw q).launch = none ∧ (s.run (.hqs q)).out = []
      let left : Bool := bits 1 31 0 ≠ bits 2 31 0 ∧ u ∉ s.hub.active
      let written : Word :=
        if s.hub.hcmd.toNat / 2 ^ 54 = 128 + q.toNat then s.hub.hcmd else BitVec.ofNat 64 ((128 + q.toNat) * 2 ^ 54)
      let done : Word := BitVec.ofNat 64 (written.toNat % 2 ^ 60)
      let freed (i : Instr) (word : Word) : Prop := Answers i s (fun t =>
        Posted { s with due := s.due.erase (.quantumExpiry q) } t (if left then [.queueMap u] else []) ∧
        t = { s with
          mem := t.mem, slices := t.slices, runs := t.runs, due := t.due, hub := { s.hub with
            hcmd := word, hw := t.hub.hw, active := if left then s.hub.active ++ [u] else s.hub.active } } ∧
        t.hw q = HwSlot.reset ∧ (∀ q', q' ≠ q → t.hw q' = s.hw q') ∧ t.run (.hqs q) = Run.start ∧
        (∀ a, a ≠ .hqs q → t.run a = s.run a) ∧
        StoredAt s t (desc + 40) (wordBytes (BitVec.ofNat 64 ((w 5).toNat % 2 ^ 56))))
      ((s.hw q).st ≠ .draining ∨ ¬ emptied → Does (.slotDrainComplete q) s s) ∧
      ((s.hw q).st = .draining → emptied → freed (.slotDrainComplete q) s.hub.hcmd) ∧
      ((s.hw q).st ≠ .frozen → Does (.unfreeze q) s { s with hub := { s.hub with hcmd := done } }) ∧
      ((s.hw q).st = .frozen → ¬ emptied → Does (.unfreeze q) s { s with
        hub := { s.hub with hcmd := written }, due := s.due ++ [.unfreeze q] }) ∧
      ((s.hw q).st = .frozen → emptied → freed (.unfreeze q) done))

/-- R326 to R329, R334: a slot reads its next packet, or finds none; a failed read freezes it; a packet that breaks a rule ends
with 0x0F; a launch reads and checks its task list, prepares one core after another, pushes and starts its entries in order,
wakes the cores and ends with its status at DONE, RD advanced; a slot without progress is frozen. What the HQS reads and
writes for a core. -/
def Obligations.Launches : Prop :=
  ∀ (s : State) (q : BitVec 6),
    let h := s.hw q
    let r := s.run (.hqs q)
    let desc := s.hub.qtb.toNat / 64 * 64 + 64 * h.uq
    let d (k : Nat) : Word := s.word (desc + 8 * k)
    let rd1 : Word := BitVec.ofNat 64 ((d 1).toNat / 2 ^ 32 * 2 ^ 32 + (h.rd.toNat + 1) % 2 ^ 32)
    let frozenState (fc : Nat) : Word := BitVec.ofNat 64 (2 * 2 ^ 56 + fc * 2 ^ 48 + (d 5).toNat % 2 ^ 48)
    let stored (t : State) (a : Nat) (v : Word) : Prop := ∀ k < 2 ^ 43, Memory.byte t.mem k =
      if a ≤ k ∧ k < a + 8 then (wordBytes v).getD (k - a) 0 else Memory.byte s.mem k
    let freezes (i : Instr) (fc : Nat) : Prop := Answers i s (fun t =>
      (t.hw q).st = .frozen ∧ stored t (desc + 40) (frozenState fc))
    let got (tag idx n : Nat) (w : Nat → Word) : Prop :=
      ∀ k < n, (r.got.find? (fun e => e.1 == { tag := tag, idx := idx, off := k })).map (·.2) = some (wordBytes (w k))
    let found (tag n : Nat) (va : Nat → Word) : Prop :=
      ∀ k < n, ∃ g, ((homeWork s q (tag + 2 ^ 20) k .read (va k)).result r).1 = .ok g
    let goes (i : Instr) (l : Launch) (es : List Instr) : Prop := Answers i s (fun t =>
      t = { s with runs := t.runs, due := s.due ++ es, hub := { s.hub with hw := t.hub.hw } } ∧
      t.hw q = { h with launch := some l } ∧ (∀ q', q' ≠ q → t.hw q' = s.hw q') ∧ t.run (.hqs q) = Run.start ∧
      ∀ a, a ≠ .hqs q → t.run a = s.run a)
    let ends (l : Launch) (status : BitVec 8) : Prop := goes (.launchPacket q)
      { l with stage := .running, status := if l.status = 0 then status else l.status } [.launchDone q]
    let bitsOf (l : List Word) (k hi lo : Nat) : Nat := (l.getD k 0).toNat / 2 ^ lo % 2 ^ (hi - lo + 1)
    let inDomain (l : List Word) (c : Nat) : Prop :=
      let f := bitsOf l 2 12 0
      ∃ a ≤ bitsOf l 3 2 0, ∃ b ≤ bitsOf l 3 12 8, ∃ e ≤ bitsOf l 3 20 16,
        c = 1024 * (f / 1024 + a) + 32 * (f % 1024 / 32 + b) + (f % 32 + e)
    (∀ k < 8, s.readRefuses (desc + 8 * k) = none) → h.uq ∉ s.hub.descLost →
    .launchPacket q ∉ s.due → .nopPacket q ∉ s.due → .launchDone q ∉ s.due →
    (h.launch = none →
      let takes : Prop := h.st = .mapped ∧ s.work q = 0
      let left : Prop := (d 2).toNat % 2 ^ 32 ≠ h.rd.toNat
      let va (k : Nat) : Word := h.ring + BitVec.ofNat 64 (64 * (h.rd.toNat % 2 ^ h.rlog)) + BitVec.ofNat 64 (8 * k)
      let fresh : Prop := ∀ e ∈ s.runs, e.1 ≠ .hqs q
      Does (.nopPacket q) s s ∧ Does (.launchDone q) s s ∧
      (¬ takes → r.out ≠ [] → Does (.launchPacket q) s s) ∧
      (¬ takes → r.out = [] → Answers (.launchPacket q) s (fun t => t = { s with runs := t.runs } ∧ t.run (.hqs q) = Run.start)) ∧
      (takes → ¬ left → fresh →
        Answers (.launchPacket q) s (fun t => Posted s t [] ∧ t = { s with slices := t.slices, due := t.due })) ∧
      (takes → left → fresh → (∀ k < 8, ∃ v, regionOf (va k) = .dev v) → ∃ k < 8, ∀ v, regionOf (va k) = .dev v →
        Answers (.launchPacket q) s (fun t => (∃ g : Request, .homePerform g ∈ t.due ∧ g.core = 0 ∧ g.hq = q ∧ g.cls = .engine ∧
          g.home = .dev (s.walkRoot (.dev q (v / 2 ^ 16))) ∧ g.op = .agentRead (.hqs q) { tag := 2 ^ 20, idx := k, off := 2 } 8) ∧
          .launchPacket q ∈ t.due ∧ t.mem = s.mem ∧ t.cores = s.cores ∧ t.hub = s.hub)) ∧
      (takes → r.fails ≠ [] → r.out = [] → freezes (.launchPacket q) 5) ∧
      (∀ w : List Word, takes → left → r.fails = [] → w.length = 8 → found 0 8 va → got 0 0 8 (fun k => w.getD k 0) →
        let bits := bitsOf w
        let l (stage : LaunchStage) (store : Bool) (status : BitVec 8) : Launch :=
          { stage := stage, packet := w, entries := [], done := w.getD 7 0, store := store, status := status }
        let good : Prop := bits 0 63 56 = 1 ∧ bits 0 55 32 = 0 ∧ 1 ≤ bits 0 31 0 ∧ bits 0 31 0 ≤ 2 ^ 20 ∧ bits 2 63 13 = 0 ∧
          bits 3 63 21 = 0 ∧ bits 3 15 13 = 0 ∧ bits 3 7 3 = 0 ∧ bits 5 63 17 = 0 ∧ bits 2 12 10 + bits 3 2 0 < 8 ∧
          bits 2 9 5 + bits 3 12 8 < 32 ∧ bits 2 4 0 + bits 3 20 16 < 32 ∧
          (w.getD 4 0 = 0 ∨ bits 5 16 0 % 64 = 0 ∧ bits 5 16 0 ≤ 0x10000) ∧ ∀ c, inDomain w c → c ∉ s.hub.retired
        (bits 0 63 56 = 0 → goes (.launchPacket q) (l .running (decide (w.getD 7 0 ≠ 0)) 0) [.nopPacket q]) ∧
        (bits 0 63 56 ≠ 0 → ¬ good → goes (.launchPacket q) (l .running true 0x0F) [.launchDone q]) ∧
        (good → goes (.launchPacket q) (l .list true 0) [.launchPacket q]))) ∧
    (∀ l, h.launch = some l →
      let k := launchOf l.packet
      let running : Prop := l.stage = .running ∨ l.stage = .ending
      let live : Prop := l.status = 0
      (¬ running → ¬ live → r.out = [] → ends l 0x10) ∧ (¬ running → ¬ live → r.out ≠ [] → Does (.launchPacket q) s s) ∧
      (running → Does (.launchPacket q) s s) ∧
      (∀ e : Nat → Nat → Word, live → l.stage = .list → r.fails = [] → r.out = [] →
        found 1 (8 * k.nt) (fun i => k.tlist + BitVec.ofNat 64 (8 * i)) →
        got 1 0 (8 * k.nt) (fun i => e (i / 8) (i % 8)) → bitsOf l.packet 2 9 5 + bitsOf l.packet 3 12 8 < 32 →
        bitsOf l.packet 2 4 0 + bitsOf l.packet 3 20 16 < 32 →
        let bits (i hi lo : Nat) : Nat := (e i 4).toNat / 2 ^ lo % 2 ^ (hi - lo + 1)
        let good (i : Nat) : Prop := (e i 0).getLsbD 62 = false ∧ bits i 63 45 = 0 ∧ bits i 19 13 = 0 ∧ e i 5 = 0 ∧ e i 6 = 0 ∧
          e i 7 = 0 ∧ inDomain l.packet (bits i 12 0) ∧
          (bits i 23 20 ≠ 0 → 8 ≤ bits i 31 24 ∧ bits i 31 24 ≤ 128 ∧ bits i 31 24 % 8 = 0)
        ((∃ i < k.nt, ¬ good i) → ends l 0x0F) ∧
        ((∀ i < k.nt, good i) → ∃ cs : List Nat, cs.Pairwise (· < ·) ∧ (∀ c, c ∈ cs ↔ inDomain l.packet c) ∧
          goes (.launchPacket q) { l with
            stage := .cores cs false
            entries := (List.range k.nt).map (fun i => {
              task := { hasRec := (e i 0).getLsbD 63, rw := BitVec.ofNat 14 ((e i 0).toNat / 2 ^ 48),
                        pc := BitVec.ofNat 48 (e i 0).toNat, a0 := e i 1, a1 := e i 2, a2 := e i 3,
                        rc := BitVec.ofNat 13 (bits i 44 32), hq := q }
              core := bits i 12 0, slot := bits i 23 20, win := bits i 31 24 }) } [.launchPacket q])) ∧
      (live → l.stage = .list → r.fails ≠ [] → r.out = [] → ends l 0x0F) ∧
      (∀ c cs, live → l.stage = .cores (c :: cs) false →
        let p := s.physical c
        let busy : Prop := (s.core p).latchTask ≠ none ∨ (s.core p).gone ≠ none ∨ (s.core p).saving ≠ none
        (busy → Does (.launchPacket q) s { s with due := s.due ++ [.launchPacket q] }) ∧
        (¬ busy → Answers (.launchPacket q) s (fun t =>
          t = { s with
            runs := t.runs, cores := t.cores, due := s.due ++ [.launchPacket q], hub := { s.hub with hw := t.hub.hw } } ∧
          t.hw q = { h with launch := some { l with stage := .cores (c :: cs) true } } ∧ (∀ q', q' ≠ q → t.hw q' = s.hw q') ∧
          (∀ p', p' ≠ p → t.core p' = s.core p') ∧ t.core p = { s.core p with owners := (t.core p).owners, icache := [] }))) ∧
      (∀ c cs, live → l.stage = .cores (c :: cs) true →
        let work := (coreWork s q k s.hub.stkt.toNat c (s.physical c)).result r
        (r.fails ≠ [] → r.out = [] → ends l 0x0F) ∧
        (∀ cause info, r.fails = [] → r.out = [] → work.1 = .error (.fail cause info) → ends l 0x0F) ∧
        (r.fails = [] → work.1 = .ok () → goes (.launchPacket q) { l with stage := .cores cs false } [.launchPacket q])) ∧
      (live → l.stage = .cores [] false → .watchdogExpiry q ∉ s.due → Answers (.launchPacket q) s (fun t =>
        t = { s with runs := t.runs, due := s.due ++ [.launchPacket q, .watchdogExpiry q], hub := { s.hub with hw := t.hub.hw } } ∧
        (∀ q', q' ≠ q → t.hw q' = s.hw q') ∧ t.hw q = { h with
          progress := s.hub.cyc
          launch := some { l with
            stage := .tasks (l.entries.filter (fun e => decide (e.slot = 0)) ++ l.entries.filter (fun e => decide (e.slot ≠ 0))) } })) ∧
      (∀ e es, live → l.stage = .tasks (e :: es) →
        let p := s.physical e.core
        let c := s.core p
        let onCore (more : List Instr) (P : Core → Prop) : Prop := Answers (.launchPacket q) s (fun t =>
          t = { s with
            runs := t.runs, cores := t.cores, due := s.due ++ [.launchPacket q] ++ more, hub := { s.hub with hw := t.hub.hw } } ∧
          t.hw q = { h with
            launch := some { l with stage := .tasks es }
            progress := if s.work q = 0 ∧ h.st ≠ .free then s.hub.cyc else h.progress } ∧
          (∀ q', q' ≠ q → t.hw q' = s.hw q') ∧ (∀ p', p' ≠ p → t.core p' = s.core p') ∧ P (t.core p))
        let free : Prop := 1 ≤ e.slot ∧ e.slot ≤ 15 ∧ (c.slot e.slot).st = .empty ∧ c.tsm.getLsbD e.slot = false ∧
          c.owner e.slot = some q ∧
          (∀ m < 16, (c.slot m).st ≠ .empty →
            128 * e.slot + e.win ≤ (c.slot m).base ∨ (c.slot m).base + (c.slot m).size ≤ 128 * e.slot) ∧
          (∀ m < 16, c.tsm.getLsbD m = true → 128 * e.slot + e.win ≤ 1920 + 8 * m ∨ 1920 + 8 * m + 8 ≤ 128 * e.slot)
        (e.slot = 0 → (c.pushes ≠ [] ∨ 64 + c.dsn.toNat ≤ c.deque.length) → onCore [.continuationPush p] (fun x =>
          x = { c with pushes := c.pushes ++ [{ entry := e.task, cause := none }] })) ∧
        (e.slot = 0 → e.task.hq = q → h.st ≠ .frozen → c.pushes = [] → c.deque.length < 64 + c.dsn.toNat → c.deque.length < c.spilled + 64 →
          onCore [] (fun x => x = { c with deque := c.deque ++ [e.task], slots := x.slots } ∧
            (∀ m, m ≠ 0 → x.slot m = c.slot m) ∧
            x.slot 0 = (match (c.slot 0).wait with
              | .sleep _ => if c.eligibleSlot.isSome then s.awakeAt p 0 else c.slot 0
              | _ => c.slot 0))) ∧
        (free → 8 ≤ e.win → e.win ≤ 128 → onCore [] (fun x => x = { c with regs := x.regs, slots := x.slots } ∧
          (∀ m, m ≠ e.slot → x.slot m = c.slot m) ∧
          (∀ i, x.reg i = if i = 128 * e.slot then e.task.a0 else if i = 128 * e.slot + 1 then e.task.a1
            else if i = 128 * e.slot + 2 then e.task.a2
            else if i = 128 * e.slot + 3 then
              (if e.task.hasRec then
                BitVec.ofNat 64 (0xFE00000000000000 + e.task.rc.toNat * 2 ^ 17 + e.task.rw.toNat * 8) else 0)
            else if 128 * e.slot ≤ i ∧ i < 128 * e.slot + e.win then 0 else c.reg i) ∧
          x.slot e.slot = { Slot.reset with
            st := .active, pc := e.task.pc.setWidth 64, base := 128 * e.slot, size := e.win, hq := e.task.hq,
            latch := (c.slot e.slot).latch, owed := if e.task.hasRec then some (e.task.rc, e.task.rw) else none,
            wakeAt := s.cycle p + 1 })) ∧
        (1 ≤ e.slot → e.slot ≤ 15 → ¬ free → h.st = .mapped ∨ h.st = .draining → (s.cores.map (·.1)).Nodup →
          Answers (.launchPacket q) s (fun t => (t.hw q).st = .frozen ∧
            (t.hw q).launch = some { l with stage := .tasks es, status := 0x10 } ∧
            stored t (desc + 40) (frozenState 2)))) ∧
      (live → l.stage = .tasks [] → Answers (.launchPacket q) s (fun t =>
        t = { s with
          runs := t.runs, cores := t.cores, due := s.due ++ [.launchDone q], hub := { s.hub with hw := t.hub.hw } } ∧
        t.hw q = { h with launch := some { l with stage := .running } } ∧ (∀ q', q' ≠ q → t.hw q' = s.hw q') ∧
        ∀ p, t.core p = { s.core p with slots := (t.core p).slots } ∧ ∀ n,
          let wakes : Prop := n = 0 ∧ (∃ e ∈ l.entries, s.physical e.core = p) ∧ ∃ c, (s.slot p 0).wait = .sleep c
          (wakes → t.slot p n = s.awakeAt p 0) ∧ (¬ wakes → t.slot p n = s.slot p n))) ∧
      (∀ i ∈ [Instr.nopPacket q, .launchDone q],
        let finishes : Prop := Answers i s (fun t => Posted s t (if h.st = .mapped then [.launchPacket q] else []) ∧
          t = { s with
            mem := t.mem, slices := t.slices, runs := t.runs, due := t.due, hub := { s.hub with hw := t.hub.hw } } ∧
          t.hw q = { h with launch := none, rd := h.rd + 1 } ∧ (∀ q', q' ≠ q → t.hw q' = s.hw q') ∧
          StoredAt s t (desc + 8) (wordBytes rd1))
        let fails : Prop := h.st = .mapped ∨ h.st = .draining → Answers i s (fun t => (t.hw q).st = .frozen ∧
          (t.hw q).launch = none ∧ (t.hw q).rd = h.rd + 1 ∧ t.word (desc + 8) = rd1 ∧ t.word (desc + 40) = frozenState 5)
        (¬ running → Does i s s) ∧ (l.stage = .running → s.work q ≠ 0 → Does i s s) ∧
        (l.stage = .running → s.work q = 0 → l.store = false → finishes) ∧
        (l.stage = .running → s.work q = 0 → l.store = true →
          let home := (homeWork s q 9 0 .write l.done).result r
          (r.fails ≠ [] → r.out = [] → fails) ∧
          (∀ cause info, r.fails = [] → r.out = [] → home.1 = .error (.fail cause info) → fails) ∧
          (∀ v, r = Run.start → regionOf l.done = .dev v → Answers i s (fun t => ∃ g : Request, .homePerform g ∈ t.due ∧
            g.core = 0 ∧ g.hq = q ∧ g.cls = .engine ∧ g.home = .dev (s.walkRoot (.dev q (v / 2 ^ 16))) ∧
            g.op = .agentRead (.hqs q) { tag := 9, idx := 0, off := 2 } 8 ∧ t.mem = s.mem ∧ t.hub = s.hub)) ∧
          (∀ pa, r.fails = [] → home.1 = .ok (.dev pa) → Answers i s (fun t =>
            t = { s with
              runs := t.runs, hub := { s.hub with hw := t.hub.hw }
              due := s.due ++ [.homePerform { agentRequest 0 q (.complete (.hqs q) (BitVec.ofNat 64 l.status.toNat)) (.dev pa)
                l.done with sent := s.cycle 0, issued := s.cycle 0 }] } ∧
            t.hw q = { h with launch := some { l with stage := .ending } } ∧ (∀ q', q' ≠ q → t.hw q' = s.hw q') ∧
            t.run (.hqs q) = { Run.start with out := [{ tag := 8, idx := 0, off := 0 }] }))) ∧
        (l.stage = .ending → r.got = [] → Does i s s) ∧
        (∀ e more, l.stage = .ending → r.got = e :: more → (e.2 = [0] → finishes) ∧ (e.2 ≠ [0] → fails)))) ∧
    (∀ (w : List Word) (stkt c p : Nat),
      let k := launchOf w
      let words := if k.img = 0 then 0 else k.isz / 8
      let va (i : Nat) : Word := k.img + BitVec.ofNat 64 (8 * i)
      let reads (key : AccKey) (home : Home) : Ask :=
        { key := key, core := 0, hq := q, va := 0, n := 8, write := none, remote := none, home := some home }
      let fills (key : AccKey) (off : Nat) (v : Word) : Ask :=
        { key := key, core := 0, hq := q, va := 0, n := 8, write := some (wordBytes v), remote := none, home := some (.ls p off) }
      let stack := (List.range 16).map (fun i =>
        reads { tag := 2, idx := 0, off := i } (.dev (stkt / 128 * 128 + 128 * c + 8 * i)))
      (∀ v : Nat → Nat, (∀ i < words, regionOf (va i) = .dev (v i)) → (coreWork s q k stkt c p).result Run.start = (.error .wait,
        (List.range words).map (fun i =>
          reads { tag := 4 + 2 * i + 2 ^ 20, idx := 0, off := 2 } (.dev (s.walkRoot (.dev q (v i / 2 ^ 16))))) ++
        if stkt = 0 then [fills { tag := 3, idx := 0, off := 0 } 0x1FF00 0] else stack)) ∧
      (∀ tops : Nat → Word, stkt ≠ 0 → got 2 0 16 tops → (tops 0).toNat / 2 ^ 15 % 2 ^ 49 ≠ 0 →
        ∃ cause info, ((coreWork s q k stkt c p).result r).1 = .error (.fail cause info)) ∧
      (∀ (bytes : Nat → Word) (tops : Nat → Word), (∀ i < words, got (4 + 2 * i) 0 1 (fun _ => bytes i) ∧
          ∃ g, (homeWork s q (4 + 2 * i + 2 ^ 20) 0 .read (va i)).result r = (.ok g, [])) →
        (∀ e ∈ r.got, ∀ i, e.1.tag ≠ 5 + 2 * i ∧ e.1.tag ≠ 3) → stkt ≠ 0 → got 2 0 16 tops →
        (tops 0).toNat / 2 ^ 15 % 2 ^ 49 = 0 → (coreWork s q k stkt c p).result r = (.error .wait,
          (List.range words).map (fun i => fills { tag := 5 + 2 * i, idx := 0, off := 0 } (8 * i) (bytes i)) ++
          (List.range 16).map (fun i => fills { tag := 3, idx := 0, off := i } (0x1FF00 + 8 * i) (tops i))))) ∧
    (∀ (tag idx : Nat) (n : Need) (va : Word) (run : Run),
      let work := (homeWork s q tag idx n va).result run
      ((∀ v, regionOf va ≠ .dev v) → work = (.error (.fail 0x05 tag), [])) ∧
      (∀ v e, regionOf va = .dev v →
        (walkWork q tag idx (.dev q (v / 2 ^ 16)) 2 (s.walkRoot (.dev q (v / 2 ^ 16)))).result run = (.ok e, []) →
        work = match tlbHome e 0 (2 ^ 13) n v with
          | .home g => (.ok g, [])
          | .fault cause => (.error (.fail cause tag), []))) ∧
    (s.hub.wdog = 0 ∨ s.hub.cyc < h.progress + 1024 * s.hub.wdog.toNat ∨ s.work q = 0 ∧ h.launch = none →
      Does (.watchdogExpiry q) s s) ∧
    (s.hub.wdog ≠ 0 → s.work q ≠ 0 → h.progress + 1024 * s.hub.wdog.toNat ≤ s.hub.cyc → h.st = .mapped ∨ h.st = .draining →
      freezes (.watchdogExpiry q) 3) ∧
    (s.hub.wdog ≠ 0 → s.work q = 0 → h.launch ≠ none → h.progress + 1024 * s.hub.wdog.toNat ≤ s.hub.cyc →
      Answers (.watchdogExpiry q) s (fun t =>
        t = { s with due := s.due ++ [.watchdogExpiry q], hub := { s.hub with hw := t.hub.hw } } ∧
        t.hw q = { h with progress := s.hub.cyc } ∧ ∀ q', q' ≠ q → t.hw q' = s.hw q'))

/-- R325, R334, R335, R338, R356: what a freeze does: HCMD, the descriptor, the running launch's status; the tasks of the queue,
in the deque, in the spill area, latched and waiting to be pushed, whose records are cancelled; its copy commands that have not
started; its running threads, to which 0x10 comes, its parked threads, whose wait is withdrawn where nothing has been sent, and
its stopped ones, which trap at once; a draining record stays as it is; a context that is saved or moving takes the freeze into
its frozen mask; a drained thread's owed record is cancelled in its turn. -/
def Obligations.Freezing : Prop :=
  (∀ (s : State) (q : BitVec 6) (fc : BitVec 8),
    let h := s.hw q
    let desc := s.hub.qtb.toNat / 64 * 64 + 64 * h.uq
    let hcmd : Word := BitVec.ofNat 64 (
      if s.hub.hcmd.toNat / 2 ^ 54 = 64 + q.toNat then s.hub.hcmd.toNat % 2 ^ 60 else q.toNat * 2 ^ 54)
    let mine (e : TaskEntry) : Prop := e.hq = q ∧ e.hasRec = true
    let cancel (e : TaskEntry) : Instr := .cancelPropagation e.rc.toNat (e.rw.toNat * 8) q none
    let event : Late := { cause := 0x10, seq := 0, addr := 0, pc := 0, tile := 0 }
    let mask : BitVec 64 := BitVec.ofNat 64 (2 ^ q.toNat)
    let withdrawn (w : Wait) : Prop := match w with
      | .order _ _ | .treeOrder _ _ | .bank _ _ | .engineQueue _ _ | .sleep _ | .pageWalk _ _ _ _ _ _ | .allowance _ _ _
      | .held _ _ _ _ _ => True
      | .tileStore _ j => j.since ≠ none
      | _ => False
    (h.st = .free ∨ h.st = .frozen → Does (.freeze q fc) s { s with hub := { s.hub with hcmd := hcmd } }) ∧
    (h.st = .mapped ∨ h.st = .draining → s.readRefuses (desc + 40) = none → (s.cores.map (·.1)).Nodup →
      Answers (.freeze q fc) s (fun t => (t.hw q).st = .frozen ∧ t.hub.hcmd = hcmd ∧
        (t.hw q).launch = h.launch.map (fun l => if l.status = 0 then { l with status := 0x10 } else l) ∧ t.fe = s.fe ∧
        t.saved = s.saved.map (fun e => (e.1, { e.2 with core := { e.2.core with frozen := e.2.core.frozen ||| mask } })) ∧
        (∀ k < 2 ^ 43, Memory.byte t.mem k = if desc + 40 ≤ k ∧ k < desc + 48 then
            (wordBytes (BitVec.ofNat 64 (2 * 2 ^ 56 + fc.toNat * 2 ^ 48 + (s.word (desc + 40)).toNat % 2 ^ 48))).getD (k - desc - 40) 0
          else Memory.byte s.mem k) ∧
        (∀ p, let n := if (s.core p).copyRun = none then 0 else 1
          (t.core p).copyQueue = (s.core p).copyQueue.take n ++
            ((s.core p).copyQueue.drop n).map (fun c => if c.hq = q then { c with cancelled := true } else c)) ∧
        (∀ p, (s.core p).saving ≠ none → (t.core p).frozen = (s.core p).frozen ||| mask ∧ (t.core p).slots = (s.core p).slots ∧
          (t.core p).deque = (s.core p).deque ∧ (t.core p).latchTask = (s.core p).latchTask) ∧
        ∀ p, (s.core p).saving = none →
          let c := s.core p
          let spillArea := c.dsb.toNat / 64 * 64
          c.spilled ≤ c.spillAt.length → (∀ k ∈ c.spillAt, s.readRefuses (spillArea + 64 * k) = none) →
          (t.core p).deque = c.deque.filter (fun e => decide (e.hq ≠ q)) ∧
          (t.core p).arrivals = c.arrivals.filter (fun a => decide (a.hq ≠ q)) ∧ (t.core p).regs = c.regs ∧
          (t.core p).latchTask = c.latchTask.filter (fun e => decide (e.hq ≠ q)) ∧
          (∀ e ∈ c.deque.drop c.spilled, mine e → cancel e ∈ t.due) ∧ (∀ e, c.latchTask = some e → mine e → cancel e ∈ t.due) ∧
          (∀ w ∈ c.pushes, w.cause = none → mine w.entry → cancel w.entry ∈ t.due) ∧
          (∀ i e k, i < c.spilled → c.deque[i]? = some e → e.hq = q → c.spillAt[i]? = some k →
            let word (j : Nat) : Nat := (t.word (spillArea + 64 * k + 8 * j)).toNat
            word 0 / 2 ^ 63 = 1 → .cancelPropagation (word 4 / 2 ^ 6 % 2 ^ 13) (word 0 / 2 ^ 48 % 2 ^ 14 * 8)
              (BitVec.ofNat 6 (word 4)) none ∈ t.due) ∧
          (∀ m, 1 ≤ m → m < 16 → (s.slot p m).hq = q →
            let x := s.slot p m
            (x.st = .active → .freezeCancel p m ∈ t.due ∧
              ((x.wait = .none ∨ withdrawn x.wait) → t.slot p m = { x with
                owedDue := true, late := x.late ++ [event], wait := .none }) ∧
              (¬ withdrawn x.wait → t.slot p m = { x with owedDue := true, late := x.late ++ [event] })) ∧
            (x.st = .stopped → .freezeCancel p m ∈ t.due ∧ .trapDrainEnd p m ∈ t.due ∧ ∃ r : Record, t.slot p m = { x with
                owedDue := true, st := .trapped false, record := some r, latch := none, double := x.latch.isSome, late := [],
                stopAt := none, wait := if x.wait.givesWay then .none else x.wait } ∧
              r.cause = 0x10 ∧ r.detail = 0 ∧ r.spc = x.pc ∧ r.fpc = x.pc) ∧
            (∀ b, x.st = .trapped b → .freezeCancel p m ∈ t.due ∧ t.slot p m = { x with owedDue := true })) ∧
          (∀ m, m = 0 ∨ 16 ≤ m ∨ (s.slot p m).hq ≠ q ∨ (s.slot p m).st = .empty → t.slot p m = s.slot p m)))) ∧
  (∀ (s : State) (p n : Nat) (rc : BitVec 13) (rw : BitVec 14),
    let x := s.slot p n
    (x.owedDue = false ∨ x.out ≠ [] ∨ x.owed = none ∨ x.st = .active → Does (.freezeCancel p n) s s) ∧
    (∀ b, x.st = .trapped b → x.owed = some (rc, rw) → x.owedDue = true → x.out = [] → Does (.freezeCancel p n) s
      { s.setSlot p n { x with owed := none, owedDue := false } with
        due := s.due ++ [.cancelPropagation rc.toNat (rw.toNat * 8) x.hq none] }))

/-- R276, R325, R336 to R338: a save or a move stops the core; at a rotation boundary the context is written out, or stands at
its new core, whose far-window entries the HQS reads and rewrites; a context saved at HCTX stands at a core with its store again,
once that core is empty; a vacated core sends on what still comes, until nothing does. A command for a context that is not there,
or to a retired core, has no effect, a move to a core that is retired meanwhile leaves the context where it is, and the words of a
saved context's image are free: the model's choices (log 40). -/
def Obligations.MovedContexts : Prop :=
  ∀ (s : State) (l d : Nat),
    let p := s.physical l
    let c := s.core p
    let hc := s.hub.hcmd.toNat
    let core := l % 2 ^ 13
    let dest := d % 2 ^ 13
    let saves : Word := if hc / 2 ^ 60 = 3 ∧ hc / 2 ^ 41 % 2 ^ 13 = core then s.hub.hcmd
      else BitVec.ofNat 64 (3 * 2 ^ 60 + core * 2 ^ 41)
    let names (op : Nat) : Word :=
      if hc / 2 ^ 60 = op ∧ hc / 2 ^ 41 % 2 ^ 13 = core ∧ hc / 2 ^ 28 % 2 ^ 13 = dest then s.hub.hcmd
      else BitVec.ofNat 64 (op * 2 ^ 60 + core * 2 ^ 41 + dest * 2 ^ 28)
    let ended (w : Word) : Word := BitVec.ofNat 64 (w.toNat % 2 ^ 60)
    let shows (w : Word) : State := { s with hub := { s.hub with hcmd := w } }
    let stops (target : Option Nat) (w : Word) (i : Instr) : Prop :=
      ((∃ n r, (s.slot p 0).wait = .reap n r) → Does i s { shows w with due := s.due ++ [i] }) ∧
      ((∀ n r, (s.slot p 0).wait ≠ .reap n r) →
        (c.gone ≠ none ∨ c.saving ≠ none ∨ (∃ e, target = some e ∧ (s.core e).retired = true) → Does i s (shows (ended w))) ∧
        (c.gone = none → c.saving = none → (∀ e, target = some e → (s.core e).retired = false) →
          Answers i s (fun t => t = { shows w with cores := t.cores, due := s.due ++ [.contextCopy p] } ∧
            (∀ q, q ≠ p → t.core q = s.core q) ∧
            t.core p = { c with
              saving := some target, slots := (t.core p).slots
              wasActive := (List.range 16).filter (fun n => (c.slot n).st == .active && (c.slot n).stopAt.isNone) } ∧
            ∀ n, t.slot p n = if (s.slot p n).st = .active then { s.slot p n with
              stopAt := some (Min.min (s.cycle p + 1) ((s.slot p n).stopAt.getD (s.cycle p + 1))) } else s.slot p n)))
    let left (t : State) (q : Nat) (target : Option Nat) : Prop := t.core q = { Core.reset with
      logical := if target = none then (s.core q).logical else none
      gone := some target, ctxOut := (s.core q).ctxOut, tlb := (s.core q).tlb, walks := (s.core q).walks
      noPage := (s.core q).noPage, drops := (s.core q).drops, lastDrop := (s.core q).lastDrop, icache := (s.core q).icache
      fills := (s.core q).fills, retired := (s.core q).retired }
    let runs (x : Core) (u : Slot) (n : Nat) : SlotState := if u.st = .stopped ∧ n ∈ x.wasActive then .active else u.st
    let entry (half : Nat) : Nat := s.hub.fwtb.toNat / 2 ^ 17 * 2 ^ 17 + 8 * (2 * l + half)
    let far (half idx : Nat) : AccKey := { tag := half, idx := idx, off := 0 }
    let image (j : Nat) : AccKey := { tag := 0, idx := 0, off := j }
    let stands (t : State) (x : Core) : Prop :=
      let old := s.core d
      t.physical l = d ∧
      t.core d = { x with
        logical := (t.core d).logical, slots := (t.core d).slots, pushes := (t.core d).pushes, vdOld := none, tlb := old.tlb,
        walks := old.walks, noPage := old.noPage, drops := old.drops, lastDrop := old.lastDrop, icache := old.icache,
        fills := old.fills, saving := none, wasActive := [], gone := none, forwards := [], sendsOut := old.sendsOut,
        ctxOut := old.ctxOut, retired := old.retired, turn := 0, bankAt := old.bankAt, bankRank := old.bankRank,
        bankUsed := old.bankUsed, sectorAt := old.sectorAt } ∧
      t.logical d = l ∧
      (∀ n, x.slot n ≠ Slot.reset → t.slot d n = { x.slot n with
        st := runs x (x.slot n) n, wakeAt := s.cycle d + 1, stopAt := none, latchAt := 0
        wait := match (x.slot n).wait with
          | .reply r => .reply { r with
            core := if r.core = p then d else r.core
            home := match r.home with
              | .ls q o => .ls (if q = p then d else q) o
              | h => h }
          | w => w }) ∧
      (p ≠ d → left t p (some d)) ∧ .contextCopy p ∈ t.due ∧
      ∃ half < 2, ∃ g : Request, .homePerform g ∈ t.due ∧ g.home = .dev (entry half) ∧ g.cls = .engine ∧
        g.op = .agentRead (.far p l d) (far half 0) 8
    stops none saves (.saveCore l) ∧ stops (some d) (names 4) (.moveCore l d) ∧
    (s.contextRun p = none → s.copyReady p = false → Does (.contextCopy p) s { s with due := s.due ++ [.contextCopy p] }) ∧
    (s.contextRun p = none → s.copyReady p = true → c.saving = some none → Answers (.contextCopy p) s (fun t =>
      let key := s.hub.hctx.toNat * 2 ^ 13 + s.logical p % 2 ^ 13
      t.mem = s.mem ∧ t.fe = s.fe ∧ t.slices = s.slices ∧ (∀ q, q ≠ p → t.core q = s.core q) ∧ left t p none ∧
      t.hub = (if Config.contextImage s.choices = [] then (shows (ended s.hub.hcmd)).hub else s.hub) ∧
      ∃ v, t.saved.find? (fun e => e.1 == key) = some (key, v) ∧ v.core = c ∧ v.lcore = s.logical p ∧ v.ctx = s.hub.hctx ∧
        ∀ o < 2 ^ 17, Memory.byte v.bytes o = Memory.byte s.mem (localKey p o))) ∧
    (∀ (i addr : Nat) (ws : List Word),
      let r := s.run (.image p i addr)
      (imageWork p addr ws).result Run.start = (if ws = [] then (.ok (), []) else (.error .wait,
        (List.range ws.length).map (fun j => {
          key := image j, core := p, hq := Config.slot0Queue, va := 0, n := 8, write := some (wordBytes (ws.getD j 0))
          remote := none, home := some (.dev (addr + 8 * j)) }))) ∧
      (s.contextRun p = some (.image p i addr) → c.saving = none → r.out = [] →
        (r.fails ≠ [] ∨ ∀ j < (Config.contextImage i).length, r.got.any (fun e => e.1 == image j) = true) →
        Answers (.contextCopy p) s (fun t => t = { shows (ended s.hub.hcmd) with runs := t.runs }))) ∧
    (s.contextRun p = none → s.copyReady p = true → c.saving = some (some d) → s.logical p = l → c.frozen = 0 →
      ((s.core d).retired = false → p ≠ d → s.canonical = true → Answers (.contextCopy p) s (fun t =>
        stands t c ∧ t.hub = s.hub ∧ ∀ o < 2 ^ 17, Memory.byte t.mem (localKey d o) = Memory.byte s.mem (localKey p o))) ∧
      ((s.core d).retired = true → Answers (.contextCopy p) s (fun t =>
        t = { shows (ended s.hub.hcmd) with cores := t.cores, due := t.due } ∧ (∀ q, q ≠ p → t.core q = s.core q) ∧
        t.core p = { c with slots := (t.core p).slots, saving := none, wasActive := [] } ∧
        ∀ n, (s.slot p n).st = .stopped → n ∈ c.wasActive → (t.slot p n).st = .active ∧ (t.slot p n).pc = (s.slot p n).pc))) ∧
    (let r := s.run (.far p l d)
     let asks (half idx : Nat) (write : Option (List Byte)) : Ask :=
       { key := far half idx, core := if idx = 0 then 0 else p, hq := Config.slot0Queue, va := 0, n := 8, write := write,
         remote := none, home := some (.dev (entry half)) }
     (farWork s p l d).result Run.start = (.error .wait, [asks 0 0 none, asks 1 0 none]) ∧
     (∀ e : Nat → Word, (∀ x ∈ r.got, x.1.idx = 0) →
       (∀ half < 2, (r.got.find? (fun x => x.1 == far half 0)).map (·.2) = some (wordBytes (e half))) →
       let writes (half : Nat) : Ask :=
         asks half 1 (some (wordBytes (BitVec.ofNat 64 ((e half).toNat / 2 ^ 13 * 2 ^ 13 + d % 2 ^ 13))))
       (farWork s p l d).result r = (.error .wait, [writes 0, writes 1])) ∧
     (s.contextRun p = some (.far p l d) → c.saving = none → r.out = [] → (s.cores.map (·.1)).Nodup →
       (r.fails ≠ [] ∨ ∀ half < 2, ∀ idx < 2, r.got.any (fun e => e.1 == far half idx) = true) →
       Answers (.contextCopy p) s (fun t => t.hub = (shows (ended s.hub.hcmd)).hub ∧ t.mem = s.mem ∧
         (p ≠ d → .forwardingRelease p ∈ t.due ∧ ∀ q, t.core q = if (s.core q).tlb = [] ∧ (s.core q).walks = [] then s.core q
           else { s.core q with drops := (s.core q).drops ++ [BitVec.ofNat 64 (4 * 2 ^ 60 + core * 2 ^ 41)] })))) ∧
    (let key := s.hub.hctx.toNat * 2 ^ 13 + l % 2 ^ 13
     let ready : Prop := (s.core d).gone = none ∨ (s.core d).gone = some none ∧ p = d
     ((∀ e ∈ s.saved, e.1 ≠ key) → Does (.restoreCore l d) s (shows (ended (names 5)))) ∧
     (∀ v, s.saved.find? (fun e => e.1 == key) = some (key, v) →
        ((s.core d).retired = true → Does (.restoreCore l d) s (shows (ended (names 5)))) ∧
        ((s.core d).retired = false → ¬ ready → Does (.restoreCore l d) s
          { shows (names 5) with due := s.due ++ [.restoreCore l d] }) ∧
        ((s.core d).retired = false → ready → v.core.frozen = 0 → s.contextRun p = none →
          Memory.wf v.bytes = true → (∀ e ∈ v.bytes, e.1 < 2 ^ 17) → Answers (.restoreCore l d) s (fun t =>
            stands t v.core ∧ t.hub = (shows (names 5)).hub ∧ (∀ e ∈ t.saved, e.1 ≠ key) ∧
            ∀ o < 2 ^ 17, Memory.byte t.mem (localKey d o) = Memory.byte v.bytes o)))) ∧
    (∀ q i,
      let f := (s.core q).forwards
      let taken : State := s.setCore q { s.core q with forwards := f.eraseIdx i }
      let sends (e : Instr) : Prop := ∃ t, exec (.forwardReinject q i) s = .next t ∧ exec e taken = .next t
      ((s.core q).gone = none ∨ f.length ≤ i → Does (.forwardReinject q i) s s) ∧
      ((s.core q).gone = some (some d) →
        (∀ r o, f[i]? = some (.homePerform r) → r.home = .ls q o → sends (.homePerform { r with home := .ls d o }) ∧
          (q ≠ d → (s.core d).gone = none → (s.core d).bank = [] → r.op = .store .d → r.cls = .plain → o ≠ acwOffset →
            Answers (.forwardReinject q i) s (fun t =>
              t = { (taken.useBanks d 2 o 8).withMemory t with
                due := s.due ++ [.remoteReply { r with home := .ls d o } 0] } ∧ t.fe = s.fe ∧
              StoredAt s t (localKey d o) (wordBytes r.data)))) ∧
        (∀ m, f[i]? = some (.mailboxWrite m) → sends (.mailboxWrite { m with toCore := d })) ∧
        (∀ src a, f[i]? = some (.arrival src q a) → sends (.arrival src d a))) ∧
      let unused : Prop := f = [] ∧ (∀ e ∈ s.due, headsFor q e = false) ∧
        (∀ e ∈ s.cores, e.2.drops = [] ∧ (∀ x ∈ e.2.slots, x.2.wait.headsFor q = false) ∧
          ∀ x ∈ e.2.copyQueue, homeIn q x.comp = false) ∧
        (∀ e ∈ s.klus, ∀ x ∈ e.2, homeIn q x.comp = false) ∧ ∀ e ∈ s.dies, ∀ x ∈ e.2.coll, homeIn q x.comp = false
      (unused → Does (.forwardingRelease q) s (s.setCore q { s.core q with gone := none })) ∧
      (¬ unused → Does (.forwardingRelease q) s { s with due := s.due ++ [.forwardingRelease q] }))

/-- R6, R362, R363: a TLBI operation, whose other fields are 0 where it is given by its operands alone (log 38), asks every core
that holds or walks for translations for a drop; a core drops the entries the operation names, and walks again for their pages; TLBI's OP reads 0
when every core has and no access that used a dropped entry is left. -/
def Obligations.TranslationDrops : Prop :=
  ∀ (s : State) (hq : BitVec 6) (vpn : BitVec 31) (l : BitVec 13),
    let word (op : Nat) (q page core : Nat) : Word := BitVec.ofNat 64 (op * 2 ^ 60 + q * 2 ^ 54 + core * 2 ^ 41 + page)
    let old := s.hub.tlbi.toNat
    let asks (i : Instr) (w : Word) : Prop := (s.cores.map (·.1)).Nodup → Answers i s (fun t =>
      t = { s with cores := t.cores, due := t.due, hub := { s.hub with tlbi := w } } ∧ .tlbiComplete ∈ t.due ∧
      ∀ p,
        let holds : Prop := (s.core p).tlb ≠ [] ∨ (s.core p).walks ≠ []
        (¬ holds → t.core p = s.core p) ∧
        (holds → t.core p = { s.core p with drops := (s.core p).drops ++ [w] } ∧ .tlbEntryDrop p ∈ t.due))
    let drops (w : Word) (keep : TlbEntry → Bool) (again : PageKey → Bool) : Prop := ∀ p, (s.core p).drops = [w] →
      Does (.tlbEntryDrop p) s (s.setCore p { s.core p with
        tlb := (s.core p).tlb.filter keep, drops := [], lastDrop := s.cycle p + 1
        walks := (s.core p).walks.map (fun x => if again x.key && x.level != 3 then { x with again := true } else x) })
    asks .tlbiDropAll (word 1 0 0 0) ∧ asks (.tlbiDropHq hq) (word 2 hq.toNat 0 0) ∧
    asks (.tlbiDropPage hq vpn) (word 3 hq.toNat vpn.toNat 0) ∧ asks (.tlbiDropFar l) (word 4 0 0 l.toNat) ∧
    (∀ page < 2 ^ 31, ∀ core < 2 ^ 13, ∀ q < 2 ^ 6,
      drops (word 1 q page core) (fun _ => false) (fun _ => true) ∧
      drops (word 2 hq.toNat page core) (fun e => match e.key with
        | .dev x _ => decide (x ≠ hq)
        | .far _ _ => true) (fun k => match k with
        | .dev x _ => decide (x = hq)
        | .far _ _ => false) ∧
      drops (word 3 hq.toNat vpn.toNat core) (fun e => match e.key with
        | .dev x v => decide (¬ (x = hq ∧ (v = vpn.toNat ∨ e.big = true ∧ v / 512 = vpn.toNat / 512)))
        | .far _ _ => true) (fun k => match k with
        | .dev x v => decide (x = hq ∧ v / 512 = vpn.toNat / 512)
        | .far _ _ => false) ∧
      drops (word 4 q page l.toNat) (fun e => match e.key with
        | .dev _ _ => true
        | .far c _ => decide (c ≠ l.toNat)) (fun k => match k with
        | .dev _ _ => false
        | .far c _ => decide (c = l.toNat))) ∧
    ((∀ e ∈ s.cores, e.2.drops = [] ∧ (e.2.lastDrop = 0 ∨ s.usesDropped e.1 e.2 = false)) →
      Does .tlbiComplete s { s with hub := { s.hub with tlbi := BitVec.ofNat 64 (old % 2 ^ 60) } }) ∧
    ((∃ e ∈ s.cores, e.2.drops ≠ [] ∨ ∃ r : Request, r.core = e.1 ∧ r.issued < e.2.lastDrop ∧
        (.homePerform r ∈ s.due ∨ .savedStoreRefusal r ∈ s.due ∨ ∃ n, (s.core e.1 = e.2 ∧ (s.slot e.1 n).wait = .reply r))) →
      Does .tlbiComplete s { s with due := s.due ++ [.tlbiComplete] })

/-! ## Slices, links, boot, alarms and power -/

/-- R332, R333, R365 to R368, R397: budgets refill at their boundary; a buffered sector goes to its page; an epoch's swaps
begin; a move copies 1,024 sectors and then changes the entry; entries are written while nothing moves, with the number of a
page that exists (log 49). R88, R369, R393 to R397: errors of the media: a read that fails again is counted, its frame
scored, and its request refused with 0x06; corrected and lasting corrected errors are counted and scored; a line fetched
with bad parity is fetched again or traps; an accumulator entry is poisoned; a read of the host or of the
HQS fails too; the patrol goes from sector to sector; scores halve once at the end of a period. -/
def Obligations.SliceSteps : Prop :=
  (∀ (s : State) (i : Nat),
    let x := s.slice i
    let cyc := s.sliceCycle i
    let e (f : Nat) : Indirection := Sparse.get Indirection.reset x.ind f
    let quiet : Prop := (x.scrubEn = false ∨ x.patrol ≠ none) ∧ (x.scrubEn = false ∨ x.hotList = [] ∨ x.hotScrub ≠ none)
    let page (w : Word) : Prop := w.toNat % 2 ^ 27 < if w.getLsbD 62 then 88080384 else 57344
    (x.refillAt = 0 ∨ cyc < x.refillAt → Does (.budgetRefill i) s s) ∧
    (x.refillAt ≠ 0 → x.refillAt ≤ cyc →
      (x.waiting = [] → Does (.budgetRefill i) s (s.setSlice i { x with readUsed := [], writeUsed := [], refillAt := 0 })) ∧
      (x.waiting ≠ [] → (x.epochAt ≠ 0 ∨ x.tierEn = false) → Does (.budgetRefill i) s { s.setSlice i { x with
        readUsed := [], writeUsed := [], refillAt := (cyc / 1024 + 1) * 1024 } with due := s.due ++ [.budgetRefill i] })) ∧
    (∀ a l, x.buffer = a :: l → Does (.writeBufferFlush i) s
      { s.setSlice i { x with buffer := l } with due := s.due ++ if l = [] then [] else [.writeBufferFlush i] }) ∧
    (x.epochAt = 0 ∨ cyc < x.epochAt → Does (.epochEnd i) s s) ∧
    (x.epochAt ≠ 0 → x.epochAt ≤ cyc →
      (x.tierEn = false → x.moves = [] → Does (.epochEnd i) s (s.setSlice i { x with counts := [], epochAt := 0 })) ∧
      (∀ h c, x.tierEn = true → x.moves = [] → h < c → x.ind = [(h, e h), (c, e c)] → (e h).v = true → (e h).tier = true →
        (e h).mv = false → (e c).v = true → (e c).tier = false → (e c).mv = false →
        x.hot.toNat ≤ Sparse.get 0 x.counts h → 0 < x.maxmv.toNat → Sparse.get 0 x.counts c < Sparse.get 0 x.counts h →
        Answers (.epochEnd i) s (fun t => t = { s.setSlice i (t.slice i) with due := s.due ++ [.moveSectorStep i] } ∧
          t.slice i = { x with
            counts := [], epochAt := 0, ind := (t.slice i).ind,
            moves := [{ frame := h, sector := 0, tier := false, loc := (e c).loc, retire := false },
              { frame := c, sector := 0, tier := true, loc := (e h).loc, retire := false }] } ∧
          Sparse.get Indirection.reset (t.slice i).ind h = { e h with mv := true } ∧
          Sparse.get Indirection.reset (t.slice i).ind c = { e c with mv := true }))) ∧
    (∀ m l, x.moves = m :: l →
      (m.sector < 1023 → Does (.moveSectorStep i) s { s.setSlice i { x with
        moves := { m with sector := m.sector + 1 } :: l } with due := s.due ++ [.moveSectorStep i] }) ∧
      (1023 ≤ m.sector → Answers (.moveSectorStep i) s (fun t =>
        t = { s.setSlice i (t.slice i) with due := s.due ++ (if l = [] then [] else [.moveSectorStep i]) } ∧
        t.slice i = { x with moves := l, ind := (t.slice i).ind } ∧
        ∀ f, Sparse.get Indirection.reset (t.slice i).ind f = if f = m.frame then
          { e f with tier := m.tier, loc := m.loc, mv := false, ret := m.retire || (e f).ret } else e f))) ∧
    (∀ (f : Nat) (w : Word),
      let moves : Prop := w.getLsbD 63 = true ∧ (e f).v = true ∧ (e f).mv = false ∧ page w
      let kept : Word := BitVec.ofNat 64 (w.toNat / 2 ^ 62 * 2 ^ 62 + w.toNat % 2 ^ 27)
      (¬ moves → Does (.retreq i f w) s (s.setSlice i { x with retreq := kept })) ∧
      (moves → Answers (.retreq i f w) s (fun t =>
        t = { s.setSlice i (t.slice i) with due := s.due ++ (if x.moves = [] then [.moveSectorStep i] else []) } ∧
        t.slice i = { x with
          retreq := kept, ind := (t.slice i).ind, moves := x.moves ++ [{
            frame := f, sector := 0, tier := w.getLsbD 62, loc := BitVec.ofNat 27 w.toNat, retire := true }] } ∧
        ∀ g, Sparse.get Indirection.reset (t.slice i).ind g = if g = f then { e g with mv := true } else e g)) ∧
      ((e f).mv = true ∨ ¬ page w → Does (.indirectionWrite i f w) s s) ∧
      ((e f).mv = false → page w → Answers (.indirectionWrite i f w) s (fun t =>
        t = { s.setSlice i (t.slice i) with due := t.due } ∧
        t.slice i = { x with
          ind := (t.slice i).ind, patrol := (t.slice i).patrol, patrolAt := (t.slice i).patrolAt,
          hotScrub := (t.slice i).hotScrub, hotAt := (t.slice i).hotAt } ∧
        (∀ g, Sparse.get Indirection.reset (t.slice i).ind g = if g = f then
          { v := w.getLsbD 63, tier := w.getLsbD 62, mv := false, ret := w.getLsbD 60, loc := BitVec.ofNat 27 w.toNat }
          else e g) ∧
        (quiet → t.due = s.due ∧ t.slice i = { x with ind := (t.slice i).ind }) ∧
        (x.scrubEn = true → x.patrol = none → x.hotList = [] → w.getLsbD 63 = true → x.ind = [] → page w →
          t.due = s.due ++ [.patrolScrub i f 0 false] ∧ (t.slice i).patrol = some (f, 0))))) ∧
    (s.canonical = true → quiet → Answers (.sliceInit i) s (fun t => t = s.withMemory t ∧
      ∀ k, let valid : Prop := k < 2 ^ 43 ∧ k / 2 ^ 34 = i ∧ k / 2 ^ 16 % 2 ^ 18 < 229376 ∧ (e (k / 2 ^ 16 % 2 ^ 18)).v = true
        (valid → Memory.byte t.mem k = 0 ∧ t.full k = true) ∧
        (¬ valid → Memory.byte t.mem k = Memory.byte s.mem k ∧ t.full k = s.full k)))) ∧
  (∀ (s : State) (i f : Nat),
    let x := s.slice i
    let last := BitVec.ofNat 27 (i * 2 ^ 18 + f)
    let e := Sparse.get Indirection.reset x.ind f
    let scrubs (k : Nat) : Prop := x.scrubEn = true ∧ e.v = true ∧ e.mv = false ∧ k < 1024
    let unit := 2 ^ 20 * Max.max 1 x.period.toNat
    let halves := (s.sliceCycle i / unit + 1) * unit
    let u (y : Slice) : State := { s.setSlice i { y with halveAt := halves } with due := s.due ++ [.scrubPeriodEnd i] }
    let retires (y : Slice) : State := { u y with hub := { s.hub with notices := s.hub.notices ++ [.retire i f] } }
    let fresh : Prop := x.scrubEn = true ∧ x.hotList = [] ∧ x.patrol ≠ none ∧ x.hotScrub ≠ none
    (fresh → x.rthr.toNat ≤ 64 → 0 < x.rthr.toNat → x.ue.toNat < 254 →
      let y (n : Nat) : Slice := { x with ue := x.ue + BitVec.ofNat 8 n, lastf := last, hotList := [(f, 64)] }
      (∀ k, scrubs k → Does (.mediaReread i (.scrub f k false) true) s (retires (y 1)) ∧
        Does (.mediaReread i (.scrub f k true) true) s (retires (y 2))) ∧
      (∀ m l, x.moves = m :: l → m.frame = f → Does (.mediaReread i (.move f m.sector false) true) s
        (retires { y 1 with failed := x.failed ++ [(i * 2 ^ 18 + f) * 2 ^ 10 + m.sector] }))) ∧
    (∀ k, Does (.mediaReread i (.scrub f k false) false) s s ∧ Does (.mediaReread i (.move f k false) false) s s ∧
      (scrubs k → x.ue.toNat < 255 → Does (.mediaReread i (.scrub f k true) false) s
        (s.setSlice i { x with ue := x.ue + 1, lastf := last })) ∧
      (¬ scrubs k → ∀ tag again, Does (.mediaReread i (.scrub f k tag) again) s s) ∧
      ((∀ m l, x.moves = m :: l → ¬ (m.frame = f ∧ m.sector = k)) → ∀ tag again,
        Does (.mediaReread i (.move f k tag) again) s s)) ∧
    (∀ r pa, .homePerform r ∈ s.due → r.home = .dev pa → pa / 2 ^ 34 = i → pa / 2 ^ 16 % 2 ^ 18 = f →
      s.requestRefused r pa = none → s.mayServe r pa = true → s.atSlice r = false → r.op = .load .d false → r.cls = .plain →
      (x.scrubEn = false → x.ue.toNat < 255 → Does (.mediaReread i (.access r false) true) s
        { s.setSlice i { x with ue := x.ue + 1, lastf := last } with
          due := s.due.erase (.homePerform r) ++ [.refusal r 0x06] }) ∧
      Does (.mediaReread i (.access r false) false) s s) ∧
    (∀ r tag again, .homePerform r ∉ s.due ∨ opReads r.op = false → Does (.mediaReread i (.access r tag) again) s s) ∧
    (∀ (o : Nat) (v : Word),
      let pa := s.hub.hwin.toNat / 2 ^ 36 * 2 ^ 36 + o % 2 ^ 36 / 8 * 8
      let reads : Instr := .hostWindowAccess (.bar2 false) o v
      s.due = [reads] → pa / 2 ^ 34 = i → pa / 2 ^ 16 % 2 ^ 18 = f → s.readRefuses pa = none → x.scrubEn = false → x.ue.toNat < 255 →
      Does (.mediaReread i (.port (.bar2 false) o v false) true) s { s.setSlice i { x with ue := x.ue + 1, lastf := last } with
        due := [], choices := s.choices + 1
        hub := { s.hub with hostGot := s.hub.hostGot ++ [(o, Config.unstated s.choices)] } } ∧
      Does (.mediaReread i (.port (.bar2 false) o v false) false) s s) ∧
    (∀ q < 2 ^ 16,
      let pa := s.hub.qtb.toNat / 64 * 64 + 64 * q
      pa / 2 ^ 34 = i → pa / 2 ^ 16 % 2 ^ 18 = f → s.readRefuses pa = none → x.scrubEn = false → x.ue.toNat < 255 →
      q ∉ s.hub.descLost → Does (.mediaReread i (.descriptor q false) true) s
        { s.setSlice i { x with ue := x.ue + 1, lastf := last } with
          hub := { s.hub with descLost := s.hub.descLost ++ [q] } } ∧
      Does (.mediaReread i (.descriptor q false) false) s s) ∧
    (∀ k, k < 1024 → e.v = true → fresh → 8 < x.rthr.toNat → x.ce.toNat < 65535 → x.lce.toNat < 255 →
      let once := u { x with ce := x.ce + 1, lastf := last, hotList := [(f, 1)] }
      Does (.mediaReread i (.corrected f k) false) s once ∧
      Does (.mediaReread i (.corrected f k) true) s (u { x with lce := x.lce + 1, lastf := last, hotList := [(f, 8)] }) ∧
      (e.mv = false → Does (.patrolScrub i f k true) s once)) ∧
    (∀ k, (¬ scrubs k → Does (.patrolScrub i f k true) s s) ∧
      (x.patrol ≠ some (f, k) → x.hotScrub ≠ some (f, k) → Does (.patrolScrub i f k false) s s) ∧
      (scrubs k → k < 1023 → x.patrol = some (f, k) → x.patrolAt ≤ s.sliceCycle i → (∃ g ∈ x.ind, g.1 = f ∧ g.2.v = true) →
        let frames := (x.ind.filter (fun g => g.2.v)).length
        Does (.patrolScrub i f k false) s { s.setSlice i { x with
          patrol := some (f, k + 1)
          patrolAt := s.sliceCycle i + Max.max 16 (2 ^ 20 * Max.max 1 x.period.toNat / (1024 * Max.max 1 frames)) } with
          due := s.due ++ [.patrolScrub i f (k + 1) false] })) ∧
    (s.sliceCycle i < x.halveAt → Does (.scrubPeriodEnd i) s { s with due := s.due ++ [.scrubPeriodEnd i] }) ∧
    (∀ a n, x.hotList = [(a, n)] → x.halveAt ≤ s.sliceCycle i →
      (n < 2 → Does (.scrubPeriodEnd i) s (s.setSlice i { x with hotList := [], halveAt := halves })) ∧
      (2 ≤ n → Does (.scrubPeriodEnd i) s (u { x with hotList := [(a, n / 2)] })))) ∧
  (∀ (s : State) (i p n : Nat) (again : Bool),
    let t := s.slot p n
    let c := s.core p
    (t.st ≠ .active ∨ t.wait ≠ .none → Does (.mediaReread i (.line p n) again) s s) ∧
    (t.st = .active → t.wait = .none →
      Does (.mediaReread i (.line p n) false) s (s.setCore p { c with
        icache := c.icache.filter (fun e => decide (e.1 ≠ t.hq.toNat * 2 ^ 64 + t.pc.toNat / 64 * 64)) }) ∧
      Answers (.mediaReread i (.line p n) true) s (fun u => Trapped s u p n 0x06 2 t.pc t.pc t.pc)) ∧
    (∀ tile k, (again = false ∨ 1024 ≤ k → Does (.mediaReread i (.accumulator p tile k) again) s s) ∧
      (again = true → k < 1024 → Answers (.mediaReread i (.accumulator p tile k) again) s (fun u =>
        u = { s with cores := u.cores } ∧ (∀ q, q ≠ p → u.core q = s.core q) ∧
        u.core p = { c with tiles := (u.core p).tiles } ∧ (∀ t', t' ≠ tile → (u.core p).tile t' = c.tile t') ∧
        (u.core p).tile tile = { c.tile tile with poison := ((u.core p).tile tile).poison } ∧
        ∀ j, Sparse.get false ((u.core p).tile tile).poison j = if j = k then true else Sparse.get false (c.tile tile).poison j))))

/-- R268, R275, R277, R281, R370, R375, R380 to R383, R392, R393, R403: failures on links count in a row and act at 16, ports
start, stop and train, packets of other modules are forwarded, checked against IMPT and answered, and what the host port and
the system cores do. What a refused read answers them is free (log 1), and so is what another party writes outside (log 4). -/
def Obligations.LinksAndHostPort : Prop :=
  ∀ (s : State) (n : Nat) (again : Bool),
    let h := s.hub
    let inRow (k : Nat) : Nat := if again then k + 1 else 1
    let hub (x : Hub) : State := { s with hub := x }
    let port (v : Port) : Hub := { h with ports := Sparse.put Port.reset h.ports n v }
    let lf := inRow (Sparse.get 0 h.linkFails n)
    let bf := inRow (Sparse.get 0 h.bridgeFails n)
    let cf := inRow (h.port n).fails
    let lost (e : Instr) : Option Request := lostRequest (s.usesPort n) e
    let up (k : Nat) : Bool := (h.port k).en && (h.port k).up
    let route (side m : Nat) : Option Nat :=
      let w : Word := Sparse.get 0 h.modrt (256 * side + m % 256)
      if w = 0 ∨ 9 < w.toNat then none else some (9 * side + (w.toNat - 1))
    (lf ≠ 16 → Does (.dieLinkTagFailure n again) s (hub { h with linkFails := Sparse.put 0 h.linkFails n lf })) ∧
    (lf = 16 → Answers (.dieLinkTagFailure n again) s (fun t =>
      Alarmed (hub { h with linkFails := Sparse.put 0 h.linkFails n 16 }) t 4 2)) ∧
    Does (.bridgeCrcFailure n again) s (hub { h with
      bridgeFails := Sparse.put 0 h.bridgeFails n bf,
      notices := if bf = 16 then h.notices ++ [.bridge n] else h.notices }) ∧
    (cf < 16 → Does (.colonnadeCrcReplay n again) s (hub (port { h.port n with fails := cf }))) ∧
    (16 ≤ cf →
      ((∀ e ∈ s.due, lost e = none) → (∀ d < 8, s.lostColl (s.usesPort n) d = []) → Does (.colonnadeCrcReplay n again) s
        (hub { port { h.port n with en := false, up := false, fails := 0 } with notices := h.notices ++ [.portStopped n] })) ∧
      (∀ e r, e ∈ s.due → lost e = some r → r.cls = .plain → r.op = .load .d false → e ≠ .refusal r 0x06 →
        Answers (.colonnadeCrcReplay n again) s (fun t => .refusal r 0x06 ∈ t.due ∧ e ∉ t.due ∧
          (t.hub.port n).en = false ∧ (t.hub.port n).up = false))) ∧
    (h.level.toNat < 3 → h.keysAgreed = true → Does (.cportEnable n) s (hub (port { h.port n with en := true, fails := 0 }))) ∧
    (h.level = 3 ∨ h.keysAgreed = false → Does (.cportEnable n) s s) ∧
    (∀ lat, ((h.port n).en = true →
        Does (.colonnadeLinkTrained n lat) s (hub (port { h.port n with up := true, lat := lat }))) ∧
      ((h.port n).en = false → Does (.colonnadeLinkTrained n lat) s s)) ∧
    (∀ f : ColFrame,
      let receives (P : State → Prop) : Prop := Answers (.colonnadeFrameReceive n f) s P
      let out (x : Hub) (g : ColFrame) : Hub := match route (n / 9) g.dest with
        | some k => if up k then { x with colOut := x.colOut ++ [(k, g)] } else x
        | none => x
      let answer (k : ColKind) (v : Word) : ColFrame :=
        { kind := k, src := f.dest, dest := f.src, seq := f.seq, op := f.op, pa := f.pa, data := v, expected := 0, bytes := [] }
      let reached : Prop := ∃ k, route (n / 9) f.dest = some k ∧ up k = true
      let e : Word := Sparse.get 0 h.impt f.src
      let fresh : Prop := up n = true ∧ f.dest = Config.moduleNumber ∧ f.kind = .request ∧ (f.src, f.seq) ∉ h.delivered
      let mapped : Prop := e.getLsbD 63 = true ∧ f.pa / 2 ^ 16 ≤ e.toNat / 2 ^ 16 % 2 ^ 27
      let load : Prop := f.op = .load .d false
      let store : Prop := f.op = .store .d
      let line : Prop := ∃ a k, f.op = .agentRead a k 64
      let within : Prop := mapped ∧ (load ∨ line → e.getLsbD 62 = true) ∧ (store → e.getLsbD 61 = true)
      let done : Hub := { h with delivered := h.delivered ++ [(f.src, f.seq)] }
      (up n = false → Does (.colonnadeFrameReceive n f) s s) ∧
      (up n = true → f.dest ≠ Config.moduleNumber →
        (reached → Does (.colonnadeFrameReceive n f) s (hub (out h f))) ∧
        (¬ reached → f.kind = .request → Does (.colonnadeFrameReceive n f) s (hub (out h (answer (.refusal 0x06) 0)))) ∧
        (¬ reached → f.kind ≠ .request → Does (.colonnadeFrameReceive n f) s s)) ∧
      (up n = true → f.dest = Config.moduleNumber → f.kind ≠ .request ∨ (f.src, f.seq) ∈ h.delivered →
        Does (.colonnadeFrameReceive n f) s s) ∧
      (fresh → load ∨ store ∨ line → ¬ within → Does (.colonnadeFrameReceive n f) s (hub (out done (answer (.refusal 0x06) 0)))) ∧
      (∀ c, fresh → within → ((load ∨ line) ∧ s.readRefuses f.pa = some c ∨ store ∧ s.sliceRefuses f.pa = some c) →
        Does (.colonnadeFrameReceive n f) s (hub (out done (answer (.refusal c) 0)))) ∧
      (fresh → within → load → s.readRefuses f.pa = none → receives (fun t => Posted s t [] ∧
        t = { s with slices := t.slices, due := t.due, hub := out done (answer (.reply (s.word f.pa)) (s.word f.pa)) })) ∧
      (fresh → within → line → s.readRefuses f.pa = none → receives (fun t => Posted s t [] ∧
        t = { s with
          slices := t.slices, due := t.due
          hub := out done { answer (.reply 0) 0 with bytes := Memory.bytes s.mem f.pa 64 } })) ∧
      (fresh → within → store → s.sliceRefuses f.pa = none → receives (fun t => Posted s t [] ∧
        t = { s.withMemory t with slices := t.slices, due := t.due, hub := out done (answer (.reply 0) 0) } ∧ t.fe = s.fe ∧
        StoredAt s t f.pa (wordBytes f.data)))) ∧
    (∀ (o : Nat) (v : Word),
      let pa := h.hwin.toNat / 2 ^ 36 * 2 ^ 36 + o % 2 ^ 36 / 8 * 8
      let writes : Instr := .hostWindowAccess (.bar2 true) o v
      let reads : Instr := .hostWindowAccess (.bar2 false) o v
      (s.sliceRefuses pa ≠ none → Does writes s s) ∧
      (s.sliceRefuses pa = none → Answers writes s (fun t => Posted s t [] ∧
        t = { s.withMemory t with slices := t.slices, due := t.due } ∧ t.fe = s.fe ∧ StoredAt s t pa (wordBytes v))) ∧
      (s.readRefuses pa ≠ none → Does reads s { s with
        choices := s.choices + 1, hub := { h with hostGot := h.hostGot ++ [(o, Config.unstated s.choices)] } }) ∧
      (s.readRefuses pa = none → Answers reads s (fun t => Posted s t [] ∧
        t = { s with slices := t.slices, due := t.due, hub := { h with hostGot := h.hostGot ++ [(o, s.word pa)] } }))) ∧
    (∀ (a : SysAccess) (x : Word),
      let got (v : Word) : Hub := { h with sysGot := h.sysGot ++ [(a.core, a.id, v)] }
      let half (v : Nat) : Word := BitVec.ofInt 64 (Int.bmod v (2 ^ 32))
      let acts (i : Instr) (k : Nat) (reserved : State → List (Nat × Nat)) (sector : Nat) : Prop :=
        let mine (t : State) : Prop := ∃ e ∈ reserved t, e.1 = a.core
        let others (t : State) : Prop := ∃ e ∈ reserved t, e.2 = sector
        let holds : Prop := (a.core, sector) ∈ reserved s
        let reads (v : Word) (P : State → Prop) : Prop := Answers i s (fun t => Posted s t [] ∧
          t = { s with slices := t.slices, due := t.due, hub := { got v with sysHeld := t.hub.sysHeld } } ∧ P t)
        let writes (bytes : List Byte) (v : Word) (P : State → Prop) : Prop := Answers i s (fun t => Posted s t [] ∧
          t = { s.withMemory t with slices := t.slices, due := t.due, hub := { got v with sysHeld := t.hub.sysHeld } } ∧
          t.fe = s.fe ∧ StoredAt s t k bytes ∧ ¬ others t ∧ P t)
        (∀ wd u, a.op = .load wd u → reads (s.valueAt k wd u) (fun t => reserved t = reserved s)) ∧
        (∀ wd, a.op = .store wd → writes (leList (widthBytes wd) x.toNat) 0 (fun _ => True)) ∧
        (∀ g, a.op = .atomic g → writes (wordBytes (atomicApply g (s.word k) x a.expected)) (s.word k) (fun _ => True)) ∧
        (∀ g, a.op = .atomicW g → let old := half (s.number k 4)
          writes (leList 4 (atomicApply g old (half x.toNat) (half a.expected.toNat)).toNat) old (fun _ => True)) ∧
        (∀ wd, a.op = .reserve wd → reads (s.valueAt k wd false) (fun t => (a.core, sector) ∈ reserved t ∧
          ∀ e ∈ reserved t, e.1 = a.core → e.2 = sector)) ∧
        (∀ wd, a.op = .conditional wd → (holds → writes (leList (widthBytes wd) x.toNat) 0 (fun t => ¬ mine t)) ∧
          (¬ holds → reads 1 (fun t => ¬ mine t)))
      (∀ off, let k := 2 ^ 44 + a.core / 16 * 2 ^ 23 + off % 2 ^ 23
        acts (.hostWindowAccess (.sram a) off x) k (fun t => t.hub.sysHeld) (k / 64)) ∧
      (∀ pa,
        let i : Instr := .hostWindowAccess (.dev a) pa x
        let reads : Prop := (∃ wd u, a.op = .load wd u) ∨ (∃ wd, a.op = .reserve wd) ∨ ∃ g, a.op = .atomic g ∨ a.op = .atomicW g
        let refused : Prop := reads ∧ s.readRefuses pa ≠ none ∨ ¬ reads ∧ s.sliceRefuses pa ≠ none
        (refused → Does i s { s with choices := s.choices + 1, hub := got (Config.unstated s.choices) }) ∧
        (s.readRefuses pa = none → acts i pa (fun t => (t.slice (pa / 2 ^ 34)).reserved) (pa / 64)) ∧
        (∀ bs, a.op = .sector bs → bs.length = 64 → pa % 64 = 0 → s.sliceRefuses pa = none → Answers i s (fun t =>
          Posted s t [] ∧ t = { s.withMemory t with slices := t.slices, due := t.due, hub := got 0 } ∧ t.fe = s.fe ∧
          StoredAt s t pa bs ∧
          (t.slice (pa / 2 ^ 34)).failed = (s.slice (pa / 2 ^ 34)).failed.filter (fun k => decide (k ≠ pa / 64)))))) ∧
    (∀ v, Does (.msix v) s (hub { h with msix := v, msixSent := h.msixSent ++ [v] })) ∧
    (∀ (r : Request) (ha : Nat), r.home = .host ha → r.cls = .plain →
      let word : Home := .host (ha / 8 * 8)
      let seen (w : Word) : Prop := s.outFull.find? (fun e => e.1 == word) = some (word, true) ∧
        s.outMem.find? (fun e => e.1 == word) = some (word, w) ∧ Config.outsideWrote s.choices = false ∧
        Config.outsideWrote (s.choices + 1) = false
      (r.op = .load .d false → ∃ v, (∀ w, ha % 8 = 0 → seen w → v = w) ∧ Answers (.hostPageAccess r) s (fun t =>
        t = { s with due := s.due ++ [.remoteReply r v], choices := t.choices, outMem := t.outMem, outFull := t.outFull })) ∧
      (∀ bytes, (r.op = .store .d ∧ bytes = wordBytes r.data ∨ r.op = .store .b ∧ bytes = leList 1 r.data.toNat) →
        Answers (.hostPageAccess r) s (fun t => t = { s with
          due := s.due ++ [.remoteReply r 0], choices := t.choices, outMem := t.outMem, outFull := t.outFull
          hub := { h with hostOut := h.hostOut ++ [(ha, bytes)] } } ∧
          ∃ w, t.outMem.find? (fun e => e.1 == word) = some (word, w) ∧ (ha % 8 = 0 → r.op = .store .d → w = r.data)))) ∧
    (∀ (r : Request) (m pa : Nat), r.home = .remote m pa → r.cls = .plain → (r.op = .load .d false ∨ r.op = .store .d) →
      let side := if r.core / 1024 < 4 then 0 else 1
      ((∀ k, route side m = some k → up k = false) → Does (.homePerform r) s { s with due := s.due ++ [.refusal r 0x06] }) ∧
      (∀ k, route side m = some k → up k = true → Config.outsideOk s.choices = true → Answers (.homePerform r) s (fun t =>
        t.mem = s.mem ∧ t.cores = s.cores ∧ t.hub = { h with
          colSeq := h.colSeq + 1
          colOut := h.colOut ++ [(k, {
            kind := .request, src := Config.moduleNumber, dest := m, seq := h.colSeq, op := r.op, pa := pa, data := r.data
            expected := r.expected, bytes := [] })] } ∧ ∃ v, .remoteReply r v ∈ t.due)))

/-- R54, R384 to R388, R399: power-on; the hubs leave reset each at a time of its own (the model numbers them 8 and 9: log 48);
a stage boots only with both signatures, its hash and its SVN right, and its measurement is extended; the host's recovery
image passes the same checks; a die leaves reset with slot 0 of each core at the runtime; fuses burn one position at a
time; a report names nonce, measurements and counters, with the identity key's certificate and its signature (log 9). -/
def Obligations.Boot : Prop :=
  ∀ (s : State),
    let h := s.hub
    let fuse (n : Nat) : Nat := Sparse.get 0 h.fuses n
    let header (i : BootImage) : List Byte := leList 8 i.magic.toNat ++ leList 4 i.stage.toNat ++ leList 4 i.svn.toNat ++
      leList 8 i.len ++ leList 48 i.hash.toNat
    let accepted (n : Nat) (i : BootImage) : Prop :=
      i.magic = 0x51524E424F4F5431 ∧ i.stage.toNat = n ∧ i.svn.toNat ≤ 127 ∧ i.len = i.body.length ∧
      Config.ecdsaOk (header i) i.ecdsa = true ∧ Config.lmsOk (header i) i.lms = true ∧
      Config.sha384 i.body = i.hash ∧ fuse n ≤ i.svn.toNat
    let booted (n : Nat) (i : BootImage) (x : Hub) : State :=
      let old : BitVec 384 := Sparse.get 0 h.mr n
      let y : Hub := { x with
        stage := n, bootStopped := false, svn := Sparse.put 0 h.svn n i.svn.toNat, mr := Sparse.put 0 h.mr n
          (Config.sha384 (leList 48 old.toNat ++ leList 48 i.hash.toNat ++ leList 4 i.svn.toNat)) }
      { s with
        hub := if n = 1 then { y with keysAgreed := true, keysErased := false } else y,
        due := s.due ++ (if n = 1 then (List.range 512).map .sliceInit ++ [.stageVerify 2] else if n = 2 then [.stageVerify 3]
          else if n = 3 then (List.range 8).map .dieLeavesReset ++ [.stageVerify 4] else []) }
    Does .powerOnReset s { State.reset with
      hub := { Hub.reset with flashA := h.flashA, flashB := h.flashB, fuses := h.fuses },
      due := [.dieLeavesReset 8, .dieLeavesReset 9], choices := s.choices, rounds := s.rounds, sweep := s.sweep } ∧
    (h.running = true → Does (.dieLeavesReset 8) s s) ∧ (h.running1 = true → Does (.dieLeavesReset 9) s s) ∧
    (h.running = false → Does (.dieLeavesReset 8) s { s with
      hub := { h with running := true, cyc := 0, winAt := Max.max 1 (Config.windowCycles h.win.toNat) },
      due := s.due ++ [.stageVerify 1, .pcapWindowEnd] }) ∧
    (h.running1 = false → Does (.dieLeavesReset 9) s { s with hub := { h with running1 := true, cyc1 := 0 } }) ∧
    (∀ n, n ≠ h.stage + 1 ∨ 4 < n → Does (.stageVerify n) s s) ∧
    (∀ n, n = h.stage + 1 → n ≤ 4 →
      let a := Sparse.get none h.flashA n
      let b := Sparse.get none h.flashB n
      (∀ i, a = some i → accepted n i → Does (.stageVerify n) s (booted n i h)) ∧
      (∀ i, (∀ j, a = some j → ¬ accepted n j) → b = some i → accepted n i → Does (.stageVerify n) s (booted n i h)) ∧
      ((∀ j, a = some j → ¬ accepted n j) → (∀ j, b = some j → ¬ accepted n j) →
        (n = 1 → Does (.stageVerify n) s { s with hub := { h with bootStopped := true } }) ∧
        (n ≠ 1 → h.lvl5 ≠ 0 → Answers (.stageVerify n) s (fun t => t.hub.bootStopped = true ∧
          Alarmed { s with hub := { h with bootStopped := true } } t 5 h.lvl5)))) ∧
    (∀ i, (h.bootStopped = true ∧ h.stage < 4 ∧ accepted (h.stage + 1) i →
        Does (.recoveryImage i) s (booted (h.stage + 1) i { h with recovery := some i })) ∧
      (¬ (h.bootStopped = true ∧ h.stage < 4 ∧ accepted (h.stage + 1) i) →
        Does (.recoveryImage i) s { s with hub := { h with recovery := some i } })) ∧
    (∀ n < 8, ((s.die n).running = true → Does (.dieLeavesReset n) s s) ∧
      ((s.die n).running = false → Answers (.dieLeavesReset n) s (fun t =>
        t = { s with cores := t.cores, dies := t.dies } ∧ t.die n = { s.die n with running := true, cyc := 0 } ∧
        (∀ m, m ≠ n → t.die m = s.die m) ∧
        ∀ p, (p / 1024 = n → (s.core p).retired = false →
            t.core p = { s.core p with slots := (t.core p).slots } ∧ (∀ m, m ≠ 0 → t.slot p m = s.slot p m) ∧
            t.slot p 0 = { Slot.reset with
              st := .active, pc := Config.runtimeEntry, base := 0, size := 128, hq := Config.slot0Queue }) ∧
          (p / 1024 ≠ n ∨ (s.core p).retired = true → t.core p = s.core p)))) ∧
    (∀ n signed,
      let may : Prop := signed = true ∧ h.stage = 4 ∧ h.bootStopped = false ∧ (∀ d < 8, (s.die d).running = true) ∧
        fuse n < 127 ∧ fuse n < Sparse.get 0 h.svn n
      (may → Does (.fuseBurnRequest n signed) s { s with hub := { h with fuses := Sparse.put 0 h.fuses n (fuse n + 1) } }) ∧
      (¬ may → Does (.fuseBurnRequest n signed) s s)) ∧
    (∀ nonce, (h.keysErased = true → Does (.attestationRequest nonce) s s) ∧
      (h.keysErased = false →
        let four {α : Type} (f : Nat → α) : List α := [f 1, f 2, f 3, f 4]
        let mr (n : Nat) : BitVec 384 := Sparse.get 0 h.mr n
        let svn (n : Nat) : Nat := Sparse.get 0 h.svn n
        let key := Config.hkdf Config.fusedSecret (leList 48 (mr 1).toNat)
        let text := nonce.take 48 ++ (four (fun n => leList 48 (mr n).toNat)).flatten ++
          (four (fun n => leList 4 (svn n))).flatten ++ (four (fun n => leList 4 (fuse n))).flatten ++ Config.certificate key
        Does (.attestationRequest nonce) s { s with hub := { h with
          notices := h.notices ++ [.attestation (nonce.take 48) (four mr) (four svn) (four fuse) (Config.certificate key)
            (Config.sign key text)] } }))

/-- R389 to R392, R398 to R400: the alarm's sources and registers, the end of the key agreement, power and temperature over a
control window, whose length and powers are free (log 46), and a retired core with the launches that it ends; a context that was
moved away stays where it went (log 40). Of several dies that share the highest power, the one of lowest number is slowed: R399
states that tie for lowering STEP only, so that for raising it is the model's choice (log 46). -/
def Obligations.AlarmsPowerAndRetirement : Prop :=
  ∀ (s : State),
    let h := s.hub
    let level (k : Nat) : BitVec 2 := if k = 0 then h.lvl0 else if k = 1 then h.lvl1 else if k = 2 then h.lvl2
      else if k = 3 then h.lvl3 else if k = 4 then 2 else h.lvl5
    (∀ src : BitVec 3, (6 ≤ src.toNat → Does (.alarmSourceFire src) s s) ∧
      (src.toNat < 6 → level src.toNat = 0 → Does (.alarmSourceFire src) s { s with
        hub := { h with src := h.src ||| BitVec.ofNat 8 (2 ^ src.toNat) } }) ∧
      (src.toNat < 6 → level src.toNat ≠ 0 → Answers (.alarmSourceFire src) s (fun t =>
        Alarmed s t src.toNat (level src.toNat)))) ∧
    (∀ l : BitVec 2, (l = 0 → Does (.raise l) s s) ∧ (l ≠ 0 → Answers (.raise l) s (fun t => Alarmed s t 6 l))) ∧
    (∀ m, Does (.alarmSrcClear m) s { s with hub := { h with src := h.src &&& ~~~m } }) ∧
    (∀ w : Word, (h.alLock = true → Does (.alcfgWrite w) s s) ∧
      (h.alLock = false → Does (.alcfgWrite w) s { s with hub := { h with
        lvl0 := BitVec.ofNat 2 w.toNat, lvl1 := BitVec.ofNat 2 (w.toNat / 4), lvl2 := BitVec.ofNat 2 (w.toNat / 16),
        lvl3 := BitVec.ofNat 2 (w.toNat / 64), lvl5 := BitVec.ofNat 2 (w.toNat / 1024), alLock := w.getLsbD 63 } })) ∧
    (h.keysErased = true → Does .keyAgreementDone s s) ∧
    (h.keysErased = false → Does .keyAgreementDone s { s with hub := { h with keysAgreed := true } }) ∧
    (∀ (d : Nat) (temp : BitVec 12),
      let heated : State := s.setDie d { s.die d with
        temp := temp,
        clamp := if 840 ≤ temp.toNat then true else if temp.toNat < 800 then false else (s.die d).clamp,
        slow := (s.die d).slow || decide (840 ≤ temp.toNat) }
      (temp.toNat < 920 → Does (.thermalThreshold d temp) s heated) ∧
      (920 ≤ temp.toNat → h.lvl3 ≠ 0 → Answers (.thermalThreshold d temp) s (fun t => Alarmed heated t 3 h.lvl3))) ∧
    (let power (d : Nat) : Nat := (Config.outsideWord (s.choices + d)).toNat % 2 ^ 16
     let total := ((List.range 8).map power).sum
     let steps (f : Nat → Nat) : Prop := Answers .pcapWindowEnd s (fun t =>
       t = { s with
         dies := t.dies, choices := s.choices + 8, due := s.due ++ [.pcapWindowEnd]
         hub := { h with winAt := h.cyc + Max.max 1 (Config.windowCycles h.win.toNat) } } ∧
       ∀ d < 8, t.die d = { s.die d with
         power := BitVec.ofNat 16 (power d), step := f d,
         thr := if (s.die d).slow = true then (s.die d).thr + 1 else (s.die d).thr
         slow := (s.die d).clamp || decide (0 < f d) })
     (∀ b < 8, h.limit.toNat < total → (∀ d < 8, power d < power b ∨ power d = power b ∧ b ≤ d) →
       steps (fun d => if d = b then Min.min 8 ((s.die b).step + 1) else (s.die d).step)) ∧
     (∀ b < 8, 100 * total < 95 * h.limit.toNat →
       (∀ d < 8, (s.die d).step < (s.die b).step ∨ (s.die d).step = (s.die b).step ∧ b ≤ d) →
       steps (fun d => if d = b then (s.die b).step - 1 else (s.die d).step)) ∧
     (total ≤ h.limit.toNat → 95 * h.limit.toNat ≤ 100 * total → steps (fun d => (s.die d).step))) ∧
    (∀ l < 2 ^ 13,
      let c := s.core l
      let x : Hub := { h with cret := BitVec.ofNat 13 l, retired := if l ∈ h.retired then h.retired else h.retired ++ [l] }
      let here : Prop := s.physical l = l ∨ ∀ e ∈ s.place, e.2 ≠ l
      (∀ q k, (s.hw q).launch = some k → k.status = 0 → k.stage ≠ .ending →
        let bits (j hi lo : Nat) : Nat := (k.packet.getD j 0).toNat / 2 ^ lo % 2 ^ (hi - lo + 1)
        let f := bits 2 12 0
        bits 0 63 56 ≠ 0 → (∃ a ≤ bits 3 2 0, ∃ b ≤ bits 3 12 8, ∃ e ≤ bits 3 20 16,
          l = 1024 * (f / 1024 + a) + 32 * (f % 1024 / 32 + b) + (f % 32 + e)) →
        Answers (.cret l) s (fun t => (t.hw q).launch = some { k with status := 0x0F })) ∧
      ((∀ q, (s.hw q).launch = none) →
      (here → c.gone = none → Does (.cret l) s { s.setCore l { Core.reset with
        logical := c.logical, retired := true, ctxOut := c.ctxOut, drops := c.drops, lastDrop := c.lastDrop } with hub := x }) ∧
      (here → c.gone ≠ none → Does (.cret l) s { s.setCore l { c with retired := true } with hub := x }) ∧
      (¬ here → Does (.cret l) s { s with hub := x })))

/-- R6, R7, R325, R332, R333, R361, R362, R366, R378 to R381, R394 to R396, R399, R403: a write of a register sets its fields,
and leaves its reserved bits and every other register; a write of HCMD or TLBI also starts the command that its OP names, and
none for OP 0 or a reserved OP; a new queue limit is signalled at once; a write of a port's EN starts or stops the port. -/
def Obligations.RegistersWritten : Prop :=
  ∀ (s : State) (w : Word) (i : Nat),
    let h := s.hub
    let field (hi lo : Nat) : Nat := w.toNat / 2 ^ lo % 2 ^ (hi - lo + 1)
    let base (lo : Nat) : BitVec 48 := BitVec.ofNat 48 (w.toNat / 2 ^ lo * 2 ^ lo)
    let hub (r : HubReg) (x : Hub) : Prop := Does (.hubRegisterWrite r w) s { s with hub := x }
    let port (v : Port) : Hub := { h with ports := Sparse.put Port.reset h.ports i v }
    let y := s.slice i
    let unit := 2 ^ 20 * Max.max 1 (field 63 40)
    let scrub : Slice := { y with
      period := BitVec.ofNat 24 (field 63 40), rthr := BitVec.ofNat 8 (field 39 32), scrubEn := w.getLsbD 0
      halveAt := (s.sliceCycle i / unit + 1) * unit }
    let kept : Word := BitVec.ofNat 64 (field 63 28 * 2 ^ 28)
    let word : Word := BitVec.ofNat 64 (field 63 41 * 2 ^ 41 + field 30 0)
    let commands (op : Nat) (l : List Instr) : Prop := field 63 60 = op → Does (.hubRegisterWrite .hcmd w) s
      { s with hub := { h with hcmd := kept }, due := s.due ++ l }
    let q := BitVec.ofNat 6 (field 59 54)
    commands 1 [.freeze q 4] ∧ commands 2 [.unfreeze q] ∧ commands 3 [.saveCore (field 53 41)] ∧
    commands 4 [.moveCore (field 53 41) (field 40 28)] ∧ commands 5 [.restoreCore (field 53 41) (field 40 28)] ∧
    (∀ op, op = 0 ∨ 6 ≤ op → commands op []) ∧
    (field 63 60 = 0 ∨ 5 ≤ field 63 60 → Does (.hubRegisterWrite .tlbi w) s { s with hub := { h with tlbi := word } }) ∧
    (1 ≤ field 63 60 → field 63 60 ≤ 4 → (s.cores.map (·.1)).Nodup → Answers (.hubRegisterWrite .tlbi w) s (fun t =>
      t = { s with cores := t.cores, due := t.due, hub := { h with tlbi := word } } ∧ .tlbiComplete ∈ t.due ∧
      ∀ p, t.core p = if (s.core p).tlb = [] ∧ (s.core p).walks = [] then s.core p
        else { s.core p with drops := (s.core p).drops ++ [word] })) ∧
    hub .qtb { h with qtb := base 6 } ∧ hub .hctx { h with hctx := base 12 } ∧ hub .stkt { h with stkt := base 7 } ∧
    hub .fwtb { h with fwtb := base 17 } ∧ hub .hwin { h with hwin := base 36 } ∧
    Answers (.hubRegisterWrite .wdog w) s (fun t => t = { s with due := t.due, hub := { h with wdog := BitVec.ofNat 32 w.toNat } } ∧
      ((∀ q, (s.hw q).launch = none) → t.due = s.due) ∧ ∀ q, (s.hw q).launch ≠ none → .watchdogExpiry q ∈ t.due) ∧
    hub .pcap { h with
      limit := if field 63 48 ≤ 15000 then BitVec.ofNat 16 (field 63 48) else h.limit,
      win := if 1 ≤ field 47 32 ∧ field 47 32 ≤ 1000 then BitVec.ofNat 16 (field 47 32) else h.win } ∧
    (i < 256 → (∀ side < 2, hub (.modrt side i) { h with modrt := Sparse.put 0 h.modrt (256 * side + i) w }) ∧
      hub (.impt i)
        { h with impt := Sparse.put 0 h.impt i (BitVec.ofNat 64 (field 63 61 * 2 ^ 61 + field 42 16 * 2 ^ 16)) }) ∧
    (i < 18 →
      (w.getLsbD 63 = false → (∀ e ∈ s.due, lostRequest (s.usesPort i) e = none) →
        (∀ d < 8, s.lostColl (s.usesPort i) d = []) → hub (.cport i) (port { h.port i with en := false, up := false })) ∧
      (w.getLsbD 63 = true → h.level.toNat < 3 → h.keysAgreed = true →
        hub (.cport i) (port { h.port i with en := true, fails := 0 })) ∧
      (w.getLsbD 63 = true → h.level = 3 ∨ h.keysAgreed = false → hub (.cport i) h)) ∧
    Does (.hubRegisterWrite (.gtb i) w) s (s.setDie i { s.die i with gtb := base 14 }) ∧
    (∀ c < 4, Answers (.hubRegisterWrite (.cls i c) w) s (fun t => t = s.setSlice i (t.slice i) ∧
      t.slice i = { y with
        pressure := (t.slice i).pressure
        classes := Sparse.put ClassReg.reset y.classes c {
          rb := BitVec.ofNat 16 (field 63 48), wb := BitVec.ofNat 16 (field 47 32), ql := BitVec.ofNat 8 (field 31 24)
          wc := w.getLsbD 23 } } ∧
      ∀ k < 4, let waiting := (y.waiting.filter (fun e => decide (e.1 = k))).length
        ((t.slice i).pressure.getLsbD k = true ↔ 0 < waiting ∧
          (if k = c then field 31 24 else (Sparse.get ClassReg.reset y.classes k).ql.toNat) ≤ waiting))) ∧
    Does (.hubRegisterWrite (.tierctl i) w) s (s.setSlice i { y with
      hot := BitVec.ofNat 16 (field 63 48), epoch := BitVec.ofNat 16 (field 47 32), maxmv := BitVec.ofNat 8 (field 31 24),
      tierEn := w.getLsbD 0 }) ∧
    Does (.hubRegisterWrite (.serr i) w) s (s.setSlice i { y with
      ce := BitVec.ofNat 16 (field 63 48), lce := BitVec.ofNat 8 (field 47 40), ue := BitVec.ofNat 8 (field 39 32) }) ∧
    Answers (.hubRegisterWrite (.scrubctl i) w) s (fun t => t = { s.setSlice i (t.slice i) with due := t.due } ∧
      t.slice i = { scrub with
        patrol := (t.slice i).patrol, patrolAt := (t.slice i).patrolAt, hotScrub := (t.slice i).hotScrub,
        hotAt := (t.slice i).hotAt } ∧
      ((w.getLsbD 0 = false ∨ y.patrol ≠ none ∧ y.hotScrub ≠ none ∨ y.ind = [] ∧ y.hotList = []) →
        t.due = s.due ∧ t.slice i = scrub) ∧
      (∀ f e, w.getLsbD 0 = true → y.patrol = none → y.ind = [(f, e)] → e.v = true → y.hotList = [] →
        t.due = s.due ++ [.patrolScrub i f 0 false] ∧ (t.slice i).patrol = some (f, 0))) ∧
    Does (.hubRegisterWrite (.mcsRpc i) w) s (s.setCore i { s.core i with
      mcs := { (s.core i).mcs with rpc := BitVec.ofNat 48 w.toNat } })
end

