-- ==== Sys2Proof/Laws/Sparse.lean ====
section
/-! SUPPORT. Sparse maps and memory: read after write, and that every update keeps the canonical form. -/

namespace Sys2Proof.Machine

/-! ## Reading after writing -/

section
variable {α : Type}

theorem Sparse.get_drop (d : α) (k j : Nat) (m : List (Nat × α)) :
    Sparse.get d (Sparse.drop k m) j = if j = k then d else Sparse.get d m j := by
  induction m with
  | nil => simp [Sparse.drop, Sparse.get]
  | cons e m ih =>
    by_cases h : e.1 = k
    · rw [Sparse.drop, if_pos h, ih, Sparse.get]
      split
      · rfl
      · next hj => rw [if_neg (fun hh => hj (hh.symm.trans h))]
    · rw [Sparse.drop, if_neg h, Sparse.get, Sparse.get, ih]
      by_cases he : e.1 = j
      · rw [if_pos he, if_pos he, if_neg (fun hh => h (he.trans hh))]
      · rw [if_neg he, if_neg he]

theorem Sparse.get_insert (d : α) (k j : Nat) (v : α) (m : List (Nat × α)) (hm : ∀ e ∈ m, e.1 ≠ k) :
    Sparse.get d (Sparse.insert k v m) j = if j = k then v else Sparse.get d m j := by
  induction m with
  | nil =>
    simp only [Sparse.insert, Sparse.get, eq_comm]
  | cons e m ih =>
    have he := hm e (by simp)
    have hm' : ∀ x ∈ m, x.1 ≠ k := fun x hx => hm x (by simp [hx])
    rw [Sparse.insert]
    split
    · rw [Sparse.get]
      exact if_congr eq_comm rfl rfl
    · rw [Sparse.get, Sparse.get, ih hm']
      by_cases hj : e.1 = j
      · rw [if_pos hj, if_pos hj, if_neg (fun hh => he (hj.trans hh))]
      · rw [if_neg hj, if_neg hj]

theorem Sparse.drop_no_key (k : Nat) (m : List (Nat × α)) : ∀ e ∈ Sparse.drop k m, e.1 ≠ k := by
  induction m with
  | nil => simp [Sparse.drop]
  | cons e m ih =>
    by_cases h : e.1 = k
    · simpa [Sparse.drop, h] using ih
    · simpa [Sparse.drop, h] using ih

/-- A read after a write of any key. -/
theorem Sparse.get_put [DecidableEq α] (d : α) (m : List (Nat × α)) (k j : Nat) (v : α) :
    Sparse.get d (Sparse.put d m k v) j = if j = k then v else Sparse.get d m j := by
  unfold Sparse.put
  split
  · next h => rw [Sparse.get_drop, h]
  · rw [Sparse.get_insert _ _ _ _ _ (Sparse.drop_no_key k m), Sparse.get_drop]
    split
    · rfl
    · rfl

@[simp] theorem Sparse.get_put_same [DecidableEq α] (d : α) (m : List (Nat × α)) (k : Nat) (v : α) :
    Sparse.get d (Sparse.put d m k v) k = v := by simp [Sparse.get_put]

theorem Sparse.get_put_other [DecidableEq α] (d : α) (m : List (Nat × α)) {k j : Nat} (v : α) (h : j ≠ k) :
    Sparse.get d (Sparse.put d m k v) j = Sparse.get d m j := by simp [Sparse.get_put, h]

theorem Sparse.drop_of_no_key (k : Nat) (m : List (Nat × α)) (h : ∀ e ∈ m, e.1 ≠ k) : Sparse.drop k m = m := by
  induction m with
  | nil => rfl
  | cons e m ih =>
    rw [Sparse.drop, if_neg (h e (by simp)), ih (fun x hx => h x (by simp [hx]))]

theorem Sparse.drop_insert (k : Nat) (v : α) (m : List (Nat × α)) (h : ∀ e ∈ m, e.1 ≠ k) :
    Sparse.drop k (Sparse.insert k v m) = m := by
  induction m with
  | nil => simp [Sparse.insert, Sparse.drop]
  | cons e m ih =>
    have hm : ∀ x ∈ m, x.1 ≠ k := fun x hx => h x (by simp [hx])
    rw [Sparse.insert]
    split
    · rw [Sparse.drop, if_pos rfl, Sparse.drop_of_no_key k _ h]
    · rw [Sparse.drop, if_neg (h e (by simp)), ih hm]

/-- The last of two writes of a key stands. -/
@[simp] theorem Sparse.put_put [DecidableEq α] (d : α) (m : List (Nat × α)) (k : Nat) (v w : α) :
    Sparse.put d (Sparse.put d m k v) k w = Sparse.put d m k w := by
  have h : Sparse.drop k (Sparse.put d m k v) = Sparse.drop k m := by
    unfold Sparse.put
    split
    · exact Sparse.drop_of_no_key _ _ (Sparse.drop_no_key k m)
    · exact Sparse.drop_insert _ _ _ (Sparse.drop_no_key k m)
  unfold Sparse.put at *
  rw [h]

/-! ## The canonical form -/

/-- A key lies above a bound. -/
def Sparse.above (lo : Option Nat) (k : Nat) : Prop := ∀ j, lo = some j → j < k

variable [DecidableEq α]

theorem Sparse.wfFrom_cons (d : α) (lo : Option Nat) (e : Nat × α) (m : List (Nat × α)) :
    Sparse.wfFrom d lo (e :: m) = true ↔ Sparse.above lo e.1 ∧ e.2 ≠ d ∧ Sparse.wfFrom d (some e.1) m = true := by
  cases lo <;> simp [Sparse.wfFrom, Sparse.above, and_assoc]

/-- A lower bound may be lowered. -/
theorem Sparse.wfFrom_mono (d : α) {lo lo' : Option Nat} (h : ∀ k, Sparse.above lo k → Sparse.above lo' k)
    (m : List (Nat × α)) (hm : Sparse.wfFrom d lo m = true) : Sparse.wfFrom d lo' m = true := by
  cases m with
  | nil => rfl
  | cons e m => rw [Sparse.wfFrom_cons] at *; exact ⟨h _ hm.1, hm.2⟩

theorem Sparse.wfFrom_drop (d : α) (k : Nat) (m : List (Nat × α)) :
    ∀ lo, Sparse.wfFrom d lo m = true → Sparse.wfFrom d lo (Sparse.drop k m) = true := by
  induction m with
  | nil => intro lo _; rfl
  | cons e m ih =>
    intro lo h
    rw [Sparse.wfFrom_cons] at h
    by_cases hk : e.1 = k
    · simp only [Sparse.drop, hk, if_true]
      refine ih lo (Sparse.wfFrom_mono d ?_ m h.2.2)
      intro j hj i hi
      exact lt_trans (h.1 i hi) (hj e.1 rfl)
    · simp only [Sparse.drop, hk, if_false]
      rw [Sparse.wfFrom_cons]
      exact ⟨h.1, h.2.1, ih _ h.2.2⟩

theorem Sparse.wfFrom_insert (d : α) (k : Nat) (v : α) (hv : v ≠ d) (m : List (Nat × α)) (hm : ∀ e ∈ m, e.1 ≠ k) :
    ∀ lo, Sparse.above lo k → Sparse.wfFrom d lo m = true → Sparse.wfFrom d lo (Sparse.insert k v m) = true := by
  induction m with
  | nil =>
    intro lo hlo _
    rw [Sparse.insert, Sparse.wfFrom_cons]
    exact ⟨hlo, hv, rfl⟩
  | cons e m ih =>
    intro lo hlo h
    have he := hm e (by simp)
    rw [Sparse.wfFrom_cons] at h
    by_cases hk : k < e.1
    · simp only [Sparse.insert, hk, if_true]
      rw [Sparse.wfFrom_cons, Sparse.wfFrom_cons]
      refine ⟨hlo, hv, ?_, h.2⟩
      intro j hj; cases hj; exact hk
    · simp only [Sparse.insert, hk, if_false]
      rw [Sparse.wfFrom_cons]
      refine ⟨h.1, h.2.1, ih (fun x hx => hm x (by simp [hx])) _ ?_ h.2.2⟩
      intro j hj; cases hj; omega

/-- Every write keeps the canonical form. -/
theorem Sparse.wf_put (d : α) (m : List (Nat × α)) (k : Nat) (v : α) (hm : Sparse.wf d m = true) :
    Sparse.wf d (Sparse.put d m k v) = true := by
  unfold Sparse.put Sparse.wf at *
  split
  · exact Sparse.wfFrom_drop d k m _ hm
  · next h =>
    exact Sparse.wfFrom_insert d k v h _ (Sparse.drop_no_key k m) _ (by intro j hj; cases hj) (Sparse.wfFrom_drop d k m _ hm)

/-- Leaving entries out keeps the canonical form. -/
theorem Sparse.wfFrom_filter (d : α) (f : Nat × α → Bool) (m : List (Nat × α)) :
    ∀ lo, Sparse.wfFrom d lo m = true → Sparse.wfFrom d lo (m.filter f) = true := by
  induction m with
  | nil => intro lo _; rfl
  | cons e m ih =>
    intro lo h
    rw [Sparse.wfFrom_cons] at h
    by_cases hf : f e
    · simp only [List.filter_cons, hf, if_true]
      rw [Sparse.wfFrom_cons]
      exact ⟨h.1, h.2.1, ih _ h.2.2⟩
    · simp only [List.filter_cons, hf]
      refine ih lo (Sparse.wfFrom_mono d ?_ m h.2.2)
      intro j hj i hi
      exact lt_trans (h.1 i hi) (hj e.1 rfl)

theorem Sparse.wf_filter (d : α) (f : Nat × α → Bool) (m : List (Nat × α)) (hm : Sparse.wf d m = true) :
    Sparse.wf d (m.filter f) = true := Sparse.wfFrom_filter d f m _ hm

/-- Equal maps in canonical form are equal data. -/
theorem Sparse.get_of_wfFrom (d : α) (m : List (Nat × α)) :
    ∀ lo, Sparse.wfFrom d lo m = true → ∀ j, ¬ Sparse.above lo j → Sparse.get d m j = d := by
  induction m with
  | nil => intro lo _ j _; rfl
  | cons e m ih =>
    intro lo h j hj
    rw [Sparse.wfFrom_cons] at h
    have hne : e.1 ≠ j := fun hh => hj (hh ▸ h.1)
    simp only [Sparse.get, hne, if_false]
    refine ih _ h.2.2 j ?_
    intro hab
    apply hj
    intro i hi
    exact lt_trans (h.1 i hi) (hab e.1 rfl)

theorem Sparse.ext_wfFrom (d : α) (m : List (Nat × α)) :
    ∀ (m' : List (Nat × α)) (lo lo' : Option Nat), Sparse.wfFrom d lo m = true → Sparse.wfFrom d lo' m' = true →
      (∀ j, Sparse.get d m j = Sparse.get d m' j) → m = m' := by
  induction m with
  | nil =>
    intro m' lo lo' _ h' hg
    cases m' with
    | nil => rfl
    | cons e m' =>
      rw [Sparse.wfFrom_cons] at h'
      have := hg e.1
      simp [Sparse.get] at this
      exact absurd this.symm h'.2.1
  | cons e m ih =>
    intro m' lo lo' h h' hg
    rw [Sparse.wfFrom_cons] at h
    cases m' with
    | nil =>
      have := hg e.1
      simp [Sparse.get] at this
      exact absurd this h.2.1
    | cons e' m' =>
      rw [Sparse.wfFrom_cons] at h'
      have hk : e.1 = e'.1 := by
        by_contra hne
        rcases Nat.lt_or_ge e.1 e'.1 with hlt | hge
        · have h1 := hg e.1
          have hne' : e'.1 ≠ e.1 := fun hh => hne hh.symm
          simp only [Sparse.get, if_true, hne', if_false] at h1
          rw [Sparse.get_of_wfFrom d m' _ h'.2.2 e.1 (by intro hab; have := hab e'.1 rfl; omega)] at h1
          exact h.2.1 h1
        · have h1 := hg e'.1
          have hlt : e'.1 < e.1 := lt_of_le_of_ne hge (fun hh => hne hh.symm)
          simp only [Sparse.get, if_true, hne, if_false] at h1
          rw [Sparse.get_of_wfFrom d m _ h.2.2 e'.1 (by intro hab; have := hab e.1 rfl; omega)] at h1
          exact h'.2.1 h1.symm
      have hv : e.2 = e'.2 := by
        have h1 := hg e.1
        simpa [Sparse.get, hk] using h1
      have he : e = e' := Prod.ext hk hv
      subst he
      congr 1
      refine ih m' _ _ h.2.2 h'.2.2 ?_
      intro j
      by_cases hj : e.1 = j
      · subst hj
        rw [Sparse.get_of_wfFrom d m _ h.2.2 e.1 (by intro hab; exact lt_irrefl _ (hab e.1 rfl)),
          Sparse.get_of_wfFrom d m' _ h'.2.2 e.1 (by intro hab; exact lt_irrefl _ (hab e.1 rfl))]
      · simpa [Sparse.get, hj] using hg j

/-- Two maps in canonical form that read alike are the same list. -/
theorem Sparse.ext_wf (d : α) (m m' : List (Nat × α)) (h : Sparse.wf d m = true) (h' : Sparse.wf d m' = true)
    (hg : ∀ j, Sparse.get d m j = Sparse.get d m' j) : m = m' := Sparse.ext_wfFrom d m m' _ _ h h' hg

end

/-! ## Memory -/

theorem Memory.byte_setByte (m : List Host.Cell) (k j : Nat) (v : Byte) :
    Memory.byte (Memory.setByte m k v) j = if j = k then v else Memory.byte m j := Sparse.get_put _ _ _ _ _

theorem Memory.wf_setByte (m : List Host.Cell) (k : Nat) (v : Byte) (h : Memory.wf m = true) :
    Memory.wf (Memory.setByte m k v) = true := Sparse.wf_put _ _ _ _ h

theorem Memory.wf_setBytes (bs : List Byte) :
    ∀ (m : List Host.Cell) (k : Nat), Memory.wf m = true → Memory.wf (Memory.setBytes m k bs) = true := by
  induction bs with
  | nil => intro m k h; exact h
  | cons b bs ih => intro m k h; exact ih _ _ (Memory.wf_setByte m k b h)

theorem Memory.wf_store (m : List Host.Cell) (k n : Nat) (v : Word) (h : Memory.wf m = true) :
    Memory.wf (Memory.store m k n v) = true := Memory.wf_setBytes _ _ _ h

/-- A byte after a run of bytes is written: the run's own byte inside it, the old byte elsewhere. -/
theorem Memory.byte_setBytes (bs : List Byte) :
    ∀ (m : List Host.Cell) (k j : Nat), Memory.byte (Memory.setBytes m k bs) j =
      if k ≤ j ∧ j < k + bs.length then bs.getD (j - k) 0 else Memory.byte m j := by
  induction bs with
  | nil =>
    intro m k j
    simp [Memory.setBytes]
  | cons b bs ih =>
    intro m k j
    rw [Memory.setBytes, ih, Memory.byte_setByte]
    by_cases h1 : j = k
    · subst h1
      simp
    · by_cases h2 : k + 1 ≤ j ∧ j < k + 1 + bs.length
      · have h3 : k ≤ j ∧ j < k + (b :: bs).length := by simp only [List.length_cons]; omega
        have h4 : j - k = (j - (k + 1)) + 1 := by omega
        simp only [h2, and_self, if_true, h3, h4, List.getD_cons_succ]
      · have h3 : ¬ (k ≤ j ∧ j < k + (b :: bs).length) := by simp only [List.length_cons]; omega
        rw [if_neg h2, if_neg h1, if_neg h3]

theorem leList_length (n : Nat) : ∀ v, (leList n v).length = n := by
  induction n with
  | zero => intro v; rfl
  | succ n ih => intro v; simp [leList, ih]

/-- A store leaves every byte outside it alone. -/
theorem Memory.byte_store_outside (m : List Host.Cell) (k n : Nat) (v : Word) (j : Nat) (h : j < k ∨ k + n ≤ j) :
    Memory.byte (Memory.store m k n v) j = Memory.byte m j := by
  rw [Memory.store, Memory.byte_setBytes, leList_length, if_neg (by omega)]

theorem leNat_leList (n : Nat) : ∀ v, leNat (leList n v) = v % 256 ^ n := by
  induction n with
  | zero => intro v; simp [leList, leNat, Nat.mod_one]
  | succ n ih =>
    intro v
    simp only [leList, leNat, ih, BitVec.toNat_ofNat]
    have h1 : v % 256 ^ (n + 1) = v % 256 + 256 * (v / 256 % 256 ^ n) := by
      rw [pow_succ, mul_comm, Nat.mod_mul]
    rw [h1]

theorem Memory.bytes_length (m : List Host.Cell) (n : Nat) : ∀ k, (Memory.bytes m k n).length = n := by
  induction n with
  | zero => intro k; rfl
  | succ n ih => intro k; simp [Memory.bytes, ih]

theorem Memory.bytes_congr (m m' : List Host.Cell) (n : Nat) :
    ∀ k, (∀ j, k ≤ j → j < k + n → Memory.byte m j = Memory.byte m' j) → Memory.bytes m k n = Memory.bytes m' k n := by
  induction n with
  | zero => intro k _; rfl
  | succ n ih =>
    intro k h
    rw [Memory.bytes, Memory.bytes, h k (le_refl _) (by omega), ih (k + 1) (fun j h1 h2 => h j (by omega) (by omega))]

/-- A read of what has just been written. -/
theorem Memory.bytes_setBytes (bs : List Byte) :
    ∀ (m : List Host.Cell) (k : Nat), Memory.bytes (Memory.setBytes m k bs) k bs.length = bs := by
  induction bs with
  | nil => intro m k; rfl
  | cons b bs ih =>
    intro m k
    simp only [List.length_cons, Memory.bytes]
    congr 1
    · rw [Memory.byte_setBytes, if_pos (by simp)]
      simp
    · rw [Memory.setBytes]
      exact ih _ _

theorem Memory.load_store (m : List Host.Cell) (k n : Nat) (v : Word) :
    Memory.load (Memory.store m k n v) k n = BitVec.ofNat 64 (v.toNat % 256 ^ n) := by
  have h := Memory.bytes_setBytes (leList n v.toNat) m k
  rw [leList_length] at h
  rw [Memory.load, Memory.store, h, leNat_leList]

/-- A word read after it is written. -/
theorem Memory.load_store_word (m : List Host.Cell) (k : Nat) (v : Word) : Memory.load (Memory.store m k 8 v) k 8 = v := by
  rw [Memory.load_store]
  have : v.toNat % 256 ^ 8 = v.toNat := Nat.mod_eq_of_lt (by have := v.isLt; simpa using this)
  rw [this, BitVec.ofNat_toNat, BitVec.setWidth_eq]

/-- A read apart from a store gives what it gave. -/
theorem Memory.load_store_apart (m : List Host.Cell) (k n j i : Nat) (v : Word) (h : j + i ≤ k ∨ k + n ≤ j) :
    Memory.load (Memory.store m k n v) j i = Memory.load m j i := by
  rw [Memory.load, Memory.load, Memory.bytes_congr _ m i j]
  intro a h1 h2
  exact Memory.byte_store_outside m k n v a (by omega)

end Sys2Proof.Machine
end

