-- ==== Sys2Proof/Laws/State.lean ====
section
/-! SUPPORT. Every field and every accessor of the state after every update of it, so that no proof unfolds a record
update. The named updates of Machine/Ops.lean (modCore and its like) unfold to these. -/

namespace Sys2Proof.Machine

/-! ## A field that an update leaves alone -/

@[simp] theorem State.mem_setCore (s : State) (p : Nat) (c : Core) : (s.setCore p c).mem = s.mem := rfl
@[simp] theorem State.fe_setCore (s : State) (p : Nat) (c : Core) : (s.setCore p c).fe = s.fe := rfl
@[simp] theorem State.dies_setCore (s : State) (p : Nat) (c : Core) : (s.setCore p c).dies = s.dies := rfl
@[simp] theorem State.slices_setCore (s : State) (p : Nat) (c : Core) : (s.setCore p c).slices = s.slices := rfl
@[simp] theorem State.klus_setCore (s : State) (p : Nat) (c : Core) : (s.setCore p c).klus = s.klus := rfl
@[simp] theorem State.hub_setCore (s : State) (p : Nat) (c : Core) : (s.setCore p c).hub = s.hub := rfl
@[simp] theorem State.place_setCore (s : State) (p : Nat) (c : Core) : (s.setCore p c).place = s.place := rfl
@[simp] theorem State.saved_setCore (s : State) (p : Nat) (c : Core) : (s.setCore p c).saved = s.saved := rfl
@[simp] theorem State.runs_setCore (s : State) (p : Nat) (c : Core) : (s.setCore p c).runs = s.runs := rfl
@[simp] theorem State.outMem_setCore (s : State) (p : Nat) (c : Core) : (s.setCore p c).outMem = s.outMem := rfl
@[simp] theorem State.outFull_setCore (s : State) (p : Nat) (c : Core) : (s.setCore p c).outFull = s.outFull := rfl
@[simp] theorem State.cur_setCore (s : State) (p : Nat) (c : Core) : (s.setCore p c).cur = s.cur := rfl
@[simp] theorem State.walked_setCore (s : State) (p : Nat) (c : Core) : (s.setCore p c).walked = s.walked := rfl
@[simp] theorem State.due_setCore (s : State) (p : Nat) (c : Core) : (s.setCore p c).due = s.due := rfl
@[simp] theorem State.choices_setCore (s : State) (p : Nat) (c : Core) : (s.setCore p c).choices = s.choices := rfl
@[simp] theorem State.rounds_setCore (s : State) (p : Nat) (c : Core) : (s.setCore p c).rounds = s.rounds := rfl
@[simp] theorem State.sweep_setCore (s : State) (p : Nat) (c : Core) : (s.setCore p c).sweep = s.sweep := rfl

@[simp] theorem State.mem_setSlot (s : State) (p n : Nat) (t : Slot) : (s.setSlot p n t).mem = s.mem := rfl
@[simp] theorem State.fe_setSlot (s : State) (p n : Nat) (t : Slot) : (s.setSlot p n t).fe = s.fe := rfl
@[simp] theorem State.dies_setSlot (s : State) (p n : Nat) (t : Slot) : (s.setSlot p n t).dies = s.dies := rfl
@[simp] theorem State.slices_setSlot (s : State) (p n : Nat) (t : Slot) : (s.setSlot p n t).slices = s.slices := rfl
@[simp] theorem State.klus_setSlot (s : State) (p n : Nat) (t : Slot) : (s.setSlot p n t).klus = s.klus := rfl
@[simp] theorem State.hub_setSlot (s : State) (p n : Nat) (t : Slot) : (s.setSlot p n t).hub = s.hub := rfl
@[simp] theorem State.place_setSlot (s : State) (p n : Nat) (t : Slot) : (s.setSlot p n t).place = s.place := rfl
@[simp] theorem State.saved_setSlot (s : State) (p n : Nat) (t : Slot) : (s.setSlot p n t).saved = s.saved := rfl
@[simp] theorem State.runs_setSlot (s : State) (p n : Nat) (t : Slot) : (s.setSlot p n t).runs = s.runs := rfl
@[simp] theorem State.outMem_setSlot (s : State) (p n : Nat) (t : Slot) : (s.setSlot p n t).outMem = s.outMem := rfl
@[simp] theorem State.outFull_setSlot (s : State) (p n : Nat) (t : Slot) : (s.setSlot p n t).outFull = s.outFull := rfl
@[simp] theorem State.cur_setSlot (s : State) (p n : Nat) (t : Slot) : (s.setSlot p n t).cur = s.cur := rfl
@[simp] theorem State.walked_setSlot (s : State) (p n : Nat) (t : Slot) : (s.setSlot p n t).walked = s.walked := rfl
@[simp] theorem State.due_setSlot (s : State) (p n : Nat) (t : Slot) : (s.setSlot p n t).due = s.due := rfl
@[simp] theorem State.choices_setSlot (s : State) (p n : Nat) (t : Slot) : (s.setSlot p n t).choices = s.choices := rfl
@[simp] theorem State.rounds_setSlot (s : State) (p n : Nat) (t : Slot) : (s.setSlot p n t).rounds = s.rounds := rfl
@[simp] theorem State.sweep_setSlot (s : State) (p n : Nat) (t : Slot) : (s.setSlot p n t).sweep = s.sweep := rfl

@[simp] theorem State.mem_setTile (s : State) (p : Nat) (x : Tile) (v : TileState) : (s.setTile p x v).mem = s.mem := rfl
@[simp] theorem State.fe_setTile (s : State) (p : Nat) (x : Tile) (v : TileState) : (s.setTile p x v).fe = s.fe := rfl
@[simp] theorem State.dies_setTile (s : State) (p : Nat) (x : Tile) (v : TileState) : (s.setTile p x v).dies = s.dies := rfl
@[simp] theorem State.slices_setTile (s : State) (p : Nat) (x : Tile) (v : TileState) : (s.setTile p x v).slices = s.slices := rfl
@[simp] theorem State.klus_setTile (s : State) (p : Nat) (x : Tile) (v : TileState) : (s.setTile p x v).klus = s.klus := rfl
@[simp] theorem State.hub_setTile (s : State) (p : Nat) (x : Tile) (v : TileState) : (s.setTile p x v).hub = s.hub := rfl
@[simp] theorem State.place_setTile (s : State) (p : Nat) (x : Tile) (v : TileState) : (s.setTile p x v).place = s.place := rfl
@[simp] theorem State.saved_setTile (s : State) (p : Nat) (x : Tile) (v : TileState) : (s.setTile p x v).saved = s.saved := rfl
@[simp] theorem State.runs_setTile (s : State) (p : Nat) (x : Tile) (v : TileState) : (s.setTile p x v).runs = s.runs := rfl
@[simp] theorem State.outMem_setTile (s : State) (p : Nat) (x : Tile) (v : TileState) : (s.setTile p x v).outMem = s.outMem := rfl
@[simp] theorem State.outFull_setTile (s : State) (p : Nat) (x : Tile) (v : TileState) : (s.setTile p x v).outFull = s.outFull := rfl
@[simp] theorem State.cur_setTile (s : State) (p : Nat) (x : Tile) (v : TileState) : (s.setTile p x v).cur = s.cur := rfl
@[simp] theorem State.walked_setTile (s : State) (p : Nat) (x : Tile) (v : TileState) : (s.setTile p x v).walked = s.walked := rfl
@[simp] theorem State.due_setTile (s : State) (p : Nat) (x : Tile) (v : TileState) : (s.setTile p x v).due = s.due := rfl
@[simp] theorem State.choices_setTile (s : State) (p : Nat) (x : Tile) (v : TileState) : (s.setTile p x v).choices = s.choices := rfl
@[simp] theorem State.rounds_setTile (s : State) (p : Nat) (x : Tile) (v : TileState) : (s.setTile p x v).rounds = s.rounds := rfl
@[simp] theorem State.sweep_setTile (s : State) (p : Nat) (x : Tile) (v : TileState) : (s.setTile p x v).sweep = s.sweep := rfl

@[simp] theorem State.mem_setDie (s : State) (d : Nat) (v : Die) : (s.setDie d v).mem = s.mem := rfl
@[simp] theorem State.fe_setDie (s : State) (d : Nat) (v : Die) : (s.setDie d v).fe = s.fe := rfl
@[simp] theorem State.cores_setDie (s : State) (d : Nat) (v : Die) : (s.setDie d v).cores = s.cores := rfl
@[simp] theorem State.slices_setDie (s : State) (d : Nat) (v : Die) : (s.setDie d v).slices = s.slices := rfl
@[simp] theorem State.klus_setDie (s : State) (d : Nat) (v : Die) : (s.setDie d v).klus = s.klus := rfl
@[simp] theorem State.hub_setDie (s : State) (d : Nat) (v : Die) : (s.setDie d v).hub = s.hub := rfl
@[simp] theorem State.place_setDie (s : State) (d : Nat) (v : Die) : (s.setDie d v).place = s.place := rfl
@[simp] theorem State.saved_setDie (s : State) (d : Nat) (v : Die) : (s.setDie d v).saved = s.saved := rfl
@[simp] theorem State.runs_setDie (s : State) (d : Nat) (v : Die) : (s.setDie d v).runs = s.runs := rfl
@[simp] theorem State.outMem_setDie (s : State) (d : Nat) (v : Die) : (s.setDie d v).outMem = s.outMem := rfl
@[simp] theorem State.outFull_setDie (s : State) (d : Nat) (v : Die) : (s.setDie d v).outFull = s.outFull := rfl
@[simp] theorem State.cur_setDie (s : State) (d : Nat) (v : Die) : (s.setDie d v).cur = s.cur := rfl
@[simp] theorem State.walked_setDie (s : State) (d : Nat) (v : Die) : (s.setDie d v).walked = s.walked := rfl
@[simp] theorem State.due_setDie (s : State) (d : Nat) (v : Die) : (s.setDie d v).due = s.due := rfl
@[simp] theorem State.choices_setDie (s : State) (d : Nat) (v : Die) : (s.setDie d v).choices = s.choices := rfl
@[simp] theorem State.rounds_setDie (s : State) (d : Nat) (v : Die) : (s.setDie d v).rounds = s.rounds := rfl
@[simp] theorem State.sweep_setDie (s : State) (d : Nat) (v : Die) : (s.setDie d v).sweep = s.sweep := rfl

@[simp] theorem State.mem_setSlice (s : State) (i : Nat) (v : Slice) : (s.setSlice i v).mem = s.mem := rfl
@[simp] theorem State.fe_setSlice (s : State) (i : Nat) (v : Slice) : (s.setSlice i v).fe = s.fe := rfl
@[simp] theorem State.cores_setSlice (s : State) (i : Nat) (v : Slice) : (s.setSlice i v).cores = s.cores := rfl
@[simp] theorem State.dies_setSlice (s : State) (i : Nat) (v : Slice) : (s.setSlice i v).dies = s.dies := rfl
@[simp] theorem State.klus_setSlice (s : State) (i : Nat) (v : Slice) : (s.setSlice i v).klus = s.klus := rfl
@[simp] theorem State.hub_setSlice (s : State) (i : Nat) (v : Slice) : (s.setSlice i v).hub = s.hub := rfl
@[simp] theorem State.place_setSlice (s : State) (i : Nat) (v : Slice) : (s.setSlice i v).place = s.place := rfl
@[simp] theorem State.saved_setSlice (s : State) (i : Nat) (v : Slice) : (s.setSlice i v).saved = s.saved := rfl
@[simp] theorem State.runs_setSlice (s : State) (i : Nat) (v : Slice) : (s.setSlice i v).runs = s.runs := rfl
@[simp] theorem State.outMem_setSlice (s : State) (i : Nat) (v : Slice) : (s.setSlice i v).outMem = s.outMem := rfl
@[simp] theorem State.outFull_setSlice (s : State) (i : Nat) (v : Slice) : (s.setSlice i v).outFull = s.outFull := rfl
@[simp] theorem State.cur_setSlice (s : State) (i : Nat) (v : Slice) : (s.setSlice i v).cur = s.cur := rfl
@[simp] theorem State.walked_setSlice (s : State) (i : Nat) (v : Slice) : (s.setSlice i v).walked = s.walked := rfl
@[simp] theorem State.due_setSlice (s : State) (i : Nat) (v : Slice) : (s.setSlice i v).due = s.due := rfl
@[simp] theorem State.choices_setSlice (s : State) (i : Nat) (v : Slice) : (s.setSlice i v).choices = s.choices := rfl
@[simp] theorem State.rounds_setSlice (s : State) (i : Nat) (v : Slice) : (s.setSlice i v).rounds = s.rounds := rfl
@[simp] theorem State.sweep_setSlice (s : State) (i : Nat) (v : Slice) : (s.setSlice i v).sweep = s.sweep := rfl

@[simp] theorem State.mem_setKlu (s : State) (i : Nat) (v : StackQueue) : (s.setKlu i v).mem = s.mem := rfl
@[simp] theorem State.fe_setKlu (s : State) (i : Nat) (v : StackQueue) : (s.setKlu i v).fe = s.fe := rfl
@[simp] theorem State.cores_setKlu (s : State) (i : Nat) (v : StackQueue) : (s.setKlu i v).cores = s.cores := rfl
@[simp] theorem State.dies_setKlu (s : State) (i : Nat) (v : StackQueue) : (s.setKlu i v).dies = s.dies := rfl
@[simp] theorem State.slices_setKlu (s : State) (i : Nat) (v : StackQueue) : (s.setKlu i v).slices = s.slices := rfl
@[simp] theorem State.hub_setKlu (s : State) (i : Nat) (v : StackQueue) : (s.setKlu i v).hub = s.hub := rfl
@[simp] theorem State.place_setKlu (s : State) (i : Nat) (v : StackQueue) : (s.setKlu i v).place = s.place := rfl
@[simp] theorem State.saved_setKlu (s : State) (i : Nat) (v : StackQueue) : (s.setKlu i v).saved = s.saved := rfl
@[simp] theorem State.runs_setKlu (s : State) (i : Nat) (v : StackQueue) : (s.setKlu i v).runs = s.runs := rfl
@[simp] theorem State.outMem_setKlu (s : State) (i : Nat) (v : StackQueue) : (s.setKlu i v).outMem = s.outMem := rfl
@[simp] theorem State.outFull_setKlu (s : State) (i : Nat) (v : StackQueue) : (s.setKlu i v).outFull = s.outFull := rfl
@[simp] theorem State.cur_setKlu (s : State) (i : Nat) (v : StackQueue) : (s.setKlu i v).cur = s.cur := rfl
@[simp] theorem State.walked_setKlu (s : State) (i : Nat) (v : StackQueue) : (s.setKlu i v).walked = s.walked := rfl
@[simp] theorem State.due_setKlu (s : State) (i : Nat) (v : StackQueue) : (s.setKlu i v).due = s.due := rfl
@[simp] theorem State.choices_setKlu (s : State) (i : Nat) (v : StackQueue) : (s.setKlu i v).choices = s.choices := rfl
@[simp] theorem State.rounds_setKlu (s : State) (i : Nat) (v : StackQueue) : (s.setKlu i v).rounds = s.rounds := rfl
@[simp] theorem State.sweep_setKlu (s : State) (i : Nat) (v : StackQueue) : (s.setKlu i v).sweep = s.sweep := rfl

@[simp] theorem State.mem_setHub (s : State) (h : Hub) : (s.setHub h).mem = s.mem := rfl
@[simp] theorem State.fe_setHub (s : State) (h : Hub) : (s.setHub h).fe = s.fe := rfl
@[simp] theorem State.cores_setHub (s : State) (h : Hub) : (s.setHub h).cores = s.cores := rfl
@[simp] theorem State.dies_setHub (s : State) (h : Hub) : (s.setHub h).dies = s.dies := rfl
@[simp] theorem State.slices_setHub (s : State) (h : Hub) : (s.setHub h).slices = s.slices := rfl
@[simp] theorem State.klus_setHub (s : State) (h : Hub) : (s.setHub h).klus = s.klus := rfl
@[simp] theorem State.place_setHub (s : State) (h : Hub) : (s.setHub h).place = s.place := rfl
@[simp] theorem State.saved_setHub (s : State) (h : Hub) : (s.setHub h).saved = s.saved := rfl
@[simp] theorem State.runs_setHub (s : State) (h : Hub) : (s.setHub h).runs = s.runs := rfl
@[simp] theorem State.outMem_setHub (s : State) (h : Hub) : (s.setHub h).outMem = s.outMem := rfl
@[simp] theorem State.outFull_setHub (s : State) (h : Hub) : (s.setHub h).outFull = s.outFull := rfl
@[simp] theorem State.cur_setHub (s : State) (h : Hub) : (s.setHub h).cur = s.cur := rfl
@[simp] theorem State.walked_setHub (s : State) (h : Hub) : (s.setHub h).walked = s.walked := rfl
@[simp] theorem State.due_setHub (s : State) (h : Hub) : (s.setHub h).due = s.due := rfl
@[simp] theorem State.choices_setHub (s : State) (h : Hub) : (s.setHub h).choices = s.choices := rfl
@[simp] theorem State.rounds_setHub (s : State) (h : Hub) : (s.setHub h).rounds = s.rounds := rfl
@[simp] theorem State.sweep_setHub (s : State) (h : Hub) : (s.setHub h).sweep = s.sweep := rfl

@[simp] theorem State.mem_setHw (s : State) (q : BitVec 6) (v : HwSlot) : (s.setHw q v).mem = s.mem := rfl
@[simp] theorem State.fe_setHw (s : State) (q : BitVec 6) (v : HwSlot) : (s.setHw q v).fe = s.fe := rfl
@[simp] theorem State.cores_setHw (s : State) (q : BitVec 6) (v : HwSlot) : (s.setHw q v).cores = s.cores := rfl
@[simp] theorem State.dies_setHw (s : State) (q : BitVec 6) (v : HwSlot) : (s.setHw q v).dies = s.dies := rfl
@[simp] theorem State.slices_setHw (s : State) (q : BitVec 6) (v : HwSlot) : (s.setHw q v).slices = s.slices := rfl
@[simp] theorem State.klus_setHw (s : State) (q : BitVec 6) (v : HwSlot) : (s.setHw q v).klus = s.klus := rfl
@[simp] theorem State.place_setHw (s : State) (q : BitVec 6) (v : HwSlot) : (s.setHw q v).place = s.place := rfl
@[simp] theorem State.saved_setHw (s : State) (q : BitVec 6) (v : HwSlot) : (s.setHw q v).saved = s.saved := rfl
@[simp] theorem State.runs_setHw (s : State) (q : BitVec 6) (v : HwSlot) : (s.setHw q v).runs = s.runs := rfl
@[simp] theorem State.outMem_setHw (s : State) (q : BitVec 6) (v : HwSlot) : (s.setHw q v).outMem = s.outMem := rfl
@[simp] theorem State.outFull_setHw (s : State) (q : BitVec 6) (v : HwSlot) : (s.setHw q v).outFull = s.outFull := rfl
@[simp] theorem State.cur_setHw (s : State) (q : BitVec 6) (v : HwSlot) : (s.setHw q v).cur = s.cur := rfl
@[simp] theorem State.walked_setHw (s : State) (q : BitVec 6) (v : HwSlot) : (s.setHw q v).walked = s.walked := rfl
@[simp] theorem State.due_setHw (s : State) (q : BitVec 6) (v : HwSlot) : (s.setHw q v).due = s.due := rfl
@[simp] theorem State.choices_setHw (s : State) (q : BitVec 6) (v : HwSlot) : (s.setHw q v).choices = s.choices := rfl
@[simp] theorem State.rounds_setHw (s : State) (q : BitVec 6) (v : HwSlot) : (s.setHw q v).rounds = s.rounds := rfl
@[simp] theorem State.sweep_setHw (s : State) (q : BitVec 6) (v : HwSlot) : (s.setHw q v).sweep = s.sweep := rfl

@[simp] theorem State.mem_setFull (s : State) (k : Nat) (v : Bool) : (s.setFull k v).mem = s.mem := rfl
@[simp] theorem State.cores_setFull (s : State) (k : Nat) (v : Bool) : (s.setFull k v).cores = s.cores := rfl
@[simp] theorem State.dies_setFull (s : State) (k : Nat) (v : Bool) : (s.setFull k v).dies = s.dies := rfl
@[simp] theorem State.slices_setFull (s : State) (k : Nat) (v : Bool) : (s.setFull k v).slices = s.slices := rfl
@[simp] theorem State.klus_setFull (s : State) (k : Nat) (v : Bool) : (s.setFull k v).klus = s.klus := rfl
@[simp] theorem State.hub_setFull (s : State) (k : Nat) (v : Bool) : (s.setFull k v).hub = s.hub := rfl
@[simp] theorem State.place_setFull (s : State) (k : Nat) (v : Bool) : (s.setFull k v).place = s.place := rfl
@[simp] theorem State.saved_setFull (s : State) (k : Nat) (v : Bool) : (s.setFull k v).saved = s.saved := rfl
@[simp] theorem State.runs_setFull (s : State) (k : Nat) (v : Bool) : (s.setFull k v).runs = s.runs := rfl
@[simp] theorem State.outMem_setFull (s : State) (k : Nat) (v : Bool) : (s.setFull k v).outMem = s.outMem := rfl
@[simp] theorem State.outFull_setFull (s : State) (k : Nat) (v : Bool) : (s.setFull k v).outFull = s.outFull := rfl
@[simp] theorem State.cur_setFull (s : State) (k : Nat) (v : Bool) : (s.setFull k v).cur = s.cur := rfl
@[simp] theorem State.walked_setFull (s : State) (k : Nat) (v : Bool) : (s.setFull k v).walked = s.walked := rfl
@[simp] theorem State.due_setFull (s : State) (k : Nat) (v : Bool) : (s.setFull k v).due = s.due := rfl
@[simp] theorem State.choices_setFull (s : State) (k : Nat) (v : Bool) : (s.setFull k v).choices = s.choices := rfl
@[simp] theorem State.rounds_setFull (s : State) (k : Nat) (v : Bool) : (s.setFull k v).rounds = s.rounds := rfl
@[simp] theorem State.sweep_setFull (s : State) (k : Nat) (v : Bool) : (s.setFull k v).sweep = s.sweep := rfl

@[simp] theorem State.fe_setWord (s : State) (k : Nat) (v : Word) : (s.setWord k v).fe = s.fe := rfl
@[simp] theorem State.cores_setWord (s : State) (k : Nat) (v : Word) : (s.setWord k v).cores = s.cores := rfl
@[simp] theorem State.dies_setWord (s : State) (k : Nat) (v : Word) : (s.setWord k v).dies = s.dies := rfl
@[simp] theorem State.slices_setWord (s : State) (k : Nat) (v : Word) : (s.setWord k v).slices = s.slices := rfl
@[simp] theorem State.klus_setWord (s : State) (k : Nat) (v : Word) : (s.setWord k v).klus = s.klus := rfl
@[simp] theorem State.hub_setWord (s : State) (k : Nat) (v : Word) : (s.setWord k v).hub = s.hub := rfl
@[simp] theorem State.place_setWord (s : State) (k : Nat) (v : Word) : (s.setWord k v).place = s.place := rfl
@[simp] theorem State.saved_setWord (s : State) (k : Nat) (v : Word) : (s.setWord k v).saved = s.saved := rfl
@[simp] theorem State.runs_setWord (s : State) (k : Nat) (v : Word) : (s.setWord k v).runs = s.runs := rfl
@[simp] theorem State.outMem_setWord (s : State) (k : Nat) (v : Word) : (s.setWord k v).outMem = s.outMem := rfl
@[simp] theorem State.outFull_setWord (s : State) (k : Nat) (v : Word) : (s.setWord k v).outFull = s.outFull := rfl
@[simp] theorem State.cur_setWord (s : State) (k : Nat) (v : Word) : (s.setWord k v).cur = s.cur := rfl
@[simp] theorem State.walked_setWord (s : State) (k : Nat) (v : Word) : (s.setWord k v).walked = s.walked := rfl
@[simp] theorem State.due_setWord (s : State) (k : Nat) (v : Word) : (s.setWord k v).due = s.due := rfl
@[simp] theorem State.choices_setWord (s : State) (k : Nat) (v : Word) : (s.setWord k v).choices = s.choices := rfl
@[simp] theorem State.rounds_setWord (s : State) (k : Nat) (v : Word) : (s.setWord k v).rounds = s.rounds := rfl
@[simp] theorem State.sweep_setWord (s : State) (k : Nat) (v : Word) : (s.setWord k v).sweep = s.sweep := rfl

@[simp] theorem State.fe_setBytes (s : State) (k : Nat) (l : List Byte) : (s.setBytes k l).fe = s.fe := rfl
@[simp] theorem State.cores_setBytes (s : State) (k : Nat) (l : List Byte) : (s.setBytes k l).cores = s.cores := rfl
@[simp] theorem State.dies_setBytes (s : State) (k : Nat) (l : List Byte) : (s.setBytes k l).dies = s.dies := rfl
@[simp] theorem State.slices_setBytes (s : State) (k : Nat) (l : List Byte) : (s.setBytes k l).slices = s.slices := rfl
@[simp] theorem State.klus_setBytes (s : State) (k : Nat) (l : List Byte) : (s.setBytes k l).klus = s.klus := rfl
@[simp] theorem State.hub_setBytes (s : State) (k : Nat) (l : List Byte) : (s.setBytes k l).hub = s.hub := rfl
@[simp] theorem State.place_setBytes (s : State) (k : Nat) (l : List Byte) : (s.setBytes k l).place = s.place := rfl
@[simp] theorem State.saved_setBytes (s : State) (k : Nat) (l : List Byte) : (s.setBytes k l).saved = s.saved := rfl
@[simp] theorem State.runs_setBytes (s : State) (k : Nat) (l : List Byte) : (s.setBytes k l).runs = s.runs := rfl
@[simp] theorem State.outMem_setBytes (s : State) (k : Nat) (l : List Byte) : (s.setBytes k l).outMem = s.outMem := rfl
@[simp] theorem State.outFull_setBytes (s : State) (k : Nat) (l : List Byte) : (s.setBytes k l).outFull = s.outFull := rfl
@[simp] theorem State.cur_setBytes (s : State) (k : Nat) (l : List Byte) : (s.setBytes k l).cur = s.cur := rfl
@[simp] theorem State.walked_setBytes (s : State) (k : Nat) (l : List Byte) : (s.setBytes k l).walked = s.walked := rfl
@[simp] theorem State.due_setBytes (s : State) (k : Nat) (l : List Byte) : (s.setBytes k l).due = s.due := rfl
@[simp] theorem State.choices_setBytes (s : State) (k : Nat) (l : List Byte) : (s.setBytes k l).choices = s.choices := rfl
@[simp] theorem State.rounds_setBytes (s : State) (k : Nat) (l : List Byte) : (s.setBytes k l).rounds = s.rounds := rfl
@[simp] theorem State.sweep_setBytes (s : State) (k : Nat) (l : List Byte) : (s.setBytes k l).sweep = s.sweep := rfl

@[simp] theorem State.mem_post (s : State) (e : Instr) : (s.post e).mem = s.mem := rfl
@[simp] theorem State.fe_post (s : State) (e : Instr) : (s.post e).fe = s.fe := rfl
@[simp] theorem State.cores_post (s : State) (e : Instr) : (s.post e).cores = s.cores := rfl
@[simp] theorem State.dies_post (s : State) (e : Instr) : (s.post e).dies = s.dies := rfl
@[simp] theorem State.slices_post (s : State) (e : Instr) : (s.post e).slices = s.slices := rfl
@[simp] theorem State.klus_post (s : State) (e : Instr) : (s.post e).klus = s.klus := rfl
@[simp] theorem State.hub_post (s : State) (e : Instr) : (s.post e).hub = s.hub := rfl
@[simp] theorem State.place_post (s : State) (e : Instr) : (s.post e).place = s.place := rfl
@[simp] theorem State.saved_post (s : State) (e : Instr) : (s.post e).saved = s.saved := rfl
@[simp] theorem State.runs_post (s : State) (e : Instr) : (s.post e).runs = s.runs := rfl
@[simp] theorem State.outMem_post (s : State) (e : Instr) : (s.post e).outMem = s.outMem := rfl
@[simp] theorem State.outFull_post (s : State) (e : Instr) : (s.post e).outFull = s.outFull := rfl
@[simp] theorem State.cur_post (s : State) (e : Instr) : (s.post e).cur = s.cur := rfl
@[simp] theorem State.walked_post (s : State) (e : Instr) : (s.post e).walked = s.walked := rfl
@[simp] theorem State.choices_post (s : State) (e : Instr) : (s.post e).choices = s.choices := rfl
@[simp] theorem State.rounds_post (s : State) (e : Instr) : (s.post e).rounds = s.rounds := rfl
@[simp] theorem State.sweep_post (s : State) (e : Instr) : (s.post e).sweep = s.sweep := rfl

@[simp] theorem State.mem_posts (s : State) (es : List Instr) : (s.posts es).mem = s.mem := rfl
@[simp] theorem State.fe_posts (s : State) (es : List Instr) : (s.posts es).fe = s.fe := rfl
@[simp] theorem State.cores_posts (s : State) (es : List Instr) : (s.posts es).cores = s.cores := rfl
@[simp] theorem State.dies_posts (s : State) (es : List Instr) : (s.posts es).dies = s.dies := rfl
@[simp] theorem State.slices_posts (s : State) (es : List Instr) : (s.posts es).slices = s.slices := rfl
@[simp] theorem State.klus_posts (s : State) (es : List Instr) : (s.posts es).klus = s.klus := rfl
@[simp] theorem State.hub_posts (s : State) (es : List Instr) : (s.posts es).hub = s.hub := rfl
@[simp] theorem State.place_posts (s : State) (es : List Instr) : (s.posts es).place = s.place := rfl
@[simp] theorem State.saved_posts (s : State) (es : List Instr) : (s.posts es).saved = s.saved := rfl
@[simp] theorem State.runs_posts (s : State) (es : List Instr) : (s.posts es).runs = s.runs := rfl
@[simp] theorem State.outMem_posts (s : State) (es : List Instr) : (s.posts es).outMem = s.outMem := rfl
@[simp] theorem State.outFull_posts (s : State) (es : List Instr) : (s.posts es).outFull = s.outFull := rfl
@[simp] theorem State.cur_posts (s : State) (es : List Instr) : (s.posts es).cur = s.cur := rfl
@[simp] theorem State.walked_posts (s : State) (es : List Instr) : (s.posts es).walked = s.walked := rfl
@[simp] theorem State.choices_posts (s : State) (es : List Instr) : (s.posts es).choices = s.choices := rfl
@[simp] theorem State.rounds_posts (s : State) (es : List Instr) : (s.posts es).rounds = s.rounds := rfl
@[simp] theorem State.sweep_posts (s : State) (es : List Instr) : (s.posts es).sweep = s.sweep := rfl

/-! ## An accessor of a field that an update leaves alone -/

@[simp] theorem State.die_setCore (s : State) (p : Nat) (c : Core) (j : Nat) : (s.setCore p c).die j = s.die j := rfl
@[simp] theorem State.slice_setCore (s : State) (p : Nat) (c : Core) (j : Nat) : (s.setCore p c).slice j = s.slice j := rfl
@[simp] theorem State.klu_setCore (s : State) (p : Nat) (c : Core) (j : Nat) : (s.setCore p c).klu j = s.klu j := rfl
@[simp] theorem State.hw_setCore (s : State) (p : Nat) (c : Core) (j : BitVec 6) : (s.setCore p c).hw j = s.hw j := rfl
@[simp] theorem State.word_setCore (s : State) (p : Nat) (c : Core) (j : Nat) : (s.setCore p c).word j = s.word j := rfl
@[simp] theorem State.full_setCore (s : State) (p : Nat) (c : Core) (j : Nat) : (s.setCore p c).full j = s.full j := rfl
@[simp] theorem State.cycle_setCore (s : State) (p : Nat) (c : Core) (j : Nat) : (s.setCore p c).cycle j = s.cycle j := rfl
@[simp] theorem State.physical_setCore (s : State) (p : Nat) (c : Core) (j : Nat) : (s.setCore p c).physical j = s.physical j := rfl

@[simp] theorem State.die_setSlot (s : State) (p n : Nat) (t : Slot) (j : Nat) : (s.setSlot p n t).die j = s.die j := rfl
@[simp] theorem State.slice_setSlot (s : State) (p n : Nat) (t : Slot) (j : Nat) : (s.setSlot p n t).slice j = s.slice j := rfl
@[simp] theorem State.klu_setSlot (s : State) (p n : Nat) (t : Slot) (j : Nat) : (s.setSlot p n t).klu j = s.klu j := rfl
@[simp] theorem State.hw_setSlot (s : State) (p n : Nat) (t : Slot) (j : BitVec 6) : (s.setSlot p n t).hw j = s.hw j := rfl
@[simp] theorem State.word_setSlot (s : State) (p n : Nat) (t : Slot) (j : Nat) : (s.setSlot p n t).word j = s.word j := rfl
@[simp] theorem State.full_setSlot (s : State) (p n : Nat) (t : Slot) (j : Nat) : (s.setSlot p n t).full j = s.full j := rfl
@[simp] theorem State.cycle_setSlot (s : State) (p n : Nat) (t : Slot) (j : Nat) : (s.setSlot p n t).cycle j = s.cycle j := rfl
@[simp] theorem State.physical_setSlot (s : State) (p n : Nat) (t : Slot) (j : Nat) : (s.setSlot p n t).physical j = s.physical j := rfl

@[simp] theorem State.die_setTile (s : State) (p : Nat) (x : Tile) (v : TileState) (j : Nat) : (s.setTile p x v).die j = s.die j := rfl
@[simp] theorem State.slice_setTile (s : State) (p : Nat) (x : Tile) (v : TileState) (j : Nat) : (s.setTile p x v).slice j = s.slice j := rfl
@[simp] theorem State.klu_setTile (s : State) (p : Nat) (x : Tile) (v : TileState) (j : Nat) : (s.setTile p x v).klu j = s.klu j := rfl
@[simp] theorem State.hw_setTile (s : State) (p : Nat) (x : Tile) (v : TileState) (j : BitVec 6) : (s.setTile p x v).hw j = s.hw j := rfl
@[simp] theorem State.word_setTile (s : State) (p : Nat) (x : Tile) (v : TileState) (j : Nat) : (s.setTile p x v).word j = s.word j := rfl
@[simp] theorem State.full_setTile (s : State) (p : Nat) (x : Tile) (v : TileState) (j : Nat) : (s.setTile p x v).full j = s.full j := rfl
@[simp] theorem State.cycle_setTile (s : State) (p : Nat) (x : Tile) (v : TileState) (j : Nat) : (s.setTile p x v).cycle j = s.cycle j := rfl
@[simp] theorem State.physical_setTile (s : State) (p : Nat) (x : Tile) (v : TileState) (j : Nat) : (s.setTile p x v).physical j = s.physical j := rfl

@[simp] theorem State.core_setDie (s : State) (d : Nat) (v : Die) (j : Nat) : (s.setDie d v).core j = s.core j := rfl
@[simp] theorem State.slot_setDie (s : State) (d : Nat) (v : Die) (j m : Nat) : (s.setDie d v).slot j m = s.slot j m := rfl
@[simp] theorem State.tile_setDie (s : State) (d : Nat) (v : Die) (j : Nat) (y : Tile) : (s.setDie d v).tile j y = s.tile j y := rfl
@[simp] theorem State.slice_setDie (s : State) (d : Nat) (v : Die) (j : Nat) : (s.setDie d v).slice j = s.slice j := rfl
@[simp] theorem State.klu_setDie (s : State) (d : Nat) (v : Die) (j : Nat) : (s.setDie d v).klu j = s.klu j := rfl
@[simp] theorem State.hw_setDie (s : State) (d : Nat) (v : Die) (j : BitVec 6) : (s.setDie d v).hw j = s.hw j := rfl
@[simp] theorem State.word_setDie (s : State) (d : Nat) (v : Die) (j : Nat) : (s.setDie d v).word j = s.word j := rfl
@[simp] theorem State.full_setDie (s : State) (d : Nat) (v : Die) (j : Nat) : (s.setDie d v).full j = s.full j := rfl
@[simp] theorem State.thr_setDie (s : State) (d : Nat) (v : Die) : (s.setDie d v).thr = s.thr := rfl
@[simp] theorem State.physical_setDie (s : State) (d : Nat) (v : Die) (j : Nat) : (s.setDie d v).physical j = s.physical j := rfl
@[simp] theorem State.logical_setDie (s : State) (d : Nat) (v : Die) (j : Nat) : (s.setDie d v).logical j = s.logical j := rfl

@[simp] theorem State.core_setSlice (s : State) (i : Nat) (v : Slice) (j : Nat) : (s.setSlice i v).core j = s.core j := rfl
@[simp] theorem State.slot_setSlice (s : State) (i : Nat) (v : Slice) (j m : Nat) : (s.setSlice i v).slot j m = s.slot j m := rfl
@[simp] theorem State.tile_setSlice (s : State) (i : Nat) (v : Slice) (j : Nat) (y : Tile) : (s.setSlice i v).tile j y = s.tile j y := rfl
@[simp] theorem State.die_setSlice (s : State) (i : Nat) (v : Slice) (j : Nat) : (s.setSlice i v).die j = s.die j := rfl
@[simp] theorem State.klu_setSlice (s : State) (i : Nat) (v : Slice) (j : Nat) : (s.setSlice i v).klu j = s.klu j := rfl
@[simp] theorem State.hw_setSlice (s : State) (i : Nat) (v : Slice) (j : BitVec 6) : (s.setSlice i v).hw j = s.hw j := rfl
@[simp] theorem State.word_setSlice (s : State) (i : Nat) (v : Slice) (j : Nat) : (s.setSlice i v).word j = s.word j := rfl
@[simp] theorem State.full_setSlice (s : State) (i : Nat) (v : Slice) (j : Nat) : (s.setSlice i v).full j = s.full j := rfl
@[simp] theorem State.cycle_setSlice (s : State) (i : Nat) (v : Slice) (j : Nat) : (s.setSlice i v).cycle j = s.cycle j := rfl
@[simp] theorem State.thr_setSlice (s : State) (i : Nat) (v : Slice) : (s.setSlice i v).thr = s.thr := rfl
@[simp] theorem State.physical_setSlice (s : State) (i : Nat) (v : Slice) (j : Nat) : (s.setSlice i v).physical j = s.physical j := rfl
@[simp] theorem State.logical_setSlice (s : State) (i : Nat) (v : Slice) (j : Nat) : (s.setSlice i v).logical j = s.logical j := rfl

@[simp] theorem State.core_setKlu (s : State) (i : Nat) (v : StackQueue) (j : Nat) : (s.setKlu i v).core j = s.core j := rfl
@[simp] theorem State.slot_setKlu (s : State) (i : Nat) (v : StackQueue) (j m : Nat) : (s.setKlu i v).slot j m = s.slot j m := rfl
@[simp] theorem State.tile_setKlu (s : State) (i : Nat) (v : StackQueue) (j : Nat) (y : Tile) : (s.setKlu i v).tile j y = s.tile j y := rfl
@[simp] theorem State.die_setKlu (s : State) (i : Nat) (v : StackQueue) (j : Nat) : (s.setKlu i v).die j = s.die j := rfl
@[simp] theorem State.slice_setKlu (s : State) (i : Nat) (v : StackQueue) (j : Nat) : (s.setKlu i v).slice j = s.slice j := rfl
@[simp] theorem State.hw_setKlu (s : State) (i : Nat) (v : StackQueue) (j : BitVec 6) : (s.setKlu i v).hw j = s.hw j := rfl
@[simp] theorem State.word_setKlu (s : State) (i : Nat) (v : StackQueue) (j : Nat) : (s.setKlu i v).word j = s.word j := rfl
@[simp] theorem State.full_setKlu (s : State) (i : Nat) (v : StackQueue) (j : Nat) : (s.setKlu i v).full j = s.full j := rfl
@[simp] theorem State.cycle_setKlu (s : State) (i : Nat) (v : StackQueue) (j : Nat) : (s.setKlu i v).cycle j = s.cycle j := rfl
@[simp] theorem State.thr_setKlu (s : State) (i : Nat) (v : StackQueue) : (s.setKlu i v).thr = s.thr := rfl
@[simp] theorem State.physical_setKlu (s : State) (i : Nat) (v : StackQueue) (j : Nat) : (s.setKlu i v).physical j = s.physical j := rfl
@[simp] theorem State.logical_setKlu (s : State) (i : Nat) (v : StackQueue) (j : Nat) : (s.setKlu i v).logical j = s.logical j := rfl

@[simp] theorem State.core_setHub (s : State) (h : Hub) (j : Nat) : (s.setHub h).core j = s.core j := rfl
@[simp] theorem State.slot_setHub (s : State) (h : Hub) (j m : Nat) : (s.setHub h).slot j m = s.slot j m := rfl
@[simp] theorem State.tile_setHub (s : State) (h : Hub) (j : Nat) (y : Tile) : (s.setHub h).tile j y = s.tile j y := rfl
@[simp] theorem State.die_setHub (s : State) (h : Hub) (j : Nat) : (s.setHub h).die j = s.die j := rfl
@[simp] theorem State.slice_setHub (s : State) (h : Hub) (j : Nat) : (s.setHub h).slice j = s.slice j := rfl
@[simp] theorem State.klu_setHub (s : State) (h : Hub) (j : Nat) : (s.setHub h).klu j = s.klu j := rfl
@[simp] theorem State.word_setHub (s : State) (h : Hub) (j : Nat) : (s.setHub h).word j = s.word j := rfl
@[simp] theorem State.full_setHub (s : State) (h : Hub) (j : Nat) : (s.setHub h).full j = s.full j := rfl
@[simp] theorem State.cycle_setHub (s : State) (h : Hub) (j : Nat) : (s.setHub h).cycle j = s.cycle j := rfl
@[simp] theorem State.thr_setHub (s : State) (h : Hub) : (s.setHub h).thr = s.thr := rfl
@[simp] theorem State.physical_setHub (s : State) (h : Hub) (j : Nat) : (s.setHub h).physical j = s.physical j := rfl
@[simp] theorem State.logical_setHub (s : State) (h : Hub) (j : Nat) : (s.setHub h).logical j = s.logical j := rfl

@[simp] theorem State.core_setHw (s : State) (q : BitVec 6) (v : HwSlot) (j : Nat) : (s.setHw q v).core j = s.core j := rfl
@[simp] theorem State.slot_setHw (s : State) (q : BitVec 6) (v : HwSlot) (j m : Nat) : (s.setHw q v).slot j m = s.slot j m := rfl
@[simp] theorem State.tile_setHw (s : State) (q : BitVec 6) (v : HwSlot) (j : Nat) (y : Tile) : (s.setHw q v).tile j y = s.tile j y := rfl
@[simp] theorem State.die_setHw (s : State) (q : BitVec 6) (v : HwSlot) (j : Nat) : (s.setHw q v).die j = s.die j := rfl
@[simp] theorem State.slice_setHw (s : State) (q : BitVec 6) (v : HwSlot) (j : Nat) : (s.setHw q v).slice j = s.slice j := rfl
@[simp] theorem State.klu_setHw (s : State) (q : BitVec 6) (v : HwSlot) (j : Nat) : (s.setHw q v).klu j = s.klu j := rfl
@[simp] theorem State.word_setHw (s : State) (q : BitVec 6) (v : HwSlot) (j : Nat) : (s.setHw q v).word j = s.word j := rfl
@[simp] theorem State.full_setHw (s : State) (q : BitVec 6) (v : HwSlot) (j : Nat) : (s.setHw q v).full j = s.full j := rfl
@[simp] theorem State.cycle_setHw (s : State) (q : BitVec 6) (v : HwSlot) (j : Nat) : (s.setHw q v).cycle j = s.cycle j := rfl
@[simp] theorem State.thr_setHw (s : State) (q : BitVec 6) (v : HwSlot) : (s.setHw q v).thr = s.thr := rfl
@[simp] theorem State.physical_setHw (s : State) (q : BitVec 6) (v : HwSlot) (j : Nat) : (s.setHw q v).physical j = s.physical j := rfl
@[simp] theorem State.logical_setHw (s : State) (q : BitVec 6) (v : HwSlot) (j : Nat) : (s.setHw q v).logical j = s.logical j := rfl

@[simp] theorem State.core_setFull (s : State) (k : Nat) (v : Bool) (j : Nat) : (s.setFull k v).core j = s.core j := rfl
@[simp] theorem State.slot_setFull (s : State) (k : Nat) (v : Bool) (j m : Nat) : (s.setFull k v).slot j m = s.slot j m := rfl
@[simp] theorem State.tile_setFull (s : State) (k : Nat) (v : Bool) (j : Nat) (y : Tile) : (s.setFull k v).tile j y = s.tile j y := rfl
@[simp] theorem State.die_setFull (s : State) (k : Nat) (v : Bool) (j : Nat) : (s.setFull k v).die j = s.die j := rfl
@[simp] theorem State.slice_setFull (s : State) (k : Nat) (v : Bool) (j : Nat) : (s.setFull k v).slice j = s.slice j := rfl
@[simp] theorem State.klu_setFull (s : State) (k : Nat) (v : Bool) (j : Nat) : (s.setFull k v).klu j = s.klu j := rfl
@[simp] theorem State.hw_setFull (s : State) (k : Nat) (v : Bool) (j : BitVec 6) : (s.setFull k v).hw j = s.hw j := rfl
@[simp] theorem State.word_setFull (s : State) (k : Nat) (v : Bool) (j : Nat) : (s.setFull k v).word j = s.word j := rfl
@[simp] theorem State.cycle_setFull (s : State) (k : Nat) (v : Bool) (j : Nat) : (s.setFull k v).cycle j = s.cycle j := rfl
@[simp] theorem State.thr_setFull (s : State) (k : Nat) (v : Bool) : (s.setFull k v).thr = s.thr := rfl
@[simp] theorem State.physical_setFull (s : State) (k : Nat) (v : Bool) (j : Nat) : (s.setFull k v).physical j = s.physical j := rfl
@[simp] theorem State.logical_setFull (s : State) (k : Nat) (v : Bool) (j : Nat) : (s.setFull k v).logical j = s.logical j := rfl

@[simp] theorem State.core_setWord (s : State) (k : Nat) (v : Word) (j : Nat) : (s.setWord k v).core j = s.core j := rfl
@[simp] theorem State.slot_setWord (s : State) (k : Nat) (v : Word) (j m : Nat) : (s.setWord k v).slot j m = s.slot j m := rfl
@[simp] theorem State.tile_setWord (s : State) (k : Nat) (v : Word) (j : Nat) (y : Tile) : (s.setWord k v).tile j y = s.tile j y := rfl
@[simp] theorem State.die_setWord (s : State) (k : Nat) (v : Word) (j : Nat) : (s.setWord k v).die j = s.die j := rfl
@[simp] theorem State.slice_setWord (s : State) (k : Nat) (v : Word) (j : Nat) : (s.setWord k v).slice j = s.slice j := rfl
@[simp] theorem State.klu_setWord (s : State) (k : Nat) (v : Word) (j : Nat) : (s.setWord k v).klu j = s.klu j := rfl
@[simp] theorem State.hw_setWord (s : State) (k : Nat) (v : Word) (j : BitVec 6) : (s.setWord k v).hw j = s.hw j := rfl
@[simp] theorem State.full_setWord (s : State) (k : Nat) (v : Word) (j : Nat) : (s.setWord k v).full j = s.full j := rfl
@[simp] theorem State.cycle_setWord (s : State) (k : Nat) (v : Word) (j : Nat) : (s.setWord k v).cycle j = s.cycle j := rfl
@[simp] theorem State.thr_setWord (s : State) (k : Nat) (v : Word) : (s.setWord k v).thr = s.thr := rfl
@[simp] theorem State.physical_setWord (s : State) (k : Nat) (v : Word) (j : Nat) : (s.setWord k v).physical j = s.physical j := rfl
@[simp] theorem State.logical_setWord (s : State) (k : Nat) (v : Word) (j : Nat) : (s.setWord k v).logical j = s.logical j := rfl

@[simp] theorem State.core_setBytes (s : State) (k : Nat) (l : List Byte) (j : Nat) : (s.setBytes k l).core j = s.core j := rfl
@[simp] theorem State.slot_setBytes (s : State) (k : Nat) (l : List Byte) (j m : Nat) : (s.setBytes k l).slot j m = s.slot j m := rfl
@[simp] theorem State.tile_setBytes (s : State) (k : Nat) (l : List Byte) (j : Nat) (y : Tile) : (s.setBytes k l).tile j y = s.tile j y := rfl
@[simp] theorem State.die_setBytes (s : State) (k : Nat) (l : List Byte) (j : Nat) : (s.setBytes k l).die j = s.die j := rfl
@[simp] theorem State.slice_setBytes (s : State) (k : Nat) (l : List Byte) (j : Nat) : (s.setBytes k l).slice j = s.slice j := rfl
@[simp] theorem State.klu_setBytes (s : State) (k : Nat) (l : List Byte) (j : Nat) : (s.setBytes k l).klu j = s.klu j := rfl
@[simp] theorem State.hw_setBytes (s : State) (k : Nat) (l : List Byte) (j : BitVec 6) : (s.setBytes k l).hw j = s.hw j := rfl
@[simp] theorem State.full_setBytes (s : State) (k : Nat) (l : List Byte) (j : Nat) : (s.setBytes k l).full j = s.full j := rfl
@[simp] theorem State.cycle_setBytes (s : State) (k : Nat) (l : List Byte) (j : Nat) : (s.setBytes k l).cycle j = s.cycle j := rfl
@[simp] theorem State.thr_setBytes (s : State) (k : Nat) (l : List Byte) : (s.setBytes k l).thr = s.thr := rfl
@[simp] theorem State.physical_setBytes (s : State) (k : Nat) (l : List Byte) (j : Nat) : (s.setBytes k l).physical j = s.physical j := rfl
@[simp] theorem State.logical_setBytes (s : State) (k : Nat) (l : List Byte) (j : Nat) : (s.setBytes k l).logical j = s.logical j := rfl

@[simp] theorem State.core_post (s : State) (e : Instr) (j : Nat) : (s.post e).core j = s.core j := rfl
@[simp] theorem State.slot_post (s : State) (e : Instr) (j m : Nat) : (s.post e).slot j m = s.slot j m := rfl
@[simp] theorem State.tile_post (s : State) (e : Instr) (j : Nat) (y : Tile) : (s.post e).tile j y = s.tile j y := rfl
@[simp] theorem State.die_post (s : State) (e : Instr) (j : Nat) : (s.post e).die j = s.die j := rfl
@[simp] theorem State.slice_post (s : State) (e : Instr) (j : Nat) : (s.post e).slice j = s.slice j := rfl
@[simp] theorem State.klu_post (s : State) (e : Instr) (j : Nat) : (s.post e).klu j = s.klu j := rfl
@[simp] theorem State.hw_post (s : State) (e : Instr) (j : BitVec 6) : (s.post e).hw j = s.hw j := rfl
@[simp] theorem State.word_post (s : State) (e : Instr) (j : Nat) : (s.post e).word j = s.word j := rfl
@[simp] theorem State.full_post (s : State) (e : Instr) (j : Nat) : (s.post e).full j = s.full j := rfl
@[simp] theorem State.cycle_post (s : State) (e : Instr) (j : Nat) : (s.post e).cycle j = s.cycle j := rfl
@[simp] theorem State.thr_post (s : State) (e : Instr) : (s.post e).thr = s.thr := rfl
@[simp] theorem State.physical_post (s : State) (e : Instr) (j : Nat) : (s.post e).physical j = s.physical j := rfl
@[simp] theorem State.logical_post (s : State) (e : Instr) (j : Nat) : (s.post e).logical j = s.logical j := rfl

@[simp] theorem State.core_posts (s : State) (es : List Instr) (j : Nat) : (s.posts es).core j = s.core j := rfl
@[simp] theorem State.slot_posts (s : State) (es : List Instr) (j m : Nat) : (s.posts es).slot j m = s.slot j m := rfl
@[simp] theorem State.tile_posts (s : State) (es : List Instr) (j : Nat) (y : Tile) : (s.posts es).tile j y = s.tile j y := rfl
@[simp] theorem State.die_posts (s : State) (es : List Instr) (j : Nat) : (s.posts es).die j = s.die j := rfl
@[simp] theorem State.slice_posts (s : State) (es : List Instr) (j : Nat) : (s.posts es).slice j = s.slice j := rfl
@[simp] theorem State.klu_posts (s : State) (es : List Instr) (j : Nat) : (s.posts es).klu j = s.klu j := rfl
@[simp] theorem State.hw_posts (s : State) (es : List Instr) (j : BitVec 6) : (s.posts es).hw j = s.hw j := rfl
@[simp] theorem State.word_posts (s : State) (es : List Instr) (j : Nat) : (s.posts es).word j = s.word j := rfl
@[simp] theorem State.full_posts (s : State) (es : List Instr) (j : Nat) : (s.posts es).full j = s.full j := rfl
@[simp] theorem State.cycle_posts (s : State) (es : List Instr) (j : Nat) : (s.posts es).cycle j = s.cycle j := rfl
@[simp] theorem State.thr_posts (s : State) (es : List Instr) : (s.posts es).thr = s.thr := rfl
@[simp] theorem State.physical_posts (s : State) (es : List Instr) (j : Nat) : (s.posts es).physical j = s.physical j := rfl
@[simp] theorem State.logical_posts (s : State) (es : List Instr) (j : Nat) : (s.posts es).logical j = s.logical j := rfl

/-! ## What an update sets -/

@[simp] theorem State.due_post (s : State) (e : Instr) : (s.post e).due = s.due ++ [e] := rfl
@[simp] theorem State.due_posts (s : State) (es : List Instr) : (s.posts es).due = s.due ++ es := rfl
@[simp] theorem State.hub_setHub (s : State) (h : Hub) : (s.setHub h).hub = h := rfl
@[simp] theorem State.mem_setBytes (s : State) (k : Nat) (l : List Byte) : (s.setBytes k l).mem = Memory.setBytes s.mem k l := rfl
@[simp] theorem State.mem_setWord (s : State) (k : Nat) (v : Word) : (s.setWord k v).mem = Memory.store s.mem k 8 v := rfl

theorem State.core_setCore (s : State) (p q : Nat) (c : Core) : (s.setCore p c).core q = if q = p then c else s.core q :=
  Sparse.get_put _ _ _ _ _
@[simp] theorem State.core_setCore_same (s : State) (p : Nat) (c : Core) : (s.setCore p c).core p = c := by
  simp [State.core_setCore]
theorem State.core_setCore_other (s : State) {p q : Nat} (c : Core) (h : q ≠ p) : (s.setCore p c).core q = s.core q := by
  simp [State.core_setCore, h]

theorem Core.slot_setSlot (c : Core) (n m : Nat) (t : Slot) : (c.setSlot n t).slot m = if m = n then t else c.slot m :=
  Sparse.get_put _ _ _ _ _
@[simp] theorem Core.slot_setSlot_same (c : Core) (n : Nat) (t : Slot) : (c.setSlot n t).slot n = t := by
  simp [Core.slot_setSlot]
theorem Core.slot_setSlot_other (c : Core) {n m : Nat} (t : Slot) (h : m ≠ n) : (c.setSlot n t).slot m = c.slot m := by
  simp [Core.slot_setSlot, h]
theorem Core.reg_setReg (c : Core) (i j : Nat) (v : Word) : (c.setReg i v).reg j = if j = i then v else c.reg j :=
  Sparse.get_put _ _ _ _ _
theorem Core.tile_setTile (c : Core) (t u : Tile) (v : TileState) : (c.setTile t v).tile u = if u = t then v else c.tile u := by
  unfold Core.tile Core.setTile
  rw [Sparse.get_put]
  by_cases h : u = t
  · rw [if_pos h, if_pos (by rw [h])]
  · rw [if_neg h, if_neg (fun hh => h (BitVec.eq_of_toNat_eq hh))]

@[simp] theorem Core.reg_setSlot (c : Core) (n j : Nat) (t : Slot) : (c.setSlot n t).reg j = c.reg j := rfl
@[simp] theorem Core.slot_setReg (c : Core) (i m : Nat) (v : Word) : (c.setReg i v).slot m = c.slot m := rfl
@[simp] theorem Core.tile_setSlot (c : Core) (n : Nat) (t : Slot) (x : Tile) : (c.setSlot n t).tile x = c.tile x := rfl
@[simp] theorem Core.tile_setReg (c : Core) (i : Nat) (v : Word) (x : Tile) : (c.setReg i v).tile x = c.tile x := rfl
@[simp] theorem Core.slot_setTile (c : Core) (t : Tile) (v : TileState) (n : Nat) : (c.setTile t v).slot n = c.slot n := rfl
@[simp] theorem Core.reg_setTile (c : Core) (t : Tile) (v : TileState) (j : Nat) : (c.setTile t v).reg j = c.reg j := rfl

theorem State.core_setSlot (s : State) (p q n : Nat) (t : Slot) :
    (s.setSlot p n t).core q = if q = p then (s.core p).setSlot n t else s.core q := State.core_setCore _ _ _ _
@[simp] theorem State.core_setSlot_same (s : State) (p n : Nat) (t : Slot) :
    (s.setSlot p n t).core p = (s.core p).setSlot n t := by simp [State.core_setSlot]
theorem State.core_setSlot_other (s : State) {p q : Nat} (n : Nat) (t : Slot) (h : q ≠ p) :
    (s.setSlot p n t).core q = s.core q := by simp [State.core_setSlot, h]
theorem State.slot_setSlot (s : State) (p q n m : Nat) (t : Slot) :
    (s.setSlot p n t).slot q m = if q = p ∧ m = n then t else s.slot q m := by
  unfold State.slot
  rw [State.core_setSlot]
  by_cases h : q = p
  · subst h; simp [Core.slot_setSlot]
  · simp [h]
@[simp] theorem State.slot_setSlot_same (s : State) (p n : Nat) (t : Slot) : (s.setSlot p n t).slot p n = t := by
  simp [State.slot_setSlot]
@[simp] theorem State.slot_setCore_same (s : State) (p m : Nat) (c : Core) : (s.setCore p c).slot p m = c.slot m := by
  simp [State.slot]
theorem State.slot_setCore_other (s : State) {p q : Nat} (m : Nat) (c : Core) (h : q ≠ p) :
    (s.setCore p c).slot q m = s.slot q m := by simp [State.slot, State.core_setCore, h]
theorem State.tile_setTile (s : State) (p q : Nat) (t u : Tile) (v : TileState) :
    (s.setTile p t v).tile q u = if q = p ∧ u = t then v else s.tile q u := by
  unfold State.tile State.setTile
  rw [State.core_setCore]
  by_cases h : q = p
  · subst h; simp [Core.tile_setTile]
  · simp [h]
@[simp] theorem State.tile_setTile_same (s : State) (p : Nat) (t : Tile) (v : TileState) : (s.setTile p t v).tile p t = v := by
  simp [State.tile_setTile]
@[simp] theorem State.slot_setTile (s : State) (p q n : Nat) (t : Tile) (v : TileState) :
    (s.setTile p t v).slot q n = s.slot q n := by
  unfold State.slot State.setTile
  rw [State.core_setCore]
  by_cases h : q = p
  · subst h; simp
  · simp [h]

@[simp] theorem State.setCore_setCore (s : State) (p : Nat) (c d : Core) : (s.setCore p c).setCore p d = s.setCore p d := by
  simp [State.setCore]
@[simp] theorem Core.setSlot_setSlot (c : Core) (n : Nat) (t u : Slot) : (c.setSlot n t).setSlot n u = c.setSlot n u := by
  simp [Core.setSlot]
/-- The last of two updates of a slot stands. -/
@[simp] theorem State.setSlot_setSlot (s : State) (p n : Nat) (t u : Slot) :
    (s.setSlot p n t).setSlot p n u = s.setSlot p n u := by simp [State.setSlot]
@[simp] theorem State.setTile_setTile (s : State) (p : Nat) (t : Tile) (v w : TileState) :
    (s.setTile p t v).setTile p t w = s.setTile p t w := by simp [State.setTile, Core.setTile]
@[simp] theorem State.setHub_setHub (s : State) (h k : Hub) : (s.setHub h).setHub k = s.setHub k := rfl

theorem State.die_setDie (s : State) (d e : Nat) (v : Die) : (s.setDie d v).die e = if e = d then v else s.die e :=
  Sparse.get_put _ _ _ _ _
@[simp] theorem State.die_setDie_same (s : State) (d : Nat) (v : Die) : (s.setDie d v).die d = v := by simp [State.die_setDie]
theorem State.slice_setSlice (s : State) (i j : Nat) (v : Slice) :
    (s.setSlice i v).slice j = if j = i then v else s.slice j := Sparse.get_put _ _ _ _ _
@[simp] theorem State.slice_setSlice_same (s : State) (i : Nat) (v : Slice) : (s.setSlice i v).slice i = v := by
  simp [State.slice_setSlice]
theorem State.klu_setKlu (s : State) (i j : Nat) (v : StackQueue) : (s.setKlu i v).klu j = if j = i then v else s.klu j :=
  Sparse.get_put _ _ _ _ _
@[simp] theorem State.klu_setKlu_same (s : State) (i : Nat) (v : StackQueue) : (s.setKlu i v).klu i = v := by
  simp [State.klu_setKlu]
theorem State.hw_setHw (s : State) (q r : BitVec 6) (v : HwSlot) : (s.setHw q v).hw r = if r = q then v else s.hw r := by
  unfold State.hw State.setHw
  rw [State.hub_setHub, Sparse.get_put]
  by_cases h : r = q
  · rw [if_pos h, if_pos (by rw [h])]
  · rw [if_neg h, if_neg (fun hh => h (BitVec.eq_of_toNat_eq hh))]
@[simp] theorem State.hw_setHw_same (s : State) (q : BitVec 6) (v : HwSlot) : (s.setHw q v).hw q = v := by simp [State.hw_setHw]

/-- The bit of a word after the bit of a word is set (R161). -/
theorem State.full_setFull (s : State) (k j : Nat) (v : Bool) :
    (s.setFull k v).full j = if j / 8 = k / 8 then v else s.full j := Sparse.get_put _ _ _ _ _
@[simp] theorem State.full_setFull_same (s : State) (k : Nat) (v : Bool) : (s.setFull k v).full k = v := by
  simp [State.full_setFull]
/-- A word read after it is written. -/
@[simp] theorem State.word_setWord_same (s : State) (k : Nat) (v : Word) : (s.setWord k v).word k = v :=
  Memory.load_store_word _ _ _
theorem State.word_setWord_apart (s : State) (k j : Nat) (v : Word) (h : j + 8 ≤ k ∨ k + 8 ≤ j) :
    (s.setWord k v).word j = s.word j := Memory.load_store_apart _ _ _ _ _ _ h

/-! ## The named updates -/

@[simp] theorem State.modCore_eq (s : State) (p : Nat) (f : Core → Core) : s.modCore p f = s.setCore p (f (s.core p)) := rfl
@[simp] theorem State.modSlot_eq (s : State) (p n : Nat) (f : Slot → Slot) :
    s.modSlot p n f = s.setSlot p n (f (s.slot p n)) := rfl
@[simp] theorem State.modThr_eq (s : State) (f : Slot → Slot) :
    s.modThr f = s.setSlot s.cur.core s.cur.slot (f s.thr) := rfl
@[simp] theorem State.setThr_eq (s : State) (t : Slot) : s.setThr t = s.setSlot s.cur.core s.cur.slot t := rfl
@[simp] theorem State.modTile_eq (s : State) (p : Nat) (t : Tile) (f : TileState → TileState) :
    s.modTile p t f = s.setTile p t (f (s.tile p t)) := rfl
@[simp] theorem State.modDie_eq (s : State) (d : Nat) (f : Die → Die) : s.modDie d f = s.setDie d (f (s.die d)) := rfl
@[simp] theorem State.modSlice_eq (s : State) (i : Nat) (f : Slice → Slice) :
    s.modSlice i f = s.setSlice i (f (s.slice i)) := rfl
@[simp] theorem State.modHub_eq (s : State) (f : Hub → Hub) : s.modHub f = s.setHub (f s.hub) := rfl
@[simp] theorem State.modHw_eq (s : State) (q : BitVec 6) (f : HwSlot → HwSlot) :
    s.modHw q f = s.setHw q (f (s.hw q)) := rfl
theorem State.thr_eq (s : State) : s.thr = s.slot s.cur.core s.cur.slot := rfl

end Sys2Proof.Machine
end

