-- ==== Sys2Proof/Laws/Ops.lean ====
section
/-! SUPPORT. What each shared operation of an instruction does, said once: stage 2, results, moves of the PC, traps,
requests. -/

namespace Sys2Proof.Machine

/-! ## The issuing thread after an update of its slot -/

@[simp] theorem State.thr_setThr (s : State) (t : Slot) : (s.setSlot s.cur.core s.cur.slot t).thr = t := by
  simp [State.thr_eq]

/-- An update of one slot alone. -/
theorem slotIs_setSlot (s : State) (p n : Nat) (u : Slot) : SlotIs s (s.setSlot p n u) p n u where
  only := {
    rest := rfl
    cores := fun q hq => State.core_setSlot_other s _ _ hq
    core := by simp [Core.setSlot]
    slots := fun m hm => by simp [State.slot_setSlot, hm] }
  regs := by simp [Core.setSlot]
  thread := by simp

theorem threadIs_setThr (s : State) (u : Slot) : ThreadIs s (s.setSlot s.cur.core s.cur.slot u) u := slotIs_setSlot s _ _ u

theorem State.goto_threadIs (s : State) (pc : Word) : ThreadIs s (s.goto pc) { s.thr with pc := pc, wait := .none } :=
  threadIs_setThr s _

theorem State.advance_threadIs (s : State) : ThreadIs s s.advance { s.thr with pc := s.cur.next, wait := .none } :=
  threadIs_setThr s _

theorem State.park_threadIs (s : State) (w : Wait) : ThreadIs s (s.park w) { s.thr with pc := s.cur.pc, wait := w } :=
  threadIs_setThr s _

@[simp] theorem State.cur_writeDst (s : State) (p n : Nat) (d : Dst) (v : Word) : (s.writeDst p n d v).cur = s.cur := by
  cases d <;> rfl

@[simp] theorem State.cur_result (s : State) (p n : Nat) (d : Dst) (v : Word) : (s.result p n d v).cur = s.cur := by
  simp [State.result]

/-! ## Results -/

/-- The slot of the thread after a write of one of its places. -/
def Slot.putDst (t : Slot) (d : Dst) (v : Word) : Slot :=
  match d with
  | .h j => { t with h := Sparse.put 0 t.h j.toNat v }
  | .mb j => { t with mb := Sparse.put 0 t.mb j.toNat v }
  | _ => t

theorem State.slot_writeDst (s : State) (p n : Nat) (d : Dst) (v : Word) :
    (s.writeDst p n d v).slot p n = (s.slot p n).putDst d v := by
  cases d with
  | nul => rfl
  | g i => simp only [State.writeDst, State.modCore_eq, State.slot_setCore_same, Core.slot_setReg]; rfl
  | h j => simp only [State.writeDst, State.modSlot_eq, State.slot_setSlot_same]; rfl
  | mb j => simp only [State.writeDst, State.modSlot_eq, State.slot_setSlot_same]; rfl

theorem State.slot_writeDst_other (s : State) (p n m : Nat) (d : Dst) (v : Word) (h : m ≠ n) :
    (s.writeDst p n d v).slot p m = s.slot p m := by
  cases d with
  | nul => rfl
  | g i => simp only [State.writeDst, State.modCore_eq, State.slot_setCore_same, Core.slot_setReg]; rfl
  | h j => simp only [State.writeDst, State.modSlot_eq, State.slot_setSlot, h, and_false, if_false]
  | mb j => simp only [State.writeDst, State.modSlot_eq, State.slot_setSlot, h, and_false, if_false]

theorem State.core_writeDst_other (s : State) {p q : Nat} (n : Nat) (d : Dst) (v : Word) (h : q ≠ p) :
    (s.writeDst p n d v).core q = s.core q := by
  cases d with
  | nul => rfl
  | g i => exact State.core_setCore_other _ _ h
  | h j => exact State.core_setSlot_other _ _ _ h
  | mb j => exact State.core_setSlot_other _ _ _ h

/-- A write of a place changes registers and slots of its core, nothing else. -/
theorem State.writeDst_rest (s : State) (p n : Nat) (d : Dst) (v : Word) :
    s.writeDst p n d v = { s with cores := (s.writeDst p n d v).cores } := by
  cases d <;> rfl

theorem State.core_writeDst (s : State) (p n : Nat) (d : Dst) (v : Word) :
    (s.writeDst p n d v).core p =
      { s.core p with regs := ((s.writeDst p n d v).core p).regs, slots := ((s.writeDst p n d v).core p).slots } := by
  cases d with
  | nul => rfl
  | g i => simp only [State.writeDst, State.modCore_eq, State.core_setCore_same, Core.setReg]
  | h j => simp only [State.writeDst, State.modSlot_eq, State.core_setSlot_same, Core.setSlot]
  | mb j => simp only [State.writeDst, State.modSlot_eq, State.core_setSlot_same, Core.setSlot]

theorem State.reg_writeDst (s : State) (p n : Nat) (d : Dst) (v : Word) (i : Nat) :
    ((s.writeDst p n d v).core p).reg i = if d = .g i then v else (s.core p).reg i := by
  cases d with
  | nul => rfl
  | g j =>
    simp only [State.writeDst, State.modCore_eq, State.core_setCore_same, Core.reg_setReg, Dst.g.injEq, eq_comm]
  | h j => simp only [State.writeDst, State.modSlot_eq, State.core_setSlot_same, Core.reg_setSlot]; rfl
  | mb j => simp only [State.writeDst, State.modSlot_eq, State.core_setSlot_same, Core.reg_setSlot]; rfl

theorem readDst_putDst (c : Core) (t : Slot) (d e : Dst) (v : Word) (h : e ≠ d) (hg : ∀ i, e ≠ .g i) :
    readDst c (t.putDst d v) e = readDst c t e := by
  cases e with
  | nul => rfl
  | g i => exact absurd rfl (hg i)
  | h j =>
    cases d with
    | h i =>
      have : ¬ j.toNat = i.toNat := fun hh => h (by rw [BitVec.eq_of_toNat_eq hh])
      simp only [readDst, Slot.putDst, Sparse.get_put, this, if_false]
    | _ => rfl
  | mb j =>
    cases d with
    | mb i =>
      have : ¬ j.toNat = i.toNat := fun hh => h (by rw [BitVec.eq_of_toNat_eq hh])
      simp only [readDst, Slot.putDst, Sparse.get_put, this, if_false]
    | _ => rfl

theorem readDst_putDst_same (c : Core) (t : Slot) (d : Dst) (v : Word) (h : d ≠ .nul) (hg : ∀ i, d ≠ .g i) :
    readDst c (t.putDst d v) d = v := by
  cases d with
  | nul => exact absurd rfl h
  | g i => exact absurd rfl (hg i)
  | h j => simp only [readDst, Slot.putDst, Sparse.get_put_same]
  | mb j => simp only [readDst, Slot.putDst, Sparse.get_put_same]

/-- A place is written and the thread's slot becomes `w`, which holds the written operand and message-build registers. -/
theorem wroteAt_setSlot (s : State) (p n : Nat) (d : Dst) (v : Word) (w u : Slot) (hh : w.h = ((s.slot p n).putDst d v).h)
    (hm : w.mb = ((s.slot p n).putDst d v).mb) (hu : w = { u with h := w.h, mb := w.mb }) :
    WroteAt s ((s.writeDst p n d v).setSlot p n w) p n d v u := by
  have hval : ∀ e, ((s.writeDst p n d v).setSlot p n w).valAt p n e =
      readDst ((s.writeDst p n d v).core p) ((s.slot p n).putDst d v) e := by
    intro e
    unfold State.valAt
    rw [State.slot_setSlot_same, State.core_setSlot_same]
    cases e <;> simp only [readDst, Core.reg_setSlot, hh, hm]
  refine { only := ⟨?_, ?_, ?_, ?_⟩, value := ?_, others := ?_, thread := ?_ }
  · rw [State.writeDst_rest]; rfl
  · intro q hq
    rw [State.core_setSlot_other _ _ _ hq, State.core_writeDst_other _ _ _ _ hq]
  · rw [State.core_setSlot_same, State.core_writeDst]
    rfl
  · intro m hm
    rw [State.slot_setSlot, if_neg (fun hh => hm hh.2), State.slot_writeDst_other _ _ _ _ _ _ hm]
  · intro hd
    rw [hval]
    by_cases hg : ∃ i, d = .g i
    · obtain ⟨i, rfl⟩ := hg
      simp only [readDst, State.reg_writeDst, if_true]
    · exact readDst_putDst_same _ _ _ _ hd (fun i hi => hg ⟨i, hi⟩)
  · intro e he
    rw [hval]
    by_cases hg : ∃ i, e = .g i
    · obtain ⟨i, rfl⟩ := hg
      simp only [readDst, State.reg_writeDst, if_neg (fun hh : d = .g i => he hh.symm), State.valAt]
    · rw [readDst_putDst _ _ _ _ _ he (fun i hi => hg ⟨i, hi⟩)]
      rw [State.core_writeDst]
      cases e with
      | g i => exact absurd ⟨i, rfl⟩ hg
      | _ => rfl
  · rw [State.slot_setSlot_same]
    exact hu

theorem wrote_setThr (s : State) (d : Dst) (v : Word) (w u : Slot) (hh : w.h = (s.thr.putDst d v).h)
    (hm : w.mb = (s.thr.putDst d v).mb) (hu : w = { u with h := w.h, mb := w.mb }) :
    Wrote s ((s.writeDst s.cur.core s.cur.slot d v).setSlot s.cur.core s.cur.slot w) d v u :=
  wroteAt_setSlot s _ _ d v w u hh hm hu

/-- A result, with the thread's slot changed by `f` after it. -/
theorem State.result_eq (s : State) (p n : Nat) (d : Dst) (v : Word) :
    s.result p n d v = (s.writeDst p n d v).setSlot p n
      { (s.slot p n).putDst d v with z1 := (s.slot p n).z0, z0 := v } := by
  have hz : ∀ t : Slot, (t.putDst d v).z0 = t.z0 := by intro t; cases d <;> rfl
  simp only [State.result, State.modSlot_eq, State.slot_writeDst, hz]

theorem Slot.putDst_z (t : Slot) (d : Dst) (v : Word) (f : Slot → Slot)
    (hf : ∀ h m, f { t with h := h, mb := m } = { f t with h := h, mb := m }) :
    f (t.putDst d v) = { f t with h := (t.putDst d v).h, mb := (t.putDst d v).mb } := by
  cases d <;> exact hf _ _

/-- `complete` does what R33 and R97 say (the rounding state stands). -/
theorem State.complete_result (s : State) (d : Reg) (v : Word) :
    Result s (s.complete d v) (regDst s.thr d) v { mode := s.thr.round, srs := s.thr.srs, fl := 0 } := by
  have h : s.complete d v = (s.writeDst s.cur.core s.cur.slot (regDst s.thr d) v).setSlot s.cur.core s.cur.slot
      { s.thr.putDst (regDst s.thr d) v with z1 := s.thr.z0, z0 := v, pc := s.cur.next, wait := .none } := by
    simp only [State.complete, State.result_eq, State.advance, State.goto, State.modThr_eq, State.cur_setSlot,
      State.cur_writeDst, State.setSlot_setSlot, State.thr_eq, State.slot_setSlot_same]
  rw [h]
  refine wrote_setThr s _ v _ _ rfl rfl ?_
  rw [Slot.putDst_z s.thr (regDst s.thr d) v
    (fun t => { t with z1 := s.thr.z0, z0 := v, pc := s.cur.next, wait := .none }) (fun _ _ => rfl)]
  simp

/-- A rounded result is kept with the state and the flags it raised (R85). -/
theorem State.completeRs_result (s : State) (d : Reg) (q : Nat × Rs) :
    Result s (s.completeRs d q) (regDst s.thr d) (BitVec.ofNat 64 q.1) q.2 := by
  have hd : regDst (s.thr.commit q.2) d = regDst s.thr d := by cases d <;> rfl
  have h : s.completeRs d q = (s.writeDst s.cur.core s.cur.slot (regDst s.thr d) (BitVec.ofNat 64 q.1)).setSlot
      s.cur.core s.cur.slot { (s.thr.commit q.2).putDst (regDst s.thr d) (BitVec.ofNat 64 q.1) with
        z1 := s.thr.z0, z0 := BitVec.ofNat 64 q.1, pc := s.cur.next, wait := .none } := by
    have hw : ∀ (t : State) (x : Dst) (v : Word) (u : Slot) (w : Slot), t.thr = s.thr → t = s →
        (((t.setSlot s.cur.core s.cur.slot u).writeDst s.cur.core s.cur.slot x v).setSlot s.cur.core s.cur.slot w) =
          ((s.writeDst s.cur.core s.cur.slot x v).setSlot s.cur.core s.cur.slot w) := by
      intro t x v u w _ ht
      subst ht
      cases x with
      | nul => simp only [State.writeDst, State.setSlot_setSlot]
      | g i =>
        simp only [State.writeDst, State.modCore_eq, State.setSlot, State.core_setCore_same, State.setCore_setCore]
        rw [show ((t.core t.cur.core).setSlot t.cur.slot u).setReg i v = ((t.core t.cur.core).setReg i v).setSlot t.cur.slot u from rfl]
        simp only [Core.setSlot_setSlot]
      | h j => simp only [State.writeDst, State.modSlot_eq, State.setSlot_setSlot]
      | mb j => simp only [State.writeDst, State.modSlot_eq, State.setSlot_setSlot]
    have hthr : (s.commitRs q.2).thr = s.thr.commit q.2 := by simp [State.commitRs]
    simp only [State.completeRs, State.complete, State.result_eq, State.advance, State.goto, State.modThr_eq,
      State.cur_setSlot, State.cur_writeDst, State.setSlot_setSlot, State.thr_eq, State.slot_setSlot_same]
    simp only [State.commitRs, State.modThr_eq, State.cur_setSlot, State.slot_setSlot_same, hd]
    exact hw s _ _ _ _ rfl rfl
  rw [h]
  refine wrote_setThr s _ _ _ _ ?_ ?_ ?_
  · cases regDst s.thr d <;> rfl
  · cases regDst s.thr d <;> rfl
  · rw [Slot.putDst_z (s.thr.commit q.2) (regDst s.thr d) (BitVec.ofNat 64 q.1)
      (fun t => { t with z1 := s.thr.z0, z0 := BitVec.ofNat 64 q.1, pc := s.cur.next, wait := .none }) (fun _ _ => rfl)]
    rfl

/-- An instruction that runs past stage 8 parks its thread with its result (R18, R131). -/
theorem State.completeLater_givesLater (s : State) (n : Nat) (d : Reg) (v : Word) (r : Rs) :
    (s.completeLater n d v r).due = s.due ++ [.longOpComplete s.cur.core s.cur.slot] ∧
    ThreadIs { s with due := (s.completeLater n d v r).due } (s.completeLater n d v r)
      { s.thr with pc := s.cur.next, wait := .longOp (regDst s.thr d) v r.srs r.fl (s.now + n - 1) } :=
  ⟨rfl, threadIs_setThr { s with due := s.due ++ [.longOpComplete s.cur.core s.cur.slot] } _⟩

/-- The same as one update. -/
theorem State.completeLater_waits (s : State) (n : Nat) (d : Reg) (v : Word) (r : Rs) :
    s.completeLater n d v r = (s.setSlot s.cur.core s.cur.slot
      { s.thr with pc := s.cur.next, wait := .longOp (regDst s.thr d) v r.srs r.fl (s.now + n - 1) }).post
        (.longOpComplete s.cur.core s.cur.slot) := rfl

/-! ## Stage 2 (R31, R34, R127) -/

theorem State.withRegs_ready (s : State) (rs : List Reg) (k : State) (h : s.regsReady rs) : s.withRegs rs k = k := by
  unfold State.withRegs
  rw [if_pos (by rw [List.all_eq_true]; exact fun r hr => (h r hr).1)]
  rw [if_neg]
  rw [List.any_eq_true]
  rintro ⟨r, hr, hp⟩
  rw [(h r hr).2] at hp
  exact Bool.noConfusion hp

/-- A register outside the window traps 0x02 before anything else of the instruction (R31). -/
theorem State.withRegs_outside (s : State) (rs : List Reg) (k : State) (h : ∃ r ∈ rs, regOk s.thr r = false) :
    s.withRegs rs k = s.raise 0x02 0 0 := by
  unfold State.withRegs
  rw [if_neg]
  obtain ⟨r, hr, hb⟩ := h
  rw [List.all_eq_true]
  intro hall
  rw [hall r hr] at hb
  exact Bool.noConfusion hb

/-- A register that waits for a relaxed load parks the thread (R34). -/
theorem State.withRegs_pending (s : State) (rs : List Reg) (k : State) (h : ∀ r ∈ rs, regOk s.thr r = true)
    (hp : ∃ r ∈ rs, s.thr.isPending (regDst s.thr r) = true) :
    s.withRegs rs k = s.park (.regs (rs.map (regDst s.thr))) := by
  unfold State.withRegs
  rw [if_pos (by rw [List.all_eq_true]; exact h), if_pos (by rw [List.any_eq_true]; exact hp)]

theorem State.privileged_slot0 (s : State) (rs : List Reg) (k : State) (h : s.cur.slot = 0) :
    s.privileged rs k = s.withRegs rs k := if_pos h

/-- Outside slot 0 a privileged instruction traps 0x03 (R23, R127). -/
theorem State.privileged_other (s : State) (rs : List Reg) (k : State) (h : s.cur.slot ≠ 0) :
    s.privileged rs k = s.raise 0x03 0 0 := if_neg h

/-! ## Traps -/

theorem recordJoin_keeps (r : Record) (c : Core) (e : Late) :
    (recordJoin r c e).cause = r.cause ∧ (recordJoin r c e).detail = r.detail ∧ (recordJoin r c e).spc = r.spc ∧
    (recordJoin r c e).fpc = r.fpc ∧ (recordJoin r c e).addr = r.addr ∧ (recordJoin r c e).hq = r.hq ∧
    (recordJoin r c e).slot = r.slot := by
  unfold recordJoin
  dsimp only
  split
  · split <;> exact ⟨rfl, rfl, rfl, rfl, rfl, rfl, rfl⟩
  · split
    · split <;> exact ⟨rfl, rfl, rfl, rfl, rfl, rfl, rfl⟩
    · exact ⟨rfl, rfl, rfl, rfl, rfl, rfl, rfl⟩

theorem foldl_recordJoin_keeps (c : Core) (l : List Late) : ∀ r : Record,
    (l.foldl (fun r e => recordJoin r c e) r).cause = r.cause ∧ (l.foldl (fun r e => recordJoin r c e) r).detail = r.detail ∧
    (l.foldl (fun r e => recordJoin r c e) r).spc = r.spc ∧ (l.foldl (fun r e => recordJoin r c e) r).fpc = r.fpc ∧
    (l.foldl (fun r e => recordJoin r c e) r).addr = r.addr ∧ (l.foldl (fun r e => recordJoin r c e) r).hq = r.hq ∧
    (l.foldl (fun r e => recordJoin r c e) r).slot = r.slot := by
  induction l with
  | nil => intro r; exact ⟨rfl, rfl, rfl, rfl, rfl, rfl, rfl⟩
  | cons e l ih =>
    intro r
    have h1 := ih (recordJoin r c e)
    have h2 := recordJoin_keeps r c e
    rw [List.foldl_cons]
    exact ⟨h1.1.trans h2.1, h1.2.1.trans h2.2.1, h1.2.2.1.trans h2.2.2.1, h1.2.2.2.1.trans h2.2.2.2.1,
      h1.2.2.2.2.1.trans h2.2.2.2.2.1, h1.2.2.2.2.2.1.trans h2.2.2.2.2.2.1, h1.2.2.2.2.2.2.trans h2.2.2.2.2.2.2⟩

/-- The one trap operation does what R240 and R340 say of an entry. -/
theorem State.trap_trapped (s : State) (p n : Nat) (cause detail : BitVec 8) (spc fpc addr : Word) (seq : BitVec 16) :
    Trapped s (s.trap p n cause detail spc fpc addr seq) p n cause detail spc fpc addr where
  rest := rfl
  due := rfl
  cores := fun q hq => State.core_setSlot_other s _ _ hq
  core := by
    have : ∀ (x : Slot) (e : Instr), ((s.setSlot p n x).post e).core p =
        { s.core p with slots := (((s.setSlot p n x).post e).core p).slots } := by
      intro x e; rw [State.core_post, State.core_setSlot_same]; rfl
    exact this _ _
  slots := fun m hm => by
    have : ∀ (x : Slot) (e : Instr), ((s.setSlot p n x).post e).slot p m = s.slot p m := by
      intro x e; rw [State.slot_post, State.slot_setSlot, if_neg (fun hh => hm hh.2)]
    exact this _ _
  thread := by
    have key : ∀ r : Record, ∃ r' : Record, r' = (((s.slot p n).late.filter (·.cause ≠ 0x10)).foldl
        (fun r e => recordJoin r (s.core p) e) r) ∧ r'.cause = r.cause ∧ r'.detail = r.detail ∧ r'.spc = r.spc ∧
        r'.fpc = r.fpc ∧ r'.addr = r.addr ∧ r'.hq = r.hq ∧ r'.slot = r.slot ∧ ((s.slot p n).late = [] → r' = r) := by
      intro r
      have h := foldl_recordJoin_keeps (s.core p) ((s.slot p n).late.filter (·.cause ≠ 0x10)) r
      exact ⟨_, rfl, h.1, h.2.1, h.2.2.1, h.2.2.2.1, h.2.2.2.2.1, h.2.2.2.2.2.1, h.2.2.2.2.2.2, by
        intro hl; rw [hl]; rfl⟩
    obtain ⟨r', h0, h1, h2, h3, h4, h5, h6, h7, h8⟩ := key
      { sect := 0, tile := 0, mods := 0, hq := (s.slot p n).hq, late := false, held := false, slot := BitVec.ofNat 4 n,
        detail := detail, seq := seq, joined := 0, seqSet := cause == 0x09, cause := cause, spc := spc, fpc := fpc,
        addr := addr, a := if cause = 0x02 then (s.slot p n).ix.setWidth 64 else 0, b := 0, d := 0, s := 0 }
    refine ⟨r', ?_, h1, h2, h3, h4, h5, h6, h7, fun hl => by rw [h8 hl]; exact ⟨rfl, rfl, rfl⟩⟩
    unfold State.trap
    rw [State.slot_post, State.slot_setSlot_same]
    rw [h0]
    rfl

theorem State.raise_raised (s : State) (cause detail : BitVec 8) (addr : Word) :
    Raised s (s.raise cause detail addr) cause detail addr := State.trap_trapped _ _ _ _ _ _ _ _ _

/-! ## Addresses (R127 rows 6 to 9) -/

/-- A checked address goes on at its home. -/
theorem State.access_home (s : State) (n : Need) (bytes : Nat) (va : Word) (k : Home → State → State) (h : Home)
    (ha : aligned va bytes = true) (ht : s.translate s.cur.core s.thr.hq n va = .home h) :
    s.access n bytes va k = k h (s.used va) := by
  unfold State.access State.used
  rw [if_pos ha, ht]

/-- A misaligned address traps 0x04 before it is translated (R41). -/
theorem State.access_misaligned (s : State) (n : Need) (bytes : Nat) (va : Word) (k : Home → State → State)
    (ha : aligned va bytes = false) : s.access n bytes va k = s.raise 0x04 0 va := by
  unfold State.access
  rw [if_neg (by rw [ha]; exact Bool.false_ne_true)]

/-- An address that may not be accessed traps with the cause of its check (R127). -/
theorem State.access_fault (s : State) (n : Need) (bytes : Nat) (va : Word) (k : Home → State → State) (c : BitVec 8)
    (ha : aligned va bytes = true) (ht : s.translate s.cur.core s.thr.hq n va = .fault c) :
    s.access n bytes va k = s.raise c 0 va := by
  unfold State.access
  rw [if_pos ha, ht]

/-- A miss in the translation buffer asks for the walk and parks the thread (R41, R362). -/
theorem State.access_miss (s : State) (n : Need) (bytes : Nat) (va : Word) (k : Home → State → State) (key : PageKey)
    (ha : aligned va bytes = true) (ht : s.translate s.cur.core s.thr.hq n va = .miss key) :
    s.access n bytes va k = s.parkWalk key 0x05 0 va := by
  unfold State.access
  rw [if_pos ha, ht]

@[simp] theorem State.cur_used (s : State) (va : Word) : (s.used va).cur = s.cur := by
  unfold State.used State.touch; split <;> rfl
@[simp] theorem State.mem_used (s : State) (va : Word) : (s.used va).mem = s.mem := by
  unfold State.used State.touch; split <;> rfl
@[simp] theorem State.fe_used (s : State) (va : Word) : (s.used va).fe = s.fe := by
  unfold State.used State.touch; split <;> rfl
@[simp] theorem State.hub_used (s : State) (va : Word) : (s.used va).hub = s.hub := by
  unfold State.used State.touch; split <;> rfl
@[simp] theorem State.slices_used (s : State) (va : Word) : (s.used va).slices = s.slices := by
  unfold State.used State.touch; split <;> rfl
@[simp] theorem State.dies_used (s : State) (va : Word) : (s.used va).dies = s.dies := by
  unfold State.used State.touch; split <;> rfl
@[simp] theorem State.due_used (s : State) (va : Word) : (s.used va).due = s.due := by
  unfold State.used State.touch; split <;> rfl
theorem State.own_used (s : State) (va : Word) : (s.used va).own = { s.own with tlb := (s.used va).own.tlb } := by
  unfold State.used State.touch
  split
  · rfl
  · simp [State.own]
@[simp] theorem State.slot_used (s : State) (va : Word) (n : Nat) : (s.used va).slot s.cur.core n = s.slot s.cur.core n := by
  unfold State.used State.touch
  split
  · rfl
  · rw [State.slot_setCore_same]; rfl
@[simp] theorem State.thr_used (s : State) (va : Word) : (s.used va).thr = s.thr := by
  rw [State.thr_eq, State.cur_used, State.slot_used, State.thr_eq]
@[simp] theorem State.valAt_used (s : State) (va : Word) (n : Nat) (d : Dst) :
    (s.used va).valAt s.cur.core n d = s.valAt s.cur.core n d := by
  have h := State.own_used s va
  unfold State.own at h
  rw [State.cur_used] at h
  unfold State.valAt
  rw [State.slot_used, h]
  cases d <;> rfl

/-! ## Requests (R45, R46, R49, R50, R182) -/

/-- What a request leaves in the thread's slot beside its sequence number and its entry among the outstanding ones: a
relaxed one goes on, with a load's destination pending; any other waits for its reply (R34, R45, R46). -/
def State.afterSend (s : State) (r : Request) : Slot :=
  if r.cls = .relaxed then
    { s.thr with pc := s.cur.next, wait := .none,
                 pending := match r.op, r.dst with
                   | .load _ _, .nul => s.thr.pending
                   | .load _ _, d => s.thr.pending ++ [(r.seq, d)]
                   | _, _ => s.thr.pending }
  else { s.thr with pc := s.cur.next, wait := .reply r }

/-- A request that may be sent, as one update of the core and one step under way. -/
theorem State.dispatch_eq (s : State) (next : Word) (r : Request) (hc : r.core = s.cur.core) (hn : r.slot = s.cur.slot)
    (hr : r.cls ≠ .relaxed → s.thr.relaxedOut = []) :
    s.dispatch next r =
      (s.setCore s.cur.core ({ s.own with oac := s.own.oac + 1 }.setSlot s.cur.slot
        { ({ s with cur := { s.cur with next := next } } : State).afterSend { r with seq := s.thr.seq, sent := s.now } with
          seq := s.thr.seq + 1,
          out := s.thr.out ++ [({ seq := s.thr.seq, relaxed := r.cls == AccClass.relaxed, home := r.home, kind := .access } : Out)] })).post
        (arrivalOf { r with seq := s.thr.seq, sent := s.now }) := by
  have ht : s.slot r.core r.slot = s.thr := by rw [hc, hn]; rfl
  have h0 : ¬ (r.cls ≠ .relaxed ∧ ¬ (s.slot r.core r.slot).relaxedOut.isEmpty) := by
    rintro ⟨h1, h2⟩
    rw [ht, hr h1] at h2
    exact h2 rfl
  unfold State.dispatch
  dsimp only
  rw [if_neg h0]
  unfold State.send
  dsimp only
  rw [ht]
  have hs : ∀ (T : Slot) (e : Instr) (g : Slot → Slot),
      State.modSlot (((s.setSlot r.core r.slot T).modCore r.core (fun c => { c with oac := c.oac + 1 })).post e)
        r.core r.slot g =
      (s.setCore s.cur.core ({ s.own with oac := s.own.oac + 1 }.setSlot s.cur.slot (g T))).post e := by
    intro T e g
    rw [hc, hn]
    simp only [State.modSlot_eq, State.modCore_eq, State.setSlot, State.core_setCore_same, State.slot_post, State.core_post,
      State.slot_setCore_same, State.setCore_setCore, State.own]
    have e1 : ∀ (c : Core) (T : Slot), ({ c.setSlot s.cur.slot T with oac := (c.setSlot s.cur.slot T).oac + 1 } : Core) =
        ({ c with oac := c.oac + 1 } : Core).setSlot s.cur.slot T := fun _ _ => rfl
    have e2 : ∀ (u : State) (c : Core), (u.post e).setCore s.cur.core c = (u.setCore s.cur.core c).post e := fun _ _ => rfl
    rw [e1, e2, State.setCore_setCore, Core.setSlot_setSlot, Core.slot_setSlot_same]
  rw [hs]
  have h3 : s.cycle r.core = s.now := by rw [hc]; rfl
  rw [h3]
  congr 3
  unfold State.afterSend
  dsimp only
  split
  · rfl
  · rfl

theorem State.goRemote_sent (s : State) (cls : AccClass) (o : AccOp) (h : Home) (va data expected : Word) (d : Dst)
    (hs : s.canSend cls o h) :
    Sent s (s.goRemote (s.request cls o h va data expected d false)) (s.outgoing cls o h va data expected d)
      (s.afterSend (s.outgoing cls o h va data expected d)) := by
  obtain ⟨h1, h2, h3, h4⟩ := hs
  have hn : ¬ 4096 ≤ s.thr.out.length := by omega
  unfold State.goRemote
  dsimp only
  rw [if_neg hn, if_neg (by rintro ⟨_, _, hp⟩; rw [show (s.request cls o h va data expected d false).home = h from rfl,
    show (s.request cls o h va data expected d false).hq = s.thr.hq from rfl, h3] at hp; exact Bool.noConfusion hp)]
  have fin : ∀ (r : Request) (c : Core) (sa : BitVec 7), r.unit = opWriteLane o → c = { s.own with sa := sa } →
      sa = (if opWriteLane o then s.own.sa - 1 else s.own.sa) → r = s.outgoing cls o h va data expected d →
      Sent s ((s.setCore s.cur.core ({ c with oac := c.oac + 1 }.setSlot s.cur.slot
        { s.afterSend r with
          seq := s.thr.seq + 1,
          out := s.thr.out ++ [({ seq := s.thr.seq, relaxed := r.cls == AccClass.relaxed, home := r.home, kind := .access } : Out)] })).post
        (arrivalOf r)) r (s.afterSend r) := by
    intro r c sa hu hc hsa hr
    subst hc
    refine ⟨rfl, rfl, ?_, ?_, ?_, ?_⟩
    · intro p hp; rw [State.core_post, State.core_setCore_other _ _ hp]
    · simp only [State.own, State.cur_post, State.cur_setCore, State.core_post, State.core_setCore_same, hsa, hu]
      rfl
    · intro n hn
      rw [State.slot_post, State.slot_setCore_same, Core.slot_setSlot_other _ _ hn]
      rfl
    · rw [State.thr_eq, State.cur_post, State.cur_setCore, State.slot_post, State.slot_setCore_same, Core.slot_setSlot_same]
  by_cases ho : opWriteLane o = true
  · rw [if_pos (show opWriteLane (s.request cls o h va data expected d false).op = true from ho),
      if_pos (show (s.core s.cur.core).unitFree = true from h4 ho)]
    have hd := State.dispatch_eq (s.modCore s.cur.core (fun c => { c with sa := c.sa - 1 })) s.cur.next
      { s.request cls o h va data expected d false with unit := true } rfl rfl
      (fun hh => by
        rw [State.thr_eq, State.modCore_eq, State.cur_setCore, State.slot_setCore_same]
        exact h2 hh)
    have hthr : (s.modCore s.cur.core (fun c => { c with sa := c.sa - 1 })).thr = s.thr := by
      rw [State.thr_eq, State.modCore_eq, State.cur_setCore, State.slot_setCore_same]; rfl
    have hown : (s.modCore s.cur.core (fun c => { c with sa := c.sa - 1 })).own = { s.own with sa := s.own.sa - 1 } := by
      simp [State.own]
    have hnow : (s.modCore s.cur.core (fun c => { c with sa := c.sa - 1 })).now = s.now := rfl
    have hafter : ∀ r, ({ (s.modCore s.cur.core (fun c => { c with sa := c.sa - 1 })) with
        cur := { (s.modCore s.cur.core (fun c => { c with sa := c.sa - 1 })).cur with next := s.cur.next } } : State).afterSend r =
        s.afterSend r := by
      intro r
      have : ∀ u : State, u.thr = s.thr → u.cur = s.cur → u.afterSend r = s.afterSend r := by
        intro u h1 h2; unfold State.afterSend; rw [h1, h2]
      exact this _ hthr rfl
    rw [hafter, hthr, hown, hnow] at hd
    have hcore : ∀ c, (s.modCore s.cur.core (fun c => { c with sa := c.sa - 1 })).setCore
        (s.modCore s.cur.core (fun c => { c with sa := c.sa - 1 })).cur.core c = s.setCore s.cur.core c := by
      intro c; simp
    rw [hcore] at hd
    have hr : ({ s.request cls o h va data expected d false with unit := true, seq := s.thr.seq, sent := s.now } : Request) =
        s.outgoing cls o h va data expected d := by
      unfold State.request State.outgoing; rw [ho]
    erw [hd]
    rw [if_neg]
    · have := fin (s.outgoing cls o h va data expected d) { s.own with sa := s.own.sa - 1 } (s.own.sa - 1)
        rfl rfl (by rw [if_pos ho]) rfl
      rw [← hr] at this ⊢
      exact this
    · intro hp
      have hp' : s.pressed h s.thr.hq = true := hp
      rw [h3] at hp'
      exact Bool.noConfusion hp'
  · have ho' : opWriteLane o = false := by simpa using ho
    rw [if_neg (show ¬ opWriteLane (s.request cls o h va data expected d false).op = true from ho)]
    rw [State.dispatch_eq s s.cur.next (s.request cls o h va data expected d false) rfl rfl h2]
    have hr : ({ s.request cls o h va data expected d false with seq := s.thr.seq, sent := s.now } : Request) =
        s.outgoing cls o h va data expected d := by
      unfold State.request State.outgoing; rw [ho']
    have := fin (s.outgoing cls o h va data expected d) s.own s.own.sa rfl rfl (by rw [if_neg ho]) rfl
    rw [← hr] at this ⊢
    exact this

/-- An operation of the issuing thread whose home lies elsewhere sends its request. -/
theorem State.perform_sent (s : State) (cls : AccClass) (o : AccOp) (h : Home) (va data expected : Word) (d : Dst)
    (writes : Bool) (he : s.elsewhere h) (hs : s.canSend cls o h) :
    Sent s (s.perform cls o h va data expected d writes) (s.outgoing cls o h va data expected d)
      (s.afterSend (s.outgoing cls o h va data expected d)) := by
  have h0 : s.perform cls o h va data expected d writes = s.goRemote (s.request cls o h va data expected d false) := by
    unfold State.perform
    cases h with
    | ls q off =>
      have hq : ¬ q = s.cur.core := by
        intro hq
        have : homeOwn (.ls q off) s.cur.core = true := by simp [homeOwn, hq]
        rw [show homeOwn (.ls q off) s.cur.core = false from he] at this
        exact Bool.noConfusion this
      exact if_neg hq
    | _ => rfl
  rw [h0]
  exact State.goRemote_sent s cls o h va data expected d hs

/-! ## Operations on the core's own store (R47, R159, R164) -/

/-- An operation at its home changes memory and bits only. -/
theorem State.touchMemory_rest (s : State) (o : AccOp) (k : Nat) (x y : Word) :
    (s.touchMemory o k x y).2 = { s with mem := (s.touchMemory o k x y).2.mem, fe := (s.touchMemory o k x y).2.fe } := by
  cases o with
  | stg =>
    simp only [State.touchMemory]
    split <;> rfl
  | agentWrite a _ _ => cases a <;> rfl
  | _ => rfl

@[simp] theorem State.cur_useBanks (s : State) (p rank off n : Nat) : (s.useBanks p rank off n).cur = s.cur := rfl
@[simp] theorem State.mem_useBanks (s : State) (p rank off n : Nat) : (s.useBanks p rank off n).mem = s.mem := rfl
@[simp] theorem State.fe_useBanks (s : State) (p rank off n : Nat) : (s.useBanks p rank off n).fe = s.fe := rfl
@[simp] theorem State.due_useBanks (s : State) (p rank off n : Nat) : (s.useBanks p rank off n).due = s.due := rfl

/-- The use of a core's banks touches nothing of the core but their account. -/
theorem Core.useBanks_keeps (c : Core) (cyc rank off n : Nat) :
    ∃ r l, c.useBanks cyc rank off n = { c with bankAt := cyc, bankRank := r, bankUsed := l } := by
  unfold Core.useBanks
  split
  next h => exact ⟨_, _, by rw [← h]⟩
  · exact ⟨_, _, rfl⟩

theorem State.bank_useBanks (s : State) (p q rank off n : Nat) : ((s.useBanks p rank off n).core q).bank = (s.core q).bank := by
  unfold State.useBanks
  rw [State.modCore_eq, State.core_setCore]
  split
  next h =>
    obtain ⟨_, _, e⟩ := Core.useBanks_keeps (s.core p) (s.cycle p) rank off n
    rw [e, h]
  · rfl

@[simp] theorem State.cur_touchMemory (s : State) (o : AccOp) (k : Nat) (x y : Word) :
    (s.touchMemory o k x y).2.cur = s.cur := by rw [State.touchMemory_rest]
@[simp] theorem State.cores_touchMemory (s : State) (o : AccOp) (k : Nat) (x y : Word) :
    (s.touchMemory o k x y).2.cores = s.cores := by rw [State.touchMemory_rest]

theorem State.afterChange_quiet (s : State) (p off : Nat) (b : Bool) (d : Nat) (h : (s.core p).bank = [])
    (ha : ¬ (b = true ∧ off = acwOffset)) : s.afterChange p off b d = s := by
  have h1 : (b && off == acwOffset && s.full (localKey p off / 8 * 8)) = false := by
    cases hb : b with
    | false => rfl
    | true =>
      have : (off == acwOffset) = false := by
        rw [beq_eq_false_iff_ne]; exact fun hh => ha ⟨hb, hh⟩
      rw [this]; rfl
  unfold State.afterChange
  dsimp only
  rw [h1]
  simp [h]

/-- An operation on the own store that performs at once, as its memory effect and the thread's next position. -/
theorem State.perform_here (s : State) (cls : AccClass) (o : AccOp) (off : Nat) (va x y : Word) (d : Dst) (writes : Bool)
    (h : s.performsHere cls o off) :
    let m := (s.useBanks s.cur.core s.rank off (opBytes o)).touchMemory o (localKey s.cur.core off) x y
    s.perform cls o (.ls s.cur.core off) va x y d writes =
      (if writes then
        (if cls = .relaxed then m.2.writeDst s.cur.core s.cur.slot d m.1
          else m.2.result s.cur.core s.cur.slot d m.1).advance
      else m.2.advance) := by
  obtain ⟨h1, h2, h3, h4⟩ := h
  intro m
  have hr := State.touchMemory_rest (s.useBanks s.cur.core s.rank off (opBytes o)) o (localKey s.cur.core off) x y
  have hc : m.2.cores = (s.useBanks s.cur.core s.rank off (opBytes o)).cores := by
    show (State.touchMemory _ _ _ _ _).2.cores = _
    rw [hr]
  have hb : (m.2.core s.cur.core).bank = [] := by
    have : m.2.core s.cur.core = (s.useBanks s.cur.core s.rank off (opBytes o)).core s.cur.core := by
      unfold State.core; rw [hc]
    rw [this, State.bank_useBanks]; exact h3
  have hq := State.afterChange_quiet m.2 s.cur.core off (o == .stf) s.stage5 hb
    (by rintro ⟨ha, hb⟩; exact h4 ⟨eq_of_beq ha, hb⟩)
  have hm : m.2.cur = s.cur := State.cur_touchMemory _ _ _ _ _
  unfold State.perform
  dsimp only
  rw [if_pos rfl, if_neg (by rintro ⟨ha, hb⟩; rw [h1 ha] at hb; exact hb rfl), if_pos h2]
  unfold State.performLocal
  dsimp only
  rw [hq, hm]

/-- What a result written after a memory effect comes to. -/
theorem Result.of_memory {s u t : State} {d : Dst} {v : Word} {r : Rs} (hu : u = { s with mem := u.mem, fe := u.fe })
    (h : Result u t d v r) (hm : t.mem = u.mem) (hf : t.fe = u.fe) : Result (s.withMemory t) t d v r := by
  have : s.withMemory t = u := by
    unfold State.withMemory; rw [hm, hf]; exact hu.symm
  rw [this]; exact h

/-- A register result at the issuing thread's next position, the rounding state standing. -/
theorem State.result_advance (s : State) (d : Dst) (v : Word) :
    Result s ((s.result s.cur.core s.cur.slot d v).advance) d v s.rs := by
  have h : (s.result s.cur.core s.cur.slot d v).advance =
      (s.writeDst s.cur.core s.cur.slot d v).setSlot s.cur.core s.cur.slot
        { s.thr.putDst d v with z1 := s.thr.z0, z0 := v, pc := s.cur.next, wait := .none } := by
    simp only [State.result_eq, State.advance, State.goto, State.modThr_eq, State.cur_setSlot,
      State.cur_writeDst, State.setSlot_setSlot, State.thr_eq, State.slot_setSlot_same]
  rw [h]
  refine wrote_setThr s _ v _ _ rfl rfl ?_
  rw [Slot.putDst_z s.thr d v
    (fun t => { t with z1 := s.thr.z0, z0 := v, pc := s.cur.next, wait := .none }) (fun _ _ => rfl)]
  simp [State.rs, Slot.rs]

/-- A relaxed load of the own store writes its register and leaves z0 and z1 (R33). -/
theorem State.writeDst_advance (s : State) (d : Dst) (v : Word) :
    Wrote s ((s.writeDst s.cur.core s.cur.slot d v).advance) d v { s.thr with pc := s.cur.next, wait := .none } := by
  have h : (s.writeDst s.cur.core s.cur.slot d v).advance =
      (s.writeDst s.cur.core s.cur.slot d v).setSlot s.cur.core s.cur.slot
        { s.thr.putDst d v with pc := s.cur.next, wait := .none } := by
    simp only [State.advance, State.goto, State.modThr_eq, State.cur_writeDst, State.thr_eq, State.slot_writeDst]
  rw [h]
  refine wrote_setThr s _ v _ _ rfl rfl ?_
  rw [Slot.putDst_z s.thr d v (fun t => { t with pc := s.cur.next, wait := .none }) (fun _ _ => rfl)]

/-- Writing places and moving the thread leave memory and bits alone. -/
@[simp] theorem State.mem_writeDst (s : State) (p n : Nat) (d : Dst) (v : Word) : (s.writeDst p n d v).mem = s.mem := by
  cases d <;> rfl
@[simp] theorem State.fe_writeDst (s : State) (p n : Nat) (d : Dst) (v : Word) : (s.writeDst p n d v).fe = s.fe := by
  cases d <;> rfl
@[simp] theorem State.mem_result (s : State) (p n : Nat) (d : Dst) (v : Word) : (s.result p n d v).mem = s.mem := by
  simp [State.result]
@[simp] theorem State.fe_result (s : State) (p n : Nat) (d : Dst) (v : Word) : (s.result p n d v).fe = s.fe := by
  simp [State.result]
@[simp] theorem State.mem_goto (s : State) (pc : Word) : (s.goto pc).mem = s.mem := rfl
@[simp] theorem State.fe_goto (s : State) (pc : Word) : (s.goto pc).fe = s.fe := rfl
@[simp] theorem State.mem_advance (s : State) : s.advance.mem = s.mem := rfl
@[simp] theorem State.fe_advance (s : State) : s.advance.fe = s.fe := rfl
@[simp] theorem State.mem_park (s : State) (w : Wait) : (s.park w).mem = s.mem := rfl
@[simp] theorem State.fe_park (s : State) (w : Wait) : (s.park w).fe = s.fe := rfl

/-- A word store of the whole memory, byte by byte. -/
theorem storedAt_store (s t : State) (a n : Nat) (v : Word) (h : t.mem = Memory.store s.mem a n v) :
    StoredAt s t a (leList n v.toNat) := by
  intro k
  rw [h, Memory.store, Memory.byte_setBytes]

theorem storedAt_nothing (s t : State) (a : Nat) (h : t.mem = s.mem) : StoredAt s t a [] := by
  intro k
  rw [h, if_neg (by simp)]

end Sys2Proof.Machine
end

