-- ==== Sys2Proof/Tests/Slice0.lean ====
section
/-! SUPPORT. Tests: words and worked values of the spec, one step each, ill-formed terms, and a witness for the hypotheses
of every statement that has some. -/

namespace Sys2Proof.Tests

open Sys2Proof Sys2Proof.Machine

/-! ## Decoding: words written out in the spec (04_lines.md, 05_opcode_map.md, and the sections of the instructions) -/

theorem test_decode_ld : decodeHead 0x9827 0x04038A8A00000008 = .ok (.ld .w true true (.g 4) (.disp (.g 3) 8)) := by decide

theorem test_decode_amcas : decodeHead 0x9C40 0x05038A0600000010 = .ok (.amcas (.g 5) (.disp (.g 3) 16) (.g 6)) := by decide

theorem test_decode_send : decodeHead 0x9E80 0x09028A8A00000000 = .ok (.send (.g 9) (.disp (.g 2) 0)) := by decide

theorem test_decode_ldMig : decodeHead 0x9810 0x02018A8A00000000 = .ok (.ldMig .d false (.g 2) (.disp (.g 1) 0)) := by decide

theorem test_decode_go : decodeHead 0x9EC0 0x8A018A8A00000000 = .ok (.go (.disp (.g 1) 0)) := by decide

theorem test_decode_cpy : decodeHead 0x5F00 0x02030407 = .ok (.cpy (.g 2) (.g 3) (.g 4) (.g 7)) := by decide

theorem test_decode_st : decodeHead 0x9860 0x8A148A0F00000008 = .ok (.st .d true (.disp (.g 20) 8) (.g 15)) := by decide

theorem test_decode_fence : decodeHead 0x1E43 0 = .ok (.fence 3) := by decide

theorem test_decode_bext : decodeHead 0x8800 0x0405FF8A00000708 = .ok (.bext (.g 4) (.g 5) (.lit32 0x708)) := by decide

theorem test_decode_mov : decodeHead 0x8A00 0x088AFF8A00000000 = .ok (.mov (.g 8) (.lit32 0)) := by decide

theorem test_decode_add : decodeHead 0x4040 0x0808008A = .ok (.add (.g 8) (.g 8) (.reg (.g 0))) := by decide

theorem test_decode_bne : decodeHead 0x9080 0x8A008A8AFFFFFFFC = .ok (.bne (.g 0) .nul 0xFFFFFFFC) := by decide

theorem test_decode_take : decodeHead 0x5400 0x018A8A8A = .ok (.take (.g 1)) := by decide

theorem test_decode_fork : decodeHead 0x9340 0x09048A080000007C = .ok (.fork (.g 9) (.disp 0x7C) (.g 4) (.g 8)) := by decide

theorem test_decode_cld : decodeHead 0x6802 0xA9020304 = .ok (.cld false true 1 (.g 2) (.g 3) (.g 4)) := by decide

theorem test_decode_cldM : decodeHead 0x6801 0xA8020304 = .ok (.cld true false 0 (.g 2) (.g 3) (.g 4)) := by decide

theorem test_decode_cldw : decodeHead 0x6840 0xA98A8A8A = .ok (.cldw 1) := by decide

theorem test_decode_acz : decodeHead 0xA880 0xA98AFF8AFFFFFFF8 = .ok (.acz 1 (.lit32 0xFFFFFFF8)) := by decide

theorem test_decode_fcvt : decodeHead 0xACC6 0x0405FF8A00000007 = .ok (.fcvt 6 7 (.g 4) (.g 5)) := by decide

theorem test_decode_setvd : decodeHead 0x7183 0x8A098A8A = .ok (.setvd 3 (.g 9)) := by decide

theorem test_decode_vtopk : decodeHead 0x7102 0x04050607 = .ok (.vtopk 2 (.g 4) (.g 5) (.g 6) (.g 7)) := by decide

theorem test_decode_tup : decodeHead 0xB400 0x8A028A8A00000000 = .ok (.tup (.disp (.g 2) 0)) := by decide

theorem test_decode_tdn : decodeHead 0xB440 0x8A028A8A00000000 = .ok (.tdn (.disp (.g 2) 0)) := by decide

theorem test_decode_tcfg : decodeHead 0xB480 0x8A8AFF8A00001000 = .ok (.tcfg (.lit32 0x1000)) := by decide

theorem test_decode_coll : decodeHead 0x7581 0x8A028A07 = .ok (.collTopk (.g 2) (.g 7)) := by decide

theorem test_decode_klu : decodeHead 0x74C0 0x8A028A07 = .ok (.klu (.g 2) (.g 7)) := by decide

theorem test_decode_trap : decodeHead 0x3C05 0 = .ok (.trap 5) := by decide

theorem test_decode_brk : decodeHead 0x3C40 0 = .ok .brk := by decide

theorem test_decode_wrst : decodeHead 0xBCC0 0x8A03FF8A00004000 = .ok (.wrst 0x03 (.lit32 16384)) := by decide

theorem test_decode_rdcyc : decodeHead 0x7D80 0x068A8A8A = .ok (.rdcyc (.g 6)) := by decide

theorem test_decode_resume : decodeHead 0x7D01 0x8A018A8A = .ok (.resume true (.g 1)) := by decide

/-- The first unassigned opcode after `addix` (05_opcode_map.md), and the T that `exit` does not have (04_lines.md). -/
theorem test_decode_unassigned : decodeHead 0x4A80 0x8A8A8A8A = .error .unassigned := by decide

theorem test_decode_tailSize : decodeHead 0x54C0 0x8A8A8A8A = .error .tailSize := by decide

/-- The routine `sum_to` of 04_lines.md as its 64 bytes. -/
def sumTo : List Byte :=
  [0x00, 0x8A, 0x40, 0x40, 0x80, 0x80, 0x80, 0x90, 0xC0, 0x14, 0x00, 0x00] ++ List.replicate 24 0 ++
  [0xFC, 0xFF, 0xFF, 0xFF, 0x8A, 0x8A, 0x00, 0x8A, 0x01, 0x00, 0x00, 0x00, 0x8A, 0xFF, 0x00, 0x00] ++
  [0x8A, 0x00, 0x08, 0x08, 0x00, 0x00, 0x00, 0x00, 0x8A, 0xFF, 0x8A, 0x08]

theorem test_line_mov : inLine sumTo 0x1000 = .instr (.mov (.g 8) (.lit32 0)) 0x1002 := by decide

theorem test_line_bne : inLine sumTo 0x1006 = .instr (.bne (.g 0) .nul 0xFFFFFFFC) 0x1008 := by decide

theorem test_line_end : inLine sumTo 0x100A = .lineEnd 0x1040 := by decide

/-- A position past the line end, or inside a tail, is illegal (R97, R103). -/
theorem test_line_pastEnd : inLine sumTo 0x100C = .fault 0x01 0 := by decide

/-! ## Ill-formed terms: the checks refuse them, and the decoder has no word for them -/

theorem test_ill_dest : wellFormed (.add .z0 (.g 1) (.reg (.g 2))) = false := by decide
theorem test_ill_destWord : decodeHead 0x4040 0x8801028A = .error .specifier := by decide
theorem test_ill_short : wellFormed (.addix (.lit64 5)) = false := by decide
theorem test_ill_fork : wellFormed (.fork (.g 1) (.disp 0) (.h 0) .nul) = false := by decide
theorem test_ill_width : wellFormed (.ld .d true false (.g 1) (.disp (.g 2) 0)) = false := by decide
theorem test_ill_window : wellFormed (.cld false false 0 (.g 1) (.g 2) (.h 3)) = false := by decide
theorem test_ill_tileFmt : wellFormed (.acrd 9 (.g 1) 0 (.lit32 0)) = false := by decide
theorem test_ill_realFmt : wellFormed (.fadd 8 (.g 1) (.g 2) (.reg (.g 3))) = false := by decide
theorem test_ill_laneFmt : wellFormed (.padd 11 (.g 1) (.g 2) (.reg (.g 3))) = false := by decide
theorem test_ill_cvtFmt : wellFormed (.fcvt 3 7 (.g 1) (.g 2)) = false := by decide
theorem test_ill_view : wellFormed (.setvd 0 (.g 1)) = false := by decide
theorem test_ill_stateReg : wellFormed (.rdst (.g 1) 0x07) = false := by decide

/-! ## Numbers: the worked values of 03_numbers.md -/

theorem test_dy8_three_quarters : (dy8Encode Rs.rne (.fin false 3 4)).1 = 0x3C := by decide
theorem test_dy8_minus_tenth : (dy8Encode Rs.rne (.fin true 1 10)).1 = 0xA5 := by decide
theorem test_dy8_minus_tenth_up : (dy8Encode { Rs.rne with mode := 2 } (.fin true 1 10)).1 = 0xA4 := by decide
theorem test_pr32_three_quarters : (pr32Encode Rs.rne (.fin false 3 4)).1 = 0x00180000 := by decide
theorem test_pr32_tenth : (pr32Encode Rs.rne (.fin false 1 10)).1 = 0x0049999A := by decide
theorem test_pr32_saturates : pr32Encode Rs.rne (.fin false 9 4) = (0x000FFFFF, { Rs.rne with fl := flagPS ||| flagNX }) := by
  decide

/-! ## One step on a small state -/

/-- A running thread in slot 1 with the window 0 to 15. -/
def thread : Slot := { Slot.reset with st := .active, pc := 0x200000, size := 16 }

/-- A core with that thread, its registers given. -/
def core (regs : List (Nat × Word)) : Core := { Core.reset with regs := regs, slots := [(1, thread)] }

/-- A module with one core, whose thread issues. -/
def machine (c : Core) (mem : List Host.Cell) : State :=
  { State.reset with
    mem := mem, cores := [(0, c)], dies := [(0, { Die.reset with running := true })],
    cur := { core := 0, slot := 1, pc := 0x200000, next := 0x200002, instr := none, again := none }, due := [] }

/-- The module with registers given and memory blank. -/
def onRegs (regs : List (Nat × Word)) : State := machine (core regs) []

/-- What `P` reads from the next state. -/
def after {α : Type} (i : Instr) (s : State) (read : State → α) : Option α :=
  match exec i s with
  | .next t => some (read t)
  | _ => none

/-- Register g2 after a step. -/
def g2 (i : Instr) (s : State) : Option Word := after i s (fun t => (t.core 0).reg 2)

/-- The result a long operation will write. -/
def later (i : Instr) (s : State) : Option Word :=
  match exec i s with
  | .next t => match (t.slot 0 1).wait with
    | .longOp _ v _ _ _ => some v
    | _ => none
  | _ => none

/-- The cause of the trap a step takes. -/
def trapOf (i : Instr) (s : State) : Option (BitVec 8) := (after i s (fun t => ((t.slot 0 1).record.map (·.cause)))).join

/-- The bytes of a word from a key on, none of which is 0. -/
def cells (k : Nat) (bytes : List Byte) : List Host.Cell := (List.range bytes.length).map (fun i => (k + i, bytes.getD i 0))

/-- Address 0x40 of the core's own near window 0. -/
def near : Word := 0xFF00000000000040

/-- The key of that byte. -/
def spot : Nat := localKey 0 0x40

/-- Eight bytes of the word there. -/
def eight : List Byte := [0x88, 0x77, 0x66, 0x55, 0x44, 0x33, 0x22, 0x11]

/-- A module whose word at `near` is 0x1122334455667788, g3 holding the address and g4 a value. -/
def loaded (v : Word) : State := machine (core [(3, near), (4, v)]) (cells spot eight)

/-! Group A: the values worked in 06_isa_core.md. -/

theorem test_add_wraps : g2 (.add (.g 2) (.g 3) (.reg (.g 4))) (onRegs [(3, -1), (4, 2)]) = some 1 := by decide
theorem test_sub_wraps : g2 (.sub (.g 2) (.g 3) (.lit32 1)) (onRegs []) = some 0xFFFFFFFFFFFFFFFF := by decide
theorem test_add_z0 : after (.add (.g 2) (.g 3) (.lit32 5)) (onRegs [(3, 2)]) (fun t => ((t.slot 0 1).z0, (t.slot 0 1).pc)) =
    some (7, 0x200002) := by decide
theorem test_mul : later (.mul (.g 2) (.g 3) (.lit32 3)) (onRegs [(3, -2)]) = some 0xFFFFFFFFFFFFFFFA := by decide
theorem test_mulh : later (.mulh (.g 2) (.g 3) (.lit32 2)) (onRegs [(3, -1)]) = some 0xFFFFFFFFFFFFFFFF := by decide
theorem test_mulhu : later (.mulhu (.g 2) (.g 3) (.lit32 2)) (onRegs [(3, -1)]) = some 1 := by decide
theorem test_div : later (.div (.g 2) (.g 3) (.lit32 2)) (onRegs [(3, -7)]) = some (-3) := by decide
theorem test_rem : later (.rem (.g 2) (.g 3) (.lit32 2)) (onRegs [(3, -7)]) = some (-1) := by decide
theorem test_divu_zero : later (.divu (.g 2) (.g 3) (.reg .nul)) (onRegs [(3, 5)]) = some 0xFFFFFFFFFFFFFFFF := by decide
theorem test_remu_zero : later (.remu (.g 2) (.g 3) (.reg .nul)) (onRegs [(3, 5)]) = some 5 := by decide
theorem test_div_overflow : later (.div (.g 2) (.g 3) (.lit32 0xFFFFFFFF)) (onRegs [(3, 0x8000000000000000)]) =
    some 0x8000000000000000 := by decide
theorem test_and : g2 (.and (.g 2) (.g 3) (.lit32 0xFFFFFFF0)) (onRegs [(3, 0xAB00000000000CD)]) = some 0xAB00000000000C0 := by
  decide
theorem test_or : g2 (.or (.g 2) (.g 3) (.lit32 3)) (onRegs [(3, 8)]) = some 11 := by decide
theorem test_xor : g2 (.xor (.g 2) (.g 3) (.lit32 3)) (onRegs [(3, 9)]) = some 10 := by decide
theorem test_andn : g2 (.andn (.g 2) (.g 3) (.lit32 3)) (onRegs [(3, 9)]) = some 8 := by decide
theorem test_orn : g2 (.orn (.g 2) (.g 3) (.lit32 0xFFFFFFFE)) (onRegs [(3, 8)]) = some 9 := by decide
theorem test_shl_ignores_high : g2 (.shl (.g 2) (.g 3) (.lit32 65)) (onRegs [(3, 3)]) = some 6 := by decide
theorem test_shr : g2 (.shr (.g 2) (.g 3) (.lit32 63)) (onRegs [(3, -1)]) = some 1 := by decide
theorem test_sar : g2 (.sar (.g 2) (.g 3) (.lit32 63)) (onRegs [(3, 0x8000000000000000)]) = some (-1) := by decide
theorem test_rol : g2 (.rol (.g 2) (.g 3) (.lit32 4)) (onRegs [(3, 0xF000000000000001)]) = some 0x1F := by decide
theorem test_ror : g2 (.ror (.g 2) (.g 3) (.lit32 4)) (onRegs [(3, 0x1F)]) = some 0xF000000000000001 := by decide
theorem test_min : g2 (.min (.g 2) (.g 3) (.lit32 2)) (onRegs [(3, -1)]) = some (-1) := by decide
theorem test_max : g2 (.max (.g 2) (.g 3) (.lit32 2)) (onRegs [(3, -1)]) = some 2 := by decide
theorem test_minu : g2 (.minu (.g 2) (.g 3) (.lit32 2)) (onRegs [(3, -1)]) = some 2 := by decide
theorem test_maxu : g2 (.maxu (.g 2) (.g 3) (.lit32 2)) (onRegs [(3, -1)]) = some (-1) := by decide
theorem test_slt : g2 (.slt (.g 2) (.g 3) (.lit32 2)) (onRegs [(3, -1)]) = some 1 := by decide
theorem test_sltu : g2 (.sltu (.g 2) (.g 3) (.lit32 2)) (onRegs [(2, 7), (3, -1)]) = some 0 := by decide
theorem test_seq : g2 (.seq (.g 2) (.g 3) (.lit32 0xFFFFFFFF)) (onRegs [(3, -1)]) = some 1 := by decide
theorem test_sne : g2 (.sne (.g 2) (.g 3) (.lit32 1)) (onRegs [(3, -1)]) = some 1 := by decide
theorem test_sel : g2 (.sel (.g 2) (.g 3) (.lit32 9) (.g 4)) (onRegs [(3, 5)]) = some 9 := by decide
theorem test_clz_zero : g2 (.clz (.g 2) (.g 3)) (onRegs []) = some 64 := by decide
theorem test_ctz : g2 (.ctz (.g 2) (.g 3)) (onRegs [(3, 0x50)]) = some 4 := by decide
theorem test_popc : g2 (.popc (.g 2) (.g 3)) (onRegs [(3, 0xF00000000000000F)]) = some 8 := by decide
theorem test_bswap : g2 (.bswap (.g 2) (.g 3)) (onRegs [(3, 0x0102030405060708)]) = some 0x0807060504030201 := by decide
theorem test_bext : g2 (.bext (.g 2) (.g 3) (.lit32 0x0708)) (onRegs [(3, 0xF500)]) = some 0xFFFFFFFFFFFFFFF5 := by decide
theorem test_bextu : g2 (.bextu (.g 2) (.g 3) (.lit32 0x0708)) (onRegs [(3, 0xF500)]) = some 0xF5 := by decide
theorem test_bins : g2 (.bins (.g 2) (.g 3) (.lit32 0x033C) (.g 4)) (onRegs [(4, 0xFF)]) = some 0xF000000000000000 := by decide
theorem test_fsh : g2 (.fsh (.g 2) (.g 3) (.lit32 1) (.g 4)) (onRegs [(3, 1), (4, 0x8000000000000000)]) =
    some 0xC000000000000000 := by decide
theorem test_sext : g2 (.sext (.g 2) (.g 3) (.lit32 8)) (onRegs [(3, 0x80)]) = some 0xFFFFFFFFFFFFFF80 := by decide
theorem test_zext : g2 (.zext (.g 2) (.g 3) (.lit32 8)) (onRegs [(3, 0x1F80)]) = some 0x80 := by decide
theorem test_lea : g2 (.lea (.g 2) (.disp (.g 3) 0xFFFFFFFF)) (onRegs [(3, 0x100)]) = some 0xFF := by decide
theorem test_mov : g2 (.mov (.g 2) (.lit32 0xFFFFFFFF)) (onRegs []) = some (-1) := by decide
theorem test_rnd : g2 (.rnd (.g 2) .nul (.lit32 1)) (onRegs []) = some 0xE220A8397B1DCDAF := by decide
theorem test_addix : after (.addix (.lit32 0xFFFFFFFF)) (onRegs []) (fun t => ((t.slot 0 1).ix, (t.slot 0 1).z0)) =
    some (0xFFFF, 0) := by decide

/-! Group B: where the thread goes on. -/

/-- The thread's PC after a step. -/
def pcAfter (i : Instr) (s : State) : Option Word := after i s (fun t => (t.slot 0 1).pc)

theorem test_nop : pcAfter .nop (onRegs []) = some 0x200002 := by decide
theorem test_b : pcAfter (.b 0xFFFFFFFC) (onRegs []) = some 0x1FFFFC := by decide
theorem test_beq : pcAfter (.beq (.g 3) (.g 4) 8) (onRegs [(3, 1)]) = some 0x200002 := by decide
theorem test_bne : pcAfter (.bne (.g 3) (.g 4) 8) (onRegs [(3, 1)]) = some 0x200008 := by decide
theorem test_blt : pcAfter (.blt (.g 3) .nul 8) (onRegs [(3, -1)]) = some 0x200008 := by decide
theorem test_bltu : pcAfter (.bltu (.g 3) .nul 8) (onRegs [(3, -1)]) = some 0x200002 := by decide
theorem test_bge : pcAfter (.bge .nul .nul 8) (onRegs []) = some 0x200008 := by decide
theorem test_bgeu : pcAfter (.bgeu .nul (.g 3) 8) (onRegs [(3, 1)]) = some 0x200002 := by decide
theorem test_bbs : pcAfter (.bbs 63 (.g 3) 8) (onRegs [(3, 0x8000000000000000)]) = some 0x200008 := by decide
theorem test_bbc : pcAfter (.bbc 63 (.g 3) 8) (onRegs [(3, 0x8000000000000000)]) = some 0x200002 := by decide
theorem test_call : after (.call 0x40) (onRegs []) (fun t => ((t.slot 0 1).pc, readDst (t.core 0) (t.slot 0 1) (.h 7),
    (t.slot 0 1).z0)) = some (0x200040, 0x200002, 0x200002) := by decide
theorem test_callr : pcAfter (.callr (.g 3)) (onRegs [(3, 0x300000)]) = some 0x300000 := by decide
theorem test_jmp : pcAfter (.jmp (.g 3)) (onRegs [(3, 0x300000)]) = some 0x300000 := by decide
theorem test_ret : pcAfter .ret (machine { core [] with slots := [(1, { thread with h := [(7, 0x300000)] })] } []) =
    some 0x300000 := by decide
theorem test_fork :
    let e : TaskEntry := { hasRec := false, rw := 0, pc := 0x200040, a0 := 11, a1 := 12, a2 := 13, rc := 0, hq := 0 }
    after (.fork (.g 2) (.disp 0x40) (.g 3) .nul) (onRegs [(3, 11), (4, 12), (5, 13)])
      (fun t => ((t.core 0).reg 2, (t.core 0).deque)) = some (1, [e]) := by decide
theorem test_sleep : after (.sleep (.lit32 5)) (onRegs []) (fun t => (t.slot 0 1).wait) = some (.sleep 5) := by decide
theorem test_exit : after .exit (onRegs []) (fun t => t.due) = some [.exitComplete 0 1] := by decide
theorem test_take_elsewhere : trapOf (.take (.g 2)) (onRegs []) = some 0x03 := by decide
theorem test_trap : after (.trap 5) (onRegs []) (fun t => (t.slot 0 1).record.map (fun r => (r.cause, r.detail, r.spc))) =
    some (some (0x0D, 5, 0x200002)) := by decide
theorem test_brk : trapOf .brk (onRegs []) = some 0x0E := by decide
theorem test_window : trapOf (.add (.g 16) (.g 3) (.lit32 0)) (onRegs []) = some 0x02 := by decide

/-- The same module with the issue in slot 0, the dispatcher. -/
def slot0 (regs : List (Nat × Word)) (slots : List (Nat × Slot)) : State :=
  { machine { core regs with slots := (0, thread) :: slots } [] with
    cur := { core := 0, slot := 0, pc := 0x200000, next := 0x200002, instr := none, again := none } }

theorem test_take_none : g2 (.take (.g 2)) (slot0 [] [(1, thread)]) = some 0x0300000000000000 := by decide
theorem test_reap_empty : g2 (.reap (.g 2) (.g 3)) (slot0 [(3, 2)] []) = some 0x0100000000000000 := by decide
theorem test_stop : after (.stop (.g 3)) (slot0 [(3, 1)] [(1, thread)]) (fun t => (t.slot 0 1).stopAt) = some (some 5) := by
  decide
theorem test_resume : after (.resume false (.g 3)) (slot0 [(3, 0x3000000011)] [(1, { thread with st := .stopped })])
    (fun t => ((t.slot 0 1).st, (t.slot 0 1).pc)) = some (.active, 0x300000) := by decide

/-- A latched task and an owned slot 2. -/
theorem test_start :
    let e : TaskEntry := { hasRec := false, rw := 0, pc := 0x4000, a0 := 7, a1 := 8, a2 := 9, rc := 0, hq := 0 }
    let s := slot0 [(3, 2), (4, 64), (5, 32)] []
    after (.start (.g 3) (.g 4) (.g 5)) (s.setCore 0 { s.core 0 with latchTask := some e, owners := [(2, 0x40)] })
      (fun t => ((t.slot 0 2).st, (t.slot 0 2).pc, (t.core 0).reg 65)) = some (.active, 0x4000, 8) := by decide

/-! Group C: the core's own store. -/

theorem test_ld_signed : g2 (.ld .b false false (.g 2) (.disp (.g 3) 0)) (loaded 0) = some 0xFFFFFFFFFFFFFF88 := by decide
theorem test_ld_unsigned : g2 (.ld .h true false (.g 2) (.disp (.g 3) 2)) (loaded 0) = some 0x5566 := by decide
theorem test_ld_misaligned : trapOf (.ld .w true false (.g 2) (.disp (.g 3) 2)) (loaded 0) = some 0x04 := by decide
theorem test_st_half : after (.st .h false (.disp (.g 3) 6) (.g 4)) (loaded 0xABCDEF) (fun t => t.word spot) =
    some 0xCDEF334455667788 := by decide
theorem test_ldf : g2 (.ldf (.g 2) (.disp (.g 3) 0)) (loaded 0) = some 0x1122334455667788 := by decide
theorem test_lde : after (.lde (.g 2) (.disp (.g 3) 0)) (loaded 0) (fun t => ((t.core 0).reg 2, t.full spot)) =
    some (0x1122334455667788, false) := by decide
theorem test_stf_waits : after (.stf (.disp (.g 3) 0) (.g 4)) (loaded 9) (fun t => ((t.core 0).bank.length, t.word spot)) =
    some (1, 0x1122334455667788) := by decide
theorem test_stf_empty : after (.stf (.disp (.g 3) 0) (.g 4)) ((loaded 9).setFull spot false)
    (fun t => (t.word spot, t.full spot)) = some (9, true) := by decide
theorem test_stn : after (.stn (.disp (.g 3) 0) (.g 4)) (loaded 9) (fun t => (t.word spot, t.full spot)) = some (9, true) := by
  decide
theorem test_clre : after (.clre (.disp (.g 3) 0)) (loaded 9) (fun t => (t.word spot, t.full spot)) =
    some (0x1122334455667788, false) := by decide
theorem test_fes : g2 (.fes (.g 2) (.disp (.g 3) 0)) (loaded 9) = some 1 := by decide

/-- The old word and the new one of an atomic on `near`. -/
def atomicAfter (i : Instr) (s : State) : Option (Word × Word) := after i s (fun t => ((t.core 0).reg 2, t.word spot))

theorem test_amadd : atomicAfter (.amadd (.g 2) (.disp (.g 3) 0) (.g 4)) (loaded 8) =
    some (0x1122334455667788, 0x1122334455667790) := by decide
theorem test_amand : atomicAfter (.amand (.g 2) (.disp (.g 3) 0) (.g 4)) (loaded 0xFF) = some (0x1122334455667788, 0x88) := by
  decide
theorem test_amor : atomicAfter (.amor (.g 2) (.disp (.g 3) 0) (.g 4)) (loaded 7) =
    some (0x1122334455667788, 0x112233445566778F) := by decide
theorem test_amxor : atomicAfter (.amxor (.g 2) (.disp (.g 3) 0) (.g 4)) (loaded 0x88) =
    some (0x1122334455667788, 0x1122334455667700) := by decide
theorem test_ammin : atomicAfter (.ammin (.g 2) (.disp (.g 3) 0) (.g 4)) (loaded (-1)) = some (0x1122334455667788, -1) := by
  decide
theorem test_ammax : atomicAfter (.ammax (.g 2) (.disp (.g 3) 0) (.g 4)) (loaded (-1)) =
    some (0x1122334455667788, 0x1122334455667788) := by decide
theorem test_amminu : atomicAfter (.amminu (.g 2) (.disp (.g 3) 0) (.g 4)) (loaded (-1)) =
    some (0x1122334455667788, 0x1122334455667788) := by decide
theorem test_ammaxu : atomicAfter (.ammaxu (.g 2) (.disp (.g 3) 0) (.g 4)) (loaded (-1)) = some (0x1122334455667788, -1) := by
  decide
theorem test_amswp : atomicAfter (.amswp (.g 2) (.disp (.g 3) 0) (.g 4)) (loaded 5) = some (0x1122334455667788, 5) := by decide
/-- `amcas` expects the old value of g2, here 0. -/
theorem test_amcas : atomicAfter (.amcas (.g 2) (.disp (.g 3) 0) (.g 4)) (loaded 5) =
    some (0x1122334455667788, 0x1122334455667788) := by decide
theorem test_redadd : after (.redadd (.disp (.g 3) 0) (.g 4)) (loaded 8) (fun t => t.word spot) = some 0x1122334455667790 := by
  decide
theorem test_redand : after (.redand (.disp (.g 3) 0) (.g 4)) (loaded 0xFF) (fun t => t.word spot) = some 0x88 := by decide
theorem test_redor : after (.redor (.disp (.g 3) 0) (.g 4)) (loaded 7) (fun t => t.word spot) = some 0x112233445566778F := by
  decide
theorem test_redmax : after (.redmax (.disp (.g 3) 0) (.g 4)) (loaded (-1)) (fun t => t.word spot) =
    some 0x1122334455667788 := by decide
theorem test_redmin : after (.redmin (.disp (.g 3) 0) (.g 4)) (loaded (-1)) (fun t => t.word spot) = some (-1) := by decide
/-- 1.0 + 2.0 = 3.0 in FP32, the high half cleared. -/
theorem test_redfadd : after (.redfadd (.disp (.g 3) 0) (.g 4))
    (machine (core [(3, near), (4, 0x40000000)]) [(spot + 2, 0x80), (spot + 3, 0x3F), (spot + 7, 1)]) (fun t => t.word spot) =
    some 0x40400000 := by decide
/-- Tag 0x0001 is newer than 0xFFFF (07_isa_memory.md). -/
theorem test_stg_newer : after (.stg (.disp (.g 3) 0) (.g 4))
    (machine (core [(3, near), (4, 0x0001000000000000)]) [(spot + 6, 0xFF), (spot + 7, 0xFF)]) (fun t => t.word spot) =
    some 0x0001000000000000 := by decide
theorem test_stg_older : after (.stg (.disp (.g 3) 0) (.g 4)) (loaded 0x1121000000000000) (fun t => t.word spot) =
    some 0x1122334455667788 := by decide
theorem test_fence : pcAfter (.fence 3) (onRegs []) = some 0x200002 := by decide
theorem test_send : g2 (.send (.g 2) (.disp (.g 3) 0)) (loaded 0) = some 0 := by decide
theorem test_ldMig_elsewhere : trapOf (.ldMig .d false (.g 2) (.disp (.g 3) 0)) (loaded 0) = some 0x01 := by decide
theorem test_stMig_elsewhere : trapOf (.stMig .d (.disp (.g 3) 0) (.g 4)) (loaded 0) = some 0x01 := by decide
theorem test_go_elsewhere : trapOf (.go (.disp (.g 3) 0)) (loaded 0) = some 0x01 := by decide
theorem test_cpy_zero : after (.cpy (.g 3) (.g 3) (.g 2) (.g 3)) (loaded 0) (fun t => (t.core 0).copyQueue.length) = some 1 := by
  decide

/-- A record whose count is 1, at `near` in the own store: `dec` completes it with 0. -/
theorem test_dec_last : after (.dec (.disp (.g 3) 0)) (machine (core [(3, near)]) [(spot, 1), (spot + 48, 5)])
    (fun t => (t.word spot, t.word (spot + 48), t.full (spot + 48))) = some (0, 0, true) := by decide
theorem test_cancel_last : after (.cancel (.disp (.g 3) 0)) (machine (core [(3, near)]) [(spot, 1)])
    (fun t => (t.word spot, t.word (spot + 48))) = some (0x4000000000, 0x10) := by decide

/-! Group D: numbers, tiles, views and streams. -/

/-- The result in g2 with the thread's flags. -/
def realAfter (i : Instr) (s : State) : Option (Word × BitVec 8) := after i s (fun t => ((t.core 0).reg 2, (t.slot 0 1).nflag))

theorem test_fadd : realAfter (.fadd 7 (.g 2) (.g 3) (.lit32 0x3F800000)) (onRegs [(3, 0x40000000)]) = some (0x40400000, 0) := by
  decide
theorem test_fsub : realAfter (.fsub 7 (.g 2) (.g 3) (.lit32 0x40000000)) (onRegs [(3, 0x3F800000)]) = some (0xBF800000, 0) := by
  decide
/-- 65,504 + 65,504 in FP16 overflows to infinity in RNE, with OF and NX. -/
theorem test_fadd_overflow : realAfter (.fadd 5 (.g 2) (.g 3) (.lit32 0x7BFF)) (onRegs [(3, 0x7BFF)]) = some (0x7C00, 0x14) := by
  decide
theorem test_fmul : realAfter (.fmul 7 (.g 2) (.g 3) (.lit32 0x40400000)) (onRegs [(3, 0x40000000)]) = some (0x40C00000, 0) := by
  decide
theorem test_fma : realAfter (.fma 7 (.g 2) (.g 3) (.lit32 0x40400000) (.g 4)) (onRegs [(3, 0x40000000), (4, 0x3F800000)]) =
    some (0x40E00000, 0) := by decide
theorem test_fdiv : later (.fdiv 7 (.g 2) (.g 3) (.lit32 0x40000000)) (onRegs [(3, 0x3F800000)]) = some 0x3F000000 := by decide
theorem test_fdiv_zero : later (.fdiv 7 (.g 2) (.g 3) (.lit32 0)) (onRegs [(3, 0x3F800000)]) = some 0x7F800000 := by decide
theorem test_fsqrt : later (.fsqrt 7 (.g 2) (.g 3)) (onRegs [(3, 0x40800000)]) = some 0x40000000 := by
  decide +kernel
theorem test_fmin : realAfter (.fmin 7 (.g 2) (.g 3) (.lit32 0x3F800000)) (onRegs [(3, 0xBF800000)]) = some (0xBF800000, 0) := by
  decide
theorem test_fmax_nan : realAfter (.fmax 7 (.g 2) (.g 3) (.lit32 0x7FC00000)) (onRegs [(3, 0xBF800000)]) =
    some (0xBF800000, 0) := by decide
theorem test_flt : realAfter (.flt 7 (.g 2) (.g 3) (.lit32 0x3F800000)) (onRegs [(3, 0xBF800000)]) = some (1, 0) := by decide
theorem test_fle : realAfter (.fle 7 (.g 2) (.g 3) (.lit32 0x80000000)) (onRegs []) = some (1, 0) := by decide
theorem test_feq_nan : realAfter (.feq 7 (.g 2) (.g 3) (.reg (.g 3))) (onRegs [(3, 0x7FC00000)]) = some (0, 0) := by decide
/-- The example of 08_isa_arith.md, in RNE and in RUP. -/
theorem test_fcvt : realAfter (.fcvt 6 7 (.g 2) (.g 3)) (onRegs [(3, 0x3FC00001)]) = some (0x3FC0, 0x10) := by decide
theorem test_fcvt_up : realAfter (.fcvt 6 7 (.g 2) (.g 3))
    (machine { core [(3, 0x3FC00001)] with slots := [(1, { thread with round := 2 })] } []) = some (0x3FC1, 0x10) := by decide
theorem test_fexp2 : later (.fexp2 7 (.g 2) (.g 3)) (onRegs [(3, 0x40400000)]) = some 0x41000000 := by
  decide +kernel
theorem test_flog2 : later (.flog2 7 (.g 2) (.g 3)) (onRegs [(3, 0x41000000)]) = some 0x40400000 := by
  decide +kernel
theorem test_padd : realAfter (.padd 0 (.g 2) (.g 3) (.lit32 1)) (onRegs [(3, 0x017F)]) = some (0x017F, 0x04) := by decide
/-- 0.75 + 0.75 = 1.5 and 0 + 0 = 0 in PR32 (03_numbers.md). -/
theorem test_padd_pr32 : realAfter (.padd 8 (.g 2) (.g 3) (.reg (.g 3))) (onRegs [(3, 0xFFF0000000180000)]) =
    some (0xFFF0000000080000, 0) := by decide
theorem test_psub : realAfter (.psub 1 (.g 2) .nul (.lit32 0x0100)) (onRegs []) = some (0, 0x04) := by decide
theorem test_pmul : realAfter (.pmul 9 (.g 2) (.g 3) (.lit32 0xFFFF0003)) (onRegs [(3, 0x00020005)]) =
    some (0xFFFE000F, 0) := by decide
theorem test_pmax : realAfter (.pmax 0 (.g 2) (.g 3) (.lit32 0x80)) (onRegs [(3, 0xFF01)]) = some (0x0001, 0) := by decide
theorem test_pmin : realAfter (.pmin 0 (.g 2) (.g 3) (.lit32 0x80)) (onRegs [(3, 0xFF01)]) = some (0xFF80, 0) := by decide
theorem test_pdot : realAfter (.pdot 0 (.g 2) (.g 3) (.lit32 0x0203)) (onRegs [(3, 0xFF04)]) = some (10, 0) := by decide
/-- (-2^31)^2 + (-2^31)^2 saturates to 2^63 - 1 with OF (R205). -/
theorem test_pdot_saturates : realAfter (.pdot 10 (.g 2) (.g 3) (.reg (.g 3))) (onRegs [(3, 0x8000000080000000)]) =
    some (0x7FFFFFFFFFFFFFFF, 0x04) := by decide
theorem test_setvd : after (.setvd 3 (.g 3)) (onRegs [(3, 0x77)]) (fun t => (t.core 0).descriptor 3) = some 0x77 := by decide
/-- The reserved bits [4:0] read as zero (R206). -/
theorem test_getvd : g2 (.getvd 3 (.g 2)) (machine { core [] with vd := [(3, 0x77)] } []) = some 0x60 := by decide

/-- A module with an entry 5 in tile 1, whose anchor is -8. -/
def tiled (x : TileState) : State := machine { core [(3, 9)] with tiles := [(1, x)] } []

theorem test_acz : after (.acz 1 (.lit32 0xFFFFFFF8)) (tiled { TileState.reset with entries := [(5, 3)] })
    (fun t => ((t.tile 0 1).anchor.toInt, tileEntry (t.tile 0 1) 5)) = some (-8, 0) := by decide
theorem test_acwr : after (.acwr 1 (.g 3) (.lit32 5)) (tiled TileState.reset) (fun t => tileEntry (t.tile 0 1) 5) = some 9 := by
  decide
/-- 3 x 2^-1 = 1.5 in FP32. -/
theorem test_acrd : g2 (.acrd 7 (.g 2) 1 (.lit32 5)) (tiled { TileState.reset with entries := [(5, 3)], anchor := -1 }) =
    some 0x3FC00000 := by decide
theorem test_acrd_poisoned : trapOf (.acrd 7 (.g 2) 1 (.lit32 5)) (tiled { TileState.reset with poison := [(5, true)] }) =
    some 0x0B := by decide
theorem test_acst : after (.acst 11 (.disp (.g 3) 0) 1) (machine (core [(3, near)]) []) (fun t => t.due.length) = some 1 := by
  decide
theorem test_cmprog : after (.cmprog 1 (.g 3)) (tiled TileState.reset) (fun t => ((t.tile 0 1).recurrence, (t.tile 0 1).prog)) =
    some (true, 9) := by decide
theorem test_cmst : g2 (.cmst (.g 2) 1) (tiled { TileState.reset with recurrence := true, prog := 0x55 }) = some 0x55 := by decide
theorem test_cldw : pcAfter (.cldw 1) (tiled TileState.reset) = some 0x200002 := by decide
theorem test_cld_noView : trapOf (.cld false false 1 (.g 3) (.g 3) (.g 3)) (loaded 0) = some 0x0C := by decide

/-- The vector instructions of one element at `near`, of raw words. -/
def streamed : State := machine (core [(3, near), (4, 1)]) (cells spot eight)

/-- What the unit's queue holds. -/
def queued (i : Instr) : Option (List (VecOp × Nat)) := after i streamed (fun t => (t.core 0).vecQueue.map (fun j => (j.op, j.k)))

theorem test_vadd : queued (.vadd (.g 3) (.g 3) (.g 3) (.g 4)) = some [(.add, 0)] := by decide
theorem test_vsub : queued (.vsub (.g 3) (.g 3) (.g 3) (.g 4)) = some [(.sub, 0)] := by decide
theorem test_vmul : queued (.vmul (.g 3) (.g 3) (.g 3) (.g 4)) = some [(.mul, 0)] := by decide
theorem test_vmax : queued (.vmax (.g 3) (.g 3) (.g 3) (.g 4)) = some [(.max, 0)] := by decide
theorem test_vmin : queued (.vmin (.g 3) (.g 3) (.g 3) (.g 4)) = some [(.min, 0)] := by decide
theorem test_vsum : queued (.vsum (.g 3) (.g 3) .nul (.g 4)) = some [(.sum, 0)] := by decide
theorem test_vbcast : trapOf (.vbcast .nul .nul .nul (.g 4)) streamed = some 0x0C := by decide
theorem test_vfma : trapOf (.vfma .nul .nul .nul (.g 4)) streamed = some 0x0C := by decide
theorem test_vmap : trapOf (.vmap .nul .nul .nul (.g 4)) streamed = some 0x0C := by decide
theorem test_vtopk : trapOf (.vtopk 2 .nul .nul .nul (.g 4)) streamed = some 0x0C := by decide

/-! Group E: the Trellis, the engines, state registers and system calls. -/

theorem test_tcfg : after (.tcfg (.lit32 0x1003)) (onRegs []) (fun t => (t.slot 0 1).tb) = some 0x1000 := by decide
theorem test_tup : trapOf (.tup (.disp .nul 0)) (onRegs []) = some 0x0C := by decide
/-- Window 0 has no view. -/
theorem test_tdn : trapOf (.tdn (.disp (.g 3) 0)) (loaded 0) = some 0x01 := by decide
theorem test_klu : trapOf (.klu .nul .nul) (onRegs []) = some 0x0C := by decide
theorem test_kbwd : trapOf (.kbwd (.g 3) (.g 4)) (loaded 1) = some 0x04 := by decide
theorem test_gat : trapOf (.gat .nul .nul) (onRegs []) = some 0x0C := by decide
theorem test_collSum : trapOf (.collSum .nul .nul) (onRegs []) = some 0x0C := by decide
theorem test_collTopk : trapOf (.collTopk .nul .nul) (onRegs []) = some 0x0C := by decide
theorem test_collBcast : trapOf (.collBcast .nul .nul) (onRegs []) = some 0x0C := by decide
theorem test_collGather : trapOf (.collGather .nul .nul) (onRegs []) = some 0x0C := by decide
theorem test_rdst_fel : g2 (.rdst (.g 2) 0x03) (onRegs []) = some 4096 := by decide
theorem test_rdst_tqb : g2 (.rdst (.g 2) 0x1A) (onRegs []) = some 0x000000000009F000 := by decide
theorem test_wrst_fel : after (.wrst 0x03 (.lit32 16384)) (onRegs []) (fun t => (t.slot 0 1).fel) = some 16384 := by decide
theorem test_wrst_swl : trapOf (.wrst 0x11 (.lit32 1)) (onRegs []) = some 0x03 := by decide
theorem test_rdcyc : g2 (.rdcyc (.g 2)) (onRegs []) = some 0 := by decide
theorem test_sysc : after (.sysc (.g 3)) (loaded 0) (fun t => t.due.length) = some 1 := by decide
theorem test_sysc_misaligned : trapOf (.sysc (.g 3)) (onRegs [(3, near + 8)]) = some 0x04 := by decide

/-! The step, and what other agents do. -/

/-- The next step after a word is placed runs it: `nop` moves the PC on. -/
theorem test_step_nop : (match step (State.reset.withFetchWord 16 0x0001) with
    | .next t => some ((t.slot 0 1).pc, t.cur.core, t.cur.slot)
    | _ => none) = some (0x200002, 0, 1) := by decide

/-- `trap 5` as the first instruction (09_isa_engines.md: head 0x3C05). -/
theorem test_step_trap : (match step (State.reset.withFetchWord 16 0x3C05) with
    | .next t => (t.slot 0 1).record.map (fun r => (r.cause, r.detail))
    | _ => none) = some (0x0D, 5) := by decide

theorem test_reset_next : (match step State.reset with
    | .next t => some t.due
    | _ => none) = some [.dieLeavesReset 8, .dieLeavesReset 9] := by decide

theorem test_longOp : after (.longOpComplete 0 1) (machine { core [] with
    slots := [(1, { thread with wait := .longOp (.g 2) 9 0 0 0 })] } []) (fun t => ((t.core 0).reg 2, (t.slot 0 1).wait)) =
    some (9, .none) := by decide

theorem test_vsu_add :
    let j : VecJob :=
      { slot := 1, op := .add, d := near, a := near, b := near, c := 1, vdD := 0, vdA := 0, vdB := 0, k := 0, next := 0,
        sum := 0, bad := 0, pairs := [], taken := 0 }
    after (.vsuComplete 0) (machine { core [] with vecRun := some j } (cells spot eight)) (fun t => t.word spot) =
      some 0x22446688AACCEF10 := by decide

/-! ## Witnesses: for every statement with hypotheses, states and operands that meet them, clause by clause -/

/-- The registers an instruction of these tests names. -/
def named : List Reg := [.g 2, .g 3, .g 4, .g 5, .g 6, .h 7]

theorem witness_IntegerResults :
    (onRegs [(4, 2)]).regsReady (.g 2 :: .g 3 :: bRegs (.reg (.g 4))) ∧ (onRegs [(4, 2)]).opB (.reg (.g 4)) ≠ 0 := by
  unfold State.regsReady; decide

theorem witness_DivisionCorners :
    (onRegs [(3, 0x8000000000000000)]).regsReady (.g 2 :: .g 3 :: bRegs (.lit32 0xFFFFFFFF)) ∧
    (onRegs []).opB (.lit32 0) = 0 ∧ (onRegs [(3, 0x8000000000000000)]).rd (.g 3) = BitVec.ofInt 64 (-2 ^ 63) ∧
    (onRegs []).opB (.lit32 0xFFFFFFFF) = BitVec.allOnes 64 := by
  unfold State.regsReady; decide

/-- A module whose thread waits as given. -/
def waiting (w : Wait) : State := machine { core [(3, near), (4, 1)] with slots := [(1, { thread with wait := w })] } []

theorem witness_LongCompletion :
    let s := waiting (.longOp (.g 2) 9 0 0 0)
    (s.slot 0 1).wait = .longOp (.g 2) 9 0 0 0 ∧ 0 ≤ s.cycle 0 ∧ (s.slot 0 1).st = .active := by decide

theorem witness_SelectionAndCounts :
    let s := onRegs []
    s.regsReady (.g 2 :: .g 3 :: (bRegs (.lit32 5) ++ [.g 4])) ∧ s.regsReady [.g 2, .g 3] ∧
    s.regsReady (.g 2 :: memRegs (.disp (.g 3) 8)) ∧ s.regsReady (.g 2 :: memRegs (.idx (.g 3) (.g 4))) ∧
    s.regsReady (.g 2 :: bRegs (.lit32 5)) := by
  unfold State.regsReady; decide

theorem witness_BitFields :
    let s := onRegs []
    s.regsReady (.g 2 :: .g 3 :: bRegs (.lit32 0x0708)) ∧ s.regsReady (.g 2 :: .g 3 :: (bRegs (.lit32 0x0708) ++ [.g 4])) := by
  unfold State.regsReady; decide

/-- The relative index at the two ends of a window of 16, and one past each. -/
theorem witness_ControlTransfers :
    let at_ (ix : BitVec 16) : Slot := { thread with ix := ix }
    let s := onRegs []
    s.regsReady (bRegs (.lit32 1)) ∧ s.regsReady [.g 3, .g 4] ∧ s.regsReady [.g 3] ∧ s.regsReady [.h 7] ∧
    s.regsReady [.g 3, .h 7] ∧ (0 ≤ (at_ 0).ix.toInt + (15 : BitVec 4).toNat ∧ (at_ 0).ix.toInt + (15 : BitVec 4).toNat < 16) ∧
    (0 ≤ (at_ 0xFFFF).ix.toInt + (1 : BitVec 4).toNat) ∧ (at_ 0xFFFF).ix.toInt + (0 : BitVec 4).toNat < 0 ∧
    16 ≤ (at_ 1).ix.toInt + (15 : BitVec 4).toNat := by
  unfold State.regsReady; decide

/-- A fork with room, and one with none: 48 entries are there. -/
theorem witness_Fork :
    let s := onRegs []
    let e : TaskEntry := { hasRec := false, rw := 0, pc := 0, a0 := 0, a1 := 0, a2 := 0, rc := 0, hq := 0 }
    s.regsReady [.g 2, .g 3, .g 4, .nul] ∧ regIndex s.thr (.g 3) = some 3 ∧ (3 : Int).toNat + 2 < s.thr.size ∧
    (∀ x ∈ [Dst.g 3, .g 4, .g 5], s.thr.isPending x = false) ∧ s.own.deque.length < 48 + s.own.dsn.toNat ∧
    s.own.mcs.valid = false ∧ (s.hw s.thr.hq).st ≠ .frozen ∧ s.own.deque.length < s.own.spilled + 64 ∧
    ¬ (({ core [] with deque := List.replicate 48 e } : Core).deque.length < 48 + (core []).dsn.toNat) := by
  unfold State.regsReady; decide

/-- A task entry without a record, and one of queue 1. -/
def task (q : BitVec 6) : TaskEntry := { hasRec := false, rw := 0, pc := 0x4000, a0 := 7, a1 := 8, a2 := 9, rc := 0, hq := q }

/-- The dispatcher's core with slot 2 owned by queue 0. -/
def owned (f : Core → Core) : State :=
  let s := slot0 [(3, 2), (4, 64), (5, 32)] []
  s.setCore 0 (f { s.core 0 with owners := [(2, 0x40)] })

theorem witness_take :
    let s := owned (fun c => { c with deque := [task 0] })
    let none_ := slot0 [] []
    s.cur.slot = 0 ∧ s.regsReady [.g 2] ∧ s.own.latchTask = none ∧ none_.own.eligibleSlot = none ∧ s.own.eligibleSlot = some 2 ∧
    s.own.owner 2 = some 0 ∧ bottomMost s.own.deque 0 = some 0 ∧ s.own.deque[0]? = some (task 0) ∧ s.own.spilled = 0 ∧
    s.own.spilling = none ∧ s.own.pushes = [] ∧ s.thr.out.length < 4096 ∧ (∀ e ∈ (owned id).own.deque, e.hq ≠ 0) ∧ ((owned id).hw 0).stl = 0 ∧
    (((owned id).setHw 0 { HwSlot.reset with stl := 1 }).hw 0).stl ≠ 0 := by
  unfold State.regsReady; decide

theorem witness_start :
    let s := owned (fun c => { c with latchTask := some (task 0) })
    let n := (s.rd (.g 3)).toNat
    s.cur.slot = 0 ∧ s.regsReady [.g 3, .g 4, .g 5] ∧ s.own.latchTask = some (task 0) ∧ 1 ≤ n ∧ n ≤ 15 ∧
    (s.slot s.cur.core n).st = .empty ∧ s.own.tsm.getLsbD n = false ∧ s.own.owner n = some (task 0).hq ∧
    (s.rd (.g 5)).toNat = 32 ∧ (s.rd (.g 4)).toNat = 64 ∧
    (∀ m < 16, (s.slot s.cur.core m).st ≠ .empty →
      64 + 32 ≤ (s.slot s.cur.core m).base ∨ (s.slot s.cur.core m).base + (s.slot s.cur.core m).size ≤ 64) ∧
    (∀ m < 16, s.own.tsm.getLsbD m = true → 64 + 32 ≤ 1920 + 8 * m ∨ 1920 + 8 * m + 8 ≤ 64) ∧
    (owned id).own.latchTask = none ∧ s.own.startOk (task 0) 0 64 32 = false := by
  unfold State.regsReady; decide

/-- A tree instruction with one value left to write. -/
def treeJob : TreeJob :=
  { down := false, fmt := 7, topo := 1, ops := 0, leafOffs := [], outOff := 0, doff := 0, toRead := [], vals := [],
    evaluated := true, toWrite := [(0x100, 5)], xr := 0, xw := 0, at_ := 0, wrAt := 0, wrBanks := [], srs := 0, flags := 0 }

theorem not_tree {w : Wait} (h : w = .none) : ∀ j, w ≠ .tree j := by
  intro j e
  rw [h] at e
  cases e

/-- An outstanding request. -/
def outOne (r : Bool) : Out := { seq := 0, relaxed := r, home := .ls 1 0, kind := .access }

theorem witness_reap :
    let s := slot0 [(3, 1)] [(1, { thread with st := .trapped true })]
    let busy := slot0 [(3, 1)] [(1, { thread with st := .stopped, out := [outOne false] })]
    let tree := slot0 [(3, 1)] [(1, { thread with st := .stopped, wait := .tree treeJob })]
    (s.cur.slot = 0 ∧ s.regsReady [.g 2, .g 3] ∧ (s.rd (.g 3)).toNat = 1 ∧ (s.slot 0 1).st ≠ .empty ∧ (s.slot 0 1).st ≠ .active ∧
      (s.slot 0 1).out = [] ∧ s.own.tileOf 1 = none ∧ (s.slot 0 1).owedDue = false ∧ (busy.slot 0 1).out ≠ [] ∧
      (s.slot 0 2).st = .empty ∧ (s.slot 0 0).st = .active ∧ (15 < (16 : Nat)) ∧ (tree.slot 0 1).st = .stopped) ∧
    (∀ j, (s.slot 0 1).wait ≠ .tree j) ∧ ∃ j, (tree.slot 0 1).wait = .tree j :=
  ⟨by unfold State.regsReady; decide, not_tree (by decide), treeJob, by decide⟩

theorem witness_ExitSleepAndTraps :
    (onRegs []).cur.slot ≠ 0 ∧ (slot0 [] []).cur.slot = 0 ∧ (onRegs []).regsReady (bRegs (.reg (.g 3))) ∧
    Min.min ((onRegs []).opB (.reg (.g 3))).toNat (2 ^ 32 - 1) = 0 ∧
    Min.min ((onRegs [(3, -1)]).opB (.reg (.g 3))).toNat (2 ^ 32 - 1) ≠ 0 := by
  unfold State.regsReady; decide

theorem witness_SlotsEmptied :
    let reaps (o : List Out) : State := machine { core [] with
      slots := [(0, { thread with wait := .reap 1 (.g 2) }), (1, { thread with st := .stopped, out := o })] } []
    let exits := waiting (.exit 7)
    let late : State := { exits with dies := [(0, { Die.reset with running := true, cyc := 7 })] }
    let sleeps := waiting (.sleep 0)
    let tree : State := machine { core [] with
      slots := [(0, { thread with wait := .reap 1 (.g 2) }), (1, { thread with st := .stopped, wait := .tree treeJob })] } []
    (((reaps []).slot 0 0).wait = .reap 1 (.g 2) ∧ ((reaps []).slot 0 0).st = .active ∧ ((reaps []).core 0).tileOf 1 = none ∧
    ((reaps []).slot 0 1).out = [] ∧ ((reaps [outOne false]).slot 0 1).out ≠ [] ∧ (exits.slot 0 1).wait = .exit 7 ∧
    (exits.slot 0 1).st = .active ∧ exits.cycle 0 < 7 ∧ 7 ≤ late.cycle 0 ∧ (late.slot 0 1).relaxedOut = [] ∧
    (late.core 0).tileOf 1 = none ∧ (late.slot 0 1).late = [] ∧ (sleeps.slot 0 1).wait = .sleep 0 ∧ 0 ≤ sleeps.cycle 0 ∧
    (waiting (.sleep 1)).cycle 0 < 1) ∧ (∀ j, ((reaps []).slot 0 1).wait ≠ .tree j) ∧ ∃ j, (tree.slot 0 1).wait = .tree j :=
  ⟨by decide, not_tree (by decide), treeJob, by decide⟩

/-- A record at `near`: word 0 as given, word 1 with a continuation that has a record at word 5. -/
def recorded (w0 : List Byte) : State :=
  machine (core [(3, near), (4, 1)]) ((cells spot w0).filter (fun e => e.2 != 0) ++ [(spot + 15, 0x80), (spot + 40, 1)])

theorem witness_records :
    let s := recorded [1]
    let more := recorded [2]
    let cont := recorded [1, 0, 0, 0, 0x80]
    let w (s : State) (k : Nat) : Word := s.word (recordKey 0 0x40 k)
    s.regsReady (memRegs (.disp (.g 3) 0)) ∧ s.ownByte .both 8 (s.ea (.disp (.g 3) 0)) 0x40 ∧ s.thr.relaxedOut = [] ∧
    s.own.bank = [] ∧ inWindow (s.ea (.disp (.g 3) 0)) = true ∧ s.thr.owed = none ∧ (w s 0).toNat % 2 ^ 32 = 1 ∧
    (w s 0).getLsbD 39 = false ∧ (w more 0).toNat % 2 ^ 32 ≠ 1 ∧ (w cont 0).toNat % 2 ^ 32 = 1 ∧ (w cont 0).getLsbD 39 = true ∧
    (w cont 0).getLsbD 38 = false ∧ (w cont 1).getLsbD 63 = true ∧ s.own.pushes.any (·.cause.isSome) = false ∧
    (let dec : Request :=
       { core := 0, slot := 2, hq := 0, seq := 0, cls := .relaxed, op := .dec, home := .ls 0 0x80, va := near, pc := 0, data := 0,
         expected := 0, dst := .nul, unit := false, attempts := 0, sent := 0, issued := 0 }
     let behind := s.setCore 0 { s.core 0 with pushes := [{ entry := task 0, cause := some dec }] }
     let full := cont.setCore 0 { cont.core 0 with deque := List.replicate 64 (task 0) }
     behind.own.pushes.any (·.cause.isSome) = true ∧ 64 + full.own.dsn.toNat ≤ full.own.deque.length) ∧ cont.own.deque.length < 64 + cont.own.dsn.toNat ∧
    cont.own.deque.length < cont.own.spilled + 64 ∧ (cont.hw cont.thr.hq).st ≠ .frozen ∧ cont.storeAt (cont.physical 0) = 0 := by
  unfold State.regsReady State.ownByte; decide

/-- Slice 0 with one valid frame, that of 0x200000. -/
def framed (s : State) : State :=
  { s with slices := [(0, { Slice.reset with ind := [(0x20, { Indirection.reset with v := true })] })] }

/-- A module whose far-window table, at 0x200000, maps logical core 0 to core 0 with the permissions of a byte, and a record at
0x40 of that core's store. -/
def farRecord (perm : Byte) (w0 : List Byte) : State :=
  let s := framed (machine (core [])
    ([(0x200007, perm)] ++ (cells spot w0).filter (fun e => e.2 != 0) ++ [(spot + 15, 0x80), (spot + 40, 1)]))
  { s with hub := { s.hub with fwtb := 0x200000 } }

theorem witness_records_onward :
    let e (w : Bool) : TlbEntry := { key := .far 0 0, big := false, map := .store 0 0, r := true, w := w, x := false }
    let s := farRecord 0x8C [1]
    let count (s : State) : Nat := (s.word (recordKey 0 0x40 0)).toNat
    let a : Agent := .cancel 0 0x40 0
    let k : AccKey := { tag := 0, idx := 0, off := 0 }
    let answered : State := { s with runs := [(a, { Run.start with got := [(k, wordBytes (s.word 0x200000))] })] }
    let failed : State := { s with runs := [(a, { Run.start with fails := [(6, 0)] })] }
    s.run a = Run.start ∧ (failed.run a).got = [] ∧ (failed.run a).fails ≠ [] ∧
    (answered.run a).got.find? (fun e => e.1 == k) = some (k, wordBytes (s.word 0x200000)) ∧
    walkStep (.far 0 (0x40 / 2 ^ 16)) 0 (BitVec.ofNat 64 (leNat (wordBytes (s.word 0x200000)))) = .leaf (e true) ∧
    walkStep (.far 0 (0x40 / 2 ^ 16)) 0 ((farRecord 0x88 [1]).word 0x200000) = .leaf (e false) ∧
    walkStep (.far 0 (0x40 / 2 ^ 16)) 0 (BitVec.ofNat 64 (leNat (wordBytes 0))) = .fault ∧ 0x40 % 8 = 0 ∧ (s.core 0).gone = none ∧ (s.core 0).bank = [] ∧
    count s % 2 ^ 32 = 1 ∧ (s.word (recordKey 0 0x40 0)).getLsbD 39 = false ∧ count (farRecord 0x8C [2]) % 2 ^ 32 ≠ 1 ∧
    ((farRecord 0x8C [1, 0, 0, 0, 0x80]).word (recordKey 0 0x40 0)).getLsbD 39 = true ∧
    (s.word (recordKey 0 0x40 1)).getLsbD 63 = true := by decide

theorem raw_near : rawAddress near := by
  intro v o i h
  rw [show regionOf near = .near 0 0x40 true by decide] at h
  cases h
  rfl

theorem witness_LoadsAndStores :
    let s := loaded 5
    s.ea (.disp (.g 3) 0) = near ∧ rawAddress near ∧ s.regsReady (.g 2 :: memRegs (.disp (.g 3) 0)) ∧
    s.regsReady (memRegs (.disp (.g 3) 0) ++ [.g 4]) ∧ s.ownByte .read 8 near 0x40 ∧ s.ownByte .write 8 near 0x40 ∧
    s.performsHere .plain (.load .d false) 0x40 ∧ s.performsHere .relaxed (.store .b) 0x40 := by
  refine ⟨by decide, raw_near, ?_⟩
  unfold State.regsReady State.ownByte State.performsHere; decide

theorem witness_FullEmpty :
    let s := loaded 5
    let e := s.setFull spot false
    s.ownByte .both 8 near 0x40 ∧ s.performsHere .sync .ldf 0x40 ∧ s.performsHere .sync .lde 0x40 ∧ s.performsHere .sync .stn 0x40 ∧
    e.performsHere .sync .stf 0x40 ∧ s.performsHere .sync .clre 0x40 ∧ s.performsHere .plain .fes 0x40 ∧
    s.regsReady (.g 2 :: memRegs (.disp (.g 3) 0)) ∧ s.thr.relaxedOut = [] ∧ s.full spot ≠ false ∧ e.full spot ≠ true := by
  unfold State.regsReady State.ownByte State.performsHere; decide

theorem witness_Atomics :
    let s := loaded 5
    s.regsReady (.g 2 :: (memRegs (.disp (.g 3) 0) ++ [.g 4])) ∧ s.ownByte .both 8 (s.ea (.disp (.g 3) 0)) 0x40 ∧
    s.performsHere .sync (.atomic .cas) 0x40 := by
  unfold State.regsReady State.ownByte State.performsHere; decide

theorem witness_Reductions :
    let s := loaded 5
    s.regsReady (memRegs (.disp (.g 3) 0) ++ [.g 4]) ∧ s.ownByte .write 8 (s.ea (.disp (.g 3) 0)) 0x40 ∧
    s.performsHere .relaxed (.red .add) 0x40 ∧ s.performsHere .plain .stg 0x40 := by
  unfold State.regsReady State.ownByte State.performsHere; decide

/-- A page at 0x200000 of the device-memory region, mapped at itself; g3 holds its address. -/
def page (r w x : Bool) : TlbEntry :=
  { key := .dev 0 0x20, big := false, map := .dev 0x200000, r := r, w := w, x := x }

def paged : State := machine { core [(3, 0x200040), (4, 5)] with tlb := [page true true true] } []

theorem witness_AccessesElsewhere :
    let s := paged
    s.regsReady (.g 2 :: memRegs (.disp (.g 3) 0)) ∧ s.regsReady (memRegs (.disp (.g 3) 0) ++ [.g 4]) ∧
    s.farHome .both 8 (s.ea (.disp (.g 3) 0)) (.dev 0x200040) ∧ s.canSend .plain (.store .d) (.dev 0x200040) ∧
    s.canSend .relaxed (.load .w true) (.dev 0x200040) := by
  unfold State.regsReady State.farHome State.canSend State.elsewhere; decide

/-- The far window of core 5, mapped at its own store. -/
def far : State := machine { core [(3, 0xFE000000000A0040), (4, 5)] with
  tlb := [{ key := .far 5 0, big := false, map := .store 5 0, r := true, w := true, x := false }] } []

theorem witness_records_elsewhere :
    inWindow (far.ea (.disp (.g 3) 0)) = true ∧ far.farHome .both 8 (far.ea (.disp (.g 3) 0)) (.ls 5 0x40) := by
  unfold State.farHome State.elsewhere; decide

theorem witness_AddressChecks :
    let s := onRegs [(3, 0x200041)]
    let away := onRegs [(3, 0x0000800000000000)]
    let miss := onRegs [(3, 0x200040)]
    (s.ea (.disp (.g 3) 0)).toNat % 8 ≠ 0 ∧ away.translate 0 0 .read 0x0000800000000000 = .fault 0x05 ∧
    miss.translate 0 0 .read 0x200040 = .miss (.dev 0 0x20) := by decide

/-- The edges of the regions, and each kind of page. -/
theorem witness_Translation :
    (0xFF00000000000000 : Word).toNat / 2 ^ 27 = 0xFF00000000000000 / 2 ^ 27 ∧
    (0xFF00000007FFFFFF : Word).toNat / 2 ^ 27 = 0xFF00000000000000 / 2 ^ 27 ∧ (2 ^ 47 ≤ (0x0000800000000000 : Word).toNat) ∧
    (0xFE0000003FFFFFFF : Word).toNat / 2 ^ 30 = 0xFE00000000000000 / 2 ^ 30 ∧
    (paged.core 0).tlb.find? (fun e => tlbServes e (.dev 0 0x20)) = some (page true true true) ∧
    (∀ e ∈ (paged.core 0).tlb, tlbServes e (.dev 0 0x21) = false) ∧
    ((far.core 0).tlb.find? (fun e => tlbServes e (.far 5 0))).isSome := by decide

/-- A core with view 3 of one 64-byte block of INT8 elements, stored and read as such; g3 points into it. -/
def viewed (vd : Word) : State := machine { core [(3, 0xFF00000003000040), (4, 5)] with vd := [(3, vd)] } (cells spot eight)

theorem witness_ViewAccesses :
    regionOf 0xFF00000003000040 = .near 3 0x40 true ∧ regionOf 0xFF00000003020040 = .near 3 0x40 false ∧
    ((viewOf 0x00).sf = 0 ∧ (viewOf 0x00).df = 0 ∧ (viewOf 0x00).bad = false) ∧
    ((viewed 0x00).own.view 3 0).inRange 0x40 = true ∧ (viewed 0).thr.relaxedOut = [] ∧
    ((viewed 0x00).own.view 3 0).sf = ((viewed 0x00).own.view 3 0).df ∧ (viewOf 0xF000000000000000).bad = true ∧
    (viewOf 0x0700000000000000).sf ≠ (viewOf 0x0700000000000000).df ∧ (viewOf 0x3000000020000000).inRange 0x40 = false ∧
    (viewed 0).regsReady (.g 2 :: memRegs (.disp (.g 3) 0)) := by
  unfold State.regsReady; decide

theorem witness_FencesAndMessages :
    let s := loaded 0
    let busy := machine { core [(3, near)] with oac := 1, slots := [(1, { thread with out := [outOne true] })] } []
    let m : Message := { core := 0, slot := 1, lcore := 0, hq := 0, toCore := 0, toOff := 0x40, data := [], seq := 0, issued := 0 }
    (∀ o ∈ s.thr.relaxedOut, inScope 3 0 o.home = false) ∧ s.own.oac = 0 ∧ ¬ (∀ o ∈ busy.thr.relaxedOut, inScope 3 0 o.home = false) ∧
    s.regsReady (.g 2 :: memRegs (.disp (.g 3) 0)) ∧ (∀ k : BitVec 3, s.thr.isPending (.mb k) = false) ∧
    near.toNat % 8 = 0 ∧ inWindow near = true ∧ near.toNat % 2 ^ 17 + 72 ≤ 2 ^ 17 ∧
    s.translate s.cur.core s.thr.hq .write near = .home (.ls 0 0x40) ∧ s.own.sendsOut < 16 ∧
    s.thr.out.length < 4096 ∧
    16 ≤ ({ core [] with sendsOut := 16 } : Core).sendsOut ∧ inWindow 0x40 = false ∧ 2 ^ 17 < (0x1FFC0 + 72) ∧
    (s.core m.toCore).gone = none ∧ s.full (localKey 0 0x40) = true ∧ (s.setFull spot false).full (localKey 0 0x40) = false ∧
    (s.core 0).bank = [] := by
  unfold State.regsReady; decide

/-- A thread with 4,096 requests outstanding (R342). -/
theorem witness_FullOut : 4096 ≤ ({ thread with out := List.replicate 4096 (outOne false) } : Slot).out.length :=
  List.length_replicate.ge

theorem witness_HubAndReplies :
    let m : SyscMsg := { core := 0, slot := 1, lcore := 0, hq := 0, words := [] }
    let s := waiting (.sysc m)
    (s.slot m.core m.slot).wait = .sysc m ∧ (s.slot m.core m.slot).st = .active ∧ s.full (localKey 0 0x1FE00) = true ∧
    (s.setFull (localKey 0 0x1FE00) false).full (localKey 0 0x1FE00) = false ∧ (s.core 0).bank = [] ∧
    (List.replicate 8 (0 : Word)).length = 8 := by decide

/-- A traveller in slot 1, whose page tables know core 5's store. -/
def traveller (a : Word) : State := machine { core [(3, a), (4, 5)] with
  slots := [(1, { thread with size := 8 })]
  tlb := [{ key := .far 5 0, big := false, map := .store 5 0, r := true, w := true, x := false }] } []

theorem witness_Migration :
    let s := traveller 0xFE000000000A0040
    let here := traveller near
    (onRegs []).thr.size ≠ 8 ∧ s.thr.size = 8 ∧ s.regsReady (.g 2 :: memRegs (.disp (.g 3) 0)) ∧
    regionOf (s.ea (.disp (.g 3) 0)) = .far 5 0x40 ∧
    s.translate s.cur.core s.thr.hq .valid (s.ea (.disp (.g 3) 0)) = .home (.ls 5 0x40) ∧
    (s.ea (.disp (.g 3) 0)).toNat % 8 = 0 ∧ 5 ≠ s.cur.core ∧ inWindow 0x40 = false ∧ inWindow near = true ∧
    here.ownByte .valid 8 (here.ea (.disp (.g 3) 0)) 0x40 ∧ here.ownByte .read 8 (here.ea (.disp (.g 3) 0)) 0x40 ∧
    here.ownByte .write 8 (here.ea (.disp (.g 3) 0)) 0x40 := by
  unfold State.regsReady State.ownByte; decide

/-- A packet with eight registers. -/
def packet : Packet := { pc := 0x4000, hq := 0, round := 0, srs := 0, g := [1, 2, 3, 4, 5, 6, 7, 8], fel := 4096, left := 5 }

theorem witness_Arrival :
    let s := waiting (.migrate 0x4000 5)
    let full := machine { core [] with arrivals := List.replicate 32 packet } []
    let lands := machine { core [] with arrivals := [packet], tsm := 0x8000 } []
    let frozen := s.setHw 0 { HwSlot.reset with st := .frozen }
    (s.slot 0 1).wait = .migrate 0x4000 5 ∧ (s.slot 0 1).st = .active ∧ (s.slot 0 1).relaxedOut = [] ∧ (s.slot 0 1).pending = [] ∧
    (s.core 0).tileOf 1 = none ∧ (s.slot 0 1).late = [] ∧ (s.core 0).ctxOut < 16 ∧ (s.core 0).gone = none ∧
    (frozen.hw packet.hq).st = .frozen ∧ (s.hw packet.hq).st ≠ .frozen ∧ 32 ≤ (full.core 0).arrivals.length ∧
    (s.core 0).arrivals.length < 32 ∧ (s.core 0).arrivalRun = none ∧ (lands.core 0).arrivals = packet :: [] ∧ (lands.core 0).travellerSlot = some 15 ∧
    (lands.core 0).saving = none ∧ packet.g.length = 8 ∧ 32 ≤ (List.replicate 31 packet).length + [packet].length ∧
    (List.replicate 30 packet).length + [packet].length < 32 := by decide

theorem witness_ArrivalCommands :
    let stored := (machine (core [(3, 0xFF0000000001FEE0), (4, 0x4000000000000001)]) []).setFull (localKey 0 0x1FEE0) false
    let run (op : BitVec 2) (n : Nat) (h : List Packet) : ArrivalRun :=
      { op := op, n := n, addr := 0x200000, moved := 0, st := 0, cause := 0, held := h }
    let s (r : ArrivalRun) (l : List Packet) (w : List (Agent × Run)) : State :=
      { machine { core [] with arrivalRun := some r, arrivals := l } [] with runs := w }
    let busy := stored.setCore 0 { stored.core 0 with arrivalRun := some (run 1 1 []) }
    let work (f : List (BitVec 8 × Nat)) : List (Agent × Run) := [(.arrivals 0, { Run.start with fails := f })]
    let k (o : Nat) : AccKey := { tag := 0, idx := 0, off := o }
    let read : Run := { Run.start with got := [(k 0, List.replicate 64 1), (k 64, List.replicate 32 1)] }
    let spills := s (run 1 1 [packet]) [] []
    let held := s (run 1 1 [packet]) [] (work [])
    let back := s (run 2 1 []) [] [(.arrivals 0, read)]
    (stored.regsReady (memRegs (.disp (.g 3) 0) ++ [.g 4]) ∧ stored.ownByte .both 8 (stored.ea (.disp (.g 3) 0)) 0x1FEE0 ∧
      stored.thr.relaxedOut = [] ∧ stored.full (localKey 0 0x1FEE0) = false ∧ stored.own.bank = [] ∧
      stored.own.arrivalRun = none ∧ busy.own.arrivalRun ≠ none) ∧
    ((spills.core 0).arrivalRun = some (run 1 1 [packet]) ∧ (run 1 1 [packet]).held = packet :: [] ∧
      (run 1 0 []).held = [] ∧ (run 1 0 []).moved = (run 1 0 []).n ∧ (run 1 1 []).moved ≠ (run 1 1 []).n ∧
      ∀ e ∈ spills.runs, e.1 ≠ .arrivals 0) ∧
    ((held.core 0).arrivalRun = some (run 1 1 [packet]) ∧ (∃ e ∈ held.runs, e.1 = .arrivals 0) ∧
      (held.run (.arrivals 0)).out = [] ∧ (held.run (.arrivals 0)).fails = [] ∧ .arrivalSpill 0 ∉ held.due ∧
      ((s (run 1 1 [packet]) [] (work [(6, 0)])).run (.arrivals 0)).fails = (6, 0) :: []) ∧
    ((∀ e ∈ (s (run 2 1 []) [] []).runs, e.1 ≠ .arrivals 0) ∧ ¬ (List.replicate 32 packet).length + (run 2 1 []).held.length < 32 ∧
      (List.replicate 31 packet).length + (run 2 1 []).held.length < 32) ∧
    ((∃ e ∈ back.runs, e.1 = .arrivals 0) ∧ (back.run (.arrivals 0)).out = [] ∧ (back.run (.arrivals 0)).fails = [] ∧
      (back.run (.arrivals 0)).got = [(k 0, List.replicate 64 1), (k 64, List.replicate 32 1)] ∧ (k 0).off = 0 ∧ (k 64).off = 64 ∧
      (List.replicate 64 (1 : Byte)).length = 64 ∧ (List.replicate 32 (1 : Byte)).length = 32) ∧
    (spills.core 0).acw = false ∧ (spills.core 0).bank = [] ∧ (run 1 1 []).st ≠ 2 ∧
    ({ run 1 1 [] with st := 2, cause := 6 } : ArrivalRun).st = 2 := by
  unfold State.regsReady State.ownByte; decide

theorem witness_CopyEngine :
    let cmd (n : Nat) : CopyCmd := { slot := 1, hq := 0, dst := near, src := near, len := n, comp := .ls 0 0x40, issued := 0, cancelled := false }
    let s := loaded 8
    let q (n : Nat) (r : Option CopyRun) : State := machine { core [] with copyQueue := [cmd n], copyRun := r } []
    let ended : CopyRun := { cmd := cmd 8, next := 1, flight := 0, words := [], fail := none, ahead := [] }
    let frozen := (q 8 none).setHw 0 { HwSlot.reset with st := .frozen }
    s.regsReady [.g 3, .g 3, .nul, .g 3] ∧ (near.toNat % 8 = 0) ∧ inRegion near = true ∧
    s.translate s.cur.core s.thr.hq .write near = .home (.ls 0 0x40) ∧ s.thr.relaxedOut = [] ∧ s.own.copyQueue.length < 2 ∧
    2 ≤ ({ core [] with copyQueue := [cmd 0, cmd 0] } : Core).copyQueue.length ∧ ((q 0 none).core 0).copyQueue = cmd 0 :: [] ∧
    ((q 8 none).core 0).copyRun = none ∧ ((q 8 none).hw 0).st ≠ .frozen ∧ (cmd 8).cancelled = false ∧
    ({ cmd 8 with cancelled := true } : CopyCmd).cancelled = true ∧
    (q 8 none).translate 0 0 .read near = .home (.ls 0 0x40) ∧ ((q 8 (some ended)).core 0).copyRun = some ended ∧
    ended.cmd.len / 8 ≤ ended.next ∧ ended.flight = 0 ∧ ended.cmd.comp = .ls 0 0x40 ∧ ((q 8 (some ended)).core 0).bank = [] ∧
    ((q 8 (some ended)).core 0).gone = none ∧ ({ ended with fail := some (0, 6) } : CopyRun).fail ≠ none ∧ 1 ≠ 0 ∧
    ¬ ({ ended with next := 0 } : CopyRun).cmd.len / 8 ≤ 0 ∧ (frozen.hw (cmd 8).hq).st = .frozen ∧
    .copyCompletion 0 ∉ (q 7 none).due ∧ (cmd 7).len < 8 ∧ (near + 1).toNat % 8 ≠ 0 ∧ ¬ (2 ^ 32 : Nat) < 2 ^ 32 ∧
    inRegion 0x0000800000000000 = false := by
  unfold State.regsReady; decide

theorem store_not_host (q off : Nat) : ∀ k, Home.ls q off ≠ .host k := nofun

theorem witness_RealAndPacked :
    let s := onRegs []
    s.regsReady (.g 2 :: .g 3 :: bRegs (.lit32 1)) ∧ s.regsReady (.g 2 :: .g 3 :: (bRegs (.lit32 1) ++ [.g 4])) ∧
    s.regsReady [.g 2, .g 3] := by
  unfold State.regsReady; decide

/-- 1.0 in each IEEE format, 1 in DY8, and 5 as an integer: values their formats hold exactly. -/
theorem witness_ExactValues :
    ∀ e ∈ ([(0, 5), (1, 5), (2, 0x40), (3, 0x40), (4, 5), (5, 0x3C00), (6, 0x3F80), (7, 0x3F800000), (8, 0), (9, 5), (10, 5),
      (11, 5)] : List (Fmt × Nat)), e.1.toNat < 12 ∧ e.2 < 2 ^ (8 * fmtBytes e.1) ∧ (fmtDecode e.1 e.2).1.isNan = false ∧
      (fmtDecode e.1 e.2).2 = false := by decide

/-- A root that is a multiple of 2^-400: that of 4. -/
theorem witness_ExactReal : (0 < 4 ∧ 0 < 1) ∧ ∃ m : Nat, m * m * 1 = 4 * 2 ^ 800 := 
  ⟨by decide, 2 ^ 401, by rw [mul_one, ← pow_add, show 401 + 401 = 2 + 800 from rfl, pow_add]; congr 1⟩

/-- A contracting load of tile 1 in slot 1. -/
def contracting : CldJob :=
  { slot := 1, hq := 0, pc := 0x200000, recur := false, inOrder := true, a := 0xFF00000001000000, b := near, d := 0, s := 0,
    vd := 0, next := 0, scaleNext := false, sent := [], data := [], scale := [], fail := none, held := false, reaped := false }

def locked (j : CldJob) : State := machine { core [(3, near)] with tiles := [(1, { TileState.reset with lock := some j })] } []

theorem witness_TilesAndViews :
    ((onRegs []).tile 0 1).lock = none ∧ ((locked contracting).tile 0 1).lock ≠ none ∧
    tilePoisoned { TileState.reset with poison := [(5, true)] } 5 = true ∧ tilePoisoned TileState.reset 5 = false ∧
    (onRegs []).regsReady (.g 2 :: bRegs (.lit32 5)) ∧ ((onRegs []).opB (.lit32 1023)).toNat % 1024 = 1023 ∧
    ({ TileState.reset with recurrence := true } : TileState).recurrence = true ∧ (onRegs []).regsReady [.g 3] := by
  unfold State.regsReady; decide

/-- The operands of a `cld` that passes every check: one sector, one column, one row, UINT8 on both sides. -/
def contracts : State := machine { core [(3, 0xFF00000001000000), (4, near), (5, 0x100)] with
  vd := [(1, 0x1100000000000000)] } []

theorem witness_Contraction :
    let s := contracts
    let n := (s.rd (.g 5)).toNat
    let w := s.own.view 1 s.now
    s.regsReady [.g 3, .g 4, .g 5] ∧ regionOf (s.rd (.g 3)) = .near 1 0 true ∧ w.bad = false ∧ w.sf.toNat ≤ 6 ∧
    BitVec.ofNat 4 (n / 2 ^ 8) = (1 : Fmt) ∧ fmtBytes w.sf = fmtBytes 1 ∧ (s.rd (.g 4)).toNat % 64 = 0 ∧ n / 2 ^ 32 % 64 = 0 ∧
    n % 4 = 0 ∧ n / 2 ^ 18 % 16 + (n / 2 ^ 22 % 16 + 1) ≤ 16 ∧ (s.tile s.cur.core 1).recurrence = false ∧
    s.own.tileOf s.cur.slot = none ∧ s.thr.relaxedOut = [] ∧ (s.tile s.cur.core 1).lock = none ∧
    ((Machine.Num.fin false 3 2).isNan = false ∧ (∀ b, Machine.Num.fin false 3 2 ≠ .inf b) ∧
      0 < (Machine.Num.fin false 3 2).denom) ∧
    (∀ i ∈ [(0xFF00000000000000 : Word), 0x40], ∀ v o, regionOf i = .near v o true → v = 0) := by
  refine ⟨by unfold State.regsReady; decide, by decide, by decide, by decide, by decide, by decide, by decide, by decide,
    by decide, by decide, by decide, by decide, by decide, by decide, ⟨rfl, nofun, by decide⟩, ?_⟩
  intro i h v o e
  simp only [List.mem_cons, List.not_mem_nil, or_false] at h
  rcases h with rfl | rfl
  · rw [show regionOf 0xFF00000000000000 = .near 0 0 true by decide] at e
    cases e
    rfl
  · rw [show regionOf 0x40 = .dev 0x40 by decide] at e
    cases e

theorem witness_Sectors :
    let j := contracting
    let one : CldJob := { j with d := 0x100, sent := [0], data := [(0, List.replicate 64 1)] }
    let s := locked j
    (s.tile 0 1).lock = some j ∧ j.held = false ∧ j.fail = none ∧ j.scaleNext = false ∧ j.sent = [] ∧ j.next ≤ 0 ∧
    (s.tile 0 1).cpm.getLsbD 0 = false ∧ s.translate 0 0 .read near = .home (.ls 0 0x40) ∧ one.data = [(0, List.replicate 64 1)] ∧
    (List.replicate 64 (1 : Byte)).length = 64 ∧ one.sent = [0] ∧ (viewOf one.vd).sf.toNat ≤ 1 ∧ one.reaped = false ∧
    (s.slot 0 1).st = .active ∧ (s.slot 0 1).wait = .none := by decide

/-- A sector of DY8M elements with its scale, on the grid, one of FP16 elements, and one of the recurrence; a sector whose scale
is the next request. -/
theorem witness_ScaledSectors :
    let bytes : List Byte := List.replicate 64 1
    let scaled : CldJob := { contracting with d := 0x300, vd := 0x3000000000400000, sent := [0], data := [(0, bytes)], scale := [(0, 0x3F80)] }
    let half : CldJob := { contracting with d := 0x500, vd := 0x5500000000000000, sent := [0], data := [(0, bytes)] }
    let asks : CldJob := { scaled with sent := [0], data := [], scale := [], scaleNext := true }
    let s (j : CldJob) (r : Bool) : State :=
      machine { core [(3, near)] with tiles := [(1, { TileState.reset with lock := some j, recurrence := r })] } []
    ((s scaled false).tile 0 1).lock = some scaled ∧ scaled.scale = [(0, 0x3F80)] ∧ scaled.data = [(0, bytes)] ∧
    bytes.length = 64 ∧ (viewOf scaled.vd).sf.toNat ≤ 6 ∧ (BitVec.ofNat 4 (scaled.d.toNat / 2 ^ 8) : Fmt) = 3 ∧
    fmtBytes (viewOf scaled.vd).sf = fmtBytes 3 ∧ half.scale = [] ∧ (BitVec.ofNat 4 (half.d.toNat / 2 ^ 8) : Fmt) = 5 ∧
    fmtBytes (viewOf half.vd).sf = 2 ∧ fmtBytes 5 = 2 ∧ ((s half true).tile 0 1).recurrence = true ∧ asks.scaleNext = true ∧
    asks.next = 0 ∧ (s asks false).translate 0 0 .read (asks.s + 0) = .miss (.dev 0 0) ∧
    ((s { asks with s := near } false).translate 0 0 .read (near + BitVec.ofNat 64 (2 * 0)) = .home (.ls 0 0x40)) := by decide

theorem witness_TileStores :
    let s := machine (core [(3, near)]) []
    s.regsReady (memRegs (.disp (.g 3) 0)) ∧ (s.ea (.disp (.g 3) 0)).toNat % 64 = 0 ∧
    regionOf (s.ea (.disp (.g 3) 0)) = .near 0 0x40 true ∧ 0x40 + 1024 * fmtBytes 11 ≤ 2 ^ 17 ∧
    2 ^ 17 < 0x1FFC0 + 1024 * fmtBytes 5 ∧ s.thr.relaxedOut = [] ∧ (s.tile s.cur.core 1).lock = none ∧
    (s.tile s.cur.core 1).poison = [] ∧ regionOf 0x0000800000000000 = .none ∧ (near + 8).toNat % 64 ≠ 0 ∧
    ((locked contracting).tile 0 1).lock ≠ none := by
  unfold State.regsReady; decide

/-- Every page of a tile's 32 sectors is at hand, in the own store and in device memory; a page is refused, and one misses. -/
theorem witness_TilePages :
    let at_ (va : Word) (i : Nat) : Word := va + BitVec.ofNat 64 (64 * i)
    let after (s : State) (va : Word) (i : Nat) : State :=
      (List.range i).foldl (fun u k => u.touch s.cur.core s.thr.hq (at_ va k)) s
    let look (s : State) (va : Word) (i : Nat) : Xlate := (after s va i).translate s.cur.core s.thr.hq .write (at_ va i)
    let mine := machine (core []) []
    let away := machine { core [] with tlb := [page true true true] } []
    let denied := machine { core [] with tlb := [page true false true] } []
    (∀ i < 32, look mine near i = .home (.ls 0 (0x40 + 64 * i))) ∧
    (∀ i < 32, look away 0x200040 i = .home (.dev (0x200040 + 64 * i))) ∧ look denied 0x200040 0 = .fault 0x06 ∧
    look mine 0x200040 0 = .miss (.dev 0 0x20) ∧ regionOf 0x200040 = .dev 0x200040 ∧ 0x200040 + 1024 * fmtBytes 5 ≤ 2 ^ 47 ∧
    homeOwn (.ls 0 0x40) 0 = true ∧ homeOwn (.dev 0x200040) 0 = false ∧ (away.core 0).unitFree = true ∧
    away.pressed (.dev 0x200040) 0 = false ∧ ({ core [] with sa := 0 } : Core).unitFree = false ∧
    tilePoisoned { TileState.reset with poison := [(1023, true)] } 1023 = true := by decide +kernel

theorem witness_VectorStreams :
    let s := streamed
    let job (c : Word) : VecJob :=
      { slot := 1, op := .add, d := near, a := near, b := near, c := c, vdD := 0, vdA := 0, vdB := 0, k := 0, next := 0,
        sum := 0, bad := 0, pairs := [], taken := 0 }
    let runs (c : Word) : State := machine { core [] with vecRun := some (job c) } []
    let waits := machine { core [] with vecQueue := [job 1] } []
    s.regsReady [.g 3, .g 3, .g 3, .g 4] ∧
    vecCheck .add 0 s.own s.now (s.rd (.g 3)) (s.rd (.g 3)) (s.rd (.g 3)) (s.rd (.g 4)) = none ∧ s.thr.relaxedOut = [] ∧
    (vecCheck .add 0 s.own s.now (near + 1) near near 1).isSome ∧ (waits.core 0).vecRun = none ∧
    (waits.core 0).vecQueue = job 1 :: [] ∧ ((runs 1).core 0).vecRun = some (job 1) ∧ ((runs 1).core 0).vecQueue = [] ∧
    (job 1).c.toNat % 2 ^ 18 = 1 ∧ (job 0).c.toNat % 2 ^ 18 = 0 ∧ regionOf near = .near 0 0x40 true ∧ regionOf 0 = .dev 0 ∧
    (let busy : State := (runs 1).setCore 0 { (runs 1).core 0 with bankAt := 0, bankRank := 2, bankUsed := [8] }
     (runs 1).bankTaken 0 ((job 1).banks 1) = false ∧ busy.bankTaken 0 ((job 1).banks 1) = true) ∧
    (job 0x700000001).c.toNat / 2 ^ 32 % 256 = 7 ∧ 8 < (job 9).c.toNat % 2 ^ 18 - (job 9).next := by
  unfold State.regsReady; decide

/-- The empty list ranks the candidates that an instruction has met before its first group. -/
theorem witness_Ranked (k : Nat) : Ranked k [] [] :=
  ⟨by simp, by simp, [], by simp, by simp⟩

/-- A record that names the nodes 1 and 2, in view 1 of FP32 values, with the bytes given above them. -/
def treed (more : List Host.Cell) : State := machine { core [(3, 0xFF00000001000040)] with
    vd := [(1, 0x7700000000000200)], slots := [(1, { thread with tb := 0x1000 })] }
  ([(spot, 1), (spot + 1, 0x20)] ++ more)

theorem witness_Trellis :
    let s := treed [(spot + 12, 3), (spot + 13, 0x10)]
    let leaf := treed []
    let w := s.own.view 1 s.now
    let lo := s.number (localKey 0 0x40) 8
    let hi := s.number (localKey 0 0x48) 8
    s.regsReady (memRegs (.disp (.g 3) 0)) ∧ regionOf (s.ea (.disp (.g 3) 0)) = .near 1 0x40 true ∧
    (s.ea (.disp (.g 3) 0)).toNat % 16 = 0 ∧ w.bad = false ∧ w.sf = 7 ∧ w.df = 7 ∧ s.thr.relaxedOut = [] ∧
    hi / 2 ^ 44 % 16 = 1 ∧ 0x1000 + 4 * (lo % 2 ^ 12) < 2 ^ 17 ∧ 0x1000 + 4 * (hi / 2 ^ 32 % 2 ^ 12) < 2 ^ 17 ∧
    leaf.number (localKey 0 0x48) 8 / 2 ^ 44 % 16 = 0 ∧ (0x1004 + w.doff) < 2 ^ 17 ∧
    (0x1004 + w.doff) / 8 = (0x1000 + w.doff) / 8 ∧ s.regsReady (bRegs (.lit32 8)) := by
  unfold State.regsReady; decide

theorem witness_TreeComplete :
    let s := waiting (.tree treeJob)
    (s.slot 0 1).wait = .tree treeJob ∧ treeJob.toRead = [] ∧ treeJob.xw = 0 ∧ treeJob.toWrite = [(0x100, 5)] := by decide

/-- A gather command that passes its checks. -/
def gather : EngineCmd :=
  { op := .gat, core := 0, slot := 1, hq := 0, block := [0x600000000000, 0, 0, 0, 0, 0, 0, 0], comp := .ls 0 0x40, issued := 0 }

/-- A module whose registers g3 and g4 name a zero block and a completion word, and whose word 0 of the block is as given. -/
def block (w0 : List Host.Cell) : State := machine (core [(3, near), (4, near + 64)]) w0

theorem witness_EngineCommands :
    let s := block [(spot + 5, 0xC0)]
    let b := s.words (localKey 0 0x40) 8
    s.regsReady [.g 3, .g 4] ∧ regionOf near = .near 0 0x40 true ∧ near.toNat % 64 = 0 ∧ (near + 64).toNat % 8 = 0 ∧
    s.translate 0 0 .write (near + 64) = .home (.ls 0 0x80) ∧ s.translate 0 0 .write 0x0000800000000000 = .fault 0x05 ∧
    s.thr.relaxedOut = [] ∧ blockBad .gat false b = none ∧ (blockBad .klu false ((block []).words (localKey 0 0x40) 8)).isSome ∧
    (s.klu 0).length < 64 ∧ s.hub.linksWait = false ∧ ({ s.hub with stage := 1 } : Hub).linksWait = true ∧ regionOf 0x40 = .dev 0x40 ∧ (near + 8).toNat % 64 ≠ 0 ∧ (near + 4).toNat % 8 ≠ 0 := by
  unfold State.regsReady; decide

theorem witness_EngineQueue :
    let s := waiting (.engineQueue 0x200002 gather)
    let full := s.setKlu 0 (List.replicate 64 gather)
    let one := s.setKlu 0 [gather]
    (s.slot 0 1).wait = .engineQueue 0x200002 gather ∧ gather.core = 0 ∧ s.engineRoom gather = true ∧
    full.engineRoom gather = false ∧ s.klu 0 = [] ∧ one.klu 0 = gather :: [] ∧ gather.op = .gat ∧ gather.op ≠ .klu ∧
    ((one.setHw 0 { HwSlot.reset with st := .frozen }).hw gather.hq).st = .frozen := by decide

/-- The answers that a command's accesses have had: of part and range, the bytes at an aligned address. -/
def answersTo (l : List (Nat × Nat × List Byte)) : Run := { Run.start with
  got := l.flatMap (fun e => (pieces 0 e.2.2.length).map (fun q =>
    ({ tag := e.1, idx := e.2.1, off := q.1 }, (e.2.2.drop q.1).take q.2))) }

theorem holds_of {r : Run} {tag idx va : Nat} {bs : List Byte} (h : ∀ q ∈ pieces va bs.length,
    r.got.find? (fun e => e.1 == { tag := tag, idx := idx, off := q.1 }) =
      some ({ tag := tag, idx := idx, off := q.1 }, (bs.drop q.1).take q.2)) : r.holds tag idx va bs :=
  fun q hq => ⟨_, h q hq, rfl⟩

/-- A gather of one row that is there. -/
def gatherOne : EngineCmd := { gather with block := [0x600000000000, 0, 0, 0, 0, 0, 1, 0] }

/-- A lookup of one key, whose value row and scales are at 0, and a lookup backward of one row. -/
def lookup : EngineCmd := { gather with op := .klu }
def back : EngineCmd := { gather with op := .kbwd }

theorem witness_EngineWork :
    let s (c : EngineCmd) (r : Run) : State := { onRegs [] with klus := [(0, [c])], runs := [(.stack 0, r)] }
    let index := answersTo [(1, 0, [0, 0, 0, 0]), (2, 0, [0, 0, 0, 0])]
    let done := answersTo [(1, 0, [0, 0, 0, 0]), (2, 0, [0, 0, 0, 0]), (5, 0, [0, 0, 0, 0])]
    let past := answersTo [(1, 0, [0, 0, 0, 0, 1, 0, 0, 0]), (2, 0, [0, 0, 0, 0])]
    let state (q : Except Stop Word × List Ask) : Nat := match q.1 with
      | .ok _ => 0
      | .error .wait => 1
      | .error (.fail _ _) => 2
    let asked : Run := { Run.start with sent := ((gatWork gather).result Run.start).2.map (·.key) }
    (s gather done).klu 0 = gather :: [] ∧ (s gather done).run (.stack 0) = done ∧ done.fails = [] ∧ done.out = [] ∧
    state ((gatWork gather).result done) = 0 ∧ state ((kbwdWork back).result past) = 2 ∧
    state ((gatWork gather).result Run.start) = 1 ∧
    ((gatWork gather).result Run.start).2.filter (fun x => !Run.start.sent.contains x.key) ≠ [] ∧
    (∀ x ∈ ((gatWork gather).result Run.start).2, x.remote = none ∧ x.home = none) ∧
    ((gatWork gather).result Run.start).2.filter (fun x => !asked.sent.contains x.key) = [] ∧
    state ((gatWork gather).result index) = 1 ∧ ((s gather done).hw gather.hq).st ≠ .frozen ∧
    (s gather done).runs.any (fun e => e.1 == .stack 0) = true ∧ (onRegs []).runs.any (fun e => e.1 == .stack 0) = false ∧
    ({ done with fails := [(6, 0)], out := [{ tag := 1, idx := 0, off := 0 }] } : Run).out ≠ [] := by decide +kernel

theorem witness_EngineBytes :
    let z (n : Nat) : List Byte := List.replicate n 0
    let row : List (Nat × Nat × List Byte) := [(3, 1, z 64), (4, 1, z 2)]
    let g := answersTo ([(1, 0, z 4), (2, 0, z 4)] ++ row)
    let k := answersTo [(1, 0, z 4), (2, 0, z 2), (3, 0, z 2), (4, 1, z 64), (5, 1, z 2)]
    let b := answersTo ([(1, 0, z 8), (2, 0, z 4)] ++ row)
    let ended := answersTo [(5, 0, z 4), (5, 1, z 128), (6, 0, z 4), (6, 1, z 8)]
    (g.holds 1 0 0 (z 4) ∧ g.holds 2 0 0 (z 4) ∧ g.holds 3 1 0 (z 64) ∧ g.holds 4 1 0 (z 2) ∧ g.lacks 5 0 ∧ g.lacks 5 1) ∧
    (k.holds 1 0 0 (z 4) ∧ k.holds 2 0 0 (z 2) ∧ k.holds 3 0 0 (z 2) ∧ k.holds 4 1 0 (z 64) ∧ k.holds 5 1 0 (z 2) ∧
      k.lacks 6 0 ∧ k.lacks 6 1) ∧
    (b.holds 1 0 0 (z 8) ∧ b.holds 2 0 0 (z 4) ∧ b.holds 3 1 0 (z 64) ∧ b.holds 4 1 0 (z 2) ∧ b.lacks 5 1 ∧ b.lacks 6 0) ∧
    (ended.wrote 5 0 0 4 ∧ ended.wrote 5 1 0 68 ∧ ended.wrote 6 0 0 4 ∧ ended.wrote 6 1 64 8) ∧
    (numberAt (z 8) 4 4 < (0 + 1) * (0 + 1) ∧ numberAt (z 4) 0 4 < (gatherOne.block.getD 6 0).toNat ∧
      ¬ numberAt (z 4) 0 4 < (gather.block.getD 6 0).toNat ∧ lookup.op = .klu ∧ back.op = .kbwd) := by
  refine ⟨⟨holds_of ?_, holds_of ?_, holds_of ?_, holds_of ?_, ?_, ?_⟩,
    ⟨holds_of ?_, holds_of ?_, holds_of ?_, holds_of ?_, holds_of ?_, ?_, ?_⟩,
    ⟨holds_of ?_, holds_of ?_, holds_of ?_, holds_of ?_, ?_, ?_⟩, ?_, ?_⟩
  all_goals first
    | decide +kernel
    | (unfold Run.lacks; decide +kernel)
    | (unfold Run.wrote; decide +kernel)

/-- A collective of group 0 and tag 0 on die 0 whose group table, at 0, names die 0 alone, at the words from 0x200000 on. -/
def collective (o : CollOp) (rank : Word) : EngineCmd :=
  { op := .coll o, core := 0, slot := 1, hq := 0, block := [0, rank, 0, 0, 0, 0, 0, 0], comp := .ls 0 0x40, issued := 0 }

def collected (o : CollOp) (rank : Word) (entry : List Host.Cell) : State :=
  let s := machine (core []) entry
  State.setDie { s with slices := [(0, { Slice.reset with ind := [(0, { Indirection.reset with v := true })] })] } 0
    { Die.reset with running := true, coll := [collective o rank] }

theorem witness_Collectives :
    let s := collected .sum 0 []
    let rooted := collected .bcast 0x0001000000000000 []
    let dirty := collected .sum 0 [(2, 1)]
    let two := collected .sum 0 [(4, 1), (8, 0x40), (0x48, 1)]
    (collective .sum 0).op = .coll .sum ∧ s.collAt 0 0 0 = some (collective .sum 0) ∧ s.hub.wdog = 0 ∧
    (s.hw 0).st ≠ .frozen ∧ ((s.setHw 0 { HwSlot.reset with st := .frozen }).hw 0).st = .frozen ∧ s.groupMembers 0 0 = ([.die 0], true) ∧
    (dirty.groupMembers 0 0).2 = false ∧ ¬ collRoot (collective .bcast 0x0001000000000000).block < (rooted.groupMembers 0 0).1.length ∧
    two.groupMembers 0 0 = ([.die 0, .die 1], true) ∧ two.collReady 0 0 [.die 0, .die 1] = false ∧ s.collAt 1 0 0 = none ∧
    (s.die 0).coll = [collective .sum 0] ∧ collGrp (collective .sum 0).block = (0 : BitVec 8).toNat ∧
    (∀ e ∈ (s.die 0).coll, collGrp e.block ≠ (1 : BitVec 8).toNat) ∧ (s.core 0).bank = [] := by decide

/-- Two dies whose commands agree, and two that do not; the work of one member of one element. -/
theorem witness_CollectiveWork :
    let table : List Host.Cell := [(4, 1), (8, 0x40), (0x48, 1)]
    let two (o : CollOp) (rank : Word) : State :=
      let s := collected .sum 0 table
      s.setDie 1 { Die.reset with running := true, coll := [collective o rank] }
    let agreed := two .sum 0
    let c : EngineCmd := { collective .sum 0 with block := [0, 1, 0, 0, 0, 0, 0, 0] }
    let part : Part := { place := 0, rank := 0, cmd := some c, mod := 0 }
    let r := answersTo [(2, 0, [7])]
    let ended := answersTo [(3, 0, List.replicate 8 7)]
    ((agreed.groupMembers 0 0).1 = [.die 0, .die 1] ∧ (agreed.groupMembers 0 0).1.Nodup ∧
      agreed.collReady 0 0 [.die 0, .die 1] = true ∧
      (∀ d ∈ ([.die 0, .die 1] : List Member).filterMap (agreed.memberCmd 0 0), d.op = .coll .sum) ∧
      ((two .topk 0).collAt 1 0 0).map (·.op) = some (.coll .topk) ∧
      (agreed.run (.coll 0 0 0)).fails = [] ∧ agreed.runs.any (fun e => e.1 == .coll 0 0 0) = false ∧
      agreed.collStarted 0 (collective .sum 0) = false) ∧
    (∀ m ∈ [part], m.cmd = some c) ∧ [part].find? (fun m => m.rank == 0) = some part ∧
    ([(7 : Byte)].length = 1 * fmtBytes 0 ∧ r.holds 2 0 0 [7] ∧ r.lacks 3 0 ∧ ended.wrote 3 0 0 8) := by
  refine ⟨by decide +kernel, by decide, by decide, by decide, holds_of (by decide), ?_, ?_⟩
  · unfold Run.lacks; decide
  · unfold Run.wrote; decide

/-- A request of the thread for the word at `near`, or at a home. -/
def request (cls : AccClass) (o : AccOp) (h : Home) : Request :=
  { core := 0, slot := 1, hq := 0, seq := 0, cls := cls, op := o, home := h, va := near, pc := 0x200000, data := 5, expected := 0,
    dst := .g 2, unit := false, attempts := 0, sent := 0, issued := 0 }

theorem witness_RequestsAtHome :
    let s := loaded 5
    let e := s.setFull spot false
    let r := request .sync .ldf (.ls 0 0x40)
    let gone (g : Option Nat) : State := s.setCore 0 { s.core 0 with gone := some g }
    (s.core 0).gone = none ∧ (s.core 0).bank = [] ∧ 0x40 ≠ acwOffset ∧ s.full (localKey 0 0x40) = true ∧
    e.full (localKey 0 0x40) = false ∧ r.op = .ldf ∧ ((waiting (.reply r)).slot 0 1).wait = .reply r ∧
    ((gone none).core 0).gone = some none ∧ ((gone (some 5)).core 0).gone = some (some 5) ∧
    (let t : State := { s with runs := [(.stack 0, Run.start)] }
     t.runs.any (fun e => e.1 == .stack 0) = true ∧ t.klu 0 = []) := by decide

/-- A reduction, a sub-word store and an atomic at another core's store; a full/empty access that finds the wrong state; a
`dec` at its record's home, in each of its cases. -/
theorem witness_RequestsOfEachKind :
    let s := loaded 5
    let wrong := waiting (.reply (request .sync .stf (.ls 0 0x40)))
    let dec := request .plain .dec (.ls 0 0x40)
    let at_ (w0 : List Byte) : State := recorded w0
    let w (s : State) (k : Nat) : Word := s.word (recordKey 0 0x40 k)
    let cont := at_ [1, 0, 0, 0, 0x80]
    let onward := at_ [1, 0, 0, 0, 0xC0]
    let full := cont.setCore 0 { cont.core 0 with deque := List.replicate 64 (task 0) }
    (request .relaxed (.load .b false) (.ls 0 0x40)).cls = .relaxed ∧ (request .sync .stf (.ls 0 0x40)).op = .stf ∧
    wrong.full spot = true ∧ (wrong.setFull spot false).full spot = false ∧
    (wrong.slot 0 1).wait = .reply (request .sync .stf (.ls 0 0x40)) ∧ ((s.core 0).gone = none) ∧
    dec.op = .dec ∧ dec.cls = .plain ∧ 0x40 % 8 = 0 ∧ ((at_ [2]).slot 0 1).owed = none ∧ ((at_ [2]).core 0).bank = [] ∧
    ((at_ [2]).core 0).pushes.any (·.cause.isSome) = false ∧ (w (at_ [2]) 0).toNat % 2 ^ 32 ≠ 1 ∧
    (w (at_ [1]) 0).toNat % 2 ^ 32 = 1 ∧ (w (at_ [1]) 0).getLsbD 39 = false ∧ (w cont 0).getLsbD 39 = true ∧
    (w cont 0).getLsbD 38 = false ∧ (cont.core 0).deque.length < 64 + (cont.core 0).dsn.toNat ∧
    (cont.core 0).deque.length < (cont.core 0).spilled + 64 ∧ (cont.hw dec.hq).st ≠ .frozen ∧
    64 + (full.core 0).dsn.toNat ≤ (full.core 0).deque.length ∧ (w onward 0).getLsbD 38 = true ∧ (w onward 1).getLsbD 63 = true := by decide

theorem witness_RequestsAtSlices :
    let x : Slice := { Slice.reset with
      ind := [(0x20, { Indirection.reset with v := true })], refillAt := 1024, epochAt := 1048576, buffer := [0x7FFF] }
    let s : State := { onRegs [] with slices := [(0, x)] }
    let spent : Slice := { x with readUsed := [(0, 1024)], classes := [(0, { ClassReg.reset with wc := false })] }
    let r := request .plain (.load .d false) (.dev 0x200000)
    let lower : Request := { r with hq := 1, seq := 1 }
    let waits : State := { onRegs [] with slices := [(0, { x with waiting := [(1, lower), (0, r)] })] }
    let busy : State := { s with slices := [(0, { x with served := 1 })] }
    let erased : State := { s with hub := { s.hub with keysErased := true } }
    let lost : State := { s with slices := [(0, { x with failed := [0x8000] })] }
    (accessOp r.op = true ∧ accessOp (.atomic .add) = true ∧ accessOp (.red .add) = true ∧ accessOp .stg = true ∧
      s.behindOwn (request .relaxed (.store .b) (.dev 0x200000)) = false) ∧
    ((request .sync .stf (.dev 0x200000)).op = .stf ∧ s.full 0x200000 = true ∧ opWrites .stf = true) ∧
    s.readRefuses 0x200000 = none ∧ (onRegs []).readRefuses 0x200000 = some 0x05 ∧ s.atSlice r = false ∧
    (0x200000 < 2 ^ 43 ∧ erased.sliceRefuses 0x200000 = some 0x06 ∧ lost.readRefuses 0x200000 = some 0x06) ∧
    (x.served ≤ s.sliceCycle 0 ∧ ¬ ((busy.die 0).running = false ∨ (busy.slice 0).served ≤ busy.sliceCycle 0)) ∧
    (waits.slice 0).waiting = [(1, lower)] ++ (0, r) :: [] ∧ (∀ e ∈ [(1, lower)], e.1 ≠ 0 ∧ e.2 ≠ r) ∧
    (∀ e ∈ (waits.slice 0).waiting, ¬ e.1 < 0) ∧ 128 ≤ (List.replicate 128 7).length ∧
    s.sliceRefuses 0x200000 = none ∧ (onRegs []).sliceRefuses 0x200000 = some 0x05 ∧ x.refillAt ≠ 0 ∧ s.sliceCycle 0 < x.refillAt ∧
    x.epochAt ≠ 0 ∧ Sparse.get 0 x.readUsed 0 < ClassReg.reset.rb.toNat ∧ Sparse.get 0 x.writeUsed 0 < ClassReg.reset.wb.toNat ∧
    x.buffer ≠ [] ∧ x.buffer.length < 128 ∧ 0x200000 / 64 ∉ x.buffer ∧
    (Sparse.get ClassReg.reset spent.classes 0).rb.toNat ≤ Sparse.get 0 spent.readUsed 0 ∧
    (Sparse.get ClassReg.reset spent.classes 0).wc = false ∧ 0x20 < 229376 ∧
    (Sparse.get Indirection.reset x.ind 0x20).v = true ∧ 0x200000 / 64 ∈ [0x8000] := by decide +kernel

/-- A core whose thread has sent a request and waits as given. -/
def asked (r : Request) (w : Wait) (pending : List (BitVec 16 × Dst)) : State := machine { core [(3, near)] with
  oac := 1, slots := [(1, { thread with
    wait := w, seq := 1, out := [{ seq := 0, relaxed := r.cls == .relaxed, home := r.home, kind := .access }], pending := pending })] } []

theorem witness_Answers :
    let r := request .plain (.load .d false) (.dev 0x200000)
    let x := request .relaxed (.load .d false) (.dev 0x200000)
    let s := asked r (.reply r) []
    let t := asked x .none [(0, .g 2)]
    let last : TileStore :=
      { sectors := [(.dev 0x200000, [])], va := 0x200000, srs := 0, flags := 0, since := none, out := none, issued := 0 }
    let more : TileStore := { last with sectors := [(.ls 0 0x40, []), (.ls 0 0x80, [])] }
    let tile := waiting (.tileStore 0x200002 last)
    (∃ o ∈ (s.slot 0 1).out, o.seq = r.seq) ∧ (s.slot 0 1).st = .active ∧ (s.slot 0 0).wait = .none ∧ (s.slot 0 1).wait = .reply r ∧
    more.sectors = (.ls 0 0x40, []) :: (.ls 0 0x80, []) :: [] ∧ homeOwn (.ls 0 0x80) 0 = true ∧
    r.op = .load .d false ∧ (∃ o ∈ (t.slot 0 1).out, o.seq = x.seq) ∧ (t.slot 0 1).wait = .none ∧
    (∃ e ∈ (t.slot 0 1).pending, e.1 = x.seq) ∧ (tile.slot 0 1).wait = .tileStore 0x200002 last ∧ last.sectors.length = 1 ∧
    (∀ o ∈ (tile.slot 0 1).out, o.seq ≠ r.seq) ∧ ((waiting (.retry r)).slot 0 1).wait = .retry r ∧
    (s.slot 0 1).wait ≠ .retry r ∧ r.cls ≠ .relaxed ∧ x.cls = .relaxed ∧
    (let drains : State := machine { core [] with slots := [(1, { thread with st := .trapped false, wait := .retry r })] } []
     (drains.slot 0 1).wait = .retry r ∧ (drains.slot 0 1).st = .trapped false) ∧ (∀ b, (s.slot 0 1).st ≠ .trapped b) := by decide

theorem witness_StoreAllowance :
    let r := request .plain (.store .d) (.dev 0x200000)
    let s := machine { core [] with saHeld := 1, swl := 1, slots := [(1, { thread with wait := .allowance 0 0x200002 r })] } []
    let late : State := { s with dies := [(0, { Die.reset with running := true, cyc := 1 })] }
    let idle := machine { core [] with saHeld := 3 } []
    (idle.core 0).allowanceParked = false ∧ (∀ n < 16, (idle.slot 0 n).onAllowance = false) ∧
    (s.slot 0 1).wait = .allowance 0 0x200002 r ∧ r.core = 0 ∧ r.slot = 1 ∧ (∀ m < 1, (s.slot 0 m).onAllowance = false) ∧
    (s.core 0).saHeld = 1 ∧ r.cls ≠ .relaxed ∧ (s.slot 0 1).relaxedOut = [] ∧ s.cycle 0 < 0 + (s.core 0).swl.toNat ∧
    0 + (late.core 0).swl.toNat ≤ late.cycle 0 ∧ (∀ b, (late.slot 0 1).st ≠ .trapped b) := by decide

/-- A request with a unit that its network interface holds back, its slice pressing its class (R333). -/
theorem witness_HeldRequest :
    let r : Request := { request .plain (.store .d) (.dev 0x200000) with unit := true }
    let s : State :=
      { asked r (.reply r) [] with slices := [(0, { Slice.reset with pressure := 1 })], due := [.homePerform r] }
    let late := s.setCore 0 { s.core 0 with swl := 0 }
    (s.slot 0 1).wait = .reply r ∧ r.unit = true ∧ s.heldRequest r = true ∧ r.core = 0 ∧ r.slot = 1 ∧
    s.cycle 0 < r.sent + 3 + (s.core 0).swl.toNat ∧ (∃ o ∈ (s.slot 0 1).out, o.seq = r.seq) ∧
    (∀ b, (s.slot 0 1).st ≠ .trapped b) ∧
    (let ends : State := { late with dies := [(0, { Die.reset with running := true, cyc := 3 })] }
     r.sent + 3 + (ends.core 0).swl.toNat ≤ ends.cycle 0) := by decide

theorem witness_Lines :
    let c : Core := { core [] with
      fills := [(0, 0x200000)], tlb := [page true true true], slots := [(1, { thread with wait := .line 0x200000 })] }
    let s := framed (machine c [])
    let denied := framed (machine { c with tlb := [page true true false] } [])
    let bare := machine { c with tlb := [] } []
    let r := agentRequest 0 0 (.agentRead (.line 0 0 0x200000) { tag := 0, idx := 0, off := 0 } 64) (.dev 0x200000) 0x200000
    (0, (0x200000 : Word)) ∈ (s.core 0).fills ∧ s.translate 0 0 .fetch 0x200000 = .home (.dev 0x200000) ∧
    s.readRefuses 0x200000 = none ∧ (s.slot 0 1).wait = .line 0x200000 ∧ (s.slot 0 1).hq = 0 ∧
    (∀ m < 16, m ≠ 1 → (s.slot 0 m).wait ≠ .line 0x200000) ∧ denied.translate 0 0 .fetch 0x200000 = .fault 0x06 ∧
    (0, (0x200040 : Word)) ∉ (s.core 0).fills ∧ bare.translate 0 0 .fetch 0x200000 = .miss (.dev 0 0x20) ∧
    (.line 0 0 0x200000, .dev 0 0x20) ∉ (bare.core 0).noPage ∧ s.mayServe r 0x200000 = true ∧
    bare.readRefuses 0x200000 = some 0x05 ∧ bare.atSlice r = false := by decide

/-- Page tables in frame 0x20 of slice 0: a root at 0x200000, a directory at 0x204000, a table at 0x208000, and a leaf for page
0; the second page of 32 MiB is a leaf of its own; the third names a table without leaves. -/
def tables : State :=
  let s := framed (machine (core []) ([(0x200001, 0x40), (0x200002, 0x20), (0x200007, 0x80), (0x204001, 0x80), (0x204002, 0x20),
    (0x204007, 0x80), (0x20400F, 0x98), (0x208002, 0x20), (0x208007, 0x9C)]))
  s.setHw 0 { HwSlot.reset with ptb := 0x200000 }

/-- A walk for a page, with the entry of a level read or not. -/
def walkFor (vpn level : Nat) (e : Option Word) : Walk :=
  { key := .dev 0 vpn, again := false, hq := 0, level := level, at_ := 0, entry := e, for_ := [.thread 1] }

theorem witness_Walks :
    let s := tables
    let wait (vpn : Nat) (i : Option Instr) : Wait := .pageWalk (.dev 0 vpn) 0x05 0 near i 0x200002
    let u (w : Walk) (x : Wait) : State := s.setCore 0 { s.core 0 with walks := [w], slots := [(1, { thread with wait := x })] }
    let starts := u (walkFor 0 3 none) (wait 0 none)
    let leaf := walkFor 0 0 (some (s.word 0x208000))
    let r := agentRequest 0 0 (.agentRead (.walker 0) { tag := 2, idx := 0, off := 0 } 8) (.dev 0x200000) 0
    ((starts.core 0).walks = walkFor 0 3 none :: [] ∧ (walkFor 0 3 none).entry = none ∧ (walkFor 0 3 none).level = 3 ∧
      (∀ e ∈ (starts.core 0).tlb, tlbServes e (.dev 0 0) = false) ∧ (walkFor 0 2 none).level ≠ 3 ∧
      (walkFor 0 3 none).key ≠ .dev 0 1 ∧ (s.core 0).walks = [] ∧ ({ leaf with again := true } : Walk).again = true) ∧
    (walkStep (.dev 0 0) 2 (s.word 0x200000) = .table 0x204000 ∧ walkStep (.dev 0 0) 1 (s.word 0x204000) = .table 0x208000 ∧
      walkStep (.dev 0 0) 0 (s.word 0x208000) = .leaf (page true true false |> fun e => { e with key := .dev 0 0 }) ∧
      tlbServes { page true true false with key := .dev 0 0 } (.dev 0 0) = true ∧
      walkStep (.dev 0 1) 0 (s.word 0x208008) = .fault ∧ walkStep (.dev 0 512) 1 (s.word 0x204008) ≠ .fault) ∧
    (leaf.for_ = [.thread 1] ∧ ((u leaf (wait 0 (some .nop))).slot 0 1).wait = wait 0 (some .nop) ∧
      ((u leaf (.fetchWalk (.dev 0 0))).slot 0 1).wait = .fetchWalk (.dev 0 0) ∧ s.readRefuses 0x200000 = none ∧
      s.mayServe r 0x200000 = true ∧ (onRegs []).readRefuses 0x200000 = some 0x05 ∧ (onRegs []).atSlice r = false) := by
  decide +kernel

/-- The words of a walk of the HQS at each of its levels, and those of a far window. -/
theorem witness_WorkOfWalks :
    let s := tables
    let read (l : List (Nat × Word)) : Run := { Run.start with
      got := l.map (fun e => ({ tag := 0, idx := 0, off := e.1 }, wordBytes e.2)) }
    let has (r : Run) (l : Nat) (e : Word) : Prop :=
      (r.got.find? (fun y => y.1 == { tag := 0, idx := 0, off := l })).map (fun x => BitVec.ofNat 64 (leNat x.2)) = some e
    let e2 := s.word 0x200000
    let e1 := s.word 0x204000
    let e0 := s.word 0x208000
    let all := read [(2, e2), (1, e1), (0, e0)]
    let found (q : Except Stop TlbEntry × List Ask) : Nat := match q.1 with
      | .ok e => if e.big then 2 else 1
      | .error .wait => 3
      | .error (.fail _ _) => 4
    let work (v : Nat) (r : Run) : Nat := found ((walkWork 0 0 0 (.dev 0 v) 2 (s.walkRoot (.dev 0 v))).result r)
    let w := (farRecord 0x8C []).word 0x200000
    has all 2 e2 ∧ has all 1 e1 ∧ has all 0 e0 ∧ (read []).got = [] ∧ work 0 all = 1 ∧ work 0 (read []) = 3 ∧
    work 512 (read [(2, e2), (1, s.word 0x204008)]) = 2 ∧ work 0 (read [(2, 0)]) = 4 ∧ (0 < 2 ^ 31) ∧
    (w.toNat / 2 ^ 63 = 1 ∧ w.toNat / 2 ^ 60 % 8 = 0 ∧ w.toNat / 2 ^ 13 % 2 ^ 45 = 0) := by decide +kernel

theorem witness_Steals :
    let s := machine { core [] with deque := [task 1, task 0] } []
    let asks := machine { core [] with slots := [(0, { thread with wait := .steal 2 0 (.g 2) })] } []
    let push : PushWait := { entry := task 0, cause := none }
    let waits (n : Nat) : State := machine { core [] with pushes := [push], deque := List.replicate n (task 0), spilled := n } []
    let spilt := framed (machine { core [] with spilled := 1, deque := [task 0], dsb := 0x200000, spillAt := [0] } [])
    let dec : Request := { (request .plain .dec (.ls 0 0x40)) with seq := 7 }
    let joins := machine { core [] with pushes := [push, { entry := task 0, cause := some dec }] }
      [(localKey 0 0x40, 1), (localKey 0 0x44, 0x80)]
    let fills := machine { core [] with pushes := [push], deque := task 0 :: List.replicate 63 (task 0), dsn := 1 } []
    (s.core (s.storeAt (s.physical 0))).deque = [task 1] ++ task 0 :: [] ∧ (∀ x ∈ [task 1], x.hq ≠ 0) ∧ (s.core 0).spilled = 0 ∧
    (s.core 0).pushes = [] ∧ (s.core 0).gone = none ∧ (∀ e ∈ (s.core 0).deque, e.hq ≠ 2) ∧
    (asks.slot 0 0).wait = .steal 2 0 (.g 2) ∧ (asks.slot 0 0).st = .active ∧ ((waits 64).core 0).pushes = [push] ∧
    64 + ((waits 64).core 0).dsn.toNat ≤ ((waits 64).core 0).deque.length ∧
    ((waits 0).core 0).deque.length < ((waits 0).core 0).spilled + 64 ∧ (spilt.core 0).spilled = 1 ∧
    (spilt.core 0).spillAt[0]? = some 0 ∧ (spilt.core 0).spillAt.getLast? = some 0 ∧ (spilt.core 0).reading = none ∧
    (spilt.core 0).spilling = none ∧ (spilt.core 0).deque.length - 1 < 16 ∧ ((onRegs []).slot 0 0).wait = .none ∧
    ((s.hw (task 0).hq).st ≠ .frozen) ∧ (fills.core 0).deque.length < 64 + (fills.core 0).dsn.toNat ∧
    (fills.core 0).spilled + 64 ≤ (fills.core 0).deque.length ∧ (fills.core 0).spillAt = [] ∧
    (joins.core 0).pushes = [push, { entry := task 0, cause := some dec }] ∧ dec.op = .dec ∧ (joins.core 0).bank = [] ∧
    (joins.word (localKey 0 0x40)).toNat % 2 ^ 32 = 1 ∧ (joins.word (localKey 0 0x40)).toNat / 2 ^ 38 % 4 = 2 := by decide +kernel

/-- A spilled entry that a steal reads, or may not; a reply that comes to a frozen queue. -/
theorem witness_SpilledSteal :
    let spilt := framed (machine { core [] with spilled := 1, deque := [task 0], dsb := 0x200000, spillAt := [0] } [])
    let asks := machine { core [] with slots := [(0, { thread with wait := .steal 2 0 (.g 2) })] } []
    ((spilt.core 0).deque = [] ++ task 0 :: [] ∧ 0 < (spilt.core 0).spilled ∧ spilt.readRefuses 0x200000 = none ∧
      ({ spilt with slices := [] } : State).readRefuses 0x200000 = some 0x05) ∧
    ((asks.setHw 0 { HwSlot.reset with st := .frozen }).hw (task 0).hq).st = .frozen ∧
    (spilt.core 0).deque[(spilt.core 0).spilled - 1]? = some (task 0) ∧ (core []).spilling = none ∧ (core []).reading = none := by
  decide +kernel

/-- A record of a breakpoint. -/
def broken : Record :=
  { sect := 0, tile := 0, mods := 0, hq := 0, late := false, held := false, slot := 1, detail := 0, seq := 0, joined := 0,
    seqSet := false, cause := 0x0E, spc := 0x200002, fpc := 0x200000, addr := 0, a := 0, b := 0, d := 0, s := 0 }

theorem witness_TrapRecords :
    let late : Late := { cause := 0x09, seq := 0, addr := near, pc := 0x200000, tile := 0 }
    let with_ (t : Slot) : State := machine { core [] with slots := [(1, t)] } []
    let waits := with_ { thread with late := [late] }
    let drains := with_ { thread with st := .trapped false, record := some broken }
    let latched := with_ { thread with st := .trapped true, latch := some broken }
    let full : Core := { core [] with tail := 16 }
    let check := machine { core [] with mcs := { valid := true, src := 1, cause := 0, rpc := 0x300000 } } []
    (waits.slot 0 1).st = .active ∧ (waits.slot 0 1).late = [late] ∧ (waits.slot 0 1).wait.givesWay = true ∧ late.cause ≠ 0x0A ∧
    (drains.slot 0 1).st = .trapped false ∧ (drains.slot 0 1).record = some broken ∧ (drains.slot 0 1).out = [] ∧
    (drains.core 0).cldInFlight 1 = false ∧ (latched.slot 0 1).latch = some broken ∧
    (latched.slot 0 1).latchAt ≤ latched.cycle 0 ∧ (∀ m < 16, m ≠ 1 → (latched.slot 0 m).latch = none) ∧
    (let soon := with_ { thread with st := .trapped true, latch := some broken, latchAt := 1 }
     ∀ m < 16, (soon.slot 0 m).latch ≠ none → soon.cycle 0 < (soon.slot 0 m).latchAt) ∧
    (latched.core 0).ringBase.toNat * 64 + 64 * 2 ^ (latched.core 0).log.toNat ≤ 2 ^ 17 ∧
    (full.tail.toNat + 256 - full.head.toNat) % 256 = 2 ^ full.log.toNat ∧
    ((latched.core 0).tail.toNat + 256 - (latched.core 0).head.toNat) % 256 ≠ 2 ^ (latched.core 0).log.toNat ∧
    ((with_ { thread with st := .trapped false, record := some broken, double := true }).slot 0 1).double = true ∧
    ((with_ { thread with st := .trapped false, out := [outOne false] }).slot 0 1).out ≠ [] ∧
    (latched.slot 0 0).wait = .none ∧ (check.core 0).mcs.valid = true ∧ (waits.core 0).mcs.valid = false ∧
    (check.slot 0 0).st ≠ .trapped false ∧
    ((check.setSlot 0 0 { thread with st := .trapped false, record := some broken }).slot 0 0).st = .trapped false := by decide

/-- A drained record: no request is out, no `cld` in flight, and no attempt is owed. -/
theorem witness_Drained : ∀ q, ({ thread with st := .trapped false, record := some broken } : Slot).wait ≠ .retry q := by
  intro q h
  have e : Wait.none = .retry q := h
  cases e

theorem witness_DispatcherTrap :
    let s := slot0 [] []
    let t : State := s.setSlot 0 0 { thread with st := .trapped false, record := some broken }
    (t.slot 0 0).st = .trapped false ∧ (t.slot 0 0).record = some broken ∧ (t.slot 0 0).out = [] ∧
    (t.core 0).cldInFlight 0 = false ∧ (t.slot 0 0).wait = .none := by decide

theorem witness_StateRegisters :
    let s := slot0 [] []
    s.regsReady [.g 2] ∧ s.regsReady (bRegs (.lit32 5)) ∧ (onRegs []).cur.slot ≠ 0 ∧ s.cur.slot = 0 ∧ 5 % 8 < 6 ∧ 6 ≤ 7 % 8 ∧
    s.own.arrivals = [] ∧ (0x8000 / 2 ^ 15 % 2 = 1) ∧ (s.own.slot 15).st = .empty ∧
    (∀ m < 16, (s.own.slot m).st ≠ .empty → (s.own.slot m).base + (s.own.slot m).size ≤ 1920 + 8 * 15) := by
  unfold State.regsReady; decide

theorem witness_SlotControl :
    let to_ (t : Slot) (j : Option CldJob) : State :=
      let s := slot0 [(3, 1)] [(1, t)]
      s.setCore 0 { s.core 0 with tiles := (match j with
        | some x => [(1, { TileState.reset with lock := some x })]
        | none => []) }
    let held : CldJob := { contracting with held := true, fail := some (0, 0x06, near) }
    let n (s : State) : Nat := (s.rd (.g 3)).toNat % 16
    (to_ thread none).cur.slot = 0 ∧ (to_ thread none).regsReady [.g 3] ∧ n (to_ thread none) = 1 ∧
    ((to_ thread none).slot 0 1).st = .active ∧ ((to_ thread none).slot 0 1).stopAt = none ∧
    ((to_ { thread with st := .stopped } none).slot 0 1).st = .stopped ∧
    ((to_ { thread with st := .trapped true } none).slot 0 1).st = .trapped true ∧
    (to_ { thread with st := .trapped true } none).own.tileOf 1 = none ∧
    (to_ { thread with st := .trapped true } (some held)).own.tileOf 1 = some 1 ∧
    ((to_ { thread with st := .trapped true } (some held)).own.tile 1).lock = some held ∧ held.held = true ∧
    (near.toNat % 64 = 0) ∧ regionOf near = .near 0 0x40 true ∧ regionOf 0x40 = .dev 0x40 ∧ (near + 8).toNat % 64 ≠ 0 ∧
    (onRegs []).thr.relaxedOut = [] ∧ (onRegs []).thr.out.length < 4096 := by
  unfold State.regsReady; decide

theorem witness_RegisterChecks :
    let s := onRegs []
    let marked := machine { core [] with slots := [(1, { thread with pending := [(0, .g 3)] })] } []
    travellerOnly (.go (.disp (.g 3) 0)) = true ∧ s.thr.size ≠ 8 ∧ slotZeroOnly (.take (.g 2)) = true ∧ s.cur.slot ≠ 0 ∧
    regsNamed (.take (.g 2)) = some [.g 2] ∧ s.thr.size ≤ (16 : BitVec 7).toNat ∧
    (s.thr.size : Int) ≤ (1 : Int) + (15 : BitVec 4).toNat ∧ regOk marked.thr (.g 3) = true ∧
    marked.thr.isPending (regDst marked.thr (.g 3)) = true ∧ travellerOnly (.jmp (.g 3)) = false ∧
    slotZeroOnly (.jmp (.g 3)) = false ∧ regsNamed (.jmp (.g 3)) = some [.g 3] := by decide

/-- The encodings at two ends of an operand's range. -/
theorem witness_Encodings :
    encode (.ld .w true true (.g 4) (.disp (.g 3) 8)) = some (0x9827, 8, 0x04038A8A00000008) ∧
    encode (.ld .d true true (.g 127) (.disp (.g 0) 0xFFFFFFFF)) = some (0x9824, 8, 0x7F008A8AFFFFFFFF) ∧
    wellFormed (.ld .d true true (.g 127) (.disp (.g 0) 0xFFFFFFFF)) = false ∧ (0x9827 < 2 ^ 16) := by decide

/-- The state of `withFetchWord` has the one move that runs its word. -/
theorem witness_StepRunsDecoded :
    let s := State.reset.withFetchWord 16 0x0001
    s.choose = (some (.turn 0), s) ∧ s.pickSlot 0 = (s, some 1) ∧ (s.slot 0 1).lateReady = false ∧
    (s.slot 0 1).pc.getLsbD 0 = false ∧ regionOf (s.slot 0 1).pc = .dev 0x200000 ∧
    s.translate 0 0 .fetch (s.slot 0 1).pc = .home (.dev 0x200000) ∧
    ((s.core 0).icache.find? (fun e => e.1 = lineKey 0 (s.slot 0 1).pc)).isSome ∧
    lineAt (lineOfTableWord 16 0x0001) ((s.slot 0 1).pc.toNat % 64 / 2) = .head 1 0 false ∧ decodeHead 1 0 = .ok .nop := by
  decide

theorem witness_TurnTaking :
    let at_ (t : Slot) (cyc : Nat) : State :=
      { machine { core [] with slots := [(1, t)] } [] with dies := [(0, { Die.reset with running := true, cyc := cyc })] }
    let late : Late := { cause := 0x09, seq := 0, addr := near, pc := 0x200000, tile := 0 }
    ((at_ thread 1).runnable 0 1 = true ∧ ((at_ thread 1).slot 0 1).skip = 0) ∧
    ((at_ thread 9).runnable 0 9 = false ∧ (at_ thread 9).runnable 0 1 = true) ∧
    ((at_ thread 2).runnable 0 2 = false ∧ (at_ thread 2).runnable 0 10 = false) ∧
    ((at_ thread 1).slot 0 1).wait = .none ∧ ((at_ thread 1).slot 0 1).stopAt = none ∧
    (at_ thread 1).choose = (some (.turn 0), at_ thread 1) ∧ (at_ thread 1).pickSlot 0 = (at_ thread 1, some 1) ∧
    (at_ thread 2).pickSlot 0 = (at_ thread 2, none) ∧ ({ thread with late := [late] } : Slot).lateReady = true ∧
    ({ thread with pc := 0x200001 } : Slot).pc.getLsbD 0 = true ∧ regionOf near = .near 0 0x40 true ∧
    inLine (List.replicate 64 0) 0x200000 = .lineEnd 0x200040 ∧ inLine (lineOfTableWord 16 0x0002) 0x200000 = .illegal 0x200002 := by
  decide

/-- A wait that a step ends, and an instruction that a step lets go on: what `awake` looks at. -/
theorem witness_Awake :
    let cmd : CopyCmd :=
      { slot := 1, hq := 0, dst := near, src := near, len := 8, comp := .ls 0 0x40, issued := 0, cancelled := false }
    let full : State := machine { core [] with
      copyQueue := [cmd, cmd], slots := [(1, { thread with wait := .held .copyFree 0 (some .nop) 0x200002 [] })] } []
    let free := full.setCore 0 { full.core 0 with copyQueue := [] }
    let marks (o : List (BitVec 16 × Dst)) : State := machine { core [] with
      slots := [(1, { thread with wait := .regs [.g 3], pending := o })] } []
    (full.slot 0 1).st = .active ∧ (full.slot 0 1).wait = .held .copyFree 0 (some .nop) 0x200002 [] ∧
    (full.slot 0 1).lateReady = false ∧ full.holdOver 0 1 (full.slot 0 1) .copyFree = false ∧
    free.holdOver 0 1 (free.slot 0 1) .copyFree = true ∧ (marks []).mayGoOn 0 1 = true ∧
    (marks [(0, .g 3)]).mayGoOn 0 1 = false := by decide

theorem witness_Moves :
    let idle : State := { onRegs [] with cores := [] }
    let due : State := { onRegs [] with cores := [], dies := [], due := [.tlbiComplete] }
    idle.choose = (some (.tick 0), idle) ∧ due.choose = (some (.due 0), due) ∧ due.due[0]? = some .tlbiComplete ∧
    (let hub (f : Hub → Hub) : State := { State.reset with due := [], hub := f Hub.reset }
     (hub (fun h => { h with running := true })).choose.1 = some (.hubTick 0) ∧
     (hub (fun h => { h with running1 := true })).choose.1 = some (.hubTick 1)) ∧
    (let c : Issue := { (onRegs []).cur with instr := some .nop }
     let walked : State := { onRegs [] with walked := [c] }
     walked.choose = (some .resume, walked) ∧ walked.walked = c :: [] ∧ c.instr = some .nop) ∧
    (let held : Issue := { (onRegs []).cur with instr := some .nop, again := some { since := some 0, views := some [] } }
     (held.again.bind (·.since)).isSome = true) ∧
    State.reset.choose.1 ≠ none ∧ ({ State.reset with due := [] } : State).choose.1 = none ∧
    ({ State.reset with due := [], hub := { Hub.reset with heldInReset := true } } : State).hub.heldInReset = true := by decide

theorem witness_Canonical : (loaded 5).canonical = true ∧ ((loaded 5).setFull spot false).canonical = true := by decide

/-- A module with the queue table at 0x200000 and, for user queue 1, a descriptor of weight 1 with ring 0x1000 of 64 packets. -/
def queues (more : List Host.Cell) (slots : List (Nat × HwSlot)) (active : List Nat) : State :=
  let s := framed (machine { core [] with slots := [] } ([(0x200041, 0x10), (0x20004F, 0x30)] ++ more))
  { s with hub := { s.hub with qtb := 0x200000, hw := slots, active := active } }

theorem witness_QueueSlots :
    let mapped : HwSlot := { HwSlot.reset with st := .mapped, uq := 1 }
    let descriptor := [(0x20005F, (1 : Byte))]
    let s := queues descriptor [(0, mapped)] []
    let rung := queues ((0x200050, 1) :: descriptor) [] []
    let wakes := queues descriptor [] [1]
    let all (h : HwSlot) : State := queues descriptor ((List.range 64).map (fun q => (q, if q = 0 then h else
      { HwSlot.reset with st := .mapped, uq := q + 100, left := 5 }))) [7]
    (∀ k < 8, s.readRefuses (0x200040 + 8 * k) = none) ∧ 1 ∉ s.hub.descLost ∧ ((s.hw 0).st ≠ .free ∧ (s.hw 0).uq = 1) ∧
    (s.run (.hqs 0)).out = [] ∧ (∀ q : BitVec 6, ((all mapped).hw q).st = .mapped → ((all mapped).hw q).left = 0 →
      ((all mapped).hw 0).weight ≤ ((all mapped).hw q).weight) ∧
    (∀ q : BitVec 6, (s.hw q).st ≠ .free ∧ (s.hw q).uq = 1 → q = 0) ∧ (s.hw 0).launch = none ∧
    .launchPacket 0 ∉ s.due ∧ .nopPacket 0 ∉ s.due ∧ (∀ q : BitVec 6, ¬ ((rung.hw q).st ≠ .free ∧ (rung.hw q).uq = 1)) ∧
    (rung.word 0x200048).toNat % 2 ^ 32 ≠ (rung.word 0x200050).toNat % 2 ^ 32 ∧ 1 ∉ rung.hub.active ∧
    (wakes.hw 0).st = .free ∧ 1 ∈ wakes.hub.active ∧ (wakes.word 0x200058).toNat / 2 ^ 56 ≠ 0 ∧
    (wakes.word 0x200048).toNat / 2 ^ 59 = 6 ∧ wakes.word 0x200078 = 0 ∧ (s.hw 0).left = 0 ∧ s.hub.active = [] ∧
    (∀ q : BitVec 6, ((all mapped).hw q).st ≠ .free) ∧ ((all mapped).hw 0).left = 0 ∧ (all mapped).hub.active ≠ [] ∧
    (∀ q : BitVec 6, ((all mapped).hw q).st = .mapped → ((all mapped).hw q).left = 0 → q = 0) ∧ s.work 0 = 0 ∧
    ((queues descriptor [(0, { mapped with st := .draining })] []).hw 0).st = .draining ∧
    ((queues descriptor [(0, { mapped with st := .frozen })] []).hw 0).st = .frozen := by decide

/-- `tables` with user queue 1 mapped to slot 0: ring at 0x1000, one packet there, which `more` fills in. -/
def launching (l : Option Launch) (more : List Host.Cell) : State :=
  let s := framed (machine { core [] with slots := [] } ([(0x200001, 0x40), (0x200002, 0x20), (0x200007, 0x80), (0x200050, 1)] ++ more ++
    [(0x204001, 0x80), (0x204002, 0x20), (0x204007, 0x80), (0x208002, 0x20), (0x208007, 0x9C)]))
  { s with hub := { s.hub with
    qtb := 0x200000, hw := [(0, { HwSlot.reset with st := .mapped, uq := 1, ring := 0x1000, ptb := 0x200000, launch := l })] } }

/-- What the HQS has read of a packet or of a task list. -/
def readWords (tag : Nat) (l : List Word) : Run := { Run.start with
  got := (List.range l.length).map (fun k => ({ tag := tag, idx := 0, off := k }, wordBytes (l.getD k 0))) }

/-- What a walk of the HQS for page 0 of `tables` has read, and what a home found is. -/
def walkRead (tag idx : Nat) : List (AccKey × List Byte) :=
  [(2, 0x200000), (1, 0x204000), (0, 0x208000)].map (fun e => ({ tag := tag, idx := idx, off := e.1 }, wordBytes (tables.word e.2)))

def okHome (q : Except Stop Home × List Ask) : Bool :=
  match q.1 with
  | .ok _ => true
  | .error _ => false

theorem home_of {q : Except Stop Home × List Ask} (h : okHome q = true) : ∃ g, q.1 = .ok g := by
  obtain ⟨_ | g, l⟩ := q
  · cases h
  · exact ⟨g, rfl⟩

/-- What a read or a write of the HQS comes to: 0 and the address, 1 while it waits, 2 where it failed. -/
def homeFound (q : Except Stop Home × List Ask) : Nat × Nat :=
  match q.1 with
  | .ok (.dev a) => (0, a)
  | .ok _ => (0, 0)
  | .error .wait => (1, 0)
  | .error (.fail c _) => (2, c.toNat)

/-- A packet of one task on core 0, and the launch of it. -/
def onePacket : List Word := [BitVec.ofNat 64 (2 ^ 56 + 1), 0x2000, 0, 0, 0, 0, 0, 0x3000]

def oneTask (n : Nat) : LaunchEntry := { task := task 0, core := 0, slot := n, win := if n = 0 then 0 else 8 }

def launched (t : LaunchStage) : Launch :=
  { stage := t, packet := onePacket, entries := [oneTask 0], done := 0x3000, store := true, status := 0 }

theorem witness_Packets :
    let s (r : Run) : State := { launching none [] with runs := [(.hqs 0, r)] }
    let got (r : Run) (tag n : Nat) (l : List Word) : Prop := ∀ k < n,
      (r.got.find? (fun e => e.1 == { tag := tag, idx := 0, off := k })).map (·.2) = some (wordBytes (l.getD k 0))
    let bits (k hi lo : Nat) : Nat := (onePacket.getD k 0).toNat / 2 ^ lo % 2 ^ (hi - lo + 1)
    let zeros : List Word := List.replicate 8 0
    let u := launching none []
    ((∀ k < 8, u.readRefuses (0x200040 + 8 * k) = none) ∧ .launchPacket 0 ∉ u.due ∧ .nopPacket 0 ∉ u.due ∧ .launchDone 0 ∉ u.due ∧
      (u.hw 0).launch = none ∧ (u.hw 0).st = .mapped ∧ u.work 0 = 0 ∧ u.run (.hqs 0) = Run.start ∧
      (u.word 0x200050).toNat % 2 ^ 32 ≠ (u.hw 0).rd.toNat) ∧
    ((∀ e ∈ u.runs, e.1 ≠ .hqs 0) ∧ (∀ k < 8, regionOf (BitVec.ofNat 64 (0x1000 + 8 * k)) = .dev (0x1000 + 8 * k)) ∧
      (s { Run.start with fails := [(5, 0)] }).run (.hqs 0) = { Run.start with fails := [(5, 0)] } ∧
      ((onRegs []).hw 0).st ≠ .mapped) ∧
    ((s (readWords 0 onePacket)).run (.hqs 0) = readWords 0 onePacket ∧ (readWords 0 onePacket).fails = [] ∧
      onePacket.length = 8 ∧ got (readWords 0 onePacket) 0 8 onePacket ∧ got (readWords 0 zeros) 0 8 zeros ∧ zeros.length = 8) ∧
    (bits 0 63 56 = 1 ∧ bits 0 55 32 = 0 ∧ 1 ≤ bits 0 31 0 ∧ bits 0 31 0 ≤ 2 ^ 20 ∧ bits 2 63 13 = 0 ∧ bits 3 63 21 = 0 ∧
      bits 3 15 13 = 0 ∧ bits 3 7 3 = 0 ∧ bits 5 63 17 = 0 ∧ bits 2 12 10 + bits 3 2 0 < 8 ∧ bits 2 9 5 + bits 3 12 8 < 32 ∧
      bits 2 4 0 + bits 3 20 16 < 32 ∧ onePacket.getD 4 0 = 0) ∧
    (∀ c, c ∉ u.hub.retired) := by
  refine ⟨by decide +kernel, by decide +kernel, by decide +kernel, by decide, fun c h => ?_⟩
  cases h

/-- The packet's words and the walks for them are there, at whose homes they were read. -/
theorem witness_PacketRead :
    let r : Run := { readWords 0 onePacket with
      got := (readWords 0 onePacket).got ++ (List.range 8).flatMap (walkRead (0 + 2 ^ 20)) }
    let s : State := { launching none [] with runs := [(.hqs 0, r)] }
    ∀ k < 8, ∃ g, ((homeWork s 0 (0 + 2 ^ 20) k .read (BitVec.ofNat 64 (0x1000 + 8 * k))).result (s.run (.hqs 0))).1 = .ok g := by
  intro r s k h
  refine home_of ?_
  have all : ∀ k < 8, okHome ((homeWork s 0 (0 + 2 ^ 20) k .read (BitVec.ofNat 64 (0x1000 + 8 * k))).result (s.run (.hqs 0))) =
      true := by decide +kernel
  exact all k h

theorem witness_Launches :
    let s (t : LaunchStage) (r : Run) : State := { launching (some (launched t)) [] with runs := [(.hqs 0, r)] }
    let zeros : List Word := List.replicate 8 0
    let got (r : Run) (tag n : Nat) (l : List Word) : Prop := ∀ k < n,
      (r.got.find? (fun e => e.1 == { tag := tag, idx := 0, off := k })).map (·.2) = some (wordBytes (l.getD k 0))
    let u := launching (some (launched (.cores [0] false))) []
    let latched := u.setCore 0 { u.core 0 with latchTask := some (task 0) }
    let ends := launching (some (launched .running)) []
    let frozen := u.setHw 0 { u.hw 0 with st := .frozen }
    let store : Launch := { launched .running with store := false }
    let p := launching (some (launched (.tasks [oneTask 1]))) []
    let own := p.setCore 0 { p.core 0 with owners := [(1, 0x40)] }
    let pair (n : Nat) : List (AccKey × List Byte) := [({ tag := 8, idx := 0, off := 0 }, [BitVec.ofNat 8 n])]
    ((u.hw 0).launch = some (launched (.cores [0] false)) ∧ (u.hw 0).st ≠ .frozen ∧ (frozen.hw 0).st = .frozen ∧
      (u.run (.hqs 0)).out = [] ∧ (launched .running).stage = .running) ∧
    (got (readWords 1 zeros) 1 8 zeros ∧ (readWords 1 zeros).out = [] ∧ (launchOf onePacket).nt = 1 ∧
      ((s .list (readWords 1 zeros)).hw 0).launch = some (launched .list)) ∧
    ((latched.core 0).latchTask ≠ none ∧ (u.core 0).latchTask = none ∧ (u.core 0).gone = none ∧ (u.core 0).saving = none ∧
      .watchdogExpiry 0 ∉ u.due ∧ (launched (.cores [] false)).stage = .cores [] false) ∧
    (u.physical (oneTask 0).core = 0 ∧ (oneTask 0).task.hq = 0 ∧ (u.core 0).pushes = [] ∧
      (u.core 0).deque.length < 64 + (u.core 0).dsn.toNat ∧ (u.core 0).deque.length < (u.core 0).spilled + 64 ∧
      64 + (u.core 0).dsn.toNat ≤ (List.replicate 64 (task 0)).length) ∧
    (1 ≤ (oneTask 1).slot ∧ (oneTask 1).slot ≤ 15 ∧ ((own.core 0).slot 1).st = .empty ∧ (own.core 0).tsm.getLsbD 1 = false ∧
      (own.core 0).owner 1 = some 0 ∧ (∀ m < 16, ((own.core 0).slot m).st = .empty) ∧ 8 ≤ (oneTask 1).win ∧
      (p.core 0).owner 1 ≠ some 0 ∧ (p.cores.map (·.1)).Nodup) ∧
    (ends.work 0 = 0 ∧ store.store = false ∧ (launched .running).store = true ∧
      regionOf 0x3000 = .dev 0x3000 ∧ ends.run (.hqs 0) = Run.start) ∧
    (({ Run.start with got := pair 0 } : Run).got = ({ tag := 8, idx := 0, off := 0 }, [0]) :: [] ∧ [BitVec.ofNat 8 5] ≠ [(0 : Byte)]) ∧
    (0 < 16 ∧ ({ u.hub with wdog := 1, cyc := 1024 } : Hub).wdog ≠ 0 ∧ (u.hw 0).progress + 1024 * 1 ≤ 1024) := by decide +kernel

/-- The homes of a launch's task list and of its completion word, found, failed and waited for. -/
theorem witness_LaunchHomes :
    let ends := launching (some (launched .running)) []
    let zeros := readWords 1 (List.replicate 8 0)
    let list : Run := { zeros with got := zeros.got ++ (List.range 8).flatMap (walkRead (1 + 2 ^ 20)) }
    (∀ k < 8, okHome ((homeWork ends 0 (1 + 2 ^ 20) k .read ((launchOf onePacket).tlist + BitVec.ofNat 64 (8 * k))).result list) =
      true) ∧
    ({ launched .list with status := 0x10 } : Launch).status ≠ 0 ∧
    homeFound ((homeWork ends 0 9 0 .write 0x800000000000).result Run.start) = (2, 0x05) ∧
    homeFound ((homeWork ends 0 9 0 .write 0x3000).result { Run.start with got := walkRead 9 0 }) = (0, 0x203000) ∧
    homeFound ((homeWork ends 0 9 0 .write 0x3000).result Run.start) = (1, 0) := by decide +kernel

theorem witness_CoreWork :
    let u := launching none []
    let words : List Word := List.replicate 16 0
    let got (r : Run) (tag n : Nat) : Prop := ∀ k < n,
      (r.got.find? (fun e => e.1 == { tag := tag, idx := 0, off := k })).map (·.2) = some (wordBytes 0)
    let r : Run := { Run.start with got := (readWords 2 words).got ++ (readWords 4 [0]).got }
    let work (r : Run) : Nat := match ((coreWork u 0 (launchOf onePacket) 0x80 0 0).result r).1 with
      | .ok _ => 0
      | .error .wait => 1
      | .error (.fail _ _) => 2
    let high : Run := readWords 2 (0x8000 :: List.replicate 15 0)
    let filled : List (AccKey × List Byte) := (List.range 16).map (fun i => ({ tag := 3, idx := 0, off := i }, []))
    let done : Run := { Run.start with got := (readWords 2 words).got ++ filled }
    got r 2 16 ∧ got r 4 1 ∧ (∀ e ∈ r.got, e.1.tag ≠ 3 ∧ e.1.tag ≠ 5) ∧ work r = 1 ∧ work high = 2 ∧ work done = 0 ∧
    (0 : Word).toNat / 2 ^ 15 % 2 ^ 49 = 0 ∧ (0x8000 : Word).toNat / 2 ^ 15 % 2 ^ 49 ≠ 0 := by decide +kernel

/-- A packet with an image of one sector, whose words have been read at the homes that the walks gave. -/
theorem witness_ImageWork :
    let w : List Word := [BitVec.ofNat 64 (2 ^ 56 + 1), 0x2000, 0, 0, 0x1000, 64, 0, 0x3000]
    let k := launchOf w
    let u := launching none []
    let r : Run := { Run.start with got := (readWords 2 (List.replicate 16 0)).got ++ (List.range 8).flatMap (fun i =>
      walkRead (4 + 2 * i + 2 ^ 20) 0 ++ [({ tag := 4 + 2 * i, idx := 0, off := 0 }, wordBytes (BitVec.ofNat 64 i))]) }
    k.img ≠ 0 ∧ k.isz / 8 = 8 ∧ (∀ i < 8, regionOf (k.img + BitVec.ofNat 64 (8 * i)) = .dev (0x1000 + 8 * i)) ∧
    (∀ i < 8, homeFound ((homeWork u 0 (4 + 2 * i + 2 ^ 20) 0 .read (k.img + BitVec.ofNat 64 (8 * i))).result r) =
      (0, 0x201000 + 8 * i)) ∧ (∀ e ∈ r.got, ∀ i < 8, e.1.tag ≠ 5 + 2 * i ∧ e.1.tag ≠ 3) := by decide +kernel

theorem witness_Watchdog :
    let s := launching none []
    let busy : State := { s with
      cores := [(0, { core [] with deque := [task 0] })], hub := { s.hub with wdog := 1, cyc := 1024 } }
    let idle : State := { launching (some (launched .list)) [] with
      hub := { (launching (some (launched .list)) []).hub with wdog := 1, cyc := 1024 } }
    idle.work 0 = 0 ∧ (idle.hw 0).launch ≠ none ∧ (idle.hw 0).progress + 1024 * idle.hub.wdog.toNat ≤ idle.hub.cyc ∧
    s.hub.wdog = 0 ∧ busy.hub.wdog ≠ 0 ∧ busy.work 0 ≠ 0 ∧ (busy.hw 0).progress + 1024 * busy.hub.wdog.toNat ≤ busy.hub.cyc ∧
    (busy.hw 0).st = .mapped := by decide

theorem witness_Freezing :
    let s := launching none []
    let t (b : Bool) (o : List Out) : State := machine { core [] with
      slots := [(1, { thread with st := .trapped b, owed := some (0, 8), owedDue := true, out := o })] } []
    (s.hw 0).st = .mapped ∧ s.readRefuses (0x200040 + 40) = none ∧ (s.cores.map (·.1)).Nodup ∧ (s.core 0).saving = none ∧
    ((onRegs []).slot 0 1).st = .active ∧ ((onRegs []).slot 0 1).wait = .none ∧ ((t true []).slot 0 1).owed = some (0, 8) ∧
    ((t true []).slot 0 1).owedDue = true ∧ ((t true []).slot 0 1).out = [] ∧ ((t true [outOne false]).slot 0 1).out ≠ [] ∧
    ((onRegs []).hw 0).st = .free := by decide

/-- Each form that a freeze meets: a parked thread whose wait has sent nothing, a stopped one, a latched task, a spilled entry, a
push that waits, a copy command that has not started, and a context that is being saved. -/
theorem witness_FrozenForms :
    let e : TaskEntry := { task 0 with hasRec := true, rw := 8 }
    let cmd : CopyCmd :=
      { slot := 1, hq := 0, dst := near, src := near, len := 8, comp := .ls 0 0x40, issued := 0, cancelled := false }
    let s := framed (machine { core [] with
      deque := [e, e], spilled := 1, spillAt := [0], dsb := 0x200000, latchTask := some e, copyQueue := [cmd],
      pushes := [{ entry := e, cause := none }],
      slots := [(1, { thread with wait := .sleep 9 }), (2, { thread with st := .stopped })] } [(0x200007, 0x80)])
    let saves := s.setCore 0 { s.core 0 with saving := some none }
    (s.core 0).saving = none ∧ (s.core 0).spilled ≤ (s.core 0).spillAt.length ∧
    (∀ k ∈ (s.core 0).spillAt, s.readRefuses (0x200000 + 64 * k) = none) ∧ (s.core 0).deque.drop 1 = [e] ∧
    (s.core 0).latchTask = some e ∧ (s.core 0).pushes = [{ entry := e, cause := none }] ∧ (s.core 0).copyRun = none ∧
    (s.core 0).copyQueue = [cmd] ∧ (s.core 0).deque[0]? = some e ∧ (s.core 0).spillAt[0]? = some 0 ∧
    (s.word 0x200000).toNat / 2 ^ 63 = 1 ∧ (s.slot 0 1).st = .active ∧ (s.slot 0 1).wait = .sleep 9 ∧ (s.slot 0 1).hq = 0 ∧
    (s.slot 0 2).st = .stopped ∧ (saves.core 0).saving ≠ none := by decide +kernel

theorem witness_Saves :
    let s := onRegs []
    s.physical 0 = 0 ∧ (s.core 0).gone = none ∧ (s.core 0).saving = none ∧ (s.slot 0 0).wait = .none ∧ s.copyReady 0 = false ∧
    ((machine { core [] with slots := [(0, { thread with wait := .reap 2 .nul })] } []).slot 0 0).wait = .reap 2 .nul ∧
    ((machine { core [] with retired := true } []).core 0).retired = true ∧ (s.core 5).retired = false ∧
    ((machine { core [] with saving := some none } []).core 0).saving ≠ none ∧ (∀ e ∈ s.saved, e.1 ≠ 0) ∧ (s.core 0).forwards = [] ∧
    (∀ e ∈ s.cores, e.2.drops = []) ∧ (∀ e ∈ s.due, headsFor 0 e = false) := by decide

theorem witness_Copies :
    let at_ (g : Option Nat) : State :=
      machine { core [] with slots := [(1, { thread with st := .stopped })], saving := some g } []
    (at_ none).copyReady 0 = true ∧ ((at_ none).core 0).saving = some none ∧ (at_ (some 5)).copyReady 0 = true ∧
    ((at_ (some 5)).core 0).saving = some (some 5) ∧ (at_ (some 5)).logical 0 = 0 ∧ (at_ (some 5)).physical 0 ≠ 5 ∧ ((at_ (some 5)).core 0).frozen = 0 ∧
    (at_ (some 5)).canonical = true := by decide

theorem witness_Restores :
    let saved : Saved := { lcore := 0, core := core [], bytes := [(0x40, 5)], fe := [], ctx := 0 }
    let r := request .plain (.load .d false) (.ls 0 0x40)
    let gone : Core := { core [] with gone := some (some 5), forwards := [.homePerform r] }
    let s := machine gone []
    (s.core 0).gone = some (some 5) ∧ (s.core 0).retired = false ∧ (∀ x, ((onRegs []).core 0).gone ≠ some (some x)) ∧
    ((onRegs []).core 0).retired = false ∧ ((onRegs []).core 5).gone = none ∧ ((onRegs []).core 5).bank = [] ∧
    Memory.wf saved.bytes = true ∧ (∀ e ∈ saved.bytes, e.1 < 2 ^ 17) ∧ saved.core.frozen = 0 ∧ gone.gone = some (some 5) ∧
    gone.forwards[0]? = some (.homePerform r) ∧ r.home = .ls 0 0x40 := by
  refine ⟨by decide, by decide, fun x h => ?_, by decide, by decide, by decide, by decide, by decide, by decide, by decide,
    by decide, by decide⟩
  cases h

/-- What the HQS still has to do for a context that left: the words of its image, and the far-window entries that it rewrites;
a core that may take a saved context, one that may not yet, and one that was retired while a context moved to it. -/
theorem witness_ContextWork :
    let k (half idx : Nat) : AccKey := { tag := half, idx := idx, off := 0 }
    let w : List Byte := wordBytes 0x8000000000000000
    let runs (a : Agent) (r : Run) : State := { onRegs [] with runs := [(a, r)] }
    let read : Run := { Run.start with got := [(k 0 0, w), (k 1 0, w)] }
    let all : Run := { Run.start with got := [(k 0 0, w), (k 1 0, w), (k 0 1, []), (k 1 1, [])] }
    let image := runs (.image 0 0 0x200000) { Run.start with fails := [(6, 0)] }
    let far := runs (.far 0 0 5) all
    let moves : State :=
      { machine { core [] with slots := [(1, { thread with st := .stopped })], saving := some (some 5), wasActive := [1] } [] with
        cores := [(0, { core [] with slots := [(1, { thread with st := .stopped })], saving := some (some 5), wasActive := [1] }),
          (5, { Core.reset with retired := true })] }
    (onRegs []).contextRun 0 = none ∧ image.contextRun 0 = some (.image 0 0 0x200000) ∧
    (image.run (.image 0 0 0x200000)).out = [] ∧ (image.run (.image 0 0 0x200000)).fails ≠ [] ∧
    far.contextRun 0 = some (.far 0 0 5) ∧ (far.run (.far 0 0 5)).out = [] ∧ (far.core 0).saving = none ∧
    (∀ half < 2, ∀ idx < 2, all.got.any (fun e => e.1 == k half idx) = true) ∧ (∀ x ∈ read.got, x.1.idx = 0) ∧
    (∀ half < 2, (read.got.find? (fun x => x.1 == k half 0)).map (·.2) = some (wordBytes 0x8000000000000000)) ∧
    (far.cores.map (·.1)).Nodup ∧ (moves.core 5).retired = true ∧ moves.copyReady 0 = true ∧ moves.logical 0 = 0 ∧
    (moves.slot 0 1).st = .stopped ∧ 1 ∈ (moves.core 0).wasActive ∧ ((onRegs []).core 5).gone = none ∧
    (machine { core [] with gone := some none } []).physical 0 = 0 ∧
    ((machine { core [] with gone := some (some 5) } []).core 0).gone ≠ some none := by decide +kernel

theorem witness_SavedContext (v : Saved) : ([(0, v)] : List (Nat × Saved)).find? (fun e => e.1 == 0) = some (0, v) := rfl

theorem witness_TranslationDrops :
    let w : Word := BitVec.ofNat 64 (2 ^ 60)
    let s := paged
    let drops := machine { core [] with tlb := [page true true true], drops := [w] } []
    (s.cores.map (·.1)).Nodup ∧ (s.core 0).tlb ≠ [] ∧ (s.core 1).tlb = [] ∧ (drops.core 0).drops = [w] ∧
    (let r := request .plain (.load .d false) (.dev 0x200000)
     let uses : State := { machine { core [] with lastDrop := 5 } [] with due := [.homePerform r] }
     ∃ e ∈ uses.cores, r.core = e.1 ∧ r.issued < e.2.lastDrop ∧ .homePerform r ∈ uses.due) ∧
    (∀ e ∈ s.cores, e.2.drops = [] ∧ (e.2.lastDrop = 0 ∨ s.usesDropped e.1 e.2 = false)) ∧
    (∃ e ∈ drops.cores, e.2.drops ≠ []) ∧ (0 < 2 ^ 31) ∧
    (let r := request .relaxed (.store .d) (.ls 0 0x40)
     let refused : State := { machine { core [] with lastDrop := 5 } [] with due := [.savedStoreRefusal r] }
     ∃ e ∈ refused.cores, r.core = e.1 ∧ r.issued < e.2.lastDrop ∧ .savedStoreRefusal r ∈ refused.due) := by decide

theorem witness_SliceSteps :
    let x (f : Slice → Slice) : State := { onRegs [] with
      dies := [(0, { Die.reset with running := true, cyc := 1024 })], slices := [(0, f Slice.reset)] }
    let m (n : Nat) : MoveRun := { frame := 1, sector := n, tier := true, loc := 5, retire := false }
    let hot : Indirection := { Indirection.reset with v := true, tier := true }
    let cold : Indirection := { Indirection.reset with v := true }
    let due := x (fun y => { y with refillAt := 1024, epochAt := 1024, counts := [(1, 256)], ind := [(1, hot), (2, cold)] })
    ((x (fun y => { y with refillAt := 1025 })).slice 0).refillAt ≠ 0 ∧ (x id).sliceCycle 0 < 1025 ∧
    (due.slice 0).refillAt ≤ due.sliceCycle 0 ∧ (due.slice 0).epochAt ≠ 0 ∧ (due.slice 0).epochAt ≤ due.sliceCycle 0 ∧
    (due.slice 0).tierEn = true ∧ (due.slice 0).moves = [] ∧ (due.slice 0).ind = [(1, hot), (2, cold)] ∧
    (due.slice 0).hot.toNat ≤ Sparse.get 0 (due.slice 0).counts 1 ∧ 0 < (due.slice 0).maxmv.toNat ∧
    Sparse.get 0 (due.slice 0).counts 2 < Sparse.get 0 (due.slice 0).counts 1 ∧
    (let w := request .plain (.load .d false) (.dev 0x200000)
     let waits := x (fun y => { y with refillAt := 1024, epochAt := 2048, waiting := [(1, w)] })
     (waits.slice 0).refillAt ≤ waits.sliceCycle 0 ∧ (waits.slice 0).waiting ≠ [] ∧ (waits.slice 0).epochAt ≠ 0) ∧
    (let still : Slice := { Slice.reset with scrubEn := false }
     (still.scrubEn = false ∨ still.patrol ≠ none) ∧ (still.scrubEn = false ∨ still.hotList = [] ∨ still.hotScrub ≠ none)) ∧
    (let open_ := { Slice.reset with scrubEn := true }
     open_.patrol = none ∧ open_.hotList = [] ∧ open_.ind = []) ∧
    (0xC000000000000005 : Word).toNat % 2 ^ 27 < 88080384 ∧ ¬ (0x8000000000010000 : Word).toNat % 2 ^ 27 < 57344 ∧
    (due.slice 0).waiting = [] ∧ (x id).canonical = true ∧
    ((x (fun y => { y with buffer := [7, 8] })).slice 0).buffer = 7 :: 8 :: [] ∧ (List.replicate 128 7).length = 128 ∧
    ((x (fun y => { y with moves := [m 1022] })).slice 0).moves = m 1022 :: [] ∧ (m 1022).sector < 1023 ∧ 1023 ≤ (m 1023).sector ∧
    (0x8000000000000001 : Word).getLsbD 63 = true ∧ (Sparse.get Indirection.reset (due.slice 0).ind 1).mv = false ∧
    (due.slice 0).epochAt = 1024 ∧ due.canonical = true := by decide +kernel

theorem witness_MediaErrors :
    let r := request .plain (.load .d false) (.dev 0x200000)
    let s : State := { framed (onRegs []) with due := [.homePerform r] }
    let quiet : Slice := { Slice.reset with scrubEn := false }
    (s.slice 0).scrubEn = true ∧ (s.slice 0).hotList = [] ∧ (s.slice 0).rthr.toNat ≤ 64 ∧ 0 < (s.slice 0).rthr.toNat ∧
    (s.slice 0).ue.toNat < 255 ∧ .homePerform r ∈ s.due ∧ 0x200000 / 2 ^ 16 % 2 ^ 18 = 0x20 ∧ quiet.scrubEn = false ∧
    .homePerform r ∉ (onRegs []).due ∧ (Sparse.get Indirection.reset (s.slice 0).ind 0x20).v = true ∧
    (Sparse.get Indirection.reset (s.slice 0).ind 0x20).mv = false ∧ 1023 < 1024 ∧ (s.slice 0).ce.toNat < 65535 ∧
    8 < (s.slice 0).rthr.toNat ∧ ({ quiet with hotList := [(0x20, 2)] } : Slice).hotList = [(0x20, 2)] ∧
    s.requestRefused r 0x200000 = none ∧ s.mayServe r 0x200000 = true ∧ s.atSlice r = false ∧ (s.slice 0).lce.toNat < 255 ∧
    (s.slice 0).ue.toNat < 254 ∧
    (let fresh : Slice := { s.slice 0 with patrol := some (0x20, 7), hotScrub := some (0x20, 0), scrubEn := true }
     fresh.scrubEn = true ∧ fresh.hotList = [] ∧ fresh.patrol ≠ none ∧ fresh.hotScrub ≠ none ∧
     fresh.patrol = some (0x20, 7) ∧ fresh.patrolAt ≤ s.sliceCycle 0 ∧ (∃ g ∈ fresh.ind, g.1 = 0x20 ∧ g.2.v = true)) ∧
    ((onRegs []).slot 0 1).st = .active ∧ ((onRegs []).slot 0 1).wait = .none ∧ ((onRegs []).slot 0 2).st ≠ .active := by
  decide +kernel

/-- A read of the host's window and one of a descriptor, which fail; scores that halve, before and at the period's end. -/
theorem witness_FailedReads :
    let s := framed (onRegs [])
    let reads : Instr := .hostWindowAccess (.bar2 false) 0x200000 0
    let host : State := { s with
      due := [reads], slices := [(0, { Slice.reset with scrubEn := false, ind := [(0x20, { Indirection.reset with v := true })] })] }
    let descs := queues [] [] []
    let scores (n : Nat) : Slice := { Slice.reset with hotList := [(7, n)], halveAt := 0 }
    let at_ (n : Nat) : State := { s with slices := [(0, scores n)] }
    (host.due = [reads] ∧ 0x200000 / 2 ^ 34 = 0 ∧ 0x200000 / 2 ^ 16 % 2 ^ 18 = 0x20 ∧ host.hub.hwin = 0 ∧
      host.readRefuses 0x200000 = none ∧ (host.slice 0).scrubEn = false ∧ (host.slice 0).ue.toNat < 255) ∧
    (descs.readRefuses 0x200040 = none ∧ 1 ∉ descs.hub.descLost ∧ descs.hub.qtb.toNat / 64 * 64 + 64 * 1 = 0x200040) ∧
    (((at_ 1).slice 0).hotList = [(7, 1)] ∧ ((at_ 1).slice 0).halveAt ≤ (at_ 1).sliceCycle 0 ∧ 2 ≤ 3 ∧
      (at_ 1).sliceCycle 0 < ({ scores 1 with halveAt := 2 ^ 20 } : Slice).halveAt) := by decide

/-- A module whose die links, ports and entries of IMPT are as given. -/
def linked (f : Hub → Hub) : State := { framed (onRegs []) with hub := f Hub.reset }

theorem witness_Links :
    let frame (o : AccOp) : ColFrame :=
      { kind := .request, src := 3, dest := Config.moduleNumber, seq := 0, op := o, pa := 0x200000, data := 5, expected := 0, bytes := [] }
    let open_ := linked (fun h => { h with ports := [(0, { Port.reset with up := true })], impt := [(3, 0xA0000000FFFF0000)] })
    let e : Word := Sparse.get 0 open_.hub.impt 3
    let fails (n : Nat) : State := linked (fun h => { h with
      linkFails := [(0, n)], bridgeFails := [(0, n)], ports := [(0, { Port.reset with fails := n })] })
    (Sparse.get 0 (fails 15).hub.linkFails 0) + 1 = 16 ∧ (Sparse.get 0 (fails 14).hub.linkFails 0) + 1 ≠ 16 ∧
    ((fails 15).hub.port 0).fails + 1 = 16 ∧ (linked id).hub.level.toNat < 3 ∧
    (linked (fun h => { h with keysAgreed := true })).hub.keysAgreed = true ∧ (linked id).hub.keysAgreed = false ∧
    (open_.hub.port 0).en = true ∧ (open_.hub.port 0).up = true ∧ (frame .fes).dest = Config.moduleNumber ∧
    ((frame .fes).src, (frame .fes).seq) ∉ open_.hub.delivered ∧ e.getLsbD 63 = true ∧
    (frame .fes).pa / 2 ^ 16 ≤ e.toNat / 2 ^ 16 % 2 ^ 27 ∧ open_.sliceRefuses 0x200000 = none ∧ e.getLsbD 61 = true ∧
    (0x8000000000200000 : Word).getLsbD 61 = false ∧ (onRegs []).sliceRefuses 0x200000 ≠ none ∧
    (∀ r m a, .homePerform r ∈ open_.due → r.home ≠ .remote m a) := by
  refine ⟨by decide, by decide, by decide, by decide, by decide, by decide, by decide, by decide, rfl, by decide, by decide,
    by decide, by decide, by decide, by decide, by decide, ?_⟩
  intro r m a h
  cases h

/-- What travels between modules: a request of module 3 and what of it is refused, and one that goes on to module 5. -/
theorem witness_Packets_onward :
    let frame (o : AccOp) (to_ : Nat) : ColFrame :=
      { kind := .request, src := 3, dest := to_, seq := 0, op := o, pa := 0x200000, data := 5, expected := 0, bytes := [] }
    let s (e : Word) : State := linked (fun h => { h with
      ports := [(0, { Port.reset with up := true })], impt := [(3, e)], modrt := [(256 * 0 + 5, 1)] })
    let word (e : Word) : Word := Sparse.get 0 (s e).hub.impt 3
    let r := request .plain (.load .d false) (.remote 5 0x200000)
    let lost := { s 0 with due := [.homePerform r] }
    let down : State := linked (fun h => { h with modrt := [(5, 1)], ports := [(0, { Port.reset with en := false })] })
    let answers : State := { s 0 with hub := { (s 0).hub with delivered := [(3, 0)] } }
    (Sparse.get 0 (s 0).hub.modrt 5).toNat = 1 ∧ ((s 0).hub.port 0).en = true ∧ ((s 0).hub.port 0).up = true ∧
    (frame .dec (Config.moduleNumber + 1)).dest ≠ Config.moduleNumber ∧ ((s 0).hub.port 1).up = false ∧
    Sparse.get 0 (s 0).hub.modrt 6 = 0 ∧ ({ frame .dec 5 with kind := .failed } : ColFrame).kind ≠ .request ∧
    (3, 0) ∈ answers.hub.delivered ∧ (3, 0) ∉ (s 0).hub.delivered ∧
    (word 0).getLsbD 63 = false ∧ ((word 0xA0000000FFFF0000).getLsbD 62 = false ∧ (word 0xE0000000FFFF0000).getLsbD 62 = true) ∧
    (frame (.load .d false) 5).pa / 2 ^ 16 ≤ (word 0xE0000000FFFF0000).toNat / 2 ^ 16 % 2 ^ 27 ∧
    (s 0).readRefuses 0x200000 = none ∧ (onRegs []).readRefuses 0x200000 = some 0x05 ∧
    .homePerform r ∈ lost.due ∧ lostRequest (lost.usesPort 0) (.homePerform r) = some r ∧ Instr.homePerform r ≠ .refusal r 0x06 ∧
    ((fun k => (down.hub.port k).en && (down.hub.port k).up) 0 = false) ∧ (∀ d < 8, (s 0).lostColl ((s 0).usesPort 0) d = []) := by
  refine ⟨by decide, by decide, by decide, Nat.succ_ne_self _, by decide, by decide, by decide, by decide, by decide, by decide,
    by decide, by decide, by decide, by decide, by decide, by decide, by decide, by decide, by decide⟩

/-- Accesses of system core 17, to the SRAM of its hub and to device memory. -/
theorem witness_SystemCores :
    let a (o : SysOp) : SysAccess := { core := 17, id := 0, after := [], op := o, expected := 0 }
    let bytes : List Byte := List.replicate 64 7
    (a (.load .d false)).op = .load .d false ∧ (a (.store .d)).op = .store .d ∧ (a (.store .b)).op = .store .b ∧
    (a (.atomic .add)).op = .atomic .add ∧ (a (.atomicW .add)).op = .atomicW .add ∧ (a (.reserve .w)).op = .reserve .w ∧
    (a (.conditional .w)).op = .conditional .w ∧
    (let held : State := { framed (onRegs []) with slices := [(0, { Slice.reset with
        ind := [(0x20, { Indirection.reset with v := true })], reserved := [(17, 0x8000)] })] }
     (17, 0x200000 / 64) ∈ (held.slice (0x200000 / 2 ^ 34)).reserved ∧ (17, 0x200000 / 64) ∉ ((linked id).slice 0).reserved ∧
     held.readRefuses 0x200000 = none) ∧
    (17, (2 ^ 44 + 17 / 16 * 2 ^ 23) / 64) ∈ (linked (fun h => { h with
      sysHeld := [(17, (2 ^ 44 + 17 / 16 * 2 ^ 23) / 64)] })).hub.sysHeld ∧ (a (.sector bytes)).op = .sector bytes ∧ bytes.length = 64 ∧ 0x200000 % 64 = 0 ∧
    (linked id).sliceRefuses 0x200000 = none ∧ (linked id).readRefuses 0x200000 = none ∧
    (onRegs []).sliceRefuses 0x200000 ≠ none ∧ (onRegs []).readRefuses 0x200000 ≠ none := by decide

/-- Whether another party wrote a host word meanwhile is free: at a choice at which none did, the word last seen is read. -/
theorem witness_HostWordSeen (c : Nat) (h0 : Config.outsideWrote c = false) (h1 : Config.outsideWrote (c + 1) = false) :
    let s : State := { onRegs [] with outFull := [(.host 0x1000, true)], outMem := [(.host 0x1000, 5)], choices := c }
    s.outFull.find? (fun e => e.1 == .host 0x1000) = some (.host 0x1000, true) ∧
    s.outMem.find? (fun e => e.1 == .host 0x1000) = some (.host 0x1000, 5) ∧
    Config.outsideWrote s.choices = false ∧ Config.outsideWrote (s.choices + 1) = false := ⟨by rfl, by rfl, h0, h1⟩

/-- A frame that reads a line. -/
theorem witness_LineFrame : ∃ a k, (AccOp.agentRead (.line 0 0 0x200000) { tag := 0, idx := 0, off := 0 } 64) = .agentRead a k 64 :=
  ⟨_, _, rfl⟩

/-- Whether another module answers is free too: at a choice at which it does, its reply is due. -/
theorem witness_RemoteReach (c : Nat) (h : Config.outsideOk c = true) :
    let s : State := { linked (fun h => { h with modrt := [(256 * 0 + 5, 1)], ports := [(0, { Port.reset with up := true })] }) with
      choices := c }
    let r := request .plain (.load .d false) (.remote 5 0x200000)
    r.home = .remote 5 0x200000 ∧ r.core / 1024 < 4 ∧ (Sparse.get 0 s.hub.modrt (256 * 0 + 5)).toNat = 1 ∧
    (s.hub.port 0).en = true ∧ (s.hub.port 0).up = true ∧ Config.outsideOk s.choices = true :=
  ⟨rfl, by decide, rfl, rfl, rfl, h⟩

theorem witness_HostPage :
    (request .plain (.load .d false) (.host 0x1000)).home = .host 0x1000 ∧ (request .plain (.store .d) (.host 0)).cls = .plain ∧
    (linked id).sliceRefuses (0 / 2 ^ 36 * 2 ^ 36 + 0x200000 % 2 ^ 36 / 8 * 8) = none := by decide

/-- An image that every check but the opaque ones accepts for stage 1; which images those accept is not for Lean to decide. -/
theorem witness_Boot :
    let i : BootImage :=
      { magic := 0x51524E424F4F5431, stage := 1, svn := 127, len := 0, hash := Config.sha384 [], ecdsa := [], lms := [], body := [] }
    let h : Hub := { Hub.reset with flashA := [(1, some i)], bootStopped := true, fuses := [(1, 126)], svn := [(1, 127)] }
    i.magic = 0x51524E424F4F5431 ∧ i.stage.toNat = 1 ∧ i.svn.toNat ≤ 127 ∧ i.len = i.body.length ∧
    Config.sha384 i.body = i.hash ∧ Sparse.get none h.flashA 1 = some i ∧ 1 = h.stage + 1 ∧ (2 ≠ h.stage + 1) ∧
    h.bootStopped = true ∧ h.stage < 4 ∧ Sparse.get none Hub.reset.flashA 1 = none ∧ Hub.reset.lvl5 ≠ 0 ∧
    (State.reset.die 0).running = false ∧ (State.reset.core 0).retired = false ∧ Sparse.get 0 h.fuses 1 < 127 ∧
    Sparse.get 0 h.fuses 1 < Sparse.get 0 h.svn 1 ∧ ({ h with stage := 4 } : Hub).stage = 4 ∧
    ({ h with bootStopped := false } : Hub).bootStopped = false ∧ h.running = false ∧ h.running1 = false ∧
    ({ h with running := true, running1 := true } : Hub).running1 = true ∧
    (∀ d < 8, (({ State.reset with dies := (List.range 8).map (fun n => (n, { Die.reset with running := true })) } : State).die
      d).running = true) ∧ h.keysErased = false :=
  ⟨rfl, rfl, by decide, rfl, rfl, rfl, rfl, by decide, rfl, by decide, rfl, by decide, by decide, by decide, by decide, by decide,
    rfl, rfl, rfl, rfl, rfl, by decide, rfl⟩

/-- Every stage check is met by some image when the two signature checks accept something: the acceptance itself is an
opaque matter, so the witness is of the form that the checks leave open. -/
theorem witness_AcceptedImage (e l : List Byte)
    (he : Config.ecdsaOk (leList 8 0x51524E424F4F5431 ++ leList 4 1 ++ leList 4 0 ++ leList 8 0 ++
      leList 48 (Config.sha384 []).toNat) e = true)
    (hl : Config.lmsOk (leList 8 0x51524E424F4F5431 ++ leList 4 1 ++ leList 4 0 ++ leList 8 0 ++
      leList 48 (Config.sha384 []).toNat) l = true) :
    ∃ i : BootImage, i.magic = 0x51524E424F4F5431 ∧ i.stage.toNat = 1 ∧ i.svn.toNat ≤ 127 ∧ i.len = i.body.length ∧
      Config.sha384 i.body = i.hash ∧ Config.ecdsaOk (leList 8 i.magic.toNat ++ leList 4 i.stage.toNat ++ leList 4 i.svn.toNat ++
        leList 8 i.len ++ leList 48 i.hash.toNat) i.ecdsa = true ∧
      Config.lmsOk (leList 8 i.magic.toNat ++ leList 4 i.stage.toNat ++ leList 4 i.svn.toNat ++ leList 8 i.len ++
        leList 48 i.hash.toNat) i.lms = true :=
  ⟨{ magic := 0x51524E424F4F5431, stage := 1, svn := 0, len := 0, hash := Config.sha384 [], ecdsa := e, lms := l, body := [] },
    rfl, rfl, Nat.zero_le _, rfl, rfl, he, hl⟩

theorem witness_Alarms :
    let h := Hub.reset
    (6 ≤ (6 : BitVec 3).toNat) ∧ (5 : BitVec 3).toNat < 6 ∧ h.lvl0 ≠ 0 ∧ ({ h with lvl0 := 0 } : Hub).lvl0 = 0 ∧ (1 : BitVec 2) ≠ 0 ∧
    h.alLock = false ∧ ({ h with alLock := true } : Hub).alLock = true ∧ h.keysErased = false ∧ (919 : BitVec 12).toNat < 920 ∧
    920 ≤ (920 : BitVec 12).toNat ∧ h.lvl3 ≠ 0 ∧ 8191 < 2 ^ 13 := by decide

/-- A launch whose domain holds the core that CRET names. -/
theorem witness_RetiredLaunch :
    let s := launching (some (launched (.cores [0] false))) []
    let bits (j hi lo : Nat) : Nat := (onePacket.getD j 0).toNat / 2 ^ lo % 2 ^ (hi - lo + 1)
    (s.hw 0).launch = some (launched (.cores [0] false)) ∧ (launched (.cores [0] false)).status = 0 ∧
    (launched (.cores [0] false)).stage ≠ .ending ∧ bits 0 63 56 ≠ 0 ∧ bits 2 12 0 = 0 ∧ (s.core 5).gone = none ∧
    s.physical 5 = 5 ∧ ((machine { core [] with gone := some none } []).core 0).gone ≠ none := by decide

/-- Whatever the eight dies draw, one of the three cases of PCAP's window holds at some limit: at a limit of 0 the total is
over it or the window is quiet. -/
theorem witness_Power (s : State) :
    let power (d : Nat) : Nat := (Config.outsideWord (s.choices + d)).toNat % 2 ^ 16
    let total := ((List.range 8).map power).sum
    0 < total ∨ total ≤ 0 ∧ 95 * 0 ≤ 100 * total := by
  intro power total
  omega

/-- Words that HCMD and TLBI take: a command's, and those with OP 0 and with a reserved OP; a class whose requests wait. -/
theorem witness_CommandWords :
    let op (w : Word) : Nat := w.toNat / 2 ^ 60
    let r := request .plain (.load .d false) (.dev 0x200000)
    let y : Slice := { Slice.reset with waiting := [(1, r)] }
    op 0x1000000000000000 = 1 ∧ op 0x5000000000000000 = 5 ∧ op 0x7 = 0 ∧ op 0x6000000000000000 = 6 ∧
    (y.waiting.filter (fun e => decide (e.1 = 1))).length = 1 ∧ (y.waiting.filter (fun e => decide (e.1 = 2))).length = 0 ∧
    ((onRegs []).cores.map (·.1)).Nodup ∧ (paged.core 0).tlb ≠ [] := by decide

theorem witness_Registers :
    let w : Word := 0x3A980000000A0000
    let one (e : Indirection) : Slice := { Slice.reset with ind := [(0x20, e)] }
    let held : Indirection := { Indirection.reset with v := true }
    17 < 18 ∧ w.getLsbD 63 = false ∧ (0x8000000000000000 : Word).getLsbD 63 = true ∧ (1 : Word).getLsbD 0 = true ∧
    (linked id).hub.level.toNat < 3 ∧ (linked (fun h => { h with keysAgreed := true })).hub.keysAgreed = true ∧
    (∀ d < 8, (onRegs []).lostColl ((onRegs []).usesPort 3) d = []) ∧ (one held).patrol = none ∧
    (one held).ind = [(0x20, held)] ∧ held.v = true ∧ (one held).hotList = [] ∧ Slice.reset.ind = [] ∧
    (∃ t : State, (t.hw 3).launch ≠ none) ∧
    w.toNat / 2 ^ 48 = 15000 ∧ ((onRegs []).hw 0).launch = none ∧ (255 < 256) ∧ (3 < 4) ∧
    (∀ q, ((onRegs []).hw q).launch = none) := by
  refine ⟨by decide, by decide, by decide, by decide, by decide, rfl, by decide, rfl, rfl, rfl, rfl, rfl,
    ⟨{ onRegs [] with hub := { Hub.reset with hw := [(3, { HwSlot.reset with launch := some (launched .list) })] } }, by decide⟩,
    by decide, by decide, by decide, by decide, fun q => rfl⟩

end Sys2Proof.Tests
end

section
/-! The results of the instructions of group A (06_isa_core.md, R128 to R137, R215) as numbers: how an instruction of each form
completes, what each word operation of Machine/Integer.lean computes, and the statements about the group. -/

namespace Sys2Proof.Machine

/-! ## How an instruction of each form completes -/

/-- Once stage 2 lets it go on, an instruction that completes with a value gives that value. -/
theorem gives_of_complete {i : Instr} {s : State} {rs : List Reg} {d : Reg} {v w : Word} (h : s.regsReady rs)
    (hi : exec i s = .next (s.withRegs rs (s.complete d v))) (hv : v = w) : Gives i s d w := by
  subst hv
  rw [s.withRegs_ready rs _ h] at hi
  exact ⟨_, hi, s.complete_result d v⟩

/-- The form `op gd, ga, B` (R129). -/
theorem gives_alu {i : Instr} {s : State} {d a : Reg} {b : OpB} {f : Word → Word → Word} {v : Word}
    (h : s.regsReady (d :: a :: bRegs b)) (hi : exec i s = .next (s.alu d a b f)) (hv : f (s.rd a) (s.opB b) = v) :
    Gives i s d v := gives_of_complete h hi hv

/-- The form with a third source in field c (R132, R134). -/
theorem gives_aluC {i : Instr} {s : State} {d a c : Reg} {b : OpB} {f : Word → Word → Word → Word} {v : Word}
    (h : s.regsReady (d :: a :: (bRegs b ++ [c]))) (hi : exec i s = .next (s.aluC d a b c f))
    (hv : f (s.rd a) (s.opB b) (s.rd c) = v) : Gives i s d v := gives_of_complete h hi hv

/-- The form `op gd, ga` (R133). -/
theorem gives_aluUnary {i : Instr} {s : State} {d a : Reg} {f : Word → Word} {v : Word} (h : s.regsReady [d, a])
    (hi : exec i s = .next (s.aluUnary d a f)) (hv : f (s.rd a) = v) : Gives i s d v := gives_of_complete h hi hv

/-- A long instruction of the form `op gd, ga, B` (R131). -/
theorem givesLater_aluLong {i : Instr} {s : State} {n : Nat} {d a : Reg} {b : OpB} {f : Word → Word → Word} {v : Word}
    (h : s.regsReady (d :: a :: bRegs b)) (hi : exec i s = .next (s.aluLong n d a b f))
    (hv : f (s.rd a) (s.opB b) = v) : GivesLater i s n d v s.rs := by
  subst hv
  rw [State.aluLong, s.withRegs_ready _ _ h] at hi
  exact ⟨_, hi, s.completeLater_givesLater n d _ s.rs⟩

/-! ## Sums, differences and products (R130) -/

theorem word_ofNat_toNat (x : Word) : BitVec.ofNat 64 x.toNat = x := by rw [BitVec.ofNat_toNat, BitVec.setWidth_eq]

/-- A sum with a sign-extended displacement (R136). -/
theorem add_signExtend_eq_ofInt (x : Word) (disp : BitVec 32) :
    x + disp.signExtend 64 = BitVec.ofInt 64 (x.toInt + disp.toInt) := by
  rw [BitVec.ofInt_add, BitVec.ofInt_toInt, BitVec.signExtend]

theorem sub_eq_ofInt (x y : Word) : x - y = BitVec.ofInt 64 (x.toInt - y.toInt) := by
  rw [Int.sub_eq_add_neg, BitVec.ofInt_add, BitVec.ofInt_neg, BitVec.ofInt_toInt, BitVec.ofInt_toInt, BitVec.sub_eq_add_neg]

theorem mul_eq_ofInt (x y : Word) : x * y = BitVec.ofInt 64 (x.toInt * y.toInt) := by
  rw [BitVec.ofInt_mul, BitVec.ofInt_toInt, BitVec.ofInt_toInt]

/-- The upper word of 128 bits of an integer is its quotient by 2^64, rounded down. -/
theorem upperWord_ofInt (p : Int) : (BitVec.ofInt 128 p >>> 64).setWidth 64 = BitVec.ofInt 64 (p / 2 ^ 64) := by
  apply BitVec.eq_of_toNat_eq
  simp only [BitVec.toNat_setWidth, BitVec.toNat_ushiftRight, BitVec.toNat_ofInt, Nat.shiftRight_eq_div_pow]
  omega

theorem mulHigh_eq_ofInt (x y : Word) : mulHigh x y = BitVec.ofInt 64 (x.toInt * y.toInt / 2 ^ 64) := by
  rw [mulHigh, BitVec.signExtend, BitVec.signExtend, ← BitVec.ofInt_mul, upperWord_ofInt]

theorem mulHighU_eq_ofNat (x y : Word) : mulHighU x y = BitVec.ofNat 64 (x.toNat * y.toNat / 2 ^ 64) := by
  rw [mulHighU, ← BitVec.ofNat_toNat 128, ← BitVec.ofNat_toNat 128, ← BitVec.ofNat_mul]
  apply BitVec.eq_of_toNat_eq
  simp only [BitVec.toNat_setWidth, BitVec.toNat_ushiftRight, BitVec.toNat_ofNat, Nat.shiftRight_eq_div_pow]
  omega

/-! ## Quotients and remainders by a divisor other than 0 (R130) -/

theorem divS_eq_ofInt (x : Word) {y : Word} (h : y ≠ 0) : divS x y = BitVec.ofInt 64 (x.toInt.tdiv y.toInt) := by
  rw [divS, if_neg h]
  apply BitVec.eq_of_toInt_eq
  rw [BitVec.toInt_sdiv, BitVec.toInt_ofInt]

theorem divU_eq_ofNat (x : Word) {y : Word} (h : y ≠ 0) : divU x y = BitVec.ofNat 64 (x.toNat / y.toNat) := by
  rw [divU, if_neg h, BitVec.udiv_eq, BitVec.udiv_def]

theorem remS_eq_ofInt (x : Word) {y : Word} (h : y ≠ 0) : remS x y = BitVec.ofInt 64 (x.toInt.tmod y.toInt) := by
  rw [remS, if_neg h, ← BitVec.toInt_srem, BitVec.ofInt_toInt]

theorem remU_eq_ofNat (x : Word) {y : Word} (h : y ≠ 0) : remU x y = BitVec.ofNat 64 (x.toNat % y.toNat) := by
  rw [remU, if_neg h, BitVec.umod_eq, BitVec.umod_def]

/-! ## Bitwise operations (R130) -/

theorem and_eq_ofNat (x y : Word) : x &&& y = BitVec.ofNat 64 (x.toNat &&& y.toNat) := by
  rw [BitVec.ofNat_and, word_ofNat_toNat, word_ofNat_toNat]

theorem or_eq_ofNat (x y : Word) : x ||| y = BitVec.ofNat 64 (x.toNat ||| y.toNat) := by
  rw [BitVec.ofNat_or, word_ofNat_toNat, word_ofNat_toNat]

theorem xor_eq_ofNat (x y : Word) : x ^^^ y = BitVec.ofNat 64 (x.toNat ^^^ y.toNat) := by
  rw [BitVec.ofNat_xor, word_ofNat_toNat, word_ofNat_toNat]

/-! ## Shifts and rotations (R130) -/

theorem shiftLeft_eq_ofNat (x : Word) (n : Nat) : x <<< n = BitVec.ofNat 64 (x.toNat * 2 ^ n) := by
  apply BitVec.eq_of_toNat_eq
  rw [BitVec.toNat_shiftLeft, BitVec.toNat_ofNat, Nat.shiftLeft_eq]

theorem ushiftRight_eq_ofNat (x : Word) (n : Nat) : x >>> n = BitVec.ofNat 64 (x.toNat / 2 ^ n) := by
  rw [← Nat.shiftRight_eq_div_pow, ← BitVec.toNat_ushiftRight, word_ofNat_toNat]

theorem sshiftRight_eq_ofInt (x : Word) (n : Nat) : x.sshiftRight n = BitVec.ofInt 64 (x.toInt / 2 ^ n) := by
  rw [BitVec.sshiftRight, Int.shiftRight_eq_div_pow, Int.natCast_pow, Int.cast_ofNat_Int]

/-- The two parts of a rotation have no bit in common. -/
theorem shiftLeft_or_ushiftRight (x : Word) {i j : Nat} (h : i + j = 64) : x <<< i ||| x >>> j = x <<< i + x >>> j := by
  refine (BitVec.add_eq_or_of_and_eq_zero _ _ ?_).symm
  ext k hk
  have hx : i ≤ k → x.getLsbD (j + k) = false := fun hik => x.getLsbD_of_ge _ (by omega)
  simpa using fun hik _ => hx hik

/-- What a left rotation brings in at the bottom is what the multiplication carries out at the top. -/
theorem rotateLeft_eq_ofNat (x : Word) {n : Nat} (hn : n < 64) :
    x.rotateLeft n = BitVec.ofNat 64 (x.toNat * 2 ^ n + x.toNat * 2 ^ n / 2 ^ 64) := by
  have carry : x.toNat * 2 ^ n / 2 ^ 64 = x.toNat / 2 ^ (64 - n) := by
    have hp : (2 : Nat) ^ 64 = 2 ^ (64 - n) * 2 ^ n := by rw [← pow_add, Nat.sub_add_cancel hn.le]
    rw [hp, Nat.mul_div_mul_right _ _ (Nat.two_pow_pos n)]
  rw [BitVec.rotateLeft_def, Nat.mod_eq_of_lt hn, shiftLeft_or_ushiftRight x (by omega), carry, BitVec.ofNat_add,
    ← shiftLeft_eq_ofNat, ← ushiftRight_eq_ofNat]

theorem rotateRight_eq_ofNat (x : Word) {n : Nat} (hn : n < 64) :
    x.rotateRight n = BitVec.ofNat 64 (x.toNat / 2 ^ n + x.toNat * 2 ^ (64 - n)) := by
  rw [BitVec.rotateRight_def, Nat.mod_eq_of_lt hn, BitVec.or_comm, shiftLeft_or_ushiftRight x (by omega), BitVec.add_comm,
    BitVec.ofNat_add, ← shiftLeft_eq_ofNat, ← ushiftRight_eq_ofNat]

theorem count6_lt (y : Word) : count6 y < 64 := Nat.mod_lt _ (by decide)

/-! ## Comparisons, the lesser and the greater (R130) -/

theorem bit64_eq_ite {c : Bool} {p : Prop} [Decidable p] (h : c = true ↔ p) : bit64 c = if p then 1 else 0 :=
  if_congr h rfl rfl

theorem sne_eq_ite (x y : Word) : bit64 (x != y) = if x = y then 0 else 1 := by
  rw [bit64_eq_ite bne_iff_ne, ite_not]

theorem minS_eq_ofInt (x y : Word) : (if x.slt y then x else y) = BitVec.ofInt 64 (min x.toInt y.toInt) := by
  rw [min_def_lt, apply_ite (BitVec.ofInt 64), BitVec.ofInt_toInt, BitVec.ofInt_toInt]
  exact if_congr BitVec.slt_iff_toInt_lt rfl rfl

theorem maxS_eq_ofInt (x y : Word) : (if x.slt y then y else x) = BitVec.ofInt 64 (max x.toInt y.toInt) := by
  rw [max_def_lt, apply_ite (BitVec.ofInt 64), BitVec.ofInt_toInt, BitVec.ofInt_toInt]
  exact if_congr BitVec.slt_iff_toInt_lt rfl rfl

theorem minU_eq_ofNat (x y : Word) : (if x.ult y then x else y) = BitVec.ofNat 64 (min x.toNat y.toNat) := by
  rw [min_def_lt, apply_ite (BitVec.ofNat 64), word_ofNat_toNat, word_ofNat_toNat]
  exact if_congr BitVec.ult_iff_toNat_lt rfl rfl

theorem maxU_eq_ofNat (x y : Word) : (if x.ult y then y else x) = BitVec.ofNat 64 (max x.toNat y.toNat) := by
  rw [max_def_lt, apply_ite (BitVec.ofNat 64), word_ofNat_toNat, word_ofNat_toNat]
  exact if_congr BitVec.ult_iff_toNat_lt rfl rfl

/-! ## Counts (R133) -/

/-- Counted from bit `n - 1` down: the zeros above the first set bit, and that bit, if there is one. -/
theorem leadingZeros_spec (x : Word) (n : Nat) : leadingZeros x n ≤ n ∧
    (∀ j < leadingZeros x n, x.getLsbD (n - 1 - j) = false) ∧
    (leadingZeros x n < n → x.getLsbD (n - 1 - leadingZeros x n) = true) := by
  induction n with
  | zero => exact ⟨le_rfl, fun j hj => absurd hj (Nat.not_lt_zero j), fun h => absurd h (lt_irrefl 0)⟩
  | succ n ih =>
    obtain ⟨hle, hzeros, hset⟩ := ih
    cases hx : x.getLsbD n with
    | true => simp [leadingZeros, hx]
    | false =>
      have hk : leadingZeros x (n + 1) = leadingZeros x n + 1 := by simp [leadingZeros, hx, Nat.add_comm]
      rw [hk, Nat.add_sub_cancel]
      refine ⟨by omega, fun j hj => ?_, fun h => ?_⟩
      · cases j with
        | zero => exact hx
        | succ j =>
          have := hzeros j (by omega)
          rwa [Nat.sub_sub, Nat.add_comm 1 j] at this
      · have := hset (by omega)
        rwa [Nat.sub_sub, Nat.add_comm 1] at this

/-- Counted from bit `i` up: the zeros below the first set bit of the `n`, and that bit, if there is one. -/
theorem trailingZeros_spec (x : Word) (n : Nat) : ∀ i, trailingZeros x i n ≤ n ∧
    (∀ j < trailingZeros x i n, x.getLsbD (i + j) = false) ∧
    (trailingZeros x i n < n → x.getLsbD (i + trailingZeros x i n) = true) := by
  induction n with
  | zero => exact fun i => ⟨le_rfl, fun j hj => absurd hj (Nat.not_lt_zero j), fun h => absurd h (lt_irrefl 0)⟩
  | succ n ih =>
    intro i
    obtain ⟨hle, hzeros, hset⟩ := ih (i + 1)
    cases hx : x.getLsbD i with
    | true => simp [trailingZeros, hx]
    | false =>
      have hk : trailingZeros x i (n + 1) = trailingZeros x (i + 1) n + 1 := by simp [trailingZeros, hx, Nat.add_comm]
      rw [hk]
      refine ⟨by omega, fun j hj => ?_, fun h => ?_⟩
      · cases j with
        | zero => exact hx
        | succ j =>
          have := hzeros j (by omega)
          rwa [Nat.add_assoc, Nat.add_comm 1 j] at this
      · have := hset (by omega)
        rwa [Nat.add_assoc, Nat.add_comm 1] at this

theorem countOnes_eq_length (x : Word) (n : Nat) :
    countOnes x n = ((List.range n).filter (fun k => x.getLsbD k)).length := by
  induction n with
  | zero => rfl
  | succ n ih =>
    rw [List.range_succ, List.filter_append, List.length_append, countOnes, ih, Nat.add_comm]
    cases hx : x.getLsbD n with
    | true => simp [hx]
    | false => simp [hx]

/-! ## The byte reversal (R133) -/

/-- Above its last byte a word is what it was before that byte was appended. -/
theorem extractLsb'_append_byte {v : Nat} (x : BitVec v) (y : Byte) (k : Nat) :
    (x ++ y).extractLsb' (8 * (k + 1)) 8 = x.extractLsb' (8 * k) 8 := by
  rw [BitVec.extractLsb'_append_eq_of_le (by omega), Nat.mul_succ, Nat.add_sub_cancel]

/-- Byte k of the reversed word is byte 7 - k: the k bytes appended last are passed over, and byte k is the one before them. -/
theorem extractLsb'_swapBytes (x : Word) {k : Nat} (hk : k < 8) :
    (swapBytes x).extractLsb' (8 * k) 8 = x.extractLsb' (8 * (7 - k)) 8 := by
  unfold swapBytes
  iterate 7
    obtain _ | k := k
    · exact BitVec.extractLsb'_append_eq_right
    refine (extractLsb'_append_byte _ _ k).trans ?_
  obtain rfl : k = 0 := by omega
  exact BitVec.extractLsb'_eq_self

/-! ## Fields (R134) -/

theorem lowBits_eq_ofNat (x : Word) {n : Nat} (hn : n ≤ 64) : lowBits n x = BitVec.ofNat 64 (x.toNat % 2 ^ n) := by
  have hp : (2 : Nat) ^ 64 = 2 ^ n * 2 ^ (64 - n) := by rw [← pow_add, Nat.add_sub_cancel' hn]
  rw [lowBits, ushiftRight_eq_ofNat, BitVec.toNat_shiftLeft, Nat.shiftLeft_eq, hp, Nat.mul_mod_mul_right,
    Nat.mul_div_cancel _ (Nat.two_pow_pos _)]

/-- Moved up to the sign bit and down again, the low n bits are read with the sign of bit n - 1. -/
theorem lowBitsSigned_eq_ofInt (x : Word) {n : Nat} (h0 : 0 < n) (hn : n ≤ 64) :
    lowBitsSigned n x = BitVec.ofInt 64 (Int.bmod x.toNat (2 ^ n)) := by
  have hp : (2 : Nat) ^ 64 = 2 ^ (64 - n) * 2 ^ n := by rw [← pow_add, Nat.sub_add_cancel hn]
  have hup : (x <<< (64 - n)).toInt = (2 ^ (64 - n) : Nat) * Int.bmod x.toNat (2 ^ n) := by
    rw [BitVec.toInt_shiftLeft, Nat.shiftLeft_eq, hp, Nat.mul_comm x.toNat, Int.natCast_mul,
      Int.mod_bmod_mul_of_pos _ _ (Nat.two_pow_pos _) (dvd_pow_self 2 h0.ne')]
  rw [lowBitsSigned, BitVec.sshiftRight, hup, Int.shiftRight_eq_div_pow,
    Int.mul_ediv_cancel_left _ (by exact_mod_cast (Nat.two_pow_pos _).ne')]

theorem fieldWidth_pos (y : Word) : 0 < fieldWidth y := Nat.succ_pos _

theorem fieldWidth_le (y : Word) : fieldWidth y ≤ 64 := Nat.mod_lt _ (by decide)

theorem extendCount_pos (y : Word) : 0 < extendCount y := by
  unfold extendCount
  split
  · decide
  · omega

theorem extendCount_le (y : Word) : extendCount y ≤ 64 := by
  unfold extendCount
  split
  · exact le_rfl
  · omega

theorem toNat_ushiftRight_fieldLo (x y : Word) : (x >>> fieldLo y).toNat = x.toNat / 2 ^ fieldLo y := by
  rw [BitVec.toNat_ushiftRight, Nat.shiftRight_eq_div_pow]

theorem extractSigned_eq_ofInt (x y : Word) :
    extractSigned x y = BitVec.ofInt 64 (Int.bmod (x.toNat / 2 ^ fieldLo y : Nat) (2 ^ fieldWidth y)) := by
  rw [extractSigned, lowBitsSigned_eq_ofInt _ (fieldWidth_pos y) (fieldWidth_le y), toNat_ushiftRight_fieldLo]

theorem extractUnsigned_eq_ofNat (x y : Word) :
    extractUnsigned x y = BitVec.ofNat 64 (x.toNat / 2 ^ fieldLo y % 2 ^ fieldWidth y) := by
  rw [extractUnsigned, lowBits_eq_ofNat _ (fieldWidth_le y), toNat_ushiftRight_fieldLo]

theorem getLsbD_lowBits_allOnes {n : Nat} (hn : n ≤ 64) (j : Nat) :
    (lowBits n (BitVec.allOnes 64)).getLsbD j = decide (j < n) := by
  rw [Bool.eq_iff_iff]
  simp only [lowBits, BitVec.getLsbD_ushiftRight, BitVec.getLsbD_shiftLeft, BitVec.getLsbD_allOnes, Bool.and_eq_true,
    Bool.not_eq_true', decide_eq_true_eq, decide_eq_false_iff_not]
  omega

/-- The mask is set at the bits of the field that lie in the word. -/
theorem getLsbD_fieldMask (y : Word) {k : Nat} (hk : k < 64) :
    (fieldMask y).getLsbD k = decide (fieldLo y ≤ k ∧ k < fieldLo y + fieldWidth y) := by
  rw [fieldMask, BitVec.getLsbD_shiftLeft, getLsbD_lowBits_allOnes (fieldWidth_le y), Bool.eq_iff_iff]
  simp only [Bool.and_eq_true, Bool.not_eq_true', decide_eq_true_eq, decide_eq_false_iff_not]
  omega

theorem getLsbD_insertField (x y z : Word) {k : Nat} (hk : k < 64) : (insertField x y z).getLsbD k =
    if fieldLo y ≤ k ∧ k < fieldLo y + fieldWidth y then z.getLsbD (k - fieldLo y) else x.getLsbD k := by
  rw [insertField, BitVec.getLsbD_or, BitVec.getLsbD_and, BitVec.getLsbD_and, BitVec.getLsbD_not, BitVec.getLsbD_shiftLeft,
    getLsbD_fieldMask y hk]
  split
  · next h => simp [h, hk]
  · next h => simp [h, hk]

theorem funnel_eq_ofNat (x y z : Word) :
    funnel x y z = BitVec.ofNat 64 ((x.toNat * 2 ^ 64 + z.toNat) / 2 ^ (y.toNat % 128)) := by
  apply BitVec.eq_of_toNat_eq
  rw [funnel, BitVec.toNat_setWidth, BitVec.toNat_ushiftRight, BitVec.toNat_append, ← Nat.shiftLeft_add_eq_or_of_lt z.isLt,
    Nat.shiftLeft_eq, Nat.shiftRight_eq_div_pow, BitVec.toNat_ofNat]

/-! ## The statements -/

/-- Settles O1: each opcode's word operation is the operation on numbers that R130's row names. -/
theorem integerResults : Obligations.IntegerResults := by
  unfold Obligations.IntegerResults
  intro s d a b h
  exact ⟨gives_alu h rfl (BitVec.add_def _ _),
    gives_alu h rfl (sub_eq_ofInt _ _),
    givesLater_aluLong h rfl (mul_eq_ofInt _ _),
    givesLater_aluLong h rfl (mulHigh_eq_ofInt _ _),
    givesLater_aluLong h rfl (mulHighU_eq_ofNat _ _),
    fun hy => ⟨givesLater_aluLong h rfl (divS_eq_ofInt _ hy),
      givesLater_aluLong h rfl (divU_eq_ofNat _ hy),
      givesLater_aluLong h rfl (remS_eq_ofInt _ hy),
      givesLater_aluLong h rfl (remU_eq_ofNat _ hy)⟩,
    gives_alu h rfl (and_eq_ofNat _ _),
    gives_alu h rfl (or_eq_ofNat _ _),
    gives_alu h rfl (xor_eq_ofNat _ _),
    gives_alu h rfl rfl,
    gives_alu h rfl rfl,
    gives_alu h rfl (shiftLeft_eq_ofNat _ _),
    gives_alu h rfl (ushiftRight_eq_ofNat _ _),
    gives_alu h rfl (sshiftRight_eq_ofInt _ _),
    gives_alu h rfl (rotateLeft_eq_ofNat _ (count6_lt _)),
    gives_alu h rfl (rotateRight_eq_ofNat _ (count6_lt _)),
    gives_alu h rfl (minS_eq_ofInt _ _),
    gives_alu h rfl (maxS_eq_ofInt _ _),
    gives_alu h rfl (minU_eq_ofNat _ _),
    gives_alu h rfl (maxU_eq_ofNat _ _),
    gives_alu h rfl (bit64_eq_ite BitVec.slt_iff_toInt_lt),
    gives_alu h rfl (bit64_eq_ite BitVec.ult_iff_toNat_lt),
    gives_alu h rfl (bit64_eq_ite beq_iff_eq),
    gives_alu h rfl (sne_eq_ite _ _)⟩

/-- Settles O3: the counts by induction on the number of bits, the byte reversal byte by byte. -/
theorem selectionAndCounts : Obligations.SelectionAndCounts := by
  unfold Obligations.SelectionAndCounts
  intro s d a c b m
  refine ⟨fun h => gives_aluC h rfl rfl, fun h => ⟨?clz, ?ctz, ?popc, ?bswap⟩, fun h => ?lea,
    fun h => gives_of_complete h rfl rfl, fun h => ⟨_, _, _, rfl, rfl, rfl, gives_alu h rfl rfl⟩⟩
  case clz =>
    obtain ⟨hle, hzeros, hset⟩ := leadingZeros_spec (s.rd a) 64
    exact ⟨_, hle, gives_aluUnary h rfl rfl, hzeros, hset⟩
  case ctz =>
    obtain ⟨hle, hzeros, hset⟩ := trailingZeros_spec (s.rd a) 64 0
    simp only [Nat.zero_add] at hzeros hset
    exact ⟨_, hle, gives_aluUnary h rfl rfl, hzeros, hset⟩
  case popc => exact gives_aluUnary h rfl (congrArg _ (countOnes_eq_length _ 64))
  case bswap => exact ⟨_, gives_aluUnary h rfl rfl, fun k hk => extractLsb'_swapBytes _ hk⟩
  case lea =>
    cases m with
    | idx i j => exact gives_of_complete h rfl (BitVec.add_def _ _)
    | disp i x => exact gives_of_complete h rfl (add_signExtend_eq_ofInt _ _)

/-- Settles O4: a field is a quotient's remainder, and a signed one its balanced remainder; the encoding decodes. -/
theorem bitFields : Obligations.BitFields := by
  unfold Obligations.BitFields
  intro s d a c b
  refine ⟨fun h => ⟨?bext, ?bextu, ?sext, ?zext⟩, fun h => ⟨?bins, ?fsh⟩, ?encoding⟩
  case bext => exact gives_alu h rfl (extractSigned_eq_ofInt _ _)
  case bextu => exact gives_alu h rfl (extractUnsigned_eq_ofNat _ _)
  case sext => exact gives_alu h rfl (lowBitsSigned_eq_ofInt _ (extendCount_pos _) (extendCount_le _))
  case zext => exact gives_alu h rfl (lowBits_eq_ofNat _ (extendCount_le _))
  case bins => exact ⟨_, gives_aluC h rfl rfl, fun k hk => getLsbD_insertField _ _ _ hk⟩
  case fsh => exact gives_aluC h rfl (funnel_eq_ofNat _ _ _)
  case encoding => decide

end Sys2Proof.Machine
end
